-- ==== Sys2Proof/Word.lean ====
section
/-!
DEFINITION. The widths of the block (00_scope R6, R8): bytes, 16-bit halves and 32-bit words.
-/

namespace Sys2Proof

/-- A memory byte or a pixel byte (20_memory R104). -/
abbrev Byte := BitVec 8

/-- An `int16` or `uint16` field (00_scope R8). -/
abbrev Half := BitVec 16

/-- A register, a command word or an address (00_scope R6). -/
abbrev Word := BitVec 32

/-- An RGB222 colour, `R[1:0] G[3:2] B[5:4]` (00_scope R13). -/
abbrev Colour := BitVec 6

end Sys2Proof
end

