-- ==== Sys2Proof/Config.lean ====
section
/-!
DEFINITION. The parameters of 00_scope R6, and the free values: what the spec leaves open and no proof may know.
-/

namespace Sys2Proof

/-- A run of `size` byte addresses from `base`, all of which satisfy `MEM_OK`. -/
structure Region where
  base : Nat
  size : Nat
  deriving DecidableEq, Repr

/-- The parameters of 00_scope R6, held in the state as plain data, so that a statement about every state
covers every value of them. `MEM_OK` is the union of the regions of `memMap`: every predicate on 32-bit
addresses is such a union. `REG_BASE` is read by no rule. -/
structure Config where
  qdepth     : Nat
  npool      : Nat
  maxRows    : Nat
  maxSprites : Nat
  maxd       : Nat
  regBase    : Nat
  memMap     : List Region
  deriving DecidableEq, Repr

/-- The ranges 00_scope R6 gives the parameters. -/
abbrev Config.valid (c : Config) : Prop :=
  (1 ≤ c.qdepth ∧ c.qdepth ≤ 65535) ∧ (1 ≤ c.npool ∧ c.npool ≤ 16) ∧ (1 ≤ c.maxRows ∧ c.maxRows ≤ 4096) ∧
  (1 ≤ c.maxSprites ∧ c.maxSprites ≤ 65535) ∧ (4 ≤ c.maxd ∧ c.maxd ≤ 4092 ∧ c.maxd % 4 = 0)

/-- DESIGN CHOICE (log entries 1 and 2): the suggested values of 00_scope R6, and the memory map that the
conventions of 95_test_vectors.md use. Only `State.reset` uses it. -/
def Config.suggested : Config where
  qdepth     := 1024
  npool      := 8
  maxRows    := 1024
  maxSprites := 255
  maxd       := 4092
  regBase    := 0
  memMap     := [⟨0, 0x10000⟩, ⟨0x20000000, 0x100000⟩]

/-- FREE VALUE (log entry 3): what the byte at an address reads as while nothing has written it
(10_state R78: "any value"; 93 U21). -/
opaque Config.powerOnByte : Nat → Byte

/-- FREE VALUE (log entry 4): the `n`-th choice among the agents that have an enabled step (00_scope R3),
used only where the state's own schedule says nothing. -/
opaque Config.freeAgent : Nat → Nat

/-- FREE VALUE (log entry 10): where the `k`-th byte of the `n`-th HOST access that is not single-copy atomic falls in the
order of that access (20_memory R103, 70_reset R527). -/
opaque Config.freeOrder : Nat → Nat → Nat

/-- FREE VALUE (log entry 12): whether the byte at an address had already been written when the `n`-th
reset cut an EXE step in two (93 U23: "any mix of old and final bytes"). -/
opaque Config.freeLanded : Nat → Nat → Bool

end Sys2Proof
end

