-- ==== Sys2Proof/Syntax.lean ====
section
/-!
DEFINITION. The instructions: one constructor for each of the 28 commands (30_encoding R153) and the 8 host
operations (30_encoding R168), and the four-word queue entry (10_state R63).
-/

namespace Sys2Proof

/-- A queue entry: the header `E[0]` and the arguments `E[1..3]`, unused words 0 (10_state R63). -/
structure Entry where
  e0 : Word
  e1 : Word
  e2 : Word
  e3 : Word
  deriving DecidableEq, Repr

/-- Which register an instruction's words are written to: `CMD_DATA` (10_state R35) or `HOSTOP` (10_state R37). -/
inductive Port where
  | cmdData
  | hostop
  deriving DecidableEq, Repr

/-- The instructions of `spec/opcode_table.json`, one constructor a row. Point and size components are the
`int16` fields of an argument word (30_encoding R151), addresses are 32-bit, and an `imm` is the whole `IMM16`
field, whose reserved bits `WellFormed` requires to be 0 (30_encoding R154). -/
inductive Instr where
  | setPenColor (imm : Half)
  | setBrushColor (imm : Half)
  | setPixel (x y : Half)
  | moveTo (x y : Half)
  | lineTo (x y : Half)
  | fillRect (x1 y1 x2 y2 : Half)
  | fillEllipse (w h : Half)
  | drawEllipse (w h : Half)
  | clear
  | vScroll (count : Half)
  | hScroll (count : Half)
  | drawGlyph (addr : Word)
  | setGlyphOptions (options : Half)
  | setPaintOptions (imm : Half)
  | invertRect (x1 y1 x2 y2 : Half)
  | copyRect (x1 y1 x2 y2 : Half)
  | setScrollingRegion (x1 y1 x2 y2 : Half)
  | swapFgBg (x1 y1 x2 y2 : Half)
  | readRawData (x y w h : Half) (addr : Word)
  | writeRawData (x y w h : Half) (addr : Word)
  | renderGlyphsBuffer (addr : Word) (col1 row1 col2 row2 : Half)
  | drawBitmap (x y : Half) (addr : Word)
  | refreshSprites
  | swapBuffers
  | fillPath (n : Half) (addr : Word)
  | drawPath (n : Half) (addr : Word)
  | setOrigin (x y : Half)
  | setClippingRect (x1 y1 x2 y2 : Half)
  | hostopApply
  | hostopDrain
  | hostopSuspend
  | hostopResume
  | hostopMoveScreen
  | hostopShrinkScreen
  | hostopSetSprites
  | hostopCmdAbort
  deriving DecidableEq, Repr

end Sys2Proof
end

