-- ==== Sys2Proof/WellFormed.lean ====
section
/-!
DEFINITION. Well-formed instructions: the reserved `IMM16` bits are 0 (30_encoding R154). Every other operand
fills its field, so there is nothing else to check.
-/

namespace Sys2Proof

/-- Whether an instruction has an encoding without a reserved bit set: `IMM16[15:6]` of the two colour commands
and `IMM16[15:1]` of `SETPAINTOPTIONS` are reserved (30_encoding R153). -/
def Instr.wellFormed : Instr → Bool
  | .setPenColor imm => decide (imm.toNat < 64)
  | .setBrushColor imm => decide (imm.toNat < 64)
  | .setPaintOptions imm => decide (imm.toNat < 2)
  | .setPixel _ _ => true
  | .moveTo _ _ => true
  | .lineTo _ _ => true
  | .fillRect _ _ _ _ => true
  | .fillEllipse _ _ => true
  | .drawEllipse _ _ => true
  | .clear => true
  | .vScroll _ => true
  | .hScroll _ => true
  | .drawGlyph _ => true
  | .setGlyphOptions _ => true
  | .invertRect _ _ _ _ => true
  | .copyRect _ _ _ _ => true
  | .setScrollingRegion _ _ _ _ => true
  | .swapFgBg _ _ _ _ => true
  | .readRawData _ _ _ _ _ => true
  | .writeRawData _ _ _ _ _ => true
  | .renderGlyphsBuffer _ _ _ _ _ => true
  | .drawBitmap _ _ _ => true
  | .refreshSprites => true
  | .swapBuffers => true
  | .fillPath _ _ => true
  | .drawPath _ _ => true
  | .setOrigin _ _ => true
  | .setClippingRect _ _ _ _ => true
  | .hostopApply => true
  | .hostopDrain => true
  | .hostopSuspend => true
  | .hostopResume => true
  | .hostopMoveScreen => true
  | .hostopShrinkScreen => true
  | .hostopSetSprites => true
  | .hostopCmdAbort => true

end Sys2Proof
end

