-- ==== Sys2Proof/Decode.lean ====
section
/-!
DEFINITION. Decoding and encoding (30_encoding R150 to R168). Both streams of words are total: a queue entry or a
host-operation word decodes to an instruction or is rejected by the name of the error that it raises.
-/

namespace Sys2Proof

/-- Why a word or an entry is no instruction: the first check of 30_encoding R166 that fails, the check of
30_encoding R168, or a stream that ends before the command is complete (30_encoding R150). -/
inductive DecodeReject where
  | illegalOpcode
  | badLength
  | reservedBits
  | badHostop
  | truncated
  deriving DecidableEq, Repr

/-- The operand formats of 30_encoding R152. -/
inductive Format where
  | n | i | p | s | r | a | pa | x | g | c
  deriving DecidableEq, Repr

/-- The 28 opcodes of 30_encoding R153. -/
inductive Opcode where
  | setPenColor
  | setBrushColor
  | setPixel
  | moveTo
  | lineTo
  | fillRect
  | fillEllipse
  | drawEllipse
  | clear
  | vScroll
  | hScroll
  | drawGlyph
  | setGlyphOptions
  | setPaintOptions
  | invertRect
  | copyRect
  | setScrollingRegion
  | swapFgBg
  | readRawData
  | writeRawData
  | renderGlyphsBuffer
  | drawBitmap
  | refreshSprites
  | swapBuffers
  | fillPath
  | drawPath
  | setOrigin
  | setClippingRect
  deriving DecidableEq, Repr

/-- Header bits 7:0, `OP` (30_encoding R150). -/
def hdrOp (h : Word) : Byte := h.extractLsb' 0 8

/-- Header bits 9:8, `LEN`. -/
def hdrLen (h : Word) : BitVec 2 := h.extractLsb' 8 2

/-- Header bits 15:10, reserved. -/
def hdrRsv (h : Word) : BitVec 6 := h.extractLsb' 10 6

/-- Header bits 31:16, `IMM16`. -/
def hdrImm (h : Word) : Half := h.extractLsb' 16 16

/-- Bits 15:0 of a word: the first component of a point, size or cell-coordinate word (30_encoding R151). -/
def loHalf (w : Word) : Half := w.extractLsb' 0 16

/-- Bits 31:16 of a word: the second component. -/
def hiHalf (w : Word) : Half := w.extractLsb' 16 16

/-- The word with halves `lo` in bits 15:0 and `hi` in bits 31:16. -/
def pairWord (lo hi : Half) : Word := hi ++ lo

/-- The header word with the given fields and its reserved bits 0. -/
def headerWord (op : Byte) (len : BitVec 2) (imm : Half) : Word :=
  imm ++ ((0#6 ++ (len ++ op : BitVec 10)) : Half)

/-- The opcode map of 30_encoding R153: every other byte is illegal (R157). -/
def Opcode.ofByte (b : Byte) : Option Opcode :=
  match b.toNat with
  | 0x01 => some .setPenColor
  | 0x02 => some .setBrushColor
  | 0x03 => some .setPixel
  | 0x04 => some .moveTo
  | 0x05 => some .lineTo
  | 0x06 => some .fillRect
  | 0x07 => some .fillEllipse
  | 0x08 => some .drawEllipse
  | 0x09 => some .clear
  | 0x0A => some .vScroll
  | 0x0B => some .hScroll
  | 0x0C => some .drawGlyph
  | 0x0D => some .setGlyphOptions
  | 0x0E => some .setPaintOptions
  | 0x0F => some .invertRect
  | 0x10 => some .copyRect
  | 0x11 => some .setScrollingRegion
  | 0x12 => some .swapFgBg
  | 0x13 => some .readRawData
  | 0x14 => some .writeRawData
  | 0x15 => some .renderGlyphsBuffer
  | 0x16 => some .drawBitmap
  | 0x17 => some .refreshSprites
  | 0x18 => some .swapBuffers
  | 0x19 => some .fillPath
  | 0x1A => some .drawPath
  | 0x1B => some .setOrigin
  | 0x1C => some .setClippingRect
  | _ => none

/-- The opcode byte of 30_encoding R153. -/
def Opcode.toByte : Opcode → Byte
  | .setPenColor => 0x01#8
  | .setBrushColor => 0x02#8
  | .setPixel => 0x03#8
  | .moveTo => 0x04#8
  | .lineTo => 0x05#8
  | .fillRect => 0x06#8
  | .fillEllipse => 0x07#8
  | .drawEllipse => 0x08#8
  | .clear => 0x09#8
  | .vScroll => 0x0A#8
  | .hScroll => 0x0B#8
  | .drawGlyph => 0x0C#8
  | .setGlyphOptions => 0x0D#8
  | .setPaintOptions => 0x0E#8
  | .invertRect => 0x0F#8
  | .copyRect => 0x10#8
  | .setScrollingRegion => 0x11#8
  | .swapFgBg => 0x12#8
  | .readRawData => 0x13#8
  | .writeRawData => 0x14#8
  | .renderGlyphsBuffer => 0x15#8
  | .drawBitmap => 0x16#8
  | .refreshSprites => 0x17#8
  | .swapBuffers => 0x18#8
  | .fillPath => 0x19#8
  | .drawPath => 0x1A#8
  | .setOrigin => 0x1B#8
  | .setClippingRect => 0x1C#8

/-- The format of each opcode (30_encoding R153). -/
def Opcode.format : Opcode → Format
  | .setPenColor => .i
  | .setBrushColor => .i
  | .setPixel => .p
  | .moveTo => .p
  | .lineTo => .p
  | .fillRect => .r
  | .fillEllipse => .s
  | .drawEllipse => .s
  | .clear => .n
  | .vScroll => .i
  | .hScroll => .i
  | .drawGlyph => .a
  | .setGlyphOptions => .i
  | .setPaintOptions => .i
  | .invertRect => .r
  | .copyRect => .r
  | .setScrollingRegion => .r
  | .swapFgBg => .r
  | .readRawData => .x
  | .writeRawData => .x
  | .renderGlyphsBuffer => .g
  | .drawBitmap => .pa
  | .refreshSprites => .n
  | .swapBuffers => .n
  | .fillPath => .c
  | .drawPath => .c
  | .setOrigin => .p
  | .setClippingRect => .r

/-- The number of argument words of a format (30_encoding R152). -/
def Format.len : Format → BitVec 2
  | .n => 0#2
  | .i => 0#2
  | .p => 1#2
  | .s => 1#2
  | .r => 2#2
  | .a => 1#2
  | .pa => 2#2
  | .x => 3#2
  | .g => 3#2
  | .c => 1#2

/-- The `IMM16` bits that 30_encoding R153 or the opcode's format reserves; they must be 0. -/
def Opcode.reservedImm : Opcode → Half
  | .setPenColor => 0xFFC0#16
  | .setBrushColor => 0xFFC0#16
  | .setPixel => 0xFFFF#16
  | .moveTo => 0xFFFF#16
  | .lineTo => 0xFFFF#16
  | .fillRect => 0xFFFF#16
  | .fillEllipse => 0xFFFF#16
  | .drawEllipse => 0xFFFF#16
  | .clear => 0xFFFF#16
  | .vScroll => 0x0000#16
  | .hScroll => 0x0000#16
  | .drawGlyph => 0xFFFF#16
  | .setGlyphOptions => 0x0000#16
  | .setPaintOptions => 0xFFFE#16
  | .invertRect => 0xFFFF#16
  | .copyRect => 0xFFFF#16
  | .setScrollingRegion => 0xFFFF#16
  | .swapFgBg => 0xFFFF#16
  | .readRawData => 0xFFFF#16
  | .writeRawData => 0xFFFF#16
  | .renderGlyphsBuffer => 0xFFFF#16
  | .drawBitmap => 0xFFFF#16
  | .refreshSprites => 0xFFFF#16
  | .swapBuffers => 0xFFFF#16
  | .fillPath => 0x0000#16
  | .drawPath => 0x0000#16
  | .setOrigin => 0xFFFF#16
  | .setClippingRect => 0xFFFF#16

/-- The instruction of an entry that has passed the checks: its operands are the fields of 30_encoding R152. -/
def Opcode.build (op : Opcode) (e : Entry) : Instr :=
  match op with
  | .setPenColor => .setPenColor (hdrImm e.e0)
  | .setBrushColor => .setBrushColor (hdrImm e.e0)
  | .setPixel => .setPixel (loHalf e.e1) (hiHalf e.e1)
  | .moveTo => .moveTo (loHalf e.e1) (hiHalf e.e1)
  | .lineTo => .lineTo (loHalf e.e1) (hiHalf e.e1)
  | .fillRect => .fillRect (loHalf e.e1) (hiHalf e.e1) (loHalf e.e2) (hiHalf e.e2)
  | .fillEllipse => .fillEllipse (loHalf e.e1) (hiHalf e.e1)
  | .drawEllipse => .drawEllipse (loHalf e.e1) (hiHalf e.e1)
  | .clear => .clear
  | .vScroll => .vScroll (hdrImm e.e0)
  | .hScroll => .hScroll (hdrImm e.e0)
  | .drawGlyph => .drawGlyph e.e1
  | .setGlyphOptions => .setGlyphOptions (hdrImm e.e0)
  | .setPaintOptions => .setPaintOptions (hdrImm e.e0)
  | .invertRect => .invertRect (loHalf e.e1) (hiHalf e.e1) (loHalf e.e2) (hiHalf e.e2)
  | .copyRect => .copyRect (loHalf e.e1) (hiHalf e.e1) (loHalf e.e2) (hiHalf e.e2)
  | .setScrollingRegion => .setScrollingRegion (loHalf e.e1) (hiHalf e.e1) (loHalf e.e2) (hiHalf e.e2)
  | .swapFgBg => .swapFgBg (loHalf e.e1) (hiHalf e.e1) (loHalf e.e2) (hiHalf e.e2)
  | .readRawData => .readRawData (loHalf e.e1) (hiHalf e.e1) (loHalf e.e2) (hiHalf e.e2) e.e3
  | .writeRawData => .writeRawData (loHalf e.e1) (hiHalf e.e1) (loHalf e.e2) (hiHalf e.e2) e.e3
  | .renderGlyphsBuffer => .renderGlyphsBuffer e.e1 (loHalf e.e2) (hiHalf e.e2) (loHalf e.e3) (hiHalf e.e3)
  | .drawBitmap => .drawBitmap (loHalf e.e1) (hiHalf e.e1) e.e2
  | .refreshSprites => .refreshSprites
  | .swapBuffers => .swapBuffers
  | .fillPath => .fillPath (hdrImm e.e0) e.e1
  | .drawPath => .drawPath (hdrImm e.e0) e.e1
  | .setOrigin => .setOrigin (loHalf e.e1) (hiHalf e.e1)
  | .setClippingRect => .setClippingRect (loHalf e.e1) (hiHalf e.e1) (loHalf e.e2) (hiHalf e.e2)

/-- The common checks of 30_encoding R166, in their order, and then the instruction. -/
def decodeEntry (e : Entry) : Except DecodeReject Instr :=
  match Opcode.ofByte (hdrOp e.e0) with
  | none => .error .illegalOpcode
  | some op =>
    if hdrLen e.e0 ≠ op.format.len then .error .badLength
    else if hdrRsv e.e0 ≠ 0#6 ∨ hdrImm e.e0 &&& op.reservedImm ≠ 0#16 then .error .reservedBits
    else .ok (op.build e)

/-- The host-operation codes of 30_encoding R168: `v[3:0]` with `v[31:4] = 0`. -/
def decodeHostOp (v : Word) : Except DecodeReject Instr :=
  match v.toNat with
  | 1 => .ok .hostopApply
  | 2 => .ok .hostopDrain
  | 3 => .ok .hostopSuspend
  | 4 => .ok .hostopResume
  | 5 => .ok .hostopMoveScreen
  | 6 => .ok .hostopShrinkScreen
  | 7 => .ok .hostopSetSprites
  | 8 => .ok .hostopCmdAbort
  | _ => .error .badHostop

/-- Framing of the `CMD_DATA` word stream by `LEN` alone (30_encoding R150, 41_queue R265): the first entry, its
unused words 0, and the words after it; none if the stream ends inside the command. -/
def frame : List Word → Option (Entry × List Word)
  | [] => none
  | h :: rest =>
    let len := (hdrLen h).toNat
    if rest.length < len then none
    else
      let args := rest.take len
      some (⟨h, args.getD 0 0#32, args.getD 1 0#32, args.getD 2 0#32⟩, rest.drop len)

/-- The decoder of a word stream of either port. -/
def decode : Port → List Word → Except DecodeReject Instr
  | .cmdData, ws =>
    match frame ws with
    | none => .error .truncated
    | some (e, _) => decodeEntry e
  | .hostop, [] => .error .truncated
  | .hostop, v :: _ => decodeHostOp v

/-- The register that takes an instruction's words. -/
def Instr.port : Instr → Port
  | .setPenColor _ => .cmdData
  | .setBrushColor _ => .cmdData
  | .setPixel _ _ => .cmdData
  | .moveTo _ _ => .cmdData
  | .lineTo _ _ => .cmdData
  | .fillRect _ _ _ _ => .cmdData
  | .fillEllipse _ _ => .cmdData
  | .drawEllipse _ _ => .cmdData
  | .clear => .cmdData
  | .vScroll _ => .cmdData
  | .hScroll _ => .cmdData
  | .drawGlyph _ => .cmdData
  | .setGlyphOptions _ => .cmdData
  | .setPaintOptions _ => .cmdData
  | .invertRect _ _ _ _ => .cmdData
  | .copyRect _ _ _ _ => .cmdData
  | .setScrollingRegion _ _ _ _ => .cmdData
  | .swapFgBg _ _ _ _ => .cmdData
  | .readRawData _ _ _ _ _ => .cmdData
  | .writeRawData _ _ _ _ _ => .cmdData
  | .renderGlyphsBuffer _ _ _ _ _ => .cmdData
  | .drawBitmap _ _ _ => .cmdData
  | .refreshSprites => .cmdData
  | .swapBuffers => .cmdData
  | .fillPath _ _ => .cmdData
  | .drawPath _ _ => .cmdData
  | .setOrigin _ _ => .cmdData
  | .setClippingRect _ _ _ _ => .cmdData
  | .hostopApply => .hostop
  | .hostopDrain => .hostop
  | .hostopSuspend => .hostop
  | .hostopResume => .hostop
  | .hostopMoveScreen => .hostop
  | .hostopShrinkScreen => .hostop
  | .hostopSetSprites => .hostop
  | .hostopCmdAbort => .hostop

/-- The header of a command: its opcode, its format's length and its immediate. -/
def Opcode.header (op : Opcode) (imm : Half) : Word := headerWord op.toByte op.format.len imm

/-- The words of an instruction (30_encoding R150 to R152, R168), in the order HOST writes them. -/
def encode : Instr → List Word
  | .setPenColor imm => [Opcode.setPenColor.header imm]
  | .setBrushColor imm => [Opcode.setBrushColor.header imm]
  | .setPixel x y => [Opcode.setPixel.header 0#16, pairWord x y]
  | .moveTo x y => [Opcode.moveTo.header 0#16, pairWord x y]
  | .lineTo x y => [Opcode.lineTo.header 0#16, pairWord x y]
  | .fillRect x1 y1 x2 y2 => [Opcode.fillRect.header 0#16, pairWord x1 y1, pairWord x2 y2]
  | .fillEllipse w h => [Opcode.fillEllipse.header 0#16, pairWord w h]
  | .drawEllipse w h => [Opcode.drawEllipse.header 0#16, pairWord w h]
  | .clear => [Opcode.clear.header 0#16]
  | .vScroll imm => [Opcode.vScroll.header imm]
  | .hScroll imm => [Opcode.hScroll.header imm]
  | .drawGlyph addr => [Opcode.drawGlyph.header 0#16, addr]
  | .setGlyphOptions imm => [Opcode.setGlyphOptions.header imm]
  | .setPaintOptions imm => [Opcode.setPaintOptions.header imm]
  | .invertRect x1 y1 x2 y2 => [Opcode.invertRect.header 0#16, pairWord x1 y1, pairWord x2 y2]
  | .copyRect x1 y1 x2 y2 => [Opcode.copyRect.header 0#16, pairWord x1 y1, pairWord x2 y2]
  | .setScrollingRegion x1 y1 x2 y2 => [Opcode.setScrollingRegion.header 0#16, pairWord x1 y1, pairWord x2 y2]
  | .swapFgBg x1 y1 x2 y2 => [Opcode.swapFgBg.header 0#16, pairWord x1 y1, pairWord x2 y2]
  | .readRawData x y w h addr => [Opcode.readRawData.header 0#16, pairWord x y, pairWord w h, addr]
  | .writeRawData x y w h addr => [Opcode.writeRawData.header 0#16, pairWord x y, pairWord w h, addr]
  | .renderGlyphsBuffer addr c1 r1 c2 r2 => [Opcode.renderGlyphsBuffer.header 0#16, addr, pairWord c1 r1, pairWord c2 r2]
  | .drawBitmap x y addr => [Opcode.drawBitmap.header 0#16, pairWord x y, addr]
  | .refreshSprites => [Opcode.refreshSprites.header 0#16]
  | .swapBuffers => [Opcode.swapBuffers.header 0#16]
  | .fillPath n addr => [Opcode.fillPath.header n, addr]
  | .drawPath n addr => [Opcode.drawPath.header n, addr]
  | .setOrigin x y => [Opcode.setOrigin.header 0#16, pairWord x y]
  | .setClippingRect x1 y1 x2 y2 => [Opcode.setClippingRect.header 0#16, pairWord x1 y1, pairWord x2 y2]
  | .hostopApply => [1#32]
  | .hostopDrain => [2#32]
  | .hostopSuspend => [3#32]
  | .hostopResume => [4#32]
  | .hostopMoveScreen => [5#32]
  | .hostopShrinkScreen => [6#32]
  | .hostopSetSprites => [7#32]
  | .hostopCmdAbort => [8#32]

/-- The `k`-th 32-bit word of a number laid out with its first word in its lowest bits. -/
def tableWord (w k : Nat) : Word := BitVec.ofNat 32 (w >>> (32 * k))

/-- The port that a table word is read at: `HOSTOP` where it is a host-operation code, else `CMD_DATA`. The two
streams share the values 1 to 8; of those only 1 and 2 are also well-formed commands (log entry 13). -/
def tablePort (w : Nat) : Port := if 1 ≤ w ∧ w ≤ 8 then .hostop else .cmdData

/-- The words of an instruction whose first `nbits` bits are `w`, every later bit 0, up to the longest command. -/
def tableWords (nbits w : Nat) : List Word :=
  (List.range 4).map (tableWord (w % 2 ^ nbits))

/-- The instruction the decoder reads from an instruction whose bits are `w` (log entry 13). -/
def decodeTableWord (nbits w : Nat) : Option Instr :=
  match decode (tablePort (w % 2 ^ nbits)) (tableWords nbits w) with
  | .ok i => some i
  | .error _ => none

end Sys2Proof
end

