-- ==== Sys2Proof/Machine/State.lean ====
section
/-!
DEFINITION. The state of the block (10_state, INVENTORY.md), plain data, its reset value (10_state R78, 70_reset R511),
and the reasons a step can stop.
-/

namespace Sys2Proof.Machine

/-- System memory (20_memory R100): the bytes that have been written, in strictly rising address order. An address
that is not listed holds no known value, and reads a free value (log entry 3). -/
abbrev Memory := List Host.Cell

/-- The agents of 00_scope R3, and `outside` for what acts on the block without being one of them: its reset input
and the platform (log entry 9). -/
inductive Agent where
  | host
  | seq
  | exe
  | outside
  deriving DecidableEq, Repr

/-- What HOST and the outside do, one at a time (log entries 9, 10, 12). -/
inductive Input where
  /-- HOST writes `v` to register offset `off` with an access of `width` bytes. -/
  | regWrite (width off : Nat) (v : Word)
  /-- HOST reads register offset `off` with an access of `width` bytes. -/
  | regRead (width off : Nat)
  /-- HOST stores the low `n` bytes of `v` at system-memory address `a`. -/
  | memWrite (a : Word) (n : Nat) (v : Word)
  /-- HOST reads `n` bytes of system memory at `a`. -/
  | memRead (a : Word) (n : Nat)
  /-- One byte of a HOST read, into byte `k` of the value read. -/
  | memReadByte (a : Word) (k : Nat)
  /-- The reset input, between two steps (70_reset R510). -/
  | reset
  /-- The reset input, in the middle of the EXE step that would come next (93 U23). -/
  | resetMidStep
  /-- The platform changes which bytes exist (60_exceptions R478). -/
  | platform (memMap : List Region)
  deriving DecidableEq, Repr

/-- One memory pool's register pair (10_state R46). -/
structure Pool where
  base : Word
  size : Word
  deriving DecidableEq, Repr

/-- The timing and viewport registers, staged (`T_`) or active (`A_`) (10_state R38 to R44). -/
structure Timings where
  freq   : Word
  h0     : Word
  h1     : Word
  v0     : Word
  v1     : Word
  mode   : Word
  vpSize : Word
  vpCfg  : Word
  label  : Vector Word 8
  deriving DecidableEq, Repr

/-- What `APPLY` allocates and commits (10_state R44, R45, R69, R74). -/
structure Alloc where
  vpPos      : Word
  chainBase  : Word
  chainLen   : Word
  chainCap   : Word
  group      : Word
  constBase  : Word
  clen       : Word
  rowStride  : Word
  configured : Bool
  dblActive  : Bool
  deriving DecidableEq, Repr

/-- The pending geometry (10_state R73). -/
structure Geom where
  pending : Bool
  pH      : Word
  pV      : Word
  deriving DecidableEq, Repr

/-- A rectangle of `int16` edges (10_state R57, R59). -/
structure Rect16 where
  x1 : Half
  y1 : Half
  x2 : Half
  y2 : Half
  deriving DecidableEq, Repr

/-- A rectangle of 32-bit signed edges (10_state R58). -/
structure Rect32 where
  x1 : Word
  y1 : Word
  x2 : Word
  y2 : Word
  deriving DecidableEq, Repr

/-- The paint state (10_state R53 to R61). -/
structure Paint where
  pen      : Colour
  brush    : Colour
  posX     : Word
  posY     : Word
  originX  : Half
  originY  : Half
  clipRel  : Rect16
  clipAbs  : Rect32
  scroll   : Rect16
  glyphOpt : Half
  swap     : Bool
  deriving DecidableEq, Repr

/-- A sprite list, staged (`SPR_`) or active (`A_SPR_`) (10_state R51). -/
structure SpriteList where
  base   : Word
  count  : Word
  stride : Word
  deriving DecidableEq, Repr

/-- The mouse-cursor registers (10_state R52). -/
structure Cursor where
  pos       : Word
  hot       : Word
  bmp       : Word
  bg        : Word
  en        : Bool
  saved0    : Word
  saved1    : Word
  allowDraw : Bool
  deriving DecidableEq, Repr

/-- The compositor phases (10_state R65). -/
inductive SPhase where
  | idle
  | settled
  deriving DecidableEq, Repr

/-- The compositor flags (10_state R65). -/
structure Compositor where
  refreshPending : Bool
  shown          : Bool
  phase          : SPhase
  deriving DecidableEq, Repr

/-- The primitive queue, the assembly buffer, `CMD_PARTIAL` and the suspend counter (10_state R34, R62 to R64). -/
structure Queue where
  entries      : List Entry
  cb           : Entry
  partialCount : BitVec 2
  partialLen   : BitVec 2
  suspend      : BitVec 8
  deriving DecidableEq, Repr

/-- `EXE.STATE` (10_state R66). -/
inductive ExeState where
  | idle
  | vservice
  | sdrain
  | hostop
  deriving DecidableEq, Repr

/-- The error contexts of 10_state R47 (`ERR.CTX`). -/
inductive ErrCtx where
  | host
  | vsync
  | sync
  | seq
  deriving DecidableEq, Repr

/-- The variables of a drain in progress (41_queue R269): `left` is `limit - n` (none for an unlimited drain),
`ran` is `n > 0`. -/
structure Drain where
  left : Option Nat
  ran  : Bool
  hid  : Bool
  deriving DecidableEq, Repr

/-- What is left of the job EXE runs: the steps of 41_queue R262, first step first (log entries 8 and 24). -/
inductive Micro where
  /-- Perform the host operation that HOST wrote `v` for (41 R264). -/
  | hostOp (v : Word)
  /-- Append a synchronous push's entry (41 R266). -/
  | pushEntry (e : Entry)
  /-- Begin a synchronous drain to empty (41 R271). -/
  | drainBegin
  /-- The loop and the tail of a drain (41 R269). -/
  | drainLoop (d : Drain)
  /-- The last line of a drain (41 R269, R270). -/
  | drainEnd (ran : Bool)
  /-- The cursor's part of a hide pass (45 R431). -/
  | hideCursor
  /-- The records `k-1 .. 0` of a hide pass, and its end (45 R431). -/
  | hideRecords (k : Nat)
  /-- A compositing cycle (45 R433). -/
  | refresh
  /-- The start of a show pass (45 R432). -/
  | showBegin
  /-- The records from `k` on of a show pass; `seen` says whether a record already passed has `ALLOWDRAW`. -/
  | showRecords (k : Nat) (seen : Bool)
  /-- The cursor's part of a show pass, and its end (45 R432). -/
  | showCursor (seen : Bool)
  /-- The job's end: EXE is idle and its HOST request, if it was one, is released (41 R264, R266, R272). -/
  | jobEnd
  deriving DecidableEq, Repr

/-- The executor (10_state R66, 41 R260): its state, `VS_REQ`, and the job in progress. -/
structure Exe where
  state : ExeState
  vsReq : Bool
  ctx   : ErrCtx
  ok    : Bool
  work  : List Micro
  deriving DecidableEq, Repr

/-- Whether HOST is held, and the request it is held on (10_state R66, R77, 41 R263). -/
inductive Held where
  | free
  /-- A queued push waits for room (41 R266). -/
  | fullPush (e : Entry)
  /-- A synchronous push waits for EXE (41 R266). -/
  | syncPush (e : Entry)
  /-- A `HOSTOP` write waits for EXE (41 R264). -/
  | hostOp (v : Word)
  /-- A `WAIT` read (41 R279). -/
  | wait
  deriving DecidableEq, Repr

/-- The row tables (10_state R67; an entry past a list's end reads 0, log entry 23) and `VISBUF` (R69). -/
structure Rows where
  rt0    : List Word
  rt1    : List Word
  visBuf : Bool
  deriving DecidableEq, Repr

/-- `SEQ.PHASE` (10_state R71). -/
inductive SeqPhase where
  | stop
  | fetch
  | emit
  deriving DecidableEq, Repr

/-- The sequencer (10_state R70 to R72, R75, R76). -/
structure Seq where
  phase      : SeqPhase
  dptr       : Word
  latLen     : BitVec 12
  latBuf     : Word
  latNext    : Word
  latEof     : Bool
  bidx       : Nat
  didx       : Nat
  pixOut     : Byte
  frameCount : Word
  scanline   : Half
  deriving DecidableEq, Repr

/-- The control, error and interrupt registers (10_state R32, R37, R47 to R50). -/
structure SysRegs where
  bgexec    : Bool
  hostArg   : Word
  err       : Word
  errAddr   : Word
  irqStatus : BitVec 4
  irqEnable : BitVec 4
  deriving DecidableEq, Repr

/-- The model's own fields (log entries 4, 9, 29): what comes from outside, which agents move next, how many free
choices have been made, and what the last completed HOST read returned. -/
structure Env where
  inputs   : List Input
  sched    : List Agent
  tick     : Nat
  readData : Word
  deriving DecidableEq, Repr

/-- The whole machine. -/
structure State where
  cfg       : Config
  mem       : Memory
  sys       : SysRegs
  staged    : Timings
  pools     : List Pool
  active    : Timings
  alloc     : Alloc
  geom      : Geom
  paint     : Paint
  sprStaged : SpriteList
  sprActive : SpriteList
  cursor    : Cursor
  comp      : Compositor
  queue     : Queue
  exe       : Exe
  held      : Held
  rows      : Rows
  seq       : Seq
  env       : Env
  deriving DecidableEq, Repr

/-- Why a step stops the whole model. No instruction raises one: the block has no trap (60_exceptions R470). -/
inductive Fault where
  /-- Raised by `step` when HOST is held, no agent has an enabled step and nothing is to come from outside: the
  `stuck` cases of 93 U29 to U31 (70_reset R520, R521, R524). Safe: no state of the block is passed by. -/
  | hostHeldForever
  deriving DecidableEq, Repr

/-- Why an instruction has no meaning in the model. -/
inductive Refusal where
  /-- Raised by an arm of `exec` whose instruction is not modelled. Safe: the model stops. No arm raises it. -/
  | notModelled (mnemonic : String)
  deriving DecidableEq, Repr

/-- All-zero timing registers. -/
def Timings.zero : Timings :=
  ⟨0#32, 0#32, 0#32, 0#32, 0#32, 0#32, 0#32, 0#32, Vector.replicate 8 0#32⟩

/-- The machine right after reset (10_state R78, R79, 70_reset R511), with the parameters of log entries 1 and 2, no
memory byte known (log entry 3), and nothing to come from outside (log entry 9). -/
def State.reset : State where
  cfg := Config.suggested
  mem := []
  sys := ⟨true, 0#32, 0#32, 0#32, 0#4, 0#4⟩
  staged := { Timings.zero with mode := 0x108#32 }
  pools := List.replicate Config.suggested.npool ⟨0#32, 0#32⟩
  active := Timings.zero
  alloc := ⟨0#32, 0#32, 0#32, 0#32, 0#32, 0#32, 0#32, 0#32, false, false⟩
  geom := ⟨false, 0#32, 0#32⟩
  paint :=
    { pen := 0x3F#6, brush := 0#6, posX := 0#32, posY := 0#32, originX := 0#16, originY := 0#16,
      clipRel := ⟨0x8000#16, 0x8000#16, 0x7FFF#16, 0x7FFF#16⟩,
      clipAbs := ⟨0xFFFF8000#32, 0xFFFF8000#32, 0x7FFF#32, 0x7FFF#32⟩,
      scroll := ⟨0x8000#16, 0x8000#16, 0x7FFF#16, 0x7FFF#16⟩,
      glyphOpt := 0#16, swap := false }
  sprStaged := ⟨0#32, 0#32, 0#32⟩
  sprActive := ⟨0#32, 0#32, 0#32⟩
  cursor := ⟨0#32, 0#32, 0#32, 0#32, false, 0#32, 0#32, false⟩
  comp := ⟨false, false, .idle⟩
  queue := ⟨[], ⟨0#32, 0#32, 0#32, 0#32⟩, 0#2, 0#2, 0#8⟩
  exe := ⟨.idle, false, .host, true, []⟩
  held := .free
  rows := ⟨[], [], false⟩
  seq := ⟨.stop, 0#32, 0#12, 0#32, 0#32, false, 0, 0, 0#8, 0#32, 0#16⟩
  env := ⟨[], [], 0, 0#32⟩

end Sys2Proof.Machine
end

