-- ==== Sys2Proof/Machine/Memory.lean ====
section
/-!
DEFINITION. System memory (20_memory R100 to R106): one byte-addressed space of 2^32 bytes, little-endian, with no
alignment rule; every address is taken modulo 2^32.
-/

namespace Sys2Proof.Machine

/-- The number of byte addresses (20_memory R100). -/
def addrSpace : Nat := 2 ^ 32

/-- An address computed modulo 2^32 (20_memory R100). -/
def wrapAddr (a : Nat) : Nat := a % addrSpace

/-- The canonical form: addresses strictly rising and inside the address space. An unlisted address holds no value, so
no entry can equal one. -/
def Memory.wf (m : Memory) : Bool :=
  decide (m.Pairwise (fun c d => c.1 < d.1)) && m.all (fun c => decide (c.1 < addrSpace))

/-- The byte written last at an address, none if nothing has written it. -/
def memLookup : Memory → Nat → Option Byte
  | [], _ => none
  | (k, v) :: rest, a => if a = k then some v else memLookup rest a

/-- What an address reads as: the byte written last, and a free value where nothing has been written (10_state R78). -/
def memByte (m : Memory) (a : Nat) : Byte :=
  (memLookup m (wrapAddr a)).getD (Config.powerOnByte (wrapAddr a))

/-- Store a byte at an address below 2^32, keeping the canonical form. -/
def memInsert : Memory → Nat → Byte → Memory
  | [], a, v => [(a, v)]
  | (k, w) :: rest, a, v =>
    if a < k then (a, v) :: (k, w) :: rest
    else if a = k then (a, v) :: rest
    else (k, w) :: memInsert rest a v

/-- Store one byte (00_scope R10, `n = 1`). -/
def memStore (m : Memory) (a : Nat) (v : Byte) : Memory := memInsert m (wrapAddr a) v

/-- Store a list of bytes at their addresses, in the list's order. -/
def memStoreAll (m : Memory) (cs : List (Nat × Byte)) : Memory :=
  cs.foldl (fun m c => memStore m c.1 c.2) m

/-- The `n` addresses from `a` on, each modulo 2^32. -/
def byteRange (a n : Nat) : List Nat := (List.range n).map (fun k => wrapAddr (a + k))

/-- The cells of a run of bytes from address `a`. -/
def blockCells (a : Nat) (bs : List Byte) : List (Nat × Byte) :=
  bs.zipIdx.map (fun p => (a + p.2, p.1))

/-- Store a run of bytes from address `a`. A run that does not wrap replaces its range in one piece. -/
def memStoreBlock (m : Memory) (a : Nat) (bs : List Byte) : Memory :=
  if a + bs.length ≤ addrSpace then
    m.filter (fun c => decide (c.1 < a)) ++ blockCells a bs ++ m.filter (fun c => decide (a + bs.length ≤ c.1))
  else memStoreAll m (blockCells a bs)

/-- The little-endian number in the `n` bytes from `a` (00_scope R10, 20_memory R101). -/
def memReadLe (m : Memory) (a : Nat) : Nat → Nat
  | 0 => 0
  | n + 1 => (memByte m a).toNat + 256 * memReadLe m (a + 1) n

/-- `MemRead(a, 4)`. -/
def memWord (m : Memory) (a : Nat) : Word := BitVec.ofNat 32 (memReadLe m a 4)

/-- `MemRead(a, 2)`. -/
def memHalf (m : Memory) (a : Nat) : Half := BitVec.ofNat 16 (memReadLe m a 2)

/-- The `n` low bytes of a number, least significant first (20_memory R101). -/
def bytesLe (v : Nat) (n : Nat) : List Byte :=
  (List.range n).map (fun k => BitVec.ofNat 8 (v >>> (8 * k)))

/-- `MemWrite(a, n, v)`. -/
def memWriteLe (m : Memory) (a n v : Nat) : Memory := memStoreBlock m a (bytesLe v n)

/-- The memory a reset leaves when it cuts a step in two: at each address the step wrote, the old byte or the final
one, as `landed` says (93 U23). A step never removes an address. -/
def memCut (landed : Nat → Bool) (old final : Memory) : Memory :=
  final.filterMap (fun c => if landed c.1 then some c else (memLookup old c.1).map (fun v => (c.1, v)))

/-- `MEM_OK(a)` (00_scope R6, 20_memory R105). -/
def memOk (s : State) (a : Nat) : Bool :=
  s.cfg.memMap.any (fun r => decide (r.base ≤ a ∧ a < r.base + r.size))

/-- The lowest address of a list of accesses whose byte does not satisfy `MEM_OK` (60_exceptions R478). -/
def lowestBad (s : State) (as : List Nat) : Option Nat :=
  (as.filter (fun a => !memOk s a)).min?

/-- The first address of a list of accesses whose byte does not satisfy `MEM_OK` (40 R231, 43 R352). -/
def firstBad (s : State) (as : List Nat) : Option Nat := as.find? (fun a => !memOk s a)

end Sys2Proof.Machine
end

