-- ==== Sys2Proof/Machine/Ops.lean ====
section
/-!
DEFINITION. The named operations: the error record, which is the block's one exception mechanism (60_exceptions R470 to
R484), the register fields, and the row-lookup unit (40 R224).
-/

namespace Sys2Proof.Machine

/-! ### Recording an error, and returning from one -/

/-- The error codes of 60_exceptions R472. -/
inductive ErrCode where
  | cfgTiming
  | cfgViewport
  | cfgPool
  | nomemChain
  | nomemViewport
  | geometry
  | illegalOpcode
  | badLength
  | reservedBits
  | resumeUnderflow
  | suspendOverflow
  | badHostop
  | busExe
  | busSeq
  deriving DecidableEq, Repr

/-- The number of an error code (60_exceptions R472). -/
def ErrCode.toByte : ErrCode → Byte
  | .cfgTiming => 0x01#8
  | .cfgViewport => 0x02#8
  | .cfgPool => 0x03#8
  | .nomemChain => 0x04#8
  | .nomemViewport => 0x05#8
  | .geometry => 0x06#8
  | .illegalOpcode => 0x07#8
  | .badLength => 0x08#8
  | .reservedBits => 0x09#8
  | .resumeUnderflow => 0x0A#8
  | .suspendOverflow => 0x0B#8
  | .badHostop => 0x0C#8
  | .busExe => 0x0D#8
  | .busSeq => 0x0E#8

/-- Whether a code records a failing address (60_exceptions R473). -/
def ErrCode.isBus : ErrCode → Bool
  | .busExe => true
  | .busSeq => true
  | .cfgTiming => false
  | .cfgViewport => false
  | .cfgPool => false
  | .nomemChain => false
  | .nomemViewport => false
  | .geometry => false
  | .illegalOpcode => false
  | .badLength => false
  | .reservedBits => false
  | .resumeUnderflow => false
  | .suspendOverflow => false
  | .badHostop => false

/-- The number of an error context (10_state R47). -/
def ErrCtx.toBits : ErrCtx → BitVec 2
  | .host => 0#2
  | .vsync => 1#2
  | .sync => 2#2
  | .seq => 3#2

/-- `ERR.VALID`, bit 31 (10_state R47). -/
def errValid (err : Word) : Bool := err.getLsbD 31

/-- The record of a first error: `VALID`, `CTX`, `OP` and `CODE` (10_state R47, 60_exceptions R473). -/
def errRecord (ctx : ErrCtx) (op : Byte) (code : ErrCode) : Word :=
  (0b100000#6 ++ (ctx.toBits ++ (0#8 ++ (op ++ code.toByte : BitVec 16) : BitVec 24) : BitVec 26))

/-- `raise Error(code, op)` in context `ctx` with failing address `fa` (60_exceptions R473): the first error is kept,
a later one sets `OVERFLOW`, and `IRQ_STATUS.ERROR` is set. -/
def State.raise (s : State) (ctx : ErrCtx) (op : Byte) (code : ErrCode) (fa : Word) : State :=
  { s with sys := { s.sys with
      err := if errValid s.sys.err then s.sys.err ||| 0x40000000#32 else errRecord ctx op code
      errAddr := if errValid s.sys.err then s.sys.errAddr else if code.isBus then fa else 0#32
      irqStatus := s.sys.irqStatus ||| 0x8#4 } }

/-- The return from an error (10_state R47, 60_exceptions R484): HOST writes `v` to `ERR`, and a 1 in bit 31 clears the
whole record and its address. -/
def State.clearErr (s : State) (v : Word) : State :=
  if v.getLsbD 31 then { s with sys := { s.sys with err := 0#32, errAddr := 0#32 } } else s

/-- An error of the command EXE is executing: recorded in the context of the job, and `EXECUTE` returns
`ok = false` (41_queue R268). -/
def State.raiseCmd (s : State) (op : Byte) (code : ErrCode) (fa : Nat) : State :=
  let t := s.raise s.exe.ctx op code (BitVec.ofNat 32 fa)
  { t with exe := { t.exe with ok := false } }

/-- `FAULT(a)` of a compositor pass (45_sprites R443): recorded with `OP = 0` in the context of the job; the command or
drain goes on. -/
def State.raisePass (s : State) (fa : Nat) : State :=
  s.raise s.exe.ctx 0x00#8 .busExe (BitVec.ofNat 32 fa)

/-! ### Fields of the timing registers (10_state R39 to R44) -/

def Timings.hvis (t : Timings) : Nat := (loHalf t.h0).toNat
def Timings.hfp (t : Timings) : Nat := (hiHalf t.h0).toNat
def Timings.hsync (t : Timings) : Nat := (loHalf t.h1).toNat
def Timings.hbp (t : Timings) : Nat := (hiHalf t.h1).toNat
def Timings.vvis (t : Timings) : Nat := (loHalf t.v0).toNat
def Timings.vfp (t : Timings) : Nat := (hiHalf t.v0).toNat
def Timings.vsync (t : Timings) : Nat := (loHalf t.v1).toNat
def Timings.vbp (t : Timings) : Nat := (hiHalf t.v1).toNat
def Timings.hpol (t : Timings) : Bool := t.mode.getLsbD 0
def Timings.vpol (t : Timings) : Bool := t.mode.getLsbD 1
def Timings.msblack (t : Timings) : Bool := t.mode.getLsbD 2
def Timings.bpc (t : Timings) : Bool := t.mode.getLsbD 3
def Timings.sb (t : Timings) : Nat := (t.mode.extractLsb' 4 2).toNat
def Timings.scan (t : Timings) : Nat := (t.mode.extractLsb' 8 4).toNat
def Timings.dbl (t : Timings) : Bool := t.vpCfg.getLsbD 0

/-- `HT` (40_video R200). -/
def Timings.ht (t : Timings) : Nat := t.hvis + t.hfp + t.hsync + t.hbp

/-- `VT` (40_video R200). -/
def Timings.vt (t : Timings) : Nat := t.vvis + t.vfp + t.vsync + t.vbp

/-- `A_VPW` (10_state R44). -/
def State.vpw (s : State) : Nat := (loHalf s.active.vpSize).toNat

/-- `A_VPH` (10_state R44). -/
def State.vph (s : State) : Nat := (hiHalf s.active.vpSize).toNat

/-- `VPCOL` (10_state R44). -/
def State.vpcol (s : State) : Nat := (loHalf s.alloc.vpPos).toNat

/-- `VPROW` (10_state R44). -/
def State.vprow (s : State) : Nat := (hiHalf s.alloc.vpPos).toNat

/-- `QCOUNT` (10_state R34, R62). -/
def State.qcount (s : State) : Nat := s.queue.entries.length

/-! ### The row-lookup unit (10_state R67, R68, 40_video R224) -/

/-- The row tables by number. -/
def Rows.table (r : Rows) (t : Bool) : List Word := if t then r.rt1 else r.rt0

/-- `RT[t][r]` (10_state R67): an entry past the end of the list is 0. -/
def Rows.entry (r : Rows) (t : Bool) (i : Nat) : Word := (r.table t).getD i 0#32

/-- `VISTBL` (10_state R68): the table whose rows SEQ streams. -/
def State.visTbl (s : State) : Bool := s.alloc.dblActive && s.rows.visBuf

/-- `DRAWTBL` (10_state R68): the table whose rows commands draw into. -/
def State.drawTbl (s : State) : Bool := s.alloc.dblActive && !s.rows.visBuf

/-- The address of pixel `(x, y)` of row table `t` (40_video R224). -/
def State.pixAddr (s : State) (t : Bool) (x y : Int) : Nat :=
  wrapAddr ((s.rows.entry t y.toNat).toNat + x.toNat)

/-- The address of frame-buffer pixel `(x, y)`: `ROWADDR(y) + x`. -/
def State.fbAddr (s : State) (x y : Int) : Nat := s.pixAddr s.drawTbl x y

/-- The address of visible pixel `(x, y)`: `VROWADDR(y) + x` (45_sprites R436). -/
def State.vfbAddr (s : State) (x y : Int) : Nat := s.pixAddr s.visTbl x y

/-- `FBRead(x, y)` (00_scope R10). -/
def State.fbRead (s : State) (x y : Int) : Byte := memByte s.mem (s.fbAddr x y)

/-- `VFBRead(x, y)` (45_sprites R436). -/
def State.vfbRead (s : State) (x y : Int) : Byte := memByte s.mem (s.vfbAddr x y)

/-! ### Updates -/

/-- The state with another memory. -/
def State.setMem (s : State) (m : Memory) : State := { s with mem := m }

/-- The state after a command's write set has landed (20_memory R108). -/
def State.writeCells (s : State) (cs : List (Nat × Byte)) : State := s.setMem (memStoreAll s.mem cs)

/-- The state with another paint state. -/
def State.setPaint (s : State) (p : Paint) : State := { s with paint := p }

/-- The state with the given steps put before the rest of EXE's job. -/
def State.pushWork (s : State) (ms : List Micro) : State :=
  { s with exe := { s.exe with work := ms ++ s.exe.work } }

/-- Request a compositing pass (45_sprites R430). -/
def State.requestRefresh (s : State) : State := { s with comp := { s.comp with refreshPending := true } }

end Sys2Proof.Machine
end

