-- ==== Sys2Proof/Machine/Flags.lean ====
section
/-!
DEFINITION. The flag computations: the fields of `STATUS` (10_state R33), the interrupt bits and the interrupt level
(10_state R49, R50), and the sync levels of a pixel byte (40_video R206).
-/

namespace Sys2Proof.Machine

/-- One bit as a word's value at position `k`. -/
def bitAt (b : Bool) (k : Nat) : Word := if b then 1#32 <<< k else 0#32

/-- `STATUS` (10_state R33): each bit reads the live value of the state it names. -/
def State.status (s : State) : Word :=
  bitAt s.alloc.configured 0 ||| bitAt (decide (s.seq.phase ≠ .stop)) 1 ||| bitAt (decide (s.exe.state ≠ .idle)) 2 |||
  bitAt (decide (s.qcount = 0)) 3 ||| bitAt (decide (s.qcount = s.cfg.qdepth)) 4 |||
  bitAt s.comp.refreshPending 5 ||| bitAt s.comp.shown 6 ||| bitAt s.alloc.dblActive 7 ||| bitAt s.rows.visBuf 8 |||
  bitAt s.geom.pending 9 ||| bitAt s.exe.vsReq 10 ||| (s.queue.suspend.setWidth 32 <<< 16)

/-- `IRQ_STATUS` bits (10_state R49). -/
def irqVsync : BitVec 4 := 1#4
def irqFrame : BitVec 4 := 2#4
def irqDrained : BitVec 4 := 4#4
def irqError : BitVec 4 := 8#4

/-- Set bits of `IRQ_STATUS` (60_exceptions R482). -/
def State.setIrq (s : State) (bits : BitVec 4) : State :=
  { s with sys := { s.sys with irqStatus := s.sys.irqStatus ||| bits } }

/-- HOST's write of 1s to `IRQ_STATUS` clears those bits (10_state R49). -/
def State.clearIrq (s : State) (v : Word) : State :=
  { s with sys := { s.sys with irqStatus := s.sys.irqStatus &&& ~~~(v.setWidth 4) } }

/-- The level output `IRQ` (10_state R50, 60_exceptions R482). -/
def State.irqLevel (s : State) : Bool := decide (s.sys.irqStatus &&& s.sys.irqEnable ≠ 0#4)

/-- The sync-inactive byte `SI` of a timing (40_video R206). -/
def Timings.si (t : Timings) : Byte :=
  (if t.hpol then 0x00#8 else 0x40#8) ||| (if t.vpol then 0x00#8 else 0x80#8)

/-- `SI` of the active timing. -/
def State.si (s : State) : Byte := s.active.si

end Sys2Proof.Machine
end

