-- ==== Sys2Proof/Machine/Operands.lean ====
section
/-!
DEFINITION. Operand forms and the helpers of every drawing command: points, rectangles, translation, clipping, colours
and the pixel plot (00_scope R8, R11 to R14, 42_paint R300 to R303). Coordinates are mathematical integers (00_scope R8).
-/

namespace Sys2Proof.Machine

/-! ### Points and rectangles -/

/-- An absolute or logical point. -/
abbrev Point := Int × Int

/-- An inclusive rectangle, empty when `x1 > x2` or `y1 > y2` (00_scope R11). -/
structure Rect where
  x1 : Int
  y1 : Int
  x2 : Int
  y2 : Int
  deriving DecidableEq, Repr

/-- `norm` (00_scope R11). -/
def Rect.norm (r : Rect) : Rect := ⟨min r.x1 r.x2, min r.y1 r.y2, max r.x1 r.x2, max r.y1 r.y2⟩

/-- The componentwise intersection (00_scope R11). -/
def Rect.inter (a b : Rect) : Rect := ⟨max a.x1 b.x1, max a.y1 b.y1, min a.x2 b.x2, min a.y2 b.y2⟩

/-- Whether a point lies in a rectangle (00_scope R11). -/
def Rect.has (r : Rect) (p : Point) : Bool :=
  decide (r.x1 ≤ p.1 ∧ p.1 ≤ r.x2 ∧ r.y1 ≤ p.2 ∧ p.2 ≤ r.y2)

/-- Whether a rectangle has no point (00_scope R11). -/
def Rect.isEmpty (r : Rect) : Bool := decide (r.x2 < r.x1 ∨ r.y2 < r.y1)

/-- The columns of a rectangle. -/
def Rect.width (r : Rect) : Nat := (r.x2 - r.x1 + 1).toNat

/-- The rows of a rectangle. -/
def Rect.height (r : Rect) : Nat := (r.y2 - r.y1 + 1).toNat

/-- The integers from `lo` to `hi`, ascending. -/
def intsFromTo (lo hi : Int) : List Int :=
  (List.range (hi - lo + 1).toNat).map (fun (k : Nat) => lo + (k : Int))

/-- The points of a rectangle in row-major order (00_scope R11). -/
def Rect.points (r : Rect) : List Point :=
  (intsFromTo r.y1 r.y2).flatMap (fun y => (intsFromTo r.x1 r.x2).map (fun x => (x, y)))

/-- The offsets `(i, j)` with `0 ≤ i < w` and `0 ≤ j < h`, row-major. -/
def gridPoints (w h : Nat) : List (Nat × Nat) :=
  (List.range h).flatMap (fun j => (List.range w).map (fun i => (i, j)))

/-- The edges of a rectangle register as integers. -/
def Rect16.toRect (r : Rect16) : Rect := ⟨r.x1.toInt, r.y1.toInt, r.x2.toInt, r.y2.toInt⟩

/-- The edges of `CLIP_ABS` as integers. -/
def Rect32.toRect (r : Rect32) : Rect := ⟨r.x1.toInt, r.y1.toInt, r.x2.toInt, r.y2.toInt⟩

/-- The normalized rectangle of two corner points, as `int16` edges (42_paint R315, R317). -/
def norm16 (x1 y1 x2 y2 : Half) : Rect16 :=
  ⟨if x1.toInt ≤ x2.toInt then x1 else x2, if y1.toInt ≤ y2.toInt then y1 else y2,
   if x1.toInt ≤ x2.toInt then x2 else x1, if y1.toInt ≤ y2.toInt then y2 else y1⟩

/-! ### Translation and clipping -/

/-- `ABS(x, y)` (42_paint R300). -/
def State.absPoint (s : State) (x y : Half) : Point :=
  (x.toInt + s.paint.originX.toInt, y.toInt + s.paint.originY.toInt)

/-- The rectangle with corners `ABS(x1, y1)` and `ABS(x2, y2)`, normalized (43_raster R343). -/
def State.absRect (s : State) (x1 y1 x2 y2 : Half) : Rect :=
  Rect.norm ⟨(s.absPoint x1 y1).1, (s.absPoint x1 y1).2, (s.absPoint x2 y2).1, (s.absPoint x2 y2).2⟩

/-- The pen position (10_state R55). -/
def State.penPos (s : State) : Point := (s.paint.posX.toInt, s.paint.posY.toInt)

/-- A paint state with the pen at an absolute point (10_state R55). -/
def Paint.moveTo (p : Paint) (q : Point) : Paint :=
  { p with posX := BitVec.ofInt 32 q.1, posY := BitVec.ofInt 32 q.2 }

/-- The absolute clip of a relative clip and an origin, with 32-bit sums (10_state R58). -/
def absClip (r : Rect16) (ox oy : Half) : Rect32 :=
  ⟨r.x1.signExtend 32 + ox.signExtend 32, r.y1.signExtend 32 + oy.signExtend 32,
   r.x2.signExtend 32 + ox.signExtend 32, r.y2.signExtend 32 + oy.signExtend 32⟩

/-- `VPB` (00_scope R11). -/
def State.vpb (s : State) : Rect := ⟨0, 0, (s.vpw : Int) - 1, (s.vph : Int) - 1⟩

/-- `CLIPVP = CLIP_ABS ∩ VPB` (42_paint R302). -/
def State.clipVp (s : State) : Rect := s.paint.clipAbs.toRect.inter s.vpb

/-! ### Colours -/

/-- One 2-bit channel as a 1-bit-per-channel pixel stores it (00_scope R13). -/
def fullChannel (ch : BitVec 2) : BitVec 2 := if ch = 0#2 then 0#2 else 3#2

/-- The blue, green and red channels of a colour. -/
def colourB (c : Colour) : BitVec 2 := c.extractLsb' 4 2
def colourG (c : Colour) : BitVec 2 := c.extractLsb' 2 2
def colourR (c : Colour) : BitVec 2 := c.extractLsb' 0 2

/-- The colour with the given channels. -/
def mkColour (b g r : BitVec 2) : Colour := (b ++ (g ++ r : BitVec 4) : BitVec 6)

/-- `ENC(c)` for `BPC = bpc` (00_scope R13). -/
def encColour (bpc : Bool) (c : Colour) : Colour :=
  if bpc then c else mkColour (fullChannel (colourB c)) (fullChannel (colourG c)) (fullChannel (colourR c))

/-- The byte `ENC(c) | SI` (00_scope R13). -/
def State.pixByte (s : State) (c : Colour) : Byte := (encColour s.active.bpc c).setWidth 8 ||| s.si

/-- The 16-entry palette of 00_scope R14. -/
def palette (i : BitVec 4) : Colour :=
  match i.toNat with
  | 0 => 0x00#6
  | 1 => 0x02#6
  | 2 => 0x08#6
  | 3 => 0x0A#6
  | 4 => 0x20#6
  | 5 => 0x22#6
  | 6 => 0x28#6
  | 7 => 0x2A#6
  | 8 => 0x15#6
  | 9 => 0x03#6
  | 10 => 0x0C#6
  | 11 => 0x0F#6
  | 12 => 0x30#6
  | 13 => 0x33#6
  | 14 => 0x3C#6
  | _ => 0x3F#6

/-- `PEN_E` (42_paint R301). -/
def State.penE (s : State) : Colour := if s.paint.swap then s.paint.brush else s.paint.pen

/-- `BRUSH_E` (42_paint R301). -/
def State.brushE (s : State) : Colour := if s.paint.swap then s.paint.pen else s.paint.brush

/-- `OPAQUE(p)` (44_blit R390). -/
def opaquePix (p : Byte) : Bool := p.getLsbD 7

/-! ### Plots -/

/-- The cell that `PLOT(x, y, c)` adds to a command's write set: none outside `CLIPVP` (42_paint R303). -/
def State.plotCell (s : State) (p : Point) (c : Colour) : Option (Nat × Byte) :=
  if s.clipVp.has p then some (s.fbAddr p.1 p.2, s.pixByte c) else none

/-- The write set of plotting one colour at a list of points, in order. -/
def State.plotCells (s : State) (ps : List Point) (c : Colour) : List (Nat × Byte) :=
  ps.filterMap (fun p => s.plotCell p c)

/-- The state after plotting one colour at a list of points. -/
def State.plotAll (s : State) (ps : List Point) (c : Colour) : State := s.writeCells (s.plotCells ps c)

end Sys2Proof.Machine
end

