-- ==== Sys2Proof/Machine/Chain.lean ====
section
/-!
DEFINITION. The timing model and the descriptor chain: line segments, pieces, the fields of every descriptor, `BUILD`,
`RETARGET` and the double-scan unit (40_video R200 to R227, 20_memory R115 to R117).
-/

namespace Sys2Proof.Machine

/-- The least multiple of 4 that is not below `n`. -/
def roundUp4 (n : Nat) : Nat := (n + 3) / 4 * 4

/-- What a segment of a line emits (40_video R204). -/
inductive SegKind where
  | blank
  | sync
  | row
  deriving DecidableEq, Repr

/-- A segment of a line: its kind and its length in bytes. -/
structure Seg where
  kind : SegKind
  len  : Nat
  deriving DecidableEq, Repr

/-- A piece of a segment, with its byte offset in the segment (40_video R207). -/
structure Piece where
  kind : SegKind
  len  : Nat
  off  : Nat
  deriving DecidableEq, Repr

/-- The four horizontal blocks in the order that the starting block gives, each mapped to its segments
(40_video R202, R204); `vpcol` and `vpw` place the viewport. -/
def rawSegments (t : Timings) (vpcol vpw : Nat) : List Seg :=
  let fp := [Seg.mk .blank t.hfp]
  let sy := [Seg.mk .sync t.hsync]
  let bp := [Seg.mk .blank t.hbp]
  let vi := [Seg.mk .blank vpcol, Seg.mk .row vpw, Seg.mk .blank (t.hvis - vpcol - vpw)]
  match t.sb with
  | 0 => fp ++ sy ++ bp ++ vi
  | 1 => sy ++ bp ++ vi ++ fp
  | 2 => bp ++ vi ++ fp ++ sy
  | _ => vi ++ fp ++ sy ++ bp

/-- One segment put before a list whose adjacent blanks are merged (40_video R204). -/
def consSegment (x : Seg) (xs : List Seg) : List Seg :=
  match x.kind, xs with
  | .blank, ⟨.blank, n⟩ :: rest => ⟨.blank, x.len + n⟩ :: rest
  | _, _ => x :: xs

/-- The segments of every line: no empty one, adjacent blanks merged (40_video R204). -/
def lineSegments (t : Timings) (vpcol vpw : Nat) : List Seg :=
  ((rawSegments t vpcol vpw).filter (fun x => decide (x.len ≠ 0))).foldr consSegment []

/-- The pieces of one segment, each at most `clen` long (40_video R207). -/
def segPieces (clen : Nat) (x : Seg) : List Piece :=
  (List.range ((x.len + clen - 1) / clen)).map (fun k => ⟨x.kind, min clen (x.len - k * clen), k * clen⟩)

/-- The pieces of a line; their number is the group size `G` (40_video R207). -/
def linePieces (t : Timings) (vpcol vpw clen : Nat) : List Piece :=
  (lineSegments t vpcol vpw).flatMap (segPieces clen)

/-- `CHUNK` (40_video R207). -/
def chunkLen (maxd : Nat) (t : Timings) : Nat := roundUp4 (min maxd t.ht)

/-- The vertical sync predicate `v(L)` (40_video R205). -/
def Timings.vsyncLine (t : Timings) (line : Nat) : Bool :=
  decide (t.vvis + t.vfp ≤ line ∧ line < t.vvis + t.vfp + t.vsync)

/-- The byte of constant buffer `k` in the order of 20_memory R116: `K_B0`, `K_S0`, `K_B1`, `K_S1` (40_video R206). -/
def Timings.constByte (t : Timings) (k : Nat) : Byte :=
  match k with
  | 0 => t.si
  | 1 => t.si ^^^ 0x40#8
  | 2 => t.si ^^^ 0x80#8
  | _ => t.si ^^^ 0xC0#8

/-- The address of constant buffer `k` (20_memory R116). -/
def State.constBuf (s : State) (k : Nat) : Nat := s.alloc.constBase.toNat + k * s.alloc.clen.toNat

/-- `TGT(L, off, t)`: the double-scan unit (40_video R223). -/
def State.rowTarget (s : State) (line off : Nat) (t : Bool) : Nat :=
  if line < s.active.vvis then
    let r : Int := ((line / s.active.scan : Nat) : Int) - (s.vprow : Int)
    if 0 ≤ r ∧ r < (s.vph : Int) ∧ (line % s.active.scan = 0 ∨ s.active.msblack = false) then
      (s.rows.entry t r.toNat).toNat + off
    else s.constBuf 0
  else if s.active.vsyncLine line then s.constBuf 2 else s.constBuf 0

/-- The target of a piece in a line, the rows taken from table `t` (40_video R222, R223). -/
def State.pieceTarget (s : State) (line : Nat) (p : Piece) (t : Bool) : Nat :=
  match p.kind with
  | .blank => if s.active.vsyncLine line then s.constBuf 2 else s.constBuf 0
  | .sync => if s.active.vsyncLine line then s.constBuf 3 else s.constBuf 1
  | .row => s.rowTarget line p.off t

/-- The control word of a descriptor (20_memory R115, 40_video R221): `OWNER`, `EOF`, `SOSF` and `OFFSET` 0, `LENGTH`
and `SIZE`. -/
def descWord0 (len : Nat) (eof : Bool) : Word :=
  (1#1 ++ (BitVec.ofBool eof ++ (0#6 ++ (BitVec.ofNat 12 len ++ BitVec.ofNat 12 (roundUp4 len) : BitVec 24)
    : BitVec 30) : BitVec 31))

/-- The pieces of the active lines. -/
def State.pieces (s : State) : List Piece := linePieces s.active s.vpcol s.vpw s.alloc.clen.toNat

/-- The address of descriptor `d` (40_video R221). -/
def State.descAddr (s : State) (d : Nat) : Nat := s.alloc.chainBase.toNat + 12 * d

/-- The bytes of descriptor `d`, which is piece `p` of a line (40_video R221 to R225). -/
def State.descBytes (s : State) (d line : Nat) (p : Piece) : List Byte :=
  let n := s.alloc.chainLen.toNat
  let eof := decide (d = (s.active.vvis * s.alloc.group.toNat) % n)
  bytesLe (descWord0 p.len eof).toNat 4 ++ bytesLe (s.pieceTarget line p s.visTbl) 4 ++
    bytesLe (s.descAddr ((d + 1) % n)) 4

/-- The bytes of the whole chain, line by line. -/
def State.chainBytes (s : State) : List Byte :=
  (List.range s.active.vt).flatMap (fun line =>
    s.pieces.zipIdx.flatMap (fun p => s.descBytes (line * s.alloc.group.toNat + p.2) line p.1))

/-- `BUILD` (40_video R226). -/
def State.build (s : State) : State :=
  s.setMem (memStoreBlock s.mem s.alloc.chainBase.toNat s.chainBytes)

/-- The `ROW` pieces of the visible lines, with their lines and descriptor numbers (40_video R227). -/
def State.rowDescs (s : State) : List (Nat × Nat × Piece) :=
  (List.range s.active.vvis).flatMap (fun line =>
    (s.pieces.zipIdx.filter (fun p => decide (p.1.kind = .row))).map
      (fun p => (line * s.alloc.group.toNat + p.2, line, p.1)))

/-- `RETARGET(t)`: one word store a visible `ROW` descriptor (40_video R227). -/
def State.retarget (s : State) (t : Bool) : State :=
  s.setMem (s.rowDescs.foldl
    (fun m d => memWriteLe m (s.descAddr d.1 + 4) 4 (s.rowTarget d.2.1 d.2.2.off t)) s.mem)

end Sys2Proof.Machine
end

