-- ==== Sys2Proof/Machine/Blit.lean ====
section
/-!
DEFINITION. Glyphs, bitmaps, copies, raw transfers and scrolls (44_blit R380 to R399). Each command reads its inputs from
the state it starts in, checks `MEM_OK` for every byte it reads or writes through a pointer, and then stores its write set.
-/

namespace Sys2Proof.Machine

/-! ### Glyph rendering -/

/-- The glyph options of 44_blit R380. -/
def optFillBg (o : Half) : Bool := o.getLsbD 0
def optBold (o : Half) : Bool := o.getLsbD 1
def optFaint (o : Half) : Bool := o.getLsbD 2
def optItalic (o : Half) : Bool := o.getLsbD 3
def optInvert (o : Half) : Bool := o.getLsbD 4
def optBlank (o : Half) : Bool := o.getLsbD 5
def optUnderline (o : Half) : Bool := o.getLsbD 6
def optDouble (o : Half) : Nat := (o.extractLsb' 7 2).toNat

/-- A 1-bpp bitmap in memory: its size and its address (20_memory R118). -/
structure Glyph where
  w    : Nat
  h    : Nat
  data : Nat
  deriving DecidableEq, Repr

/-- The bytes of a glyph row, `ceil(W/8)` (20_memory R118). -/
def glyphBpr (w : Nat) : Nat := (w + 7) / 8

/-- The addresses of a glyph's bitmap. -/
def Glyph.bytes (g : Glyph) : List Nat := byteRange g.data (g.h * glyphBpr g.w)

/-- The glyph bit `s(i, r)`, 0 outside the glyph (44_blit R381); the most significant bit is the leftmost pixel
(20_memory R118). -/
def glyphBit (m : Memory) (g : Glyph) (i : Int) (r : Nat) : Bool :=
  if 0 ≤ i ∧ i < g.w ∧ r < g.h then
    (memByte m (g.data + r * glyphBpr g.w + i.toNat / 8)).getLsbD (7 - i.toNat % 8)
  else false

/-- `s1(i, r)`: blank, bold and underline, of width `W` (44_blit R381 steps 1 and 2, log entry 21). -/
def glyphStyled (m : Memory) (g : Glyph) (o : Half) (i : Int) (r : Nat) : Bool :=
  if 0 ≤ i ∧ i < g.w then
    if optUnderline o ∧ r + 1 = g.h then true
    else if optBlank o then false
    else glyphBit m g i r || (optBold o && glyphBit m g (i - 1) r)
  else false

/-- The italic skew of row `r` (44_blit R381 step 3). -/
def italicSkew (g : Glyph) (o : Half) (r : Nat) : Nat := if optItalic o then (g.h - 1 - r) / 4 else 0

/-- `W2` (44_blit R381 step 3). -/
def italicWidth (g : Glyph) (o : Half) : Nat := g.w + (if optItalic o then (g.h - 1) / 4 else 0)

/-- `s2(i, r)` (44_blit R381 step 3). -/
def glyphSkewed (m : Memory) (g : Glyph) (o : Half) (i : Int) (r : Nat) : Bool :=
  glyphStyled m g o (i - italicSkew g o r) r

/-- `OW` (44_blit R381 step 4). -/
def glyphOutWidth (g : Glyph) (o : Half) : Nat :=
  if optDouble o = 0 then italicWidth g o else 2 * italicWidth g o

/-- `out(i, r)` (44_blit R381 step 4). -/
def glyphOut (m : Memory) (g : Glyph) (o : Half) (i r : Nat) : Bool :=
  match optDouble o with
  | 0 => glyphSkewed m g o i r
  | 1 => glyphSkewed m g o (i / 2 : Nat) r
  | 2 => glyphSkewed m g o (i / 2 : Nat) (r / 2)
  | _ => glyphSkewed m g o (i / 2 : Nat) ((r + g.h) / 2)

/-- One channel of reduced luminosity (44_blit R382). -/
def faintChannel (ch : BitVec 2) : BitVec 2 := if ch = 0#2 then 0#2 else ch - 1#2

/-- The foreground of `FAINT` (44_blit R382). -/
def faintColour (c : Colour) : Colour :=
  mkColour (faintChannel (colourB c)) (faintChannel (colourG c)) (faintChannel (colourR c))

/-- The colour `GLYPHBLIT` plots for an output bit, none where the background is transparent (44_blit R382). -/
def glyphColour (o : Half) (fg bg : Colour) (bit : Bool) : Option Colour :=
  let f := if optInvert o then bg else fg
  let g := if optInvert o then fg else bg
  if bit then some (if optFaint o then faintColour f else f)
  else if optFillBg o then some g else none

/-- The write set of `GLYPHBLIT` at absolute `(X, Y)`, row-major (44_blit R382): only the footprint's points in `CLIPVP`
are gone through. -/
def State.glyphCells (s : State) (at_ : Point) (g : Glyph) (o : Half) (fg bg : Colour) : List (Nat × Byte) :=
  ((Rect.inter ⟨at_.1, at_.2, at_.1 + (glyphOutWidth g o : Int) - 1, at_.2 + (g.h : Int) - 1⟩ s.clipVp).points).filterMap
    (fun p => (glyphColour o fg bg (glyphOut s.mem g o (p.1 - at_.1).toNat (p.2 - at_.2).toNat)).bind (s.plotCell p))

/-- The glyph of a glyph record (20_memory R118). -/
def State.glyphRecord (s : State) (a : Nat) : Glyph :=
  ⟨(memHalf s.mem (a + 4)).toNat, (memHalf s.mem (a + 6)).toNat, (memWord s.mem (a + 8)).toNat⟩

/-- The state after drawing the glyph record at `a`, all of whose bytes are readable (44_blit R383). -/
def State.drawGlyphRecord (s : State) (a : Nat) : State :=
  let g := s.glyphRecord a
  if g.w = 0 ∨ g.h = 0 then s
  else
    match lowestBad s g.bytes with
    | some fa => s.raiseCmd 0x0C#8 .busExe fa
    | none =>
      s.writeCells (s.glyphCells (s.absPoint (memHalf s.mem a) (memHalf s.mem (a + 2))) g s.paint.glyphOpt s.penE s.brushE)

/-- `DRAWGLYPH` (44_blit R383). -/
def execDrawGlyph (addr : Word) (s : State) : Host.Outcome State Fault Refusal :=
  .next (match lowestBad s (byteRange addr.toNat 12) with
    | some fa => s.raiseCmd 0x0C#8 .busExe fa
    | none => s.drawGlyphRecord addr.toNat)

/-! ### Glyph buffers -/

/-- The glyph-buffer descriptor (20_memory R120). -/
structure GlyphBuffer where
  gw   : Nat
  gh   : Nat
  font : Nat
  cols : Nat
  rows : Nat
  map  : Nat
  deriving DecidableEq, Repr

/-- The glyph-buffer descriptor at an address. -/
def State.glyphBuffer (s : State) (a : Nat) : GlyphBuffer :=
  ⟨(memHalf s.mem a).toNat, (memHalf s.mem (a + 2)).toNat, (memWord s.mem (a + 4)).toNat,
   (memHalf s.mem (a + 8)).toNat, (memHalf s.mem (a + 10)).toNat, (memWord s.mem (a + 12)).toNat⟩

/-- The cells `(c, r)` of a range, row-major: normalized and clamped to the grid (44_blit R388). -/
def GlyphBuffer.cells (b : GlyphBuffer) (col1 row1 col2 row2 : Half) : List (Nat × Nat) :=
  let c1 := min col1.toNat col2.toNat
  let r1 := min row1.toNat row2.toNat
  let c2 := min (max col1.toNat col2.toNat) (b.cols - 1)
  let r2 := min (max row1.toNat row2.toNat) (b.rows - 1)
  (gridPoints (c2 + 1 - c1) (r2 + 1 - r1)).map (fun p => (c1 + p.1, r1 + p.2))

/-- The address of a cell's word (20_memory R120). -/
def GlyphBuffer.cellAddr (b : GlyphBuffer) (c : Nat × Nat) : Nat := wrapAddr (b.map + 4 * (c.2 * b.cols + c.1))

/-- The glyph of a cell word (44_blit R386). -/
def GlyphBuffer.glyph (b : GlyphBuffer) (cw : Word) : Glyph :=
  ⟨b.gw, b.gh, wrapAddr (b.font + (cw.extractLsb' 0 8).toNat * b.gh * glyphBpr b.gw)⟩

/-- The write set of one cell (44_blit R386 to R388). -/
def State.cellCells (s : State) (b : GlyphBuffer) (c : Nat × Nat) : List (Nat × Byte) :=
  let cw := memWord s.mem (b.cellAddr c)
  s.glyphCells (((c.1 * b.gw : Nat) : Int) + s.paint.originX.toInt, ((c.2 * b.gh : Nat) : Int) + s.paint.originY.toInt)
    (b.glyph cw) (hiHalf cw) (palette (cw.extractLsb' 12 4)) (palette (cw.extractLsb' 8 4))

/-- The state after rendering a list of cells, all of whose descriptor is readable: the cells' bytes are checked first
and then the glyphs' (44_blit R385). -/
def State.renderCells (s : State) (b : GlyphBuffer) (cs : List (Nat × Nat)) : State :=
  match lowestBad s (cs.flatMap (fun c => byteRange (b.cellAddr c) 4)) with
  | some fa => s.raiseCmd 0x15#8 .busExe fa
  | none =>
    match lowestBad s (cs.flatMap (fun c => (b.glyph (memWord s.mem (b.cellAddr c))).bytes)) with
    | some fa => s.raiseCmd 0x15#8 .busExe fa
    | none => s.writeCells (cs.flatMap (s.cellCells b))

/-- `RENDERGLYPHSBUFFER` (44_blit R388). -/
def execRenderGlyphsBuffer (addr : Word) (col1 row1 col2 row2 : Half) (s : State) : Host.Outcome State Fault Refusal :=
  .next (match lowestBad s (byteRange addr.toNat 16) with
    | some fa => s.raiseCmd 0x15#8 .busExe fa
    | none =>
      let b := s.glyphBuffer addr.toNat
      if b.gw = 0 ∨ b.gh = 0 ∨ b.cols = 0 ∨ b.rows = 0 then s
      else s.renderCells b (b.cells col1 row1 col2 row2))

/-! ### Bitmaps -/

/-- A bitmap header: size and data address (20_memory R119). -/
structure Bitmap where
  w    : Nat
  h    : Nat
  data : Nat
  deriving DecidableEq, Repr

/-- The bitmap header at an address. -/
def readBitmap (m : Memory) (a : Nat) : Bitmap :=
  ⟨(memHalf m a).toNat, (memHalf m (a + 2)).toNat, (memWord m (a + 4)).toNat⟩

/-- The address of bitmap pixel `(i, j)` (20_memory R119). -/
def Bitmap.pixAddr (b : Bitmap) (i j : Nat) : Nat := wrapAddr (b.data + j * b.w + i)

/-- The write set of `DRAWBITMAP` at an absolute position (44_blit R389): only the points in `CLIPVP` are gone
through. -/
def State.bitmapCells (s : State) (at_ : Point) (b : Bitmap) : List (Nat × Byte) :=
  ((Rect.inter ⟨at_.1, at_.2, at_.1 + (b.w : Int) - 1, at_.2 + (b.h : Int) - 1⟩ s.clipVp).points).filterMap
    (fun p =>
      let v := memByte s.mem (b.pixAddr (p.1 - at_.1).toNat (p.2 - at_.2).toNat)
      if opaquePix v then s.plotCell p (v.extractLsb' 0 6) else none)

/-- `DRAWBITMAP` (44_blit R389). -/
def execDrawBitmap (x y : Half) (addr : Word) (s : State) : Host.Outcome State Fault Refusal :=
  .next (match lowestBad s (byteRange addr.toNat 8) with
    | some fa => s.raiseCmd 0x16#8 .busExe fa
    | none =>
      let b := readBitmap s.mem addr.toNat
      match lowestBad s (byteRange b.data (b.w * b.h)) with
      | some fa => s.raiseCmd 0x16#8 .busExe fa
      | none => s.writeCells (s.bitmapCells (s.absPoint x y) b))

/-! ### Copies and raw transfers -/

/-- The write set of `COPYRECT` from the rectangle `r` to the pen position (44_blit R391). -/
def State.copyCells (s : State) (r : Rect) : List (Nat × Byte) :=
  ((r.inter s.vpb).points).filterMap (fun p =>
    let d : Point := (s.penPos.1 + p.1 - r.x1, s.penPos.2 + p.2 - r.y1)
    if s.clipVp.has d then some (s.fbAddr d.1 d.2, s.fbRead p.1 p.2) else none)

/-- `COPYRECT` (44_blit R391). -/
def execCopyRect (x1 y1 x2 y2 : Half) (s : State) : Host.Outcome State Fault Refusal :=
  .next (s.writeCells (s.copyCells (s.absRect x1 y1 x2 y2)))

/-- The pixels of a raw transfer at absolute `(X, Y)` of size `w` by `h` that lie in `r`, each with the address of its
buffer byte (44_blit R392, R393, 20_memory R125); none for a size that is not positive. -/
def rawPixels (at_ : Point) (w h : Half) (addr : Word) (r : Rect) : List (Point × Nat) :=
  ((Rect.inter ⟨at_.1, at_.2, at_.1 + w.toInt - 1, at_.2 + h.toInt - 1⟩ r).points).map
    (fun p => (p, wrapAddr (addr.toNat + (p.2 - at_.2).toNat * w.toNat + (p.1 - at_.1).toNat)))

/-- `READRAWDATA` (44_blit R392): limited to `VPB`, not to the clip. -/
def execReadRawData (x y w h : Half) (addr : Word) (s : State) : Host.Outcome State Fault Refusal :=
  .next (if w.toInt ≤ 0 ∨ h.toInt ≤ 0 then s
    else
      let t := rawPixels (s.absPoint x y) w h addr s.vpb
      match lowestBad s (t.map (fun q => q.2)) with
      | some fa => s.raiseCmd 0x13#8 .busExe fa
      | none => s.writeCells (t.map (fun q => (q.2, s.fbRead q.1.1 q.1.2))))

/-- `WRITERAWDATA` (44_blit R393): the sync bits of a stored byte are always `SI`. DESIGN CHOICE (log entry 36): its colour bits
are the raw byte's, without `ENC`, also with `BPC = 0`, where 20_memory R104 says that a channel is 0 or 3. -/
def execWriteRawData (x y w h : Half) (addr : Word) (s : State) : Host.Outcome State Fault Refusal :=
  .next (if w.toInt ≤ 0 ∨ h.toInt ≤ 0 then s
    else
      let t := rawPixels (s.absPoint x y) w h addr s.clipVp
      match lowestBad s (t.map (fun q => q.2)) with
      | some fa => s.raiseCmd 0x14#8 .busExe fa
      | none => s.writeCells (t.map (fun q => (s.fbAddr q.1.1 q.1.2, (memByte s.mem q.2 &&& 0x3F#8) ||| s.si))))

/-! ### Scrolling -/

/-- The effective scroll region `E` (44_blit R394). -/
def State.scrollRegion (s : State) : Rect := s.paint.scroll.toRect.norm.inter s.clipVp

/-- The row of a region that row `y` shows after it scrolled down by `m` (44_blit R395). -/
def scrolledRow (e : Rect) (m : Int) (y : Int) : Int := e.y1 + (y - e.y1 - m) % (e.height : Int)

/-- The column of a region that column `x` shows after it scrolled right by `m` (44_blit R397). -/
def scrolledCol (e : Rect) (m : Int) (x : Int) : Int := e.x1 + (x - e.x1 - m) % (e.width : Int)

/-- The entries of a row table after the rows of `e` rotated down by `m` (44_blit R396). -/
def rotateTable (t : List Word) (e : Rect) (m : Int) : List Word :=
  (List.range (max t.length (e.y2 + 1).toNat)).map (fun (y : Nat) =>
    if e.y1 ≤ (y : Int) ∧ (y : Int) ≤ e.y2 then t.getD (scrolledRow e m y).toNat 0#32 else t.getD y 0#32)

/-- The row tables with table `t` replaced. -/
def Rows.setTable (r : Rows) (t : Bool) (l : List Word) : Rows :=
  if t then { r with rt1 := l } else { r with rt0 := l }

/-- `ROTATE_ROWS(E, m)` (44_blit R396). -/
def State.rotateRows (s : State) (e : Rect) (m : Int) : State :=
  let t := { s with rows := s.rows.setTable s.drawTbl (rotateTable (s.rows.table s.drawTbl) e m) }
  if s.alloc.dblActive then t else t.retarget false

/-- `COPY_ROWS(E, m)` (44_blit R399). -/
def State.copyRows (s : State) (e : Rect) (m : Int) : State :=
  s.writeCells (e.points.map (fun p => (s.fbAddr p.1 p.2, s.fbRead p.1 (scrolledRow e m p.2))))

/-- `VSCROLL` (44_blit R395). -/
def execVScroll (count : Half) (s : State) : Host.Outcome State Fault Refusal :=
  .next (let e := s.scrollRegion
    if e.isEmpty then s
    else
      let m := count.toInt % (e.height : Int)
      if m = 0 then s
      else if e.x1 = 0 ∧ e.x2 = (s.vpw : Int) - 1 then s.rotateRows e m
      else s.copyRows e m)

/-- `HSCROLL` (44_blit R397). -/
def execHScroll (count : Half) (s : State) : Host.Outcome State Fault Refusal :=
  .next (let e := s.scrollRegion
    if e.isEmpty then s
    else
      let m := count.toInt % (e.width : Int)
      if m = 0 then s
      else s.writeCells (e.points.map (fun p => (s.fbAddr p.1 p.2, s.fbRead (scrolledCol e m p.1) p.2))))

end Sys2Proof.Machine
end

