-- ==== Sys2Proof/Machine/Sprites.lean ====
section
/-!
DEFINITION. The sprite compositor: hide and show passes record by record, the refresh cycle, the buffer swap and the two
sprite instructions (45_sprites R430 to R445, 44_blit R405). A pass follows its pseudocode in order: each byte it reads is
the byte written last (log entry 26).
-/

namespace Sys2Proof.Machine

/-! ### Records (20_memory R122, R123) -/

/-- `LISTVALID` (45_sprites R434). -/
def State.listValid (s : State) : Bool :=
  decide (s.sprActive.base ≠ 0#32 ∧ 1 ≤ s.sprActive.count.toNat ∧ s.sprActive.count.toNat ≤ s.cfg.maxSprites ∧
    32 ≤ s.sprActive.stride.toNat ∧ s.sprActive.stride.toNat % 4 = 0)

/-- The number of records of the active list: none when it is not valid (45_sprites R434). -/
def State.recordCount (s : State) : Nat := if s.listValid then s.sprActive.count.toNat else 0

/-- The address of record `k` (20_memory R122). -/
def State.recordAddr (s : State) (k : Nat) : Nat :=
  wrapAddr (s.sprActive.base.toNat + k * s.sprActive.stride.toNat)

/-- The lowest of a record's 32 header bytes that does not satisfy `MEM_OK` (45_sprites R431, R434). -/
def State.recordBad (s : State) (k : Nat) : Option Nat := lowestBad s (byteRange (s.recordAddr k) 32)

/-- The `PRIV` byte of record `k`. -/
def State.recordPriv (s : State) (k : Nat) : Byte := memByte s.mem (s.recordAddr k + 17)

/-- The state with the `PRIV` byte of record `k` written. -/
def State.setRecordPriv (s : State) (k : Nat) (v : Byte) : State :=
  s.setMem (memStore s.mem (s.recordAddr k + 17) v)

/-- `PRIV` with `ALLOWDRAW` cleared, bits 7:2 written 0 (20_memory R122, log entry 20). -/
def privHidden (v : Byte) : Byte := v &&& 0x02#8

/-- `PRIV` with `DRAWN` cleared, bits 7:2 written 0 (44_blit R405, log entry 20). -/
def privUndrawn (v : Byte) : Byte := v &&& 0x01#8

/-! ### Hide pass (45_sprites R431, R437) -/

/-- The memory after one pixel has been restored, at offset `q` of an area (45_sprites R437). -/
def State.restorePixel (s : State) (sx sy : Int) (sw sb : Nat) (m : Memory) (q : Nat × Nat) : Memory :=
  if s.vpb.has (sx + (q.1 : Int), sy + (q.2 : Int)) then
    memStore m (s.vfbAddr (sx + (q.1 : Int)) (sy + (q.2 : Int))) (memByte m (sb + q.2 * sw + q.1))
  else m

/-- `RESTORE(SX, SY, SW, SH, sb)` (45_sprites R437). -/
def State.restoreArea (s : State) (sx sy : Int) (sw sh sb : Nat) : State :=
  match lowestBad s (byteRange sb (sw * sh)) with
  | some fa => s.raisePass fa
  | none => s.setMem ((gridPoints sw sh).foldl (s.restorePixel sx sy sw sb) s.mem)

/-- The cursor's part of a hide pass (45_sprites R431). Its saved rectangle lies in the viewport, so its edges are read
unsigned (log entry 18). -/
def State.hideCursor (s : State) : State :=
  if s.cursor.allowDraw then
    let t := s.restoreArea (loHalf s.cursor.saved0).toNat (hiHalf s.cursor.saved0).toNat
      (loHalf s.cursor.saved1).toNat (hiHalf s.cursor.saved1).toNat s.cursor.bg.toNat
    { t with cursor := { t.cursor with allowDraw := false } }
  else s

/-- Whether the `PRIV` byte of record `k` exists. -/
def State.privOk (s : State) (k : Nat) : Bool := memOk s (wrapAddr (s.recordAddr k + 17))

/-- `ALLOWDRAW` of record `k` cleared without a restore, where its byte exists (45_sprites R443, log entry 33). -/
def State.dropAllowDraw (s : State) (k : Nat) : State :=
  if s.privOk k && (s.recordPriv k).getLsbD 0 then s.setRecordPriv k (privHidden (s.recordPriv k)) else s

/-- Record `k`'s part of a hide pass (45_sprites R431): a fault clears its `ALLOWDRAW` without a restore (R443). -/
def State.hideRecord (s : State) (k : Nat) : State :=
  match s.recordBad k with
  | some fa => (s.raisePass fa).dropAllowDraw k
  | none =>
    if (s.recordPriv k).getLsbD 0 then
      let a := s.recordAddr k
      let t := s.restoreArea (memHalf s.mem (a + 20)).toInt (memHalf s.mem (a + 22)).toInt
        (memHalf s.mem (a + 24)).toNat (memHalf s.mem (a + 26)).toNat (memWord s.mem (a + 12)).toNat
      t.setRecordPriv k (privHidden (t.recordPriv k))
    else s

/-- The end of a hide pass (45_sprites R431). -/
def State.hideEnd (s : State) : State := { s with comp := { s.comp with shown := false, phase := .settled } }

/-- `HIDE_PASS` at once: the cursor, the records from the last to the first, the end. -/
def State.hidePass (s : State) : State :=
  (((List.range s.recordCount).reverse).foldl State.hideRecord s.hideCursor).hideEnd

/-! ### Show pass (45_sprites R432, R435) -/

/-- The saved rectangle of a sprite of size `w` by `h` at `(sx, sy)`: `(0, 0, 0, 0)` when it is off screen. -/
structure SavedArea where
  x : Nat
  y : Nat
  w : Nat
  h : Nat
  deriving DecidableEq, Repr

/-- The part of a sprite's footprint inside the viewport (45_sprites R432). -/
def State.spriteArea (s : State) (sx sy : Int) (b : Bitmap) : SavedArea :=
  let r := Rect.inter ⟨sx, sy, sx + (b.w : Int) - 1, sy + (b.h : Int) - 1⟩ s.vpb
  if r.isEmpty then ⟨0, 0, 0, 0⟩ else ⟨r.x1.toNat, r.y1.toNat, r.width, r.height⟩

/-- The bitmap address under offset `q` of the saved area (45_sprites R432). -/
def spriteSource (sx sy : Int) (b : Bitmap) (r : SavedArea) (q : Nat × Nat) : Nat :=
  b.pixAddr ((r.x : Int) + (q.1 : Int) - sx).toNat ((r.y : Int) + (q.2 : Int) - sy).toNat

/-- The address that faults in `DRAWSPRITE`, if one does: first the save buffer's, then the bitmap's (45_sprites R432,
log entry 14). -/
def State.spriteBad (s : State) (sx sy : Int) (b : Bitmap) (sb : Nat) : Option Nat :=
  let r := s.spriteArea sx sy b
  match lowestBad s (byteRange sb (r.w * r.h)) with
  | some fa => some fa
  | none => lowestBad s ((gridPoints r.w r.h).map (spriteSource sx sy b r))

/-- The address of the visible pixel at offset `q` of a saved area (45_sprites R432, R436). -/
def State.areaAddr (s : State) (r : SavedArea) (q : Nat × Nat) : Nat :=
  s.vfbAddr ((r.x + q.1 : Nat) : Int) ((r.y + q.2 : Nat) : Int)

/-- The memory after one pixel's background has been saved (45_sprites R432). -/
def State.savePixel (s : State) (r : SavedArea) (sb : Nat) (m : Memory) (q : Nat × Nat) : Memory :=
  memStore m (sb + q.2 * r.w + q.1) (memByte m (s.areaAddr r q))

/-- The memory after the background under an area has been saved (45_sprites R432). -/
def State.saveBackground (s : State) (m : Memory) (r : SavedArea) (sb : Nat) : Memory :=
  (gridPoints r.w r.h).foldl (s.savePixel r sb) m

/-- The memory after one pixel of a sprite has been drawn, if it is opaque (45_sprites R432, 44_blit R390). DESIGN CHOICE (log
entry 36): its colour bits are the bitmap's, without `ENC`, also with `BPC = 0`, where 20_memory R104 says that a channel is 0
or 3. -/
def State.drawPixel (s : State) (sx sy : Int) (b : Bitmap) (r : SavedArea) (m : Memory) (q : Nat × Nat) : Memory :=
  if opaquePix (memByte m (spriteSource sx sy b r q)) then
    memStore m (s.areaAddr r q) ((memByte m (spriteSource sx sy b r q) &&& 0x3F#8) ||| s.si)
  else m

/-- The memory after a sprite's opaque pixels have been drawn (45_sprites R432). -/
def State.drawPixels (s : State) (m : Memory) (sx sy : Int) (b : Bitmap) (r : SavedArea) : Memory :=
  (gridPoints r.w r.h).foldl (s.drawPixel sx sy b r) m

/-- `DRAWSPRITE` of a sprite whose bytes are all accessible, without its bookkeeping fields: the background is saved
whole before any pixel is drawn (45_sprites R432). -/
def State.composite (s : State) (sx sy : Int) (b : Bitmap) (sb : Nat) : State :=
  s.setMem (s.drawPixels (s.saveBackground s.mem (s.spriteArea sx sy b) sb) sx sy b (s.spriteArea sx sy b))

/-- What `FRAME(a)` gives (45_sprites R435). -/
inductive FrameRef where
  | none
  | bad (fa : Nat)
  | header (a : Nat)
  deriving DecidableEq, Repr

/-- `FRAME(a)` of record `k` (45_sprites R435). -/
def State.recordFrame (s : State) (k : Nat) : FrameRef :=
  let a := s.recordAddr k
  let frames := (memWord s.mem (a + 4)).toNat
  let cur := (memHalf s.mem (a + 10)).toNat
  if (memHalf s.mem (a + 8)).toNat ≤ cur ∨ frames = 0 then .none
  else
    match lowestBad s (byteRange (frames + 4 * cur) 4) with
    | some fa => .bad fa
    | none =>
      let fp := (memWord s.mem (frames + 4 * cur)).toNat
      if fp = 0 then .none
      else
        match lowestBad s (byteRange fp 8) with
        | some fa => .bad fa
        | none => .header fp

/-- The `SAVED_*` fields of a record, 16 bits each, at offsets 20 to 27 (20_memory R122). -/
def SavedArea.bytes (r : SavedArea) : List Byte := bytesLe r.x 2 ++ bytesLe r.y 2 ++ bytesLe r.w 2 ++ bytesLe r.h 2

/-- Record `k`'s `DRAWSPRITE` with its `SAVED_*` and `PRIV` writes (45_sprites R432). -/
def State.drawRecord (s : State) (k hdr : Nat) : State :=
  let a := s.recordAddr k
  let sx := (memHalf s.mem a).toInt
  let sy := (memHalf s.mem (a + 2)).toInt
  let sb := (memWord s.mem (a + 12)).toNat
  let b := readBitmap s.mem hdr
  let static := (memByte s.mem (a + 16)).getLsbD 1
  match s.spriteBad sx sy b sb with
  | some fa => s.raisePass fa
  | none =>
    ((s.setMem (memStoreBlock s.mem (wrapAddr (a + 20)) (s.spriteArea sx sy b).bytes)).composite sx sy b sb).setRecordPriv k
      (if static then 0x02#8 else 0x01#8)

/-- Record `k`'s part of a show pass (45_sprites R432, R438). -/
def State.showRecord (s : State) (k : Nat) : State :=
  match s.recordBad k with
  | some fa => s.raisePass fa
  | none =>
    let flags := memByte s.mem (s.recordAddr k + 16)
    if flags.getLsbD 0 = false then s
    else if flags.getLsbD 1 ∧ (s.recordPriv k).getLsbD 1 then s
    else
      match s.recordFrame k with
      | .none => s
      | .bad fa => s.raisePass fa
      | .header hdr => s.drawRecord k hdr

/-- Whether record `k`, readable, has `ALLOWDRAW` (45_sprites R432, log entry 19). -/
def State.recordShown (s : State) (k : Nat) : Bool := (s.recordBad k).isNone && (s.recordPriv k).getLsbD 0

/-- Whether the cursor is to be shown (45_sprites R432, R439). -/
def State.cursorWanted (s : State) : Bool := s.cursor.en && decide (s.cursor.bmp ≠ 0#32)

/-- The cursor's drawing position (45_sprites R439). -/
def State.cursorPos (s : State) : Point :=
  ((loHalf s.cursor.pos).toInt - (loHalf s.cursor.hot).toInt, (hiHalf s.cursor.pos).toInt - (hiHalf s.cursor.hot).toInt)

/-- The cursor's `DRAWSPRITE` (45_sprites R432, R439; its header bytes are checked first, log entry 17). -/
def State.drawCursor (s : State) : State :=
  match lowestBad s (byteRange s.cursor.bmp.toNat 8) with
  | some fa => s.raisePass fa
  | none =>
    let b := readBitmap s.mem s.cursor.bmp.toNat
    let p := s.cursorPos
    match s.spriteBad p.1 p.2 b s.cursor.bg.toNat with
    | some fa => s.raisePass fa
    | none =>
      let r := s.spriteArea p.1 p.2 b
      let t := s.composite p.1 p.2 b s.cursor.bg.toNat
      { t with cursor := { t.cursor with
          saved0 := pairWord (BitVec.ofNat 16 r.x) (BitVec.ofNat 16 r.y)
          saved1 := pairWord (BitVec.ofNat 16 r.w) (BitVec.ofNat 16 r.h)
          allowDraw := true } }

/-- The start of a show pass (45_sprites R432). -/
def State.showStart (s : State) : State := { s with comp := { s.comp with refreshPending := false } }

/-- The cursor's part of a show pass, and its end; `seen` says whether a record has `ALLOWDRAW` (45_sprites R432). -/
def State.showFinish (s : State) (seen : Bool) : State :=
  let t := if s.cursorWanted then s.drawCursor else s
  { t with comp := { t.comp with shown := t.cursor.allowDraw || seen, phase := .idle } }

/-- One record of a show pass, with the running `seen`. -/
def showStep (p : State × Bool) (k : Nat) : State × Bool :=
  (p.1.showRecord k, p.2 || (p.1.showRecord k).recordShown k)

/-- `SHOW_PASS` at once (45_sprites R432). -/
def State.showPass (s : State) : State :=
  let p := (List.range s.recordCount).foldl showStep (s.showStart, false)
  p.1.showFinish p.2

/-- `REFRESH` at once (45_sprites R433). -/
def State.refreshPass (s : State) : State := (if s.comp.shown then s.hidePass else s).showPass

/-! ### Operations -/

/-- Rewrite the `PRIV` byte of one record, or fault it (45_sprites R434, R440, log entry 16). -/
def State.updatePriv (f : Byte → Byte) (s : State) (k : Nat) : State :=
  match s.recordBad k with
  | some fa => s.raisePass fa
  | none => s.setRecordPriv k (f (s.recordPriv k))

/-- The `PRIV` byte of a record written 0 where it exists; nothing is recorded (40_video R219, 60_exceptions R481). -/
def State.clearPriv (s : State) (k : Nat) : State := if s.privOk k then s.setRecordPriv k 0x00#8 else s

/-- Rewrite the `PRIV` byte of every record of a valid list. -/
def State.updatePrivs (s : State) (f : Byte → Byte) : State :=
  (List.range s.recordCount).foldl (State.updatePriv f) s

/-- Whether there is anything to show: a valid list, which is not empty, or an enabled cursor (44_blit R405). -/
def State.anySprite (s : State) : Bool := s.listValid || s.cursorWanted

/-- `REFRESHSPRITES` (45_sprites R441). -/
def execRefreshSprites (s : State) : Host.Outcome State Fault Refusal := .next s.requestRefresh

/-- The exchange of the drawing and the visible buffer, with the chain's new targets (44_blit R405). -/
def State.swapTables (s : State) : State :=
  let t := { s with rows := { s.rows with visBuf := !s.rows.visBuf } }
  t.retarget t.visTbl

/-- `SWAPBUFFERS` (44_blit R405): one step with its compositing passes (log entry 6). -/
def execSwapBuffers (s : State) : Host.Outcome State Fault Refusal :=
  .next (if s.alloc.dblActive = false then s
    else
      let t := (if s.comp.shown then s.hidePass else s).swapTables.updatePrivs privUndrawn
      if t.anySprite then t.refreshPass else t)

/-- `SETSPRITES` (45_sprites R440). When sprites are shown, the step function runs the hide pass as steps of its own
before this one, so that `SHOWN` is already 0 here (log entry 7). -/
def execHostopSetSprites (s : State) : Host.Outcome State Fault Refusal :=
  .next (
    let t := if s.comp.shown then s.hidePass else s
    (({ t with sprActive := t.sprStaged }).updatePrivs (fun _ => 0x00#8)).requestRefresh)

end Sys2Proof.Machine
end

