-- ==== Sys2Proof/Machine/HostOps.lean ====
section
/-!
DEFINITION. The host operations (30_encoding R168): `APPLY` in its three phases (40_video R210 to R220), the geometry
adjuster (40_video R240 to R243), and the queue operations (41_queue R275 to R278).
-/

namespace Sys2Proof.Machine

/-! ### APPLY: validation (40_video R201, R211 to R213) -/

/-- Timing validity (40_video R201). -/
def Timings.valid (t : Timings) : Bool :=
  decide (1 ≤ t.hvis ∧ 1 ≤ t.vvis ∧ 1 ≤ t.scan ∧ t.scan ≤ 15 ∧ t.vvis % t.scan = 0 ∧ t.ht ≤ 65535 ∧ t.vt ≤ 65535)

/-- The requested viewport width with its default resolved (40_video R212). -/
def Timings.vpwWanted (t : Timings) : Nat := if (loHalf t.vpSize).toNat = 0 then t.hvis else (loHalf t.vpSize).toNat

/-- The requested viewport height, 0 for the default. -/
def Timings.vphWanted (t : Timings) : Nat := (hiHalf t.vpSize).toNat

/-- The viewport check (40_video R212). -/
def viewportOk (maxRows : Nat) (t : Timings) : Bool :=
  decide (t.vpwWanted ≤ t.hvis ∧ (t.vphWanted = 0 ∨ (t.vphWanted ≤ t.vvis / t.scan ∧ t.vphWanted ≤ maxRows)))

/-- Whether the byte ranges of two pools meet. -/
def Pool.overlaps (p q : Pool) : Bool :=
  decide (p.base.toNat < q.base.toNat + q.size.toNat ∧ q.base.toNat < p.base.toNat + p.size.toNat)

/-- The check of one pool on its own (40_video R213). -/
def State.poolOk (s : State) (p : Pool) : Bool :=
  decide (p.base.toNat % 4 = 0 ∧ p.size.toNat % 4 = 0 ∧ p.base.toNat + p.size.toNat ≤ addrSpace) &&
    (byteRange p.base.toNat p.size.toNat).all (memOk s)

/-- The pools with a nonzero size. -/
def State.usedPools (s : State) : List Pool := s.pools.filter (fun p => decide (p.size ≠ 0#32))

/-- The pool check (40_video R213). -/
def State.poolsOk (s : State) : Bool :=
  s.usedPools.all s.poolOk && decide (s.usedPools.Pairwise (fun p q => p.overlaps q = false))

/-! ### APPLY: planning (40_video R214 to R217) -/

/-- What is left of a pool while `APPLY` plans. -/
structure PoolFree where
  next : Nat
  free : Nat
  deriving DecidableEq, Repr

/-- `alloc(n)`: the first pool with room (40_video R214). -/
def poolAlloc (n : Nat) : List PoolFree → Option (Nat × List PoolFree)
  | [] => none
  | p :: ps =>
    if n ≤ p.free then some (p.next, ⟨p.next + n, p.free - n⟩ :: ps)
    else (poolAlloc n ps).map (fun r => (r.1, p :: r.2))

/-- `k` allocations of `n` bytes in order (40_video R217). -/
def poolAllocMany (n : Nat) : Nat → List PoolFree → Option (List Nat)
  | 0, _ => some []
  | k + 1, ps =>
    match poolAlloc n ps with
    | none => none
    | some (a, ps') => (poolAllocMany n k ps').map (fun as => a :: as)

/-- The layout that `APPLY` plans (40_video R214 to R217). -/
structure Plan where
  vpw       : Nat
  vph       : Nat
  vpcol     : Nat
  vprow     : Nat
  clen      : Nat
  group     : Nat
  vt        : Nat
  stride    : Nat
  chainBase : Nat
  constBase : Nat
  rt0       : List Nat
  rt1       : List Nat
  deriving DecidableEq, Repr

/-- The viewport height of a plan with `avail` rows to place, none where they cannot be placed (40_video R216). -/
def planHeight (maxRows : Nat) (t : Timings) (avail : Nat) : Option Nat :=
  let nb := if t.dbl then 2 else 1
  if t.vphWanted = 0 then
    let h := min (t.vvis / t.scan) (min maxRows (avail / nb))
    if h = 0 then none else some h
  else if nb * t.vphWanted > avail then none else some t.vphWanted

/-- PLAN (40_video R214 to R217): the layout, or the error that the plan raises. -/
def State.plan (s : State) : Except ErrCode Plan :=
  let t := s.staged
  let vpw := t.vpwWanted
  let vpcol := (t.hvis - vpw) / 2
  let clen := chunkLen s.cfg.maxd t
  let g := (linePieces t vpcol vpw clen).length
  let stride := roundUp4 vpw
  match poolAlloc (12 * g * t.vt) (s.pools.map (fun p => ⟨p.base.toNat, p.size.toNat⟩)) with
  | none => .error .nomemChain
  | some (chain, ps1) =>
    match poolAlloc (4 * clen) ps1 with
    | none => .error .nomemChain
    | some (const, ps2) =>
      match planHeight s.cfg.maxRows t ((ps2.map (fun p => p.free / stride)).sum) with
      | none => .error .nomemViewport
      | some vph =>
        match poolAllocMany stride ((if t.dbl then 2 else 1) * vph) ps2 with
        | none => .error .nomemViewport
        | some rows =>
          .ok { vpw := vpw, vph := vph, vpcol := vpcol, vprow := (t.vvis / t.scan - vph) / 2, clen := clen, group := g,
                vt := t.vt, stride := stride, chainBase := chain, constBase := const,
                rt0 := rows.take vph, rt1 := rows.drop vph }

/-- VALIDATE and PLAN: the layout, or the first check that fails (40_video R210, 60_exceptions R476). -/
def State.applyPlan (s : State) : Except ErrCode Plan :=
  if s.staged.valid = false then .error .cfgTiming
  else if viewportOk s.cfg.maxRows s.staged = false then .error .cfgViewport
  else if s.poolsOk = false then .error .cfgPool
  else s.plan

/-! ### APPLY: commit (40_video R218, R219) -/

/-- A number as a 32-bit register value. -/
def natWord (n : Nat) : Word := BitVec.ofNat 32 n

/-- A pair of numbers as the two halves of a register. -/
def natPair (lo hi : Nat) : Word := pairWord (BitVec.ofNat 16 lo) (BitVec.ofNat 16 hi)

/-- The registers, row tables and geometry of a committed plan (40_video R219 steps 1 to 4, R218). -/
def State.commitRegs (s : State) (p : Plan) : State :=
  { s with
    seq := { s.seq with phase := .stop, pixOut := 0x00#8 }
    exe := { s.exe with vsReq := false }
    active := { s.staged with vpSize := natPair p.vpw p.vph }
    alloc := { s.alloc with
      vpPos := natPair p.vpcol p.vprow
      chainBase := natWord p.chainBase
      chainLen := natWord (p.group * p.vt)
      chainCap := natWord (p.group * p.vt)
      group := natWord p.group
      constBase := natWord p.constBase
      clen := natWord p.clen
      rowStride := natWord p.stride
      dblActive := s.staged.dbl }
    rows := ⟨p.rt0.map natWord, p.rt1.map natWord, false⟩
    geom := ⟨false, 0#32, 0#32⟩ }

/-- The constant buffers and the blanked rows of a committed plan (40_video R218, 20_memory R116). -/
def commitMem (m : Memory) (t : Timings) (p : Plan) : Memory :=
  let consts := (List.range 4).foldl
    (fun m k => memStoreBlock m (p.constBase + k * p.clen) (List.replicate p.clen (t.constByte k))) m
  (p.rt0 ++ p.rt1).foldl (fun m a => memStoreBlock m a (List.replicate p.stride t.si)) consts

/-- The compositor after a commit (40_video R219 step 6): the old backgrounds are not restored. `ERR` is unchanged, so a
`PRIV` byte that does not exist is passed over in silence (60_exceptions R481, log entry 16). -/
def State.commitSprites (s : State) : State :=
  let t := { s with comp := { s.comp with shown := false, phase := .idle } }
  let u := (List.range t.recordCount).foldl State.clearPriv t
  let v := { u with cursor := { u.cursor with allowDraw := false } }
  if v.anySprite then v.requestRefresh else v

/-- SEQ is started at descriptor 0 (40_video R219 step 7). -/
def State.startSeq (s : State) : State :=
  { s with
    alloc := { s.alloc with configured := true }
    seq := { s.seq with dptr := s.alloc.chainBase, didx := 0, phase := .fetch } }

/-- COMMIT (40_video R219), one atomic step. -/
def State.commitPlan (s : State) (p : Plan) : State :=
  (((s.commitRegs p).setMem (commitMem s.mem s.staged p)).build.commitSprites).startSeq

/-- `APPLY` (40_video R210): a plan that fails changes nothing but the error record (R220). -/
def execHostopApply (s : State) : Host.Outcome State Fault Refusal :=
  .next (match s.applyPlan with
    | .error c => s.raise .host 0x01#8 c 0#32
    | .ok p => s.commitPlan p)

/-! ### The geometry adjuster (40_video R240 to R243) -/

/-- The four porches. -/
structure Porches where
  hfp : Int
  hbp : Int
  vfp : Int
  vbp : Int
  deriving DecidableEq, Repr

/-- The porches a geometry operation builds on: the pending ones if there are any (40_video R240). -/
def State.basePorches (s : State) : Porches :=
  if s.geom.pending then
    ⟨(loHalf s.geom.pH).toNat, (hiHalf s.geom.pH).toNat, (loHalf s.geom.pV).toNat, (hiHalf s.geom.pV).toNat⟩
  else ⟨s.active.hfp, s.active.hbp, s.active.vfp, s.active.vbp⟩

/-- A timing with other porches. -/
def Timings.withPorches (t : Timings) (hfp hbp vfp vbp : Half) : Timings :=
  { t with
    h0 := pairWord (loHalf t.h0) hfp, h1 := pairWord (loHalf t.h1) hbp
    v0 := pairWord (loHalf t.v0) vfp, v1 := pairWord (loHalf t.v1) vbp }

/-- Whether a porch fits its field. -/
def porchOk (n : Int) : Bool := decide (0 ≤ n ∧ n ≤ 65535)

/-- The active timing with a candidate's porches. -/
def State.candidateTiming (s : State) (c : Porches) : Timings :=
  s.active.withPorches (BitVec.ofInt 16 c.hfp) (BitVec.ofInt 16 c.hbp) (BitVec.ofInt 16 c.vfp) (BitVec.ofInt 16 c.vbp)

/-- The group size of a timing with the committed `CLEN` and viewport (40_video R207, R242). -/
def State.groupOf (s : State) (t : Timings) : Nat := (linePieces t s.vpcol s.vpw s.alloc.clen.toNat).length

/-- The geometry check: the four conditions of 40_video R242, and no other. DESIGN CHOICE (log entry 34): the rule's derived
line that a `SHRINKSCREEN` with `dy > 0` is always rejected is not enforced where the conditions accept one. -/
def State.geometryOk (s : State) (c : Porches) : Bool :=
  s.alloc.configured && porchOk c.hfp && porchOk c.hbp && porchOk c.vfp && porchOk c.vbp &&
    (let t := s.candidateTiming c
     decide (t.ht ≤ 65535 ∧ t.vt ≤ 65535 ∧ s.groupOf t * t.vt ≤ s.alloc.chainCap.toNat))

/-- A geometry operation with a candidate: accepted as pending, or rejected with `GEOMETRY` (40_video R240 to R242). -/
def State.adjust (s : State) (op : Byte) (c : Porches) : State :=
  if s.geometryOk c then
    { s with geom :=
      ⟨true, pairWord (BitVec.ofInt 16 c.hfp) (BitVec.ofInt 16 c.hbp), pairWord (BitVec.ofInt 16 c.vfp) (BitVec.ofInt 16 c.vbp)⟩ }
  else s.raise .host op .geometry 0#32

/-- `dx` and `dy` of `HOSTARG` (10_state R37). -/
def State.argDx (s : State) : Int := (loHalf s.sys.hostArg).toInt
def State.argDy (s : State) : Int := (hiHalf s.sys.hostArg).toInt

/-- The candidate of `MOVESCREEN` (40_video R240). -/
def State.moveCandidate (s : State) : Porches :=
  ⟨s.basePorches.hfp - s.argDx, s.basePorches.hbp + s.argDx, s.basePorches.vfp - s.argDy, s.basePorches.vbp + s.argDy⟩

/-- The candidate of `SHRINKSCREEN` (40_video R241). -/
def State.shrinkCandidate (s : State) : Porches :=
  ⟨s.basePorches.hfp + s.argDx, s.basePorches.hbp + s.argDx, s.basePorches.vfp + s.argDy, s.basePorches.vbp + s.argDy⟩

/-- `MOVESCREEN` (40_video R240). -/
def execHostopMoveScreen (s : State) : Host.Outcome State Fault Refusal := .next (s.adjust 0x05#8 s.moveCandidate)

/-- `SHRINKSCREEN` (40_video R241). -/
def execHostopShrinkScreen (s : State) : Host.Outcome State Fault Refusal := .next (s.adjust 0x06#8 s.shrinkCandidate)

/-- `GEOMETRY_COMMIT` at a frame boundary (40_video R243). -/
def State.geometryCommit (s : State) : State :=
  let t := s.active.withPorches (loHalf s.geom.pH) (hiHalf s.geom.pH) (loHalf s.geom.pV) (hiHalf s.geom.pV)
  let g := s.groupOf t
  State.build { s with
    active := t
    geom := { s.geom with pending := false }
    alloc := { s.alloc with group := natWord g, chainLen := natWord (g * t.vt) } }

/-! ### The queue operations (41_queue R269, R275 to R278) -/

/-- The steps of a hide pass (45_sprites R431, 41_queue R262). -/
def State.hideSteps (s : State) : List Micro := [.hideCursor, .hideRecords s.recordCount]

/-- Whether a drain hides the sprites first (41_queue R269): `limited` is none for `TOEMPTY`. -/
def State.drainHides (s : State) (limit : Option Nat) : Bool :=
  s.comp.shown && (s.comp.refreshPending || (decide (limit ≠ some 0) && decide (0 < s.qcount) && !s.alloc.dblActive))

/-- The start of `DRAIN(ctx, mode)` (41_queue R269): its limit and its hide pass; its loop is the rest of the job. -/
def State.beginDrain (s : State) (ctx : ErrCtx) (limit : Option Nat) : State :=
  let hid := s.drainHides limit
  let t := s.pushWork ((if hid then s.hideSteps else []) ++ [.drainLoop ⟨limit, false, hid⟩])
  { t with exe := { t.exe with ctx := ctx } }

/-- `DRAIN` (41_queue R275): it begins a synchronous drain to empty, whatever `SUSPEND` and `BGEXEC` are; the drain's own
steps follow (41_queue R262). -/
def execHostopDrain (s : State) : Host.Outcome State Fault Refusal := .next (s.beginDrain .sync none)

/-- The state with another suspend counter. -/
def State.setSuspend (s : State) (v : BitVec 8) : State := { s with queue := { s.queue with suspend := v } }

/-- `SUSPEND` (41_queue R276). -/
def execHostopSuspend (s : State) : Host.Outcome State Fault Refusal :=
  .next (if s.queue.suspend = 255#8 then s.raise .host 0x03#8 .suspendOverflow 0#32
    else s.setSuspend (s.queue.suspend + 1#8))

/-- `RESUME` (41_queue R277): the final one begins a synchronous drain of a queue that is not empty. -/
def execHostopResume (s : State) : Host.Outcome State Fault Refusal :=
  .next (if s.queue.suspend = 0#8 then s.raise .host 0x04#8 .resumeUnderflow 0#32
    else
      let t := s.setSuspend (s.queue.suspend - 1#8)
      if t.queue.suspend = 0#8 ∧ 0 < t.qcount then t.beginDrain .sync none else t)

/-- `CMDABORT` (41_queue R278): the partial command is discarded. -/
def execHostopCmdAbort (s : State) : Host.Outcome State Fault Refusal :=
  .next { s with queue := { s.queue with partialCount := 0#2, partialLen := 0#2 } }

end Sys2Proof.Machine
end

