-- ==== Sys2Proof/Machine/Paint.lean ====
section
/-!
DEFINITION. The state-setting commands (42_paint R310 to R317). None writes memory and none raises an error of its own.
-/

namespace Sys2Proof.Machine

/-- `SETPENCOLOR` (42_paint R310). -/
def execSetPenColor (imm : Half) (s : State) : Host.Outcome State Fault Refusal :=
  .next (s.setPaint { s.paint with pen := imm.extractLsb' 0 6 })

/-- `SETBRUSHCOLOR` (42_paint R311). -/
def execSetBrushColor (imm : Half) (s : State) : Host.Outcome State Fault Refusal :=
  .next (s.setPaint { s.paint with brush := imm.extractLsb' 0 6 })

/-- `MOVETO` (42_paint R312). -/
def execMoveTo (x y : Half) (s : State) : Host.Outcome State Fault Refusal :=
  .next (s.setPaint (s.paint.moveTo (s.absPoint x y)))

/-- `SETGLYPHOPTIONS` (42_paint R313): every bit is stored. -/
def execSetGlyphOptions (options : Half) (s : State) : Host.Outcome State Fault Refusal :=
  .next (s.setPaint { s.paint with glyphOpt := options })

/-- `SETPAINTOPTIONS` (42_paint R314). -/
def execSetPaintOptions (imm : Half) (s : State) : Host.Outcome State Fault Refusal :=
  .next (s.setPaint { s.paint with swap := imm.getLsbD 0 })

/-- `SETSCROLLINGREGION` (42_paint R315): absolute, not translated. -/
def execSetScrollingRegion (x1 y1 x2 y2 : Half) (s : State) : Host.Outcome State Fault Refusal :=
  .next (s.setPaint { s.paint with scroll := norm16 x1 y1 x2 y2 })

/-- `SETORIGIN` (42_paint R316): the origin is replaced and the absolute clip computed again. -/
def execSetOrigin (x y : Half) (s : State) : Host.Outcome State Fault Refusal :=
  .next (s.setPaint { s.paint with originX := x, originY := y, clipAbs := absClip s.paint.clipRel x y })

/-- `SETCLIPPINGRECT` (42_paint R317): stored relative, with its absolute form. -/
def execSetClippingRect (x1 y1 x2 y2 : Half) (s : State) : Host.Outcome State Fault Refusal :=
  .next (s.setPaint { s.paint with
    clipRel := norm16 x1 y1 x2 y2
    clipAbs := absClip (norm16 x1 y1 x2 y2) s.paint.originX s.paint.originY })

end Sys2Proof.Machine
end

