-- ==== Sys2Proof/Machine/Raster.lean ====
section
/-!
DEFINITION. Points, lines, rectangles, ellipses and paths (43_raster R340 to R352). Each command computes its whole write
set from the state it starts in and then stores it (20_memory R108). Rectangles and ellipses go through the points of
their box that lie in `CLIPVP`, in row-major order: every other point is clipped away by `PLOT`.
-/

namespace Sys2Proof.Machine

/-! ### Lines and points -/

/-- The loop of 43_raster R340, at most `fuel` points. -/
def lineLoop (x1 y1 dx dy sx sy : Int) : Nat → Int → Int → Int → List Point
  | 0, _, _, _ => []
  | fuel + 1, err, x, y =>
    (x, y) ::
      if x = x1 ∧ y = y1 then []
      else
        let e2 := 2 * err
        lineLoop x1 y1 dx dy sx sy fuel
          (err + (if e2 ≥ dy then dy else 0) + (if e2 ≤ dx then dx else 0))
          (if e2 ≥ dy then x + sx else x)
          (if e2 ≤ dx then y + sy else y)

/-- The points of `LINE(p, q, c)`, `max(|dx|, |dy|) + 1` of them, in plot order (43_raster R340). -/
def linePoints (p q : Point) : List Point :=
  let dx : Int := (q.1 - p.1).natAbs
  let dy : Int := -((q.2 - p.2).natAbs : Int)
  lineLoop q.1 q.2 dx dy (if p.1 < q.1 then 1 else -1) (if p.2 < q.2 then 1 else -1)
    (max (q.1 - p.1).natAbs (q.2 - p.2).natAbs + 1) (dx + dy) p.1 p.2

/-- `LINETO` (43_raster R341): the pen moves whether or not anything is drawn. -/
def execLineTo (x y : Half) (s : State) : Host.Outcome State Fault Refusal :=
  .next ((s.plotAll (linePoints s.penPos (s.absPoint x y)) s.penE).setPaint (s.paint.moveTo (s.absPoint x y)))

/-- `SETPIXEL` (43_raster R342). -/
def execSetPixel (x y : Half) (s : State) : Host.Outcome State Fault Refusal :=
  .next (s.plotAll [s.absPoint x y] s.penE)

/-! ### Rectangles -/

/-- `FILLRECT` (43_raster R343). -/
def execFillRect (x1 y1 x2 y2 : Half) (s : State) : Host.Outcome State Fault Refusal :=
  .next (s.plotAll ((s.absRect x1 y1 x2 y2).inter s.clipVp).points s.brushE)

/-- `CLEAR` (43_raster R344). -/
def execClear (s : State) : Host.Outcome State Fault Refusal :=
  .next (s.plotAll s.clipVp.points s.brushE)

/-- The write set that replaces each pixel byte of a list of points by `f` of it (none: untouched), every byte read
before any is written (20_memory R108). -/
def State.recolourCells (s : State) (ps : List Point) (f : Byte → Option Byte) : List (Nat × Byte) :=
  ps.filterMap (fun p => (f (s.fbRead p.1 p.2)).map (fun b => (s.fbAddr p.1 p.2, b)))

/-- `INVERTRECT` (43_raster R348). -/
def execInvertRect (x1 y1 x2 y2 : Half) (s : State) : Host.Outcome State Fault Refusal :=
  .next (s.writeCells (s.recolourCells ((s.absRect x1 y1 x2 y2).inter s.clipVp).points (fun b => some (b ^^^ 0x3F#8))))

/-- What `SWAPFGBG` makes of a pixel byte, with the encoded pen and brush `p` and `b` (43_raster R349). -/
def swapPix (p b : Colour) (v : Byte) : Option Byte :=
  if v.extractLsb' 0 6 = p then some ((v &&& 0xC0#8) ||| b.setWidth 8)
  else if v.extractLsb' 0 6 = b then some ((v &&& 0xC0#8) ||| p.setWidth 8)
  else none

/-- `SWAPFGBG` (43_raster R349). -/
def execSwapFgBg (x1 y1 x2 y2 : Half) (s : State) : Host.Outcome State Fault Refusal :=
  .next (s.writeCells (s.recolourCells ((s.absRect x1 y1 x2 y2).inter s.clipVp).points
    (swapPix (encColour s.active.bpc s.penE) (encColour s.active.bpc s.brushE))))

/-! ### Ellipses -/

/-- Whether an offset from the centre is inside the ellipse of semi-axes `a` and `b` (43_raster R345). -/
def ellipseInside (a b : Int) (d : Point) : Bool :=
  decide (-a ≤ d.1 ∧ d.1 ≤ a ∧ -b ≤ d.2 ∧ d.2 ≤ b ∧ b * b * d.1 * d.1 + a * a * d.2 * d.2 ≤ a * a * b * b)

/-- Whether an offset is on the outline: inside, with one of its four neighbours outside (43_raster R345). -/
def ellipseOutline (a b : Int) (d : Point) : Bool :=
  ellipseInside a b d &&
    (!ellipseInside a b (d.1 + 1, d.2) || !ellipseInside a b (d.1 - 1, d.2) ||
     !ellipseInside a b (d.1, d.2 + 1) || !ellipseInside a b (d.1, d.2 - 1))

/-- The points of an ellipse command: those of the box around the pen position, in `CLIPVP`, whose offset satisfies
the test; none for a size that is not positive (43_raster R345 to R347). -/
def State.ellipsePoints (s : State) (w h : Half) (test : Int → Int → Point → Bool) : List Point :=
  if w.toInt ≤ 0 ∨ h.toInt ≤ 0 then []
  else
    let a := w.toInt / 2
    let b := h.toInt / 2
    let c := s.penPos
    ((Rect.inter ⟨c.1 - a, c.2 - b, c.1 + a, c.2 + b⟩ s.clipVp).points).filter
      (fun p => test a b (p.1 - c.1, p.2 - c.2))

/-- `FILLELLIPSE` (43_raster R346). -/
def execFillEllipse (w h : Half) (s : State) : Host.Outcome State Fault Refusal :=
  .next (s.plotAll (s.ellipsePoints w h ellipseInside) s.brushE)

/-- `DRAWELLIPSE` (43_raster R347). -/
def execDrawEllipse (w h : Half) (s : State) : Host.Outcome State Fault Refusal :=
  .next (s.plotAll (s.ellipsePoints w h ellipseOutline) s.penE)

/-! ### Paths -/

/-- The points of a path operand, translated (43_raster R352, 20_memory R124). -/
def State.pathPoints (s : State) (n : Half) (addr : Word) : List Point :=
  (List.range n.toNat).map (fun i =>
    let w := memWord s.mem (wrapAddr (addr.toNat + 4 * i))
    s.absPoint (loHalf w) (hiHalf w))

/-- The first byte of a path operand that does not satisfy `MEM_OK` (43_raster R352). -/
def State.pathBad (s : State) (n : Half) (addr : Word) : Option Nat :=
  firstBad s (byteRange addr.toNat (4 * n.toNat))

/-- The bounding box of a list of points, none of an empty list. -/
def boundingBox : List Point → Option Rect
  | [] => none
  | p :: ps => some (ps.foldl (fun r q => ⟨min r.x1 q.1, min r.y1 q.2, max r.x2 q.1, max r.y2 q.2⟩) ⟨p.1, p.2, p.1, p.2⟩)

/-- Whether the edge from `pi` to `pj` crosses the ray from `p` (43_raster R350). -/
def edgeCrosses (p pi pj : Point) : Bool :=
  if decide (pi.2 > p.2) = decide (pj.2 > p.2) then false
  else if pj.2 > pi.2 then decide ((p.1 - pi.1) * (pj.2 - pi.2) < (p.2 - pi.2) * (pj.1 - pi.1))
  else decide ((p.1 - pi.1) * (pj.2 - pi.2) > (p.2 - pi.2) * (pj.1 - pi.1))

/-- The parity of the crossings of the edges into each point of a path from the point before it. -/
def crossParity (p : Point) : Point → List Point → Bool
  | _, [] => false
  | pj, pi :: rest => xor (edgeCrosses p pi pj) (crossParity p pi rest)

/-- The even-odd test of 43_raster R350; the last point is joined to the first. -/
def insidePath (ps : List Point) (p : Point) : Bool :=
  match ps.getLast? with
  | none => false
  | some q => crossParity p q ps

/-- The points `FILLPATH` fills (43_raster R350). -/
def State.fillPathPoints (s : State) (ps : List Point) : List Point :=
  if ps.length < 3 then []
  else
    match boundingBox ps with
    | none => []
    | some bb => ((bb.inter s.clipVp).points).filter (insidePath ps)

/-- The points `DRAWPATH` plots, in order: each segment's line; a single point alone (43_raster R351). -/
def polylinePoints : List Point → List Point
  | [] => []
  | [p] => [p]
  | p :: q :: rest => linePoints p q ++ (match rest with | [] => [] | _ :: _ => polylinePoints (q :: rest))

/-- `FILLPATH` (43_raster R350). -/
def execFillPath (n : Half) (addr : Word) (s : State) : Host.Outcome State Fault Refusal :=
  .next (match s.pathBad n addr with
    | some fa => s.raiseCmd 0x19#8 .busExe fa
    | none => s.plotAll (s.fillPathPoints (s.pathPoints n addr)) s.brushE)

/-- `DRAWPATH` (43_raster R351). -/
def execDrawPath (n : Half) (addr : Word) (s : State) : Host.Outcome State Fault Refusal :=
  .next (match s.pathBad n addr with
    | some fa => s.raiseCmd 0x1A#8 .busExe fa
    | none => s.plotAll (polylinePoints (s.pathPoints n addr)) s.penE)

end Sys2Proof.Machine
end

