-- ==== Sys2Proof/Machine/Dispatch.lean ====
section
/-!
DEFINITION. The dispatch of every instruction to its meaning.
-/

namespace Sys2Proof.Machine

def exec (i : Instr) (s : State) : Host.Outcome State Fault Refusal :=
  match i with
  | .setPenColor imm => Sys2Proof.Machine.execSetPenColor imm s
  | .setBrushColor imm => Sys2Proof.Machine.execSetBrushColor imm s
  | .setPixel x y => Sys2Proof.Machine.execSetPixel x y s
  | .moveTo x y => Sys2Proof.Machine.execMoveTo x y s
  | .lineTo x y => Sys2Proof.Machine.execLineTo x y s
  | .fillRect x1 y1 x2 y2 => Sys2Proof.Machine.execFillRect x1 y1 x2 y2 s
  | .fillEllipse w h => Sys2Proof.Machine.execFillEllipse w h s
  | .drawEllipse w h => Sys2Proof.Machine.execDrawEllipse w h s
  | .clear => Sys2Proof.Machine.execClear s
  | .vScroll imm => Sys2Proof.Machine.execVScroll imm s
  | .hScroll imm => Sys2Proof.Machine.execHScroll imm s
  | .drawGlyph addr => Sys2Proof.Machine.execDrawGlyph addr s
  | .setGlyphOptions imm => Sys2Proof.Machine.execSetGlyphOptions imm s
  | .setPaintOptions imm => Sys2Proof.Machine.execSetPaintOptions imm s
  | .invertRect x1 y1 x2 y2 => Sys2Proof.Machine.execInvertRect x1 y1 x2 y2 s
  | .copyRect x1 y1 x2 y2 => Sys2Proof.Machine.execCopyRect x1 y1 x2 y2 s
  | .setScrollingRegion x1 y1 x2 y2 => Sys2Proof.Machine.execSetScrollingRegion x1 y1 x2 y2 s
  | .swapFgBg x1 y1 x2 y2 => Sys2Proof.Machine.execSwapFgBg x1 y1 x2 y2 s
  | .readRawData x y w h addr => Sys2Proof.Machine.execReadRawData x y w h addr s
  | .writeRawData x y w h addr => Sys2Proof.Machine.execWriteRawData x y w h addr s
  | .renderGlyphsBuffer addr col1 row1 col2 row2 => Sys2Proof.Machine.execRenderGlyphsBuffer addr col1 row1 col2 row2 s
  | .drawBitmap x y addr => Sys2Proof.Machine.execDrawBitmap x y addr s
  | .refreshSprites => Sys2Proof.Machine.execRefreshSprites s
  | .swapBuffers => Sys2Proof.Machine.execSwapBuffers s
  | .fillPath n addr => Sys2Proof.Machine.execFillPath n addr s
  | .drawPath n addr => Sys2Proof.Machine.execDrawPath n addr s
  | .setOrigin x y => Sys2Proof.Machine.execSetOrigin x y s
  | .setClippingRect x1 y1 x2 y2 => Sys2Proof.Machine.execSetClippingRect x1 y1 x2 y2 s
  | .hostopApply => Sys2Proof.Machine.execHostopApply s
  | .hostopDrain => Sys2Proof.Machine.execHostopDrain s
  | .hostopSuspend => Sys2Proof.Machine.execHostopSuspend s
  | .hostopResume => Sys2Proof.Machine.execHostopResume s
  | .hostopMoveScreen => Sys2Proof.Machine.execHostopMoveScreen s
  | .hostopShrinkScreen => Sys2Proof.Machine.execHostopShrinkScreen s
  | .hostopSetSprites => Sys2Proof.Machine.execHostopSetSprites s
  | .hostopCmdAbort => Sys2Proof.Machine.execHostopCmdAbort s

end Sys2Proof.Machine
end

