-- ==== Sys2Proof/Machine/Registers.lean ====
section
/-!
DEFINITION. The register interface (10_state R30 to R61, R67, R73 to R76, R79): which register an offset names, what it
reads, and what a write to it does. The accesses that can hold HOST (`CMD_DATA`, `HOSTOP`, `WAIT`) are completed in
Machine/HostPort.lean.
-/

namespace Sys2Proof.Machine

/-- The registers of 10_state R79. -/
inductive Reg where
  | id | ctrl | status | qcount | cmdData | cmdPartial | wait | hostop | hostArg | err | errAddr | irqStatus | irqEnable
  | frameCount | scanline
  | tFreq | tH0 | tH1 | tV0 | tV1 | tMode | tVpSize | tVpCfg
  | tLabel (k : Fin 8)
  | aFreq | aH0 | aH1 | aV0 | aV1 | aMode | aVpSize | aVpCfg
  | aLabel (k : Fin 8)
  | aVpPos | chainBase | chainLen | chainCap | group | constBase | clen | rowStride | pH | pV
  | poolBase (i : Nat)
  | poolSize (i : Nat)
  | pen | brush | posX | posY | origin | clipRel0 | clipRel1 | clipAbsX1 | clipAbsY1 | clipAbsX2 | clipAbsY2
  | scroll0 | scroll1 | glyphOpt | paintOpt
  | sprBase | sprCount | sprStride | aSprBase | aSprCount | aSprStride
  | curPos | curHot | curBmp | curBg | curCtrl | curSaved0 | curSaved1 | curPriv
  | rt (t : Bool) (r : Nat)
  deriving DecidableEq, Repr

/-- The registers at fixed offsets (10_state R79). -/
def fixedRegs : List (Nat × Reg) :=
  [(0x000, .id), (0x004, .ctrl), (0x008, .status), (0x00C, .qcount), (0x010, .cmdData), (0x014, .cmdPartial),
   (0x018, .wait), (0x01C, .hostop), (0x020, .hostArg), (0x024, .err), (0x028, .errAddr), (0x02C, .irqStatus),
   (0x030, .irqEnable), (0x034, .frameCount), (0x038, .scanline)] ++
  [(0x040, .tFreq), (0x044, .tH0), (0x048, .tH1), (0x04C, .tV0), (0x050, .tV1), (0x054, .tMode), (0x058, .tVpSize),
   (0x05C, .tVpCfg), (0x080, .aFreq), (0x084, .aH0), (0x088, .aH1), (0x08C, .aV0), (0x090, .aV1), (0x094, .aMode),
   (0x098, .aVpSize), (0x09C, .aVpCfg)] ++
  [(0x0C0, .aVpPos), (0x0C4, .chainBase), (0x0C8, .chainLen), (0x0CC, .chainCap), (0x0D0, .group), (0x0D4, .constBase),
   (0x0D8, .clen), (0x0DC, .rowStride), (0x0E0, .pH), (0x0E4, .pV)] ++
  [(0x180, .pen), (0x184, .brush), (0x188, .posX), (0x18C, .posY), (0x190, .origin), (0x194, .clipRel0),
   (0x198, .clipRel1), (0x19C, .clipAbsX1), (0x1A0, .clipAbsY1), (0x1A4, .clipAbsX2), (0x1A8, .clipAbsY2),
   (0x1AC, .scroll0), (0x1B0, .scroll1), (0x1B4, .glyphOpt), (0x1B8, .paintOpt)] ++
  [(0x1C0, .sprBase), (0x1C4, .sprCount), (0x1C8, .sprStride), (0x1CC, .aSprBase), (0x1D0, .aSprCount),
   (0x1D4, .aSprStride), (0x1E0, .curPos), (0x1E4, .curHot), (0x1E8, .curBmp), (0x1EC, .curBg), (0x1F0, .curCtrl),
   (0x1F4, .curSaved0), (0x1F8, .curSaved1), (0x1FC, .curPriv)]

/-- The label register at an offset from the first one. -/
def labelIndex (n : Nat) : Fin 8 := ⟨n / 4 % 8, Nat.mod_lt _ (by decide)⟩

/-- The register that a byte offset names, for a block with the given parameters (10_state R30, R79): none where the
offset is no multiple of 4 or names no register. -/
def Reg.ofOffset (c : Config) (off : Nat) : Option Reg :=
  if off % 4 ≠ 0 then none
  else if 0x060 ≤ off ∧ off < 0x080 then some (.tLabel (labelIndex (off - 0x060)))
  else if 0x0A0 ≤ off ∧ off < 0x0C0 then some (.aLabel (labelIndex (off - 0x0A0)))
  else if 0x100 ≤ off ∧ off < 0x100 + 8 * c.npool then
    some (if off % 8 = 0 then .poolBase ((off - 0x100) / 8) else .poolSize ((off - 0x100) / 8))
  else if 0x1000 ≤ off ∧ off < 0x1000 + 4 * c.maxRows then some (.rt false ((off - 0x1000) / 4))
  else if 0x5000 ≤ off ∧ off < 0x5000 + 4 * c.maxRows then some (.rt true ((off - 0x5000) / 4))
  else fixedRegs.lookup off

/-- One bit as a register value. -/
def boolWord (b : Bool) : Word := if b then 1#32 else 0#32

/-- `CMD_PARTIAL` (10_state R34). -/
def Queue.partialWord (q : Queue) : Word := q.partialCount.setWidth 32 ||| (q.partialLen.setWidth 32 <<< 8)

/-- What a register reads (10_state R31 to R76). A read of `CMD_DATA` or `HOSTOP` gives 0, and so does `WAIT` when it
completes. -/
def Reg.read (r : Reg) (s : State) : Word :=
  match r with
  | .id => 0x46474C07#32
  | .ctrl => boolWord s.sys.bgexec
  | .status => s.status
  | .qcount => (BitVec.ofNat 16 s.qcount).setWidth 32
  | .cmdData => 0#32
  | .cmdPartial => s.queue.partialWord
  | .wait => 0#32
  | .hostop => 0#32
  | .hostArg => s.sys.hostArg
  | .err => s.sys.err
  | .errAddr => s.sys.errAddr
  | .irqStatus => s.sys.irqStatus.setWidth 32
  | .irqEnable => s.sys.irqEnable.setWidth 32
  | .frameCount => s.seq.frameCount
  | .scanline => s.seq.scanline.setWidth 32
  | .tFreq => s.staged.freq
  | .tH0 => s.staged.h0
  | .tH1 => s.staged.h1
  | .tV0 => s.staged.v0
  | .tV1 => s.staged.v1
  | .tMode => s.staged.mode
  | .tVpSize => s.staged.vpSize
  | .tVpCfg => s.staged.vpCfg
  | .tLabel k => s.staged.label.get k
  | .aFreq => s.active.freq
  | .aH0 => s.active.h0
  | .aH1 => s.active.h1
  | .aV0 => s.active.v0
  | .aV1 => s.active.v1
  | .aMode => s.active.mode
  | .aVpSize => s.active.vpSize
  | .aVpCfg => s.active.vpCfg
  | .aLabel k => s.active.label.get k
  | .aVpPos => s.alloc.vpPos
  | .chainBase => s.alloc.chainBase
  | .chainLen => s.alloc.chainLen
  | .chainCap => s.alloc.chainCap
  | .group => s.alloc.group
  | .constBase => s.alloc.constBase
  | .clen => s.alloc.clen
  | .rowStride => s.alloc.rowStride
  | .pH => s.geom.pH
  | .pV => s.geom.pV
  | .poolBase i => (s.pools.getD i ⟨0#32, 0#32⟩).base
  | .poolSize i => (s.pools.getD i ⟨0#32, 0#32⟩).size
  | .pen => s.paint.pen.setWidth 32
  | .brush => s.paint.brush.setWidth 32
  | .posX => s.paint.posX
  | .posY => s.paint.posY
  | .origin => pairWord s.paint.originX s.paint.originY
  | .clipRel0 => pairWord s.paint.clipRel.x1 s.paint.clipRel.y1
  | .clipRel1 => pairWord s.paint.clipRel.x2 s.paint.clipRel.y2
  | .clipAbsX1 => s.paint.clipAbs.x1
  | .clipAbsY1 => s.paint.clipAbs.y1
  | .clipAbsX2 => s.paint.clipAbs.x2
  | .clipAbsY2 => s.paint.clipAbs.y2
  | .scroll0 => pairWord s.paint.scroll.x1 s.paint.scroll.y1
  | .scroll1 => pairWord s.paint.scroll.x2 s.paint.scroll.y2
  | .glyphOpt => s.paint.glyphOpt.setWidth 32
  | .paintOpt => boolWord s.paint.swap
  | .sprBase => s.sprStaged.base
  | .sprCount => s.sprStaged.count
  | .sprStride => s.sprStaged.stride
  | .aSprBase => s.sprActive.base
  | .aSprCount => s.sprActive.count
  | .aSprStride => s.sprActive.stride
  | .curPos => s.cursor.pos
  | .curHot => s.cursor.hot
  | .curBmp => s.cursor.bmp
  | .curBg => s.cursor.bg
  | .curCtrl => boolWord s.cursor.en
  | .curSaved0 => s.cursor.saved0
  | .curSaved1 => s.cursor.saved1
  | .curPriv => boolWord s.cursor.allowDraw
  | .rt t r => s.rows.entry t r

/-- The bits of `T_MODE` that are not reserved (10_state R40). -/
def modeMask : Word := 0x00000F3F#32

/-- The bit of `T_VPCFG` that is not reserved (10_state R42). -/
def vpCfgMask : Word := 0x00000001#32

/-- The state with other staged timing registers. -/
def State.setStaged (s : State) (t : Timings) : State := { s with staged := t }

/-- The state with other control, error and interrupt registers. -/
def State.setSys (s : State) (r : SysRegs) : State := { s with sys := r }

/-- The state with other cursor registers. -/
def State.setCursor (s : State) (c : Cursor) : State := { s with cursor := c }

/-- The state with another staged sprite list. -/
def State.setSprStaged (s : State) (l : SpriteList) : State := { s with sprStaged := l }

/-- The state with one pool changed. -/
def State.setPool (s : State) (i : Nat) (f : Pool → Pool) : State := { s with pools := s.pools.modify i f }

/-- What a HOST write of `v` to a register does (10_state R30 to R52). A write to a read-only register is ignored; the
writes to `CMD_DATA` and `HOSTOP` are in Machine/HostPort.lean. -/
def Reg.write (r : Reg) (v : Word) (s : State) : State :=
  match r with
  | .id => s
  | .ctrl => s.setSys { s.sys with bgexec := v.getLsbD 0 }
  | .status => s
  | .qcount => s
  | .cmdData => s
  | .cmdPartial => s
  | .wait => s
  | .hostop => s
  | .hostArg => s.setSys { s.sys with hostArg := v }
  | .err => s.clearErr v
  | .errAddr => s
  | .irqStatus => s.clearIrq v
  | .irqEnable => s.setSys { s.sys with irqEnable := v.setWidth 4 }
  | .frameCount => s
  | .scanline => s
  | .tFreq => s.setStaged { s.staged with freq := v }
  | .tH0 => s.setStaged { s.staged with h0 := v }
  | .tH1 => s.setStaged { s.staged with h1 := v }
  | .tV0 => s.setStaged { s.staged with v0 := v }
  | .tV1 => s.setStaged { s.staged with v1 := v }
  | .tMode => s.setStaged { s.staged with mode := v &&& modeMask }
  | .tVpSize => s.setStaged { s.staged with vpSize := v }
  | .tVpCfg => s.setStaged { s.staged with vpCfg := v &&& vpCfgMask }
  | .tLabel k => s.setStaged { s.staged with label := s.staged.label.set k v }
  | .aFreq => s
  | .aH0 => s
  | .aH1 => s
  | .aV0 => s
  | .aV1 => s
  | .aMode => s
  | .aVpSize => s
  | .aVpCfg => s
  | .aLabel _ => s
  | .aVpPos => s
  | .chainBase => s
  | .chainLen => s
  | .chainCap => s
  | .group => s
  | .constBase => s
  | .clen => s
  | .rowStride => s
  | .pH => s
  | .pV => s
  | .poolBase i => s.setPool i (fun p => { p with base := v })
  | .poolSize i => s.setPool i (fun p => { p with size := v })
  | .pen => s
  | .brush => s
  | .posX => s
  | .posY => s
  | .origin => s
  | .clipRel0 => s
  | .clipRel1 => s
  | .clipAbsX1 => s
  | .clipAbsY1 => s
  | .clipAbsX2 => s
  | .clipAbsY2 => s
  | .scroll0 => s
  | .scroll1 => s
  | .glyphOpt => s
  | .paintOpt => s
  | .sprBase => s.setSprStaged { s.sprStaged with base := v }
  | .sprCount => s.setSprStaged { s.sprStaged with count := v }
  | .sprStride => s.setSprStaged { s.sprStaged with stride := v }
  | .aSprBase => s
  | .aSprCount => s
  | .aSprStride => s
  | .curPos => (s.setCursor { s.cursor with pos := v }).requestRefresh
  | .curHot => s.setCursor { s.cursor with hot := v }
  | .curBmp => (s.setCursor { s.cursor with bmp := v }).requestRefresh
  | .curBg => s.setCursor { s.cursor with bg := v }
  | .curCtrl => (s.setCursor { s.cursor with en := v.getLsbD 0 }).requestRefresh
  | .curSaved0 => s
  | .curSaved1 => s
  | .curPriv => s
  | .rt _ _ => s

/-- The value a HOST read of `width` bytes at offset `off` returns (10_state R30). -/
def State.regRead (s : State) (width off : Nat) : Word :=
  if width = 4 then
    match Reg.ofOffset s.cfg off with
    | some r => r.read s
    | none => 0#32
  else 0#32

end Sys2Proof.Machine
end

