-- ==== Sys2Proof/Machine/HostPort.lean ====
section
/-!
DEFINITION. The agent HOST: its register and memory accesses, and holding it (10_state R30, R35 to R37; 41_queue R263 to
R266, R279). A single-copy atomic access is one step, any other one step a byte; an access that holds HOST is a second step when
it completes.
-/

namespace Sys2Proof.Machine

/-- The state with HOST held, or free. -/
def State.setHeld (s : State) (h : Held) : State := { s with held := h }

/-- The state with another queue. -/
def State.setQueue (s : State) (q : Queue) : State := { s with queue := q }

/-- The value that HOST's last completed read returned. -/
def State.setReadData (s : State) (v : Word) : State := { s with env := { s.env with readData := v } }

/-- An entry appended at the tail (41_queue R266, R267). -/
def State.append (s : State) (e : Entry) : State := s.setQueue { s.queue with entries := s.queue.entries ++ [e] }

/-- Whether a push is in synchronous mode (41_queue R266): suspension wins. -/
def State.pushSync (s : State) : Bool := decide (s.queue.suspend = 0#8) && !s.sys.bgexec

/-- `PUSH(e)` (41_queue R266), up to the point where HOST is held. -/
def State.push (s : State) (e : Entry) : State :=
  if s.pushSync then s.setHeld (.syncPush e)
  else if s.qcount < s.cfg.qdepth then s.append e
  else s.setHeld (.fullPush e)

/-- An entry with its word `k` replaced. -/
def setEntryWord (e : Entry) (k : BitVec 2) (w : Word) : Entry :=
  match k.toNat with
  | 0 => { e with e0 := w }
  | 1 => { e with e1 := w }
  | 2 => { e with e2 := w }
  | _ => { e with e3 := w }

/-- The assembly buffer and the command's length after word `w` (41_queue R265). -/
def Queue.assemble (q : Queue) (w : Word) : Queue :=
  if q.partialCount = 0#2 then { q with cb := ⟨w, 0#32, 0#32, 0#32⟩, partialLen := hdrLen w }
  else { q with cb := setEntryWord q.cb q.partialCount w }

/-- A HOST write of `w` to `CMD_DATA` (41_queue R265). -/
def State.cmdData (s : State) (w : Word) : State :=
  let q := s.queue.assemble w
  if q.partialCount = q.partialLen then (s.setQueue { q with partialCount := 0#2, partialLen := 0#2 }).push q.cb
  else s.setQueue { q with partialCount := q.partialCount + 1#2 }

/-- A HOST register write (10_state R30). -/
def State.hostWrite (s : State) (width off : Nat) (v : Word) : State :=
  if width = 4 then
    match Reg.ofOffset s.cfg off with
    | some .cmdData => s.cmdData v
    | some .hostop => s.setHeld (.hostOp v)
    | some r => r.write v s
    | none => s
  else s

/-- A HOST register read (10_state R30, R36). -/
def State.hostRead (s : State) (width off : Nat) : State :=
  if width = 4 ∧ Reg.ofOffset s.cfg off = some .wait then s.setHeld .wait
  else s.setReadData (s.regRead width off)

/-- Whether an input is an access of HOST. -/
def Input.isHost : Input → Bool
  | .regWrite _ _ _ => true
  | .regRead _ _ => true
  | .memWrite _ _ _ => true
  | .memRead _ _ => true
  | .memReadByte _ _ => true
  | .reset => false
  | .resetMidStep => false
  | .platform _ => false

/-- Whether a HOST memory access of `n` bytes at `a` is single-copy atomic: a byte, or an aligned 32-bit word (20_memory
R103, 70_reset R527). -/
def singleCopy (a : Word) (n : Nat) : Bool := decide (n ≤ 1) || (decide (n = 4) && decide (a.toNat % 4 = 0))

/-- A list in the order that `f` chooses: each element is put at a place of the list of those after it. Every order is one
choice of `f`. -/
def reorder {α : Type} (f : Nat → Nat) : List α → List α
  | [] => []
  | x :: xs => (reorder f xs).insertIdx (f xs.length % (xs.length + 1)) x

/-- The byte stores of a HOST store of `n` bytes. -/
def storeParts (a : Word) (n : Nat) (v : Word) : List Input :=
  (List.range n).map (fun k => .memWrite (a + BitVec.ofNat 32 k) 1 (v >>> (8 * k)))

/-- The byte reads of a HOST read of `n` bytes. -/
def readParts (a : Word) (n : Nat) : List Input :=
  (List.range n).map (fun k => .memReadByte (a + BitVec.ofNat 32 k) k)

/-- HOST's access in parts: they are its next accesses, in an order that nothing fixes (log entry 10). -/
def State.splitAccess (s : State) (parts : List Input) : State :=
  { s with env := { s.env with
      inputs := reorder (Config.freeOrder s.env.tick) parts ++ s.env.inputs, tick := s.env.tick + 1 } }

/-- A word with its byte `k` replaced; there is no byte past the fourth. -/
def setWordByte (w : Word) (k : Nat) (b : Byte) : Word :=
  (w &&& ~~~(0xFF#32 <<< (8 * k))) ||| (b.setWidth 32 <<< (8 * k))

/-- HOST's next access, the access itself taken from the inputs (log entry 10 for the memory accesses): an access that is not
single-copy atomic is first split into its bytes. -/
def State.hostAccess (s : State) : Input → State
  | .regWrite width off v => s.hostWrite width off v
  | .regRead width off => s.hostRead width off
  | .memWrite a n v =>
    if singleCopy a n then s.setMem (memWriteLe s.mem a.toNat n v.toNat) else s.splitAccess (storeParts a n v)
  | .memRead a n =>
    if singleCopy a n then s.setReadData (BitVec.ofNat 32 (memReadLe s.mem a.toNat n))
    else (s.setReadData 0#32).splitAccess (readParts a n)
  | .memReadByte a k => s.setReadData (setWordByte s.env.readData k (memByte s.mem a.toNat))
  | .reset => s
  | .resetMidStep => s
  | .platform _ => s

/-- Whether the completion condition of a held access holds that HOST's own step completes (41_queue R266, R279): the
requests that EXE serves are completed by EXE. -/
def State.canRelease (s : State) : Held → Bool
  | .free => false
  | .fullPush _ => decide (s.qcount < s.cfg.qdepth)
  | .syncPush _ => false
  | .hostOp _ => false
  | .wait => decide (s.qcount = 0) && decide (s.exe.state = .idle)

/-- Whether HOST has an enabled step (41_queue R263). -/
def State.hostEnabled (s : State) : Bool :=
  if s.held = .free then
    match s.env.inputs with
    | [] => false
    | i :: _ => i.isHost
  else s.canRelease s.held

/-- The state with the first input taken. -/
def State.dropInput (s : State) : State := { s with env := { s.env with inputs := s.env.inputs.tail } }

/-- HOST's enabled step (41_queue R263, R266, R279). -/
def State.hostStep (s : State) : State :=
  match s.held with
  | .free =>
    match s.env.inputs with
    | [] => s
    | i :: _ => s.dropInput.hostAccess i
  | .fullPush e => (s.setHeld .free).append e
  | .wait => (s.setHeld .free).setReadData 0#32
  | .syncPush _ => s
  | .hostOp _ => s

end Sys2Proof.Machine
end

