-- ==== Sys2Proof/Machine/Executor.lean ====
section
/-!
DEFINITION. The executor EXE: its jobs and their steps (41_queue R260 to R273, 45_sprites R431 to R433).
-/

namespace Sys2Proof.Machine

/-- The state with another executor. -/
def State.setExe (s : State) (e : Exe) : State := { s with exe := e }

/-- The state with another job left to do. -/
def State.setWork (s : State) (ms : List Micro) : State := s.setExe { s.exe with work := ms }

/-- Start a job (41_queue R261). -/
def State.startJob (s : State) (st : ExeState) (ctx : ErrCtx) (ms : List Micro) : State :=
  s.setExe { s.exe with state := st, ctx := ctx, ok := true, work := ms }

/-! ### Drains (41_queue R268 to R273) -/

/-- The error of a rejected entry or host-operation word (30_encoding R166, R168). A queue entry is never truncated. -/
def rejectCode : DecodeReject → ErrCode
  | .illegalOpcode => .illegalOpcode
  | .badLength => .badLength
  | .reservedBits => .reservedBits
  | .badHostop => .badHostop
  | .truncated => .badLength

/-- `EXECUTE(e)` without the pop (41_queue R268): the common checks, then the command. It leaves `ok` in `exe.ok`. -/
def State.executeEntry (s : State) (e : Entry) : Host.Outcome State Fault Refusal :=
  let t := s.setExe { s.exe with ok := true }
  match decodeEntry e with
  | .error r => .next (t.raiseCmd (hdrOp e.e0) (rejectCode r) 0)
  | .ok i => exec i t

/-- The head entry removed (41_queue R268). -/
def State.popEntry (s : State) : State := s.setQueue { s.queue with entries := s.queue.entries.tail }

/-- What follows an entry in a drain (41_queue R269, R273): the pop, and either the next round or, after an error in the
vsync service, the end of this cycle. -/
def State.drainNext (d : Drain) (s : State) : State :=
  let t := s.popEntry
  if t.exe.ok = false ∧ t.exe.ctx = .vsync then
    (if d.hid then t.requestRefresh else t).pushWork [.drainEnd true]
  else t.pushWork [.drainLoop ⟨d.left.map (fun n => n - 1), true, d.hid⟩]

/-- The tail of a drain (41_queue R269): a compositing pass if the sprites were hidden or a refresh is pending. -/
def State.drainTail (d : Drain) (s : State) : State :=
  if d.hid || s.comp.refreshPending then s.pushWork [.refresh, .drainEnd d.ran] else s.pushWork [.drainEnd d.ran]

/-- Apply a function to the state of an outcome that has one. -/
def mapNext (f : State → State) : Host.Outcome State Fault Refusal → Host.Outcome State Fault Refusal
  | .next s => .next (f s)
  | .fault r => .fault r
  | .refused r => .refused r

/-- One round of a drain's loop, or its tail (41_queue R269). -/
def State.drainStep (s : State) (d : Drain) : Host.Outcome State Fault Refusal :=
  match s.queue.entries with
  | [] => .next (s.drainTail d)
  | e :: _ => if d.left = some 0 then .next (s.drainTail d) else mapNext (State.drainNext d) (s.executeEntry e)

/-- The last line of a drain (41_queue R269, R270). -/
def State.drainFinish (s : State) (ran : Bool) : State :=
  if ran && decide (s.qcount = 0) then s.setIrq irqDrained else s

/-! ### The steps of a job -/

/-- The steps of `REFRESH` (45_sprites R433). -/
def State.refreshSteps (s : State) : List Micro :=
  if s.comp.shown then s.hideSteps ++ [.showBegin] else [.showBegin]

/-- A host operation (41_queue R264): the check of its code, or its effect. -/
def State.hostOpStep (s : State) (v : Word) : Host.Outcome State Fault Refusal :=
  match decodeHostOp v with
  | .error r => .next (s.raise .host (v.extractLsb' 0 8) (rejectCode r) 0#32)
  | .ok i => exec i s

/-- The next record of a show pass, or the cursor's turn (45_sprites R432). -/
def State.showRecordsStep (s : State) (k : Nat) (seen : Bool) : State :=
  if k < s.recordCount then
    let p := showStep (s, seen) k
    p.1.pushWork [.showRecords (k + 1) p.2]
  else s.pushWork [.showCursor seen]

/-- The end of a job (41_queue R264, R266, R272): EXE is idle, and the HOST request it served is complete. -/
def State.endJob (s : State) : State :=
  let t := s.setExe { s.exe with state := .idle }
  if s.exe.state = .vservice then t else t.setHeld .free

/-- One step of a job; `s` no longer holds the step itself in its work (41_queue R262). -/
def State.microStep (s : State) : Micro → Host.Outcome State Fault Refusal
  | .hostOp v => s.hostOpStep v
  | .pushEntry e => .next (s.append e)
  | .drainBegin => .next (s.beginDrain .sync none)
  | .drainLoop d => s.drainStep d
  | .drainEnd ran => .next (s.drainFinish ran)
  | .hideCursor => .next s.hideCursor
  | .hideRecords 0 => .next s.hideEnd
  | .hideRecords (k + 1) => .next ((s.hideRecord k).pushWork [.hideRecords k])
  | .refresh => .next (s.pushWork s.refreshSteps)
  | .showBegin => .next (s.showStart.pushWork [.showRecords 0 false])
  | .showRecords k seen => .next (s.showRecordsStep k seen)
  | .showCursor seen => .next (s.showFinish seen)
  | .jobEnd => .next s.endJob

/-! ### Starting a job (41_queue R261) -/

/-- The start of the vsync service (41_queue R261, R272). -/
def State.startVsync (s : State) : State :=
  let t := s.startJob .vservice .vsync [.jobEnd]
  (t.setExe { t.exe with vsReq := false }).beginDrain .vsync (some s.qcount)

/-- The steps of a synchronous push (41_queue R266). -/
def State.syncPushSteps (s : State) (e : Entry) : List Micro :=
  (if s.qcount = s.cfg.qdepth then [.drainBegin] else []) ++ [.pushEntry e, .drainBegin, .jobEnd]

/-- The steps of a host operation (41_queue R264): `SETSPRITES` first hides the sprites, in steps of their own (45_sprites
R440, log entry 7). -/
def State.hostOpSteps (s : State) (v : Word) : List Micro :=
  (if s.comp.shown = true ∧ v = 7#32 then s.hideSteps else []) ++ [.hostOp v, .jobEnd]

/-- Whether HOST is held on a request that needs EXE (41_queue R261). -/
def Held.needsExe : Held → Bool
  | .free => false
  | .fullPush _ => false
  | .syncPush _ => true
  | .hostOp _ => true
  | .wait => false

/-- Start the job of the highest priority (41_queue R261). -/
def State.startNext (s : State) : State :=
  if s.exe.vsReq then s.startVsync
  else
    match s.held with
    | .syncPush e => s.startJob .sdrain .sync (s.syncPushSteps e)
    | .hostOp v => s.startJob .hostop .host (s.hostOpSteps v)
    | .free => s
    | .fullPush _ => s
    | .wait => s

/-- Whether EXE has an enabled step (41_queue R261). -/
def State.exeEnabled (s : State) : Bool :=
  match s.exe.work with
  | [] => decide (s.exe.state = .idle) && (s.exe.vsReq || s.held.needsExe)
  | _ :: _ => true

/-- EXE's enabled step. -/
def State.exeStep (s : State) : Host.Outcome State Fault Refusal :=
  match s.exe.work with
  | [] => .next s.startNext
  | m :: ms => (s.setWork ms).microStep m

end Sys2Proof.Machine
end

