-- ==== Sys2Proof/Machine/Sequencer.lean ====
section
/-!
DEFINITION. The sequencer SEQ: its two steps and the events they raise (40_video R230 to R236).
-/

namespace Sys2Proof.Machine

/-- The state with another sequencer. -/
def State.setSeq (s : State) (q : Seq) : State := { s with seq := q }

/-- SEQ stops on a bus error at `fa` (60_exceptions R479). -/
def State.seqFault (s : State) (fa : Nat) : State :=
  (s.raise .seq 0x00#8 .busSeq (BitVec.ofNat 32 fa)).setSeq { s.seq with phase := .stop, pixOut := 0x00#8 }

/-- Whether a vertical-sync event requests a vsync service (40_video R233). -/
def State.vsyncEnabled (s : State) : Bool :=
  s.sys.bgexec && decide (s.queue.suspend = 0#8) && decide (s.exe.state = .idle) && !s.exe.vsReq

/-- `VSYNC_EVENT` (40_video R233). -/
def State.vsyncEvent (s : State) : State :=
  let t := s.setIrq irqVsync
  if s.vsyncEnabled then { t with exe := { t.exe with vsReq := true } } else t

/-- A frame boundary (40_video R235). -/
def State.frameBoundary (s : State) : State :=
  let t := (s.setSeq { s.seq with frameCount := s.seq.frameCount + 1#32 }).setIrq irqFrame
  if t.geom.pending then t.geometryCommit else t

/-- `ADVANCE` (40_video R234). -/
def State.seqAdvance (s : State) : State :=
  let q := { s.seq with dptr := s.seq.latNext, phase := .fetch }
  if s.seq.latNext = s.alloc.chainBase then (s.setSeq { q with didx := 0 }).frameBoundary
  else s.setSeq { q with didx := s.seq.didx + 1 }

/-- The latches of a `FETCH` step, and the line it belongs to (40_video R231, 20_memory R115, log entry 30). -/
def State.seqLatch (s : State) : Seq :=
  let a := s.seq.dptr.toNat
  let w0 := memWord s.mem a
  { s.seq with
    latLen := w0.extractLsb' 12 12
    latEof := w0.getLsbD 30
    latBuf := memWord s.mem (a + 4)
    latNext := memWord s.mem (a + 8)
    scanline := BitVec.ofNat 16 (s.seq.didx / s.alloc.group.toNat)
    bidx := 0 }

/-- The `FETCH` step (40_video R231). -/
def State.seqFetch (s : State) : State :=
  match firstBad s (byteRange s.seq.dptr.toNat 12) with
  | some fa => s.seqFault fa
  | none =>
    let t := s.setSeq s.seqLatch
    let u := if t.seq.latEof then t.vsyncEvent else t
    if u.seq.latLen = 0#12 then u.seqAdvance else u.setSeq { u.seq with phase := .emit }

/-- The address of the byte that an `EMIT` step emits. -/
def State.emitAddr (s : State) : Nat := wrapAddr (s.seq.latBuf.toNat + s.seq.bidx)

/-- The `EMIT` step, one pixel clock (40_video R236). -/
def State.seqEmit (s : State) : State :=
  if memOk s s.emitAddr then
    let t := s.setSeq { s.seq with pixOut := memByte s.mem s.emitAddr, bidx := s.seq.bidx + 1 }
    if t.seq.bidx = t.seq.latLen.toNat then t.seqAdvance else t
  else s.seqFault s.emitAddr

/-- Whether SEQ has an enabled step (40_video R230). -/
def State.seqEnabled (s : State) : Bool := decide (s.seq.phase ≠ .stop)

/-- SEQ's enabled step (40_video R230). -/
def State.seqStep (s : State) : State :=
  match s.seq.phase with
  | .stop => s
  | .fetch => s.seqFetch
  | .emit => s.seqEmit

end Sys2Proof.Machine
end

