-- ==== Sys2Proof/Machine/Agents.lean ====
section
/-!
DEFINITION. Reset and the platform (70_reset R510, 60_exceptions R478), the choice of the agent that moves next (00_scope
R3, 20_memory R107), and how an instruction is put where the next step runs it.
-/

namespace Sys2Proof.Machine

/-! ### What acts from outside -/

/-- Whether HOST is held on a `WAIT` read. -/
def Held.isWait : Held → Bool
  | .free => false
  | .fullPush _ => false
  | .syncPush _ => false
  | .hostOp _ => false
  | .wait => true

/-- The reset action (70_reset R510, R511): every element takes its reset value, but for the parameters and memory. A held
`WAIT` read returns 0. -/
def State.doReset (s : State) : State :=
  { State.reset with
    cfg := s.cfg
    mem := s.mem
    pools := List.replicate s.cfg.npool ⟨0#32, 0#32⟩
    env := { s.env with readData := if s.held.isWait then 0#32 else s.env.readData } }

/-- The memory that the step EXE would take next leaves. -/
def State.exeNextMem (s : State) : Memory :=
  if s.exeEnabled then
    match s.exeStep with
    | .next t => t.mem
    | .fault _ => s.mem
    | .refused _ => s.mem
  else s.mem

/-- A reset in the middle of the step EXE would take next (70_reset R510, 93 U23, log entry 12). -/
def State.cutReset (s : State) : State :=
  let t := (s.setMem (memCut (Config.freeLanded s.env.tick) s.mem s.exeNextMem)).doReset
  { t with env := { t.env with tick := t.env.tick + 1 } }

/-- The platform's new `MEM_OK` (60_exceptions R478). -/
def State.setMemMap (s : State) (rs : List Region) : State := { s with cfg := { s.cfg with memMap := rs } }

/-- Whether the outside acts next. -/
def State.outsideEnabled (s : State) : Bool :=
  match s.env.inputs with
  | [] => false
  | i :: _ => !i.isHost

/-- The outside's action. -/
def State.outsideStep (s : State) : State :=
  match s.env.inputs with
  | [] => s
  | .reset :: _ => s.dropInput.doReset
  | .resetMidStep :: _ => s.dropInput.cutReset
  | .platform rs :: _ => s.dropInput.setMemMap rs
  | .regWrite _ _ _ :: _ => s
  | .regRead _ _ :: _ => s
  | .memWrite _ _ _ :: _ => s
  | .memRead _ _ :: _ => s
  | .memReadByte _ _ :: _ => s

/-! ### Interleaving (log entry 4) -/

/-- Whether an agent has an enabled step. -/
def State.enabled (s : State) : Agent → Bool
  | .host => s.hostEnabled
  | .seq => s.seqEnabled
  | .exe => s.exeEnabled
  | .outside => s.outsideEnabled

/-- An agent's step. -/
def State.agentStep (s : State) : Agent → Host.Outcome State Fault Refusal
  | .host => .next s.hostStep
  | .seq => .next s.seqStep
  | .exe => s.exeStep
  | .outside => .next s.outsideStep

/-- The agents that have an enabled step. -/
def State.enabledAgents (s : State) : List Agent := [Agent.host, .seq, .exe, .outside].filter s.enabled

/-- The schedule from its first agent on that has an enabled step. -/
def State.liveSched (s : State) : List Agent := s.env.sched.dropWhile (fun a => !s.enabled a)

/-- The state with another schedule. -/
def State.setSched (s : State) (as : List Agent) : State := { s with env := { s.env with sched := as } }

/-- The state with one free choice made. -/
def State.nextTick (s : State) : State := { s with env := { s.env with tick := s.env.tick + 1 } }

/-- The agent that moves next, with the state in which it moves: the first enabled agent of the schedule, else the only
enabled agent, else a free choice; none if no agent is enabled. -/
def State.pick (s : State) : Option (Agent × State) :=
  match s.liveSched with
  | a :: as => some (a, s.setSched as)
  | [] =>
    match s.enabledAgents with
    | [] => none
    | [a] => some (a, s.setSched [])
    | a :: as =>
      some ((a :: as).getD (Config.freeAgent s.env.tick % (as.length + 1)) a, (s.setSched []).nextTick)

/-- One atomic step of the whole system (20_memory R107). With no agent enabled, nothing happens: HOST is free and has
nothing to do, or it is held forever (log entry 11). -/
def State.systemStep (s : State) : Host.Outcome State Fault Refusal :=
  match s.pick with
  | some (a, t) => t.agentStep a
  | none => if s.held = .free then .next s else .fault .hostHeldForever

/-! ### Placing an instruction (log entry 9) -/

/-- The entry of the words of a command, its unused words 0 (10_state R63). -/
def entryOfWords (ws : List Word) : Entry :=
  match frame ws with
  | some (e, _) => e
  | none => ⟨0#32, 0#32, 0#32, 0#32⟩

/-- The state in which EXE's next step executes a queue entry: it is the head of the queue of a running synchronous
drain. -/
def State.placeEntry (s : State) (e : Entry) : State :=
  let t := s.startJob .sdrain .sync [.drainLoop ⟨none, false, false⟩, .jobEnd]
  (t.setQueue { t.queue with entries := e :: t.queue.entries.tail }).setSched (.exe :: s.env.sched)

/-- The state in which EXE's next step performs a host operation. -/
def State.placeHostOp (s : State) (v : Word) : State :=
  (s.startJob .hostop .host [.hostOp v, .jobEnd]).setSched (.exe :: s.env.sched)

/-- An instruction's words placed where the next step runs them: in the queue, or as the host operation of the port that
`decodeTableWord` reads them at (log entry 13). -/
def State.placeWords (s : State) (nbits w : Nat) : State :=
  match tablePort (w % 2 ^ nbits) with
  | .hostop => s.placeHostOp (tableWord (w % 2 ^ nbits) 0)
  | .cmdData => s.placeEntry (entryOfWords (tableWords nbits w))

end Sys2Proof.Machine
end

