-- ==== Sys2Proof/Machine/Step.lean ====
section
/-!
DEFINITION. The step of the whole system, and the placing of one instruction in front of it.
-/

namespace Sys2Proof.Machine

/-- One step: some agent with an enabled step takes it (00_scope R3, 20_memory R107). -/
def step (s : State) : Host.Outcome State Fault Refusal := s.systemStep

/-- `s` with an instruction placed where the next step runs it. -/
def State.withFetchWord (s : State) (nbits w : Nat) : State := s.placeWords nbits w

end Sys2Proof.Machine
end

