-- ==== Sys2Proof/Safety.lean ====
section
/-!
DEFINITION. What the claims say: which part of a state a step may change, which bytes it may store, and the invariants that
every step keeps.
-/

namespace Sys2Proof.Machine

/-! ### Running EXE alone -/

/-- `n` steps of EXE with no other agent between them, stopping at the first fault or refusal. -/
def State.exeRun : Nat → State → Host.Outcome State Fault Refusal
  | 0, s => .next s
  | n + 1, s =>
    match s.exeStep with
    | .next t => State.exeRun n t
    | .fault r => .fault r
    | .refused r => .refused r

/-! ### What may change -/

/-- Nothing but memory differs. -/
def onlyMemory (s t : State) : Prop := t = { s with mem := t.mem }

/-- Nothing but memory and the pen position differs. -/
def onlyMemoryAndPen (s t : State) : Prop :=
  t = { s with mem := t.mem, paint := { s.paint with posX := t.paint.posX, posY := t.paint.posY } }

/-- Nothing but the error record (10_state R47 to R49) and the success flag of the command differs. -/
def onlyErrorRecord (s t : State) : Prop :=
  t = { s with
    sys := { s.sys with err := t.sys.err, errAddr := t.sys.errAddr, irqStatus := t.sys.irqStatus }
    exe := { s.exe with ok := t.exe.ok } }

/-- Every byte of memory whose address does not satisfy `P` reads as before; addresses are below 2^32. -/
def storesOnly (P : Nat → Prop) (s t : State) : Prop :=
  ∀ a, ¬ P (wrapAddr a) → memByte t.mem a = memByte s.mem a

/-- Every byte of memory reads as before. -/
def sameBytes (s t : State) : Prop := ∀ a, memByte t.mem a = memByte s.mem a

/-- The address of a frame-buffer pixel in `CLIPVP` that satisfies `inside` (42_paint R302, R303). -/
def State.clippedPixel (s : State) (inside : Point → Prop) (a : Nat) : Prop :=
  ∃ p : Point, inside p ∧ s.clipVp.has p = true ∧ s.fbAddr p.1 p.2 = a

/-- Memory after plotting colour `c` at the points of `CLIPVP` that satisfy `inside`: those pixels' bytes are the colour's,
every other byte reads as before (42_paint R303). -/
def plots (s t : State) (inside : Point → Prop) (c : Colour) : Prop :=
  ∀ a, (s.clippedPixel inside (wrapAddr a) → memByte t.mem a = s.pixByte c) ∧
    (¬ s.clippedPixel inside (wrapAddr a) → memByte t.mem a = memByte s.mem a)

/-- Memory after rewriting by `f` the bytes of the pixels of `CLIPVP` that satisfy `inside`. -/
def rewrites (s t : State) (inside : Point → Prop) (f : Byte → Byte) : Prop :=
  ∀ a, (s.clippedPixel inside (wrapAddr a) → memByte t.mem a = f (memByte s.mem a)) ∧
    (¬ s.clippedPixel inside (wrapAddr a) → memByte t.mem a = memByte s.mem a)

/-- No two pixels of the viewport share a byte of the drawing buffer, as `APPLY` lays the rows out (40_video R217). -/
def State.pixelsApart (s : State) : Prop :=
  ∀ p q : Point, s.vpb.has p = true → s.vpb.has q = true → s.fbAddr p.1 p.2 = s.fbAddr q.1 q.2 → p = q

/-- Every byte of a run satisfies `MEM_OK` (20_memory R105). -/
def State.runOk (s : State) (a n : Nat) : Prop := ∀ k < n, memOk s (wrapAddr (a + k)) = true

/-- The bytes of the run of `n` from `a`. -/
def inRun (a n x : Nat) : Prop := ∃ k < n, wrapAddr (a + k) = x

/-- A rectangle with two given corners, in any order, as a condition on points (00_scope R11). -/
def betweenCorners (p q r : Point) : Prop :=
  min p.1 q.1 ≤ r.1 ∧ r.1 ≤ max p.1 q.1 ∧ min p.2 q.2 ≤ r.2 ∧ r.2 ≤ max p.2 q.2

/-- The failing address that a check of the addresses satisfying `P` reports: the lowest whose byte does not satisfy `MEM_OK`
(60_exceptions R478). -/
def State.lowestBadOf (s : State) (P : Nat → Prop) (fa : Nat) : Prop :=
  P fa ∧ memOk s fa = false ∧ ∀ a, P a → memOk s a = false → fa ≤ a

/-- No address satisfies both. -/
def apart (P Q : Nat → Prop) : Prop := ∀ a, P a → ¬ Q a

/-- Whether a drain that starts here hides the sprites first: they are shown, and a refresh is pending or there is an entry to
draw into the visible buffer (41_queue R269). -/
def State.drainHidesFirst (s : State) (hid : Bool) : Prop :=
  hid = true ↔ s.comp.shown = true ∧
    (s.comp.refreshPending = true ∨ (s.queue.entries ≠ [] ∧ s.alloc.dblActive = false))

/-- The four conditions of 40_video R242 on a geometry candidate, none of them failing: the block is configured, each porch fits
16 bits, the new line and frame totals fit 16 bits, and the chain of the timing with the candidate's porches, its group size by
R207, fits its capacity. -/
def State.geometryAccepts (s : State) (c : Porches) : Prop :=
  s.alloc.configured = true ∧
  (∀ n ∈ [c.hfp, c.hbp, c.vfp, c.vbp], 0 ≤ n ∧ n ≤ 65535) ∧
  ((s.active.hvis : Int) + c.hfp + s.active.hsync + c.hbp ≤ 65535 ∧
    (s.active.vvis : Int) + c.vfp + s.active.vsync + c.vbp ≤ 65535) ∧
  ∀ t : Timings, t = { s.active with h0 := t.h0, h1 := t.h1, v0 := t.v0, v1 := t.v1 } →
    t.hvis = s.active.hvis → t.hsync = s.active.hsync → t.vvis = s.active.vvis → t.vsync = s.active.vsync →
    (t.hfp : Int) = c.hfp → (t.hbp : Int) = c.hbp → (t.vfp : Int) = c.vfp → (t.vbp : Int) = c.vbp →
    (linePieces t s.vpcol s.vpw s.alloc.clen.toNat).length * t.vt ≤ s.alloc.chainCap.toNat

/-- The bytes of the `BUF` words of the visible `ROW` descriptors (40_video R227). -/
def State.bufWord (s : State) (a : Nat) : Prop := ∃ d ∈ s.rowDescs, inRun (s.descAddr d.1 + 4) 4 a

/-- Every visible `ROW` descriptor's `BUF` word in `m` is the target that table `t` gives it (40_video R227). -/
def State.targets (s : State) (m : Memory) (t : Bool) : Prop :=
  ∀ d ∈ s.rowDescs, memWord m (s.descAddr d.1 + 4) = BitVec.ofNat 32 (s.rowTarget d.2.1 d.2.2.off t)

/-! ### Glyph buffers -/

/-- The colour that cell `c` of a glyph buffer gives the point `p`: none outside its footprint, and none where its background is
transparent (44_blit R386, R387). -/
def State.cellPaint (s : State) (b : GlyphBuffer) (p : Point) (c : Nat × Nat) : Option Colour :=
  let cw := memWord s.mem (b.cellAddr c)
  let g := b.glyph cw
  let x : Int := ((c.1 * b.gw : Nat) : Int) + s.paint.originX.toInt
  let y : Int := ((c.2 * b.gh : Nat) : Int) + s.paint.originY.toInt
  if x ≤ p.1 ∧ p.1 < x + glyphOutWidth g (hiHalf cw) ∧ y ≤ p.2 ∧ p.2 < y + b.gh then
    glyphColour (hiHalf cw) (palette (cw.extractLsb' 12 4)) (palette (cw.extractLsb' 8 4))
      (glyphOut s.mem g (hiHalf cw) (p.1 - x).toNat (p.2 - y).toNat)
  else none

/-! ### Compositing -/

/-- The bytes of the visible viewport (45_sprites R436). -/
def State.visiblePixel (s : State) (a : Nat) : Prop := ∃ p : Point, s.vpb.has p = true ∧ s.vfbAddr p.1 p.2 = a

/-- No two visible pixels share a byte, as `APPLY` lays the rows out (40_video R217). -/
def State.visibleApart (s : State) : Prop :=
  ∀ p q : Point, s.vpb.has p = true → s.vpb.has q = true → s.vfbAddr p.1 p.2 = s.vfbAddr q.1 q.2 → p = q

/-- The `PRIV` byte of record `k` (20_memory R122). -/
def State.privByte (s : State) (k a : Nat) : Prop := wrapAddr (s.recordAddr k + 17) = a

/-- The bytes of record `k` that the compositor writes: `PRIV` and `SAVED_*` (20_memory R122). -/
def State.bookkeeping (s : State) (k a : Nat) : Prop := s.privByte k a ∨ inRun (s.recordAddr k + 20) 8 a

/-- One `DRAWSPRITE`: the position, the bitmap and the save buffer (45_sprites R432). -/
structure Draw where
  sx     : Int
  sy     : Int
  bitmap : Bitmap
  buffer : Nat
  deriving DecidableEq, Repr

/-- The area of a draw. -/
def State.drawArea (s : State) (d : Draw) : SavedArea := s.spriteArea d.sx d.sy d.bitmap

/-- The bytes of the save buffer that a draw writes (20_memory R126). -/
def State.drawBuffer (s : State) (d : Draw) (a : Nat) : Prop := inRun d.buffer ((s.drawArea d).w * (s.drawArea d).h) a

/-- The bitmap bytes that a draw reads (45_sprites R432). -/
def State.drawSource (s : State) (d : Draw) (a : Nat) : Prop :=
  ∃ i j, i < (s.drawArea d).w ∧ j < (s.drawArea d).h ∧ spriteSource d.sx d.sy d.bitmap (s.drawArea d) (i, j) = a

/-- What `DRAWSPRITE` leaves in memory (45_sprites R432): the old background in the save buffer, and in the viewport the opaque
pixels' colours, without `ENC` (log entry 36), with the sync bits `SI`, every other pixel kept. -/
def State.composited (s t : State) (d : Draw) : Prop :=
  let r := s.drawArea d
  ∀ i j : Nat, i < r.w → j < r.h →
    memByte t.mem (d.buffer + j * r.w + i) = s.vfbRead ((r.x + i : Nat) : Int) ((r.y + j : Nat) : Int) ∧
    t.vfbRead ((r.x + i : Nat) : Int) ((r.y + j : Nat) : Int) =
      (let v := memByte s.mem (spriteSource d.sx d.sy d.bitmap r (i, j))
       if 2 ≤ (v.extractLsb' 6 2).toNat then (v &&& 0x3F#8) ||| s.si
       else s.vfbRead ((r.x + i : Nat) : Int) ((r.y + j : Nat) : Int))

/-- The bytes that a draw may write: its save buffer and the visible pixels of its area. -/
def State.drawWrites (s : State) (d : Draw) (a : Nat) : Prop :=
  s.drawBuffer d a ∨ ∃ i j : Nat, i < (s.drawArea d).w ∧ j < (s.drawArea d).h ∧
    s.vfbAddr (((s.drawArea d).x + i : Nat) : Int) (((s.drawArea d).y + j : Nat) : Int) = a

/-- A draw's save buffer, its bitmap and the bytes that satisfy `keep` lie apart from each other and from the viewport. -/
def State.drawApart (s : State) (d : Draw) (keep : Nat → Prop) : Prop :=
  s.visibleApart ∧ apart (s.drawBuffer d) s.visiblePixel ∧ apart keep s.visiblePixel ∧ apart keep (s.drawBuffer d) ∧
  apart (s.drawSource d) s.visiblePixel ∧ apart (s.drawSource d) (s.drawBuffer d) ∧ apart (s.drawSource d) keep

/-- Whether a show pass looks for a frame of record `k`: it is visible, and not a static sprite already drawn (45_sprites R432,
R438). -/
def State.recordWanted (s : State) (k : Nat) : Bool :=
  let flags := memByte s.mem (s.recordAddr k + 16)
  flags.getLsbD 0 && !(flags.getLsbD 1 && (s.recordPriv k).getLsbD 1)

/-- The `DRAWSPRITE` of record `k` in a show pass, none where the pass skips the record (45_sprites R432, R438). -/
def State.recordDraw (s : State) (k : Nat) : Option Draw :=
  let a := s.recordAddr k
  if s.recordWanted k then
    match s.recordFrame k with
    | .none => none
    | .bad _ => none
    | .header hdr =>
      some ⟨(memHalf s.mem a).toInt, (memHalf s.mem (a + 2)).toInt, readBitmap s.mem hdr, (memWord s.mem (a + 12)).toNat⟩
  else none

/-- The cursor's `DRAWSPRITE` in a show pass, none where it is not shown (45_sprites R439). -/
def State.cursorDraw (s : State) : Option Draw :=
  if s.cursorWanted then
    some ⟨s.cursorPos.1, s.cursorPos.2, readBitmap s.mem s.cursor.bmp.toNat, s.cursor.bg.toNat⟩
  else none

/-- The draws of a show pass, in order (45_sprites R432). -/
def State.draws (s : State) : List Draw := (List.range s.recordCount).filterMap s.recordDraw ++ s.cursorDraw.toList

/-- The bytes that a show pass reads besides the viewport, `PRIV` and `SAVED_*`: the records' other bytes, frame pointers, bitmap
headers and bitmap bytes (45_sprites R432, R435). -/
def State.passInput (s : State) (a : Nat) : Prop :=
  (∃ k < s.recordCount, inRun (s.recordAddr k) 17 a ∨
    (s.recordWanted k = true ∧
      let frames := (memWord s.mem (s.recordAddr k + 4)).toNat
      let cur := (memHalf s.mem (s.recordAddr k + 10)).toNat
      (frames ≠ 0 ∧ cur < (memHalf s.mem (s.recordAddr k + 8)).toNat ∧ inRun (frames + 4 * cur) 4 a) ∨
      ∃ hdr, s.recordFrame k = .header hdr ∧ inRun hdr 8 a)) ∨
  (s.cursorWanted = true ∧ inRun s.cursor.bmp.toNat 8 a) ∨
  ∃ d ∈ s.draws, s.drawSource d a

/-- What a show pass reads, the viewport, the save buffers and the bookkeeping bytes of the records all lie apart
(70_reset R528, R531). -/
def State.passApart (s : State) : Prop :=
  s.visibleApart ∧ apart s.passInput s.visiblePixel ∧
  (∀ k < s.recordCount, apart (s.bookkeeping k) s.passInput ∧ apart (s.bookkeeping k) s.visiblePixel ∧
    ∀ j < k, apart (s.bookkeeping k) (s.bookkeeping j)) ∧
  (∀ d ∈ s.draws, apart (s.drawBuffer d) s.passInput ∧ apart (s.drawBuffer d) s.visiblePixel ∧
    ∀ k < s.recordCount, apart (s.drawBuffer d) (s.bookkeeping k)) ∧
  s.draws.Pairwise (fun d e => apart (s.drawBuffer d) (s.drawBuffer e))

/-- No byte that a compositing pass touches fails `MEM_OK` (45_sprites R443). -/
def State.passReadable (s : State) : Prop :=
  (∀ k < s.recordCount, s.runOk (s.recordAddr k) 32 ∧
    (s.recordWanted k = true → ∀ fa, s.recordFrame k ≠ .bad fa)) ∧
  (s.cursorWanted = true → s.runOk s.cursor.bmp.toNat 8) ∧
  ∀ d ∈ s.draws, ∀ a, s.drawBuffer d a ∨ s.drawSource d a → memOk s a = true

/-- Nothing is shown, and no static sprite is still to be drawn (45_sprites R430, R438). -/
def State.passSettled (s : State) : Prop :=
  s.cursor.allowDraw = false ∧
  ∀ k < s.recordCount, (s.recordPriv k).getLsbD 0 = false ∧
    ((memByte s.mem (s.recordAddr k + 16)).getLsbD 0 = true → (memByte s.mem (s.recordAddr k + 16)).getLsbD 1 = true →
      (s.recordPriv k).getLsbD 1 = true)

/-! ### Invariants -/

/-- The memory is in canonical form. -/
def State.memoryOk (s : State) : Prop := Memory.wf s.mem = true

/-- The paint state's invariants: `CLIP_ABS` is `CLIP_REL` plus the origin (10_state R58), and the clip and the scrolling
region are normalized (10_state R57, R59). -/
def State.paintOk (s : State) : Prop :=
  s.paint.clipAbs = absClip s.paint.clipRel s.paint.originX s.paint.originY ∧
  (s.paint.clipRel.x1.toInt ≤ s.paint.clipRel.x2.toInt ∧ s.paint.clipRel.y1.toInt ≤ s.paint.clipRel.y2.toInt) ∧
  (s.paint.scroll.x1.toInt ≤ s.paint.scroll.x2.toInt ∧ s.paint.scroll.y1.toInt ≤ s.paint.scroll.y2.toInt)

/-- A stopped sequencer outputs 0 (10_state R72); before configuration it is stopped, no service is requested, the viewport
is empty and there is one buffer (10_state R44, R74); a single buffer is buffer 0 (10_state R69). -/
def State.outputOk (s : State) : Prop :=
  (s.seq.phase = .stop → s.seq.pixOut = 0x00#8) ∧
  (s.alloc.configured = false →
    s.seq.phase = .stop ∧ s.exe.vsReq = false ∧ s.active.vpSize = 0#32 ∧ s.alloc.dblActive = false) ∧
  (s.alloc.dblActive = false → s.rows.visBuf = false)

/-- Reserved bits are 0 (10_state R40, R42, R47), and an error record that is not valid is all 0 (10_state R47, R48). -/
def State.reservedOk (s : State) : Prop :=
  (s.staged.mode &&& ~~~modeMask = 0#32 ∧ s.staged.vpCfg &&& ~~~vpCfgMask = 0#32) ∧
  (s.active.mode &&& ~~~modeMask = 0#32 ∧ s.active.vpCfg &&& ~~~vpCfgMask = 0#32) ∧
  s.sys.err &&& 0x3CFF0000#32 = 0#32 ∧
  (errValid s.sys.err = false → s.sys.err = 0#32 ∧ s.sys.errAddr = 0#32)

/-- EXE is idle exactly when it has nothing left to do (41_queue R260); a job ends with its last step; HOST is held on the
request that the job serves (41_queue R264, R266). -/
def State.jobOk (s : State) : Prop :=
  ((s.exe.state = .idle ∧ s.exe.work = []) ∨
    (s.exe.state ≠ .idle ∧ ∃ ms, s.exe.work = ms ++ [.jobEnd] ∧ Micro.jobEnd ∉ ms)) ∧
  (s.exe.state = .sdrain → ∃ e, s.held = .syncPush e) ∧
  (s.exe.state = .hostop → ∃ v, s.held = .hostOp v)

/-- A partial command holds fewer words than it needs (10_state R34, 41_queue R265). -/
def State.partialOk (s : State) : Prop :=
  s.queue.partialCount ≤ s.queue.partialLen ∧ (s.queue.partialCount = 0#2 → s.queue.partialLen = 0#2)

/-- A step of a synchronous drain to empty, or the start of one. -/
def Micro.drainsAll : Micro → Prop
  | .drainBegin => True
  | .drainLoop d => d.left = none
  | .hostOp _ => False
  | .pushEntry _ => False
  | .drainEnd _ => False
  | .hideCursor => False
  | .hideRecords _ => False
  | .refresh => False
  | .showBegin => False
  | .showRecords _ _ => False
  | .showCursor _ => False
  | .jobEnd => False

/-- The queue holds at most `QDEPTH` entries (10_state R62), and a synchronous push that is still to append its entry finds
room: there is some now, or its job drains the queue first (41_queue R266). -/
def State.roomOk (s : State) : Prop :=
  1 ≤ s.cfg.qdepth ∧ s.qcount ≤ s.cfg.qdepth ∧
  (∀ pre e post, s.exe.work = pre ++ .pushEntry e :: post →
    s.exe.ctx = .sync ∧ s.exe.state = .sdrain ∧ (∀ e', Micro.pushEntry e' ∉ pre ++ post) ∧
      (s.qcount < s.cfg.qdepth ∨ ∃ m ∈ pre, m.drainsAll))

/-- The group size and the length of the chain are those of the active timing, and the chain lies inside the address space,
within its capacity (40_video R207, R218, R242, R243). -/
def State.chainOk (s : State) : Prop :=
  1 ≤ s.active.vvis ∧ s.alloc.group.toNat = s.pieces.length ∧ s.alloc.chainLen.toNat = s.pieces.length * s.active.vt ∧
  s.alloc.chainLen.toNat ≤ s.alloc.chainCap.toNat ∧ s.alloc.chainBase.toNat + 12 * s.alloc.chainCap.toNat ≤ 2 ^ 32 ∧
  (s.geom.pending = true →
    let t := s.active.withPorches (loHalf s.geom.pH) (hiHalf s.geom.pH) (loHalf s.geom.pV) (hiHalf s.geom.pV)
    s.groupOf t * t.vt ≤ s.alloc.chainCap.toNat)

/-- The rows of the viewport lie apart inside the address space, those of both tables with double buffering
(40_video R217). -/
def State.rowsOk (s : State) : Prop :=
  ∀ (b : Bool) (y : Nat), (b = true → s.alloc.dblActive = true) → y < s.vph →
    (s.rows.entry b y).toNat + s.vpw ≤ 2 ^ 32 ∧
    ∀ (c : Bool) (z : Nat), (c = true → s.alloc.dblActive = true) → z < s.vph → (b, y) ≠ (c, z) →
      (s.rows.entry b y).toNat + s.vpw ≤ (s.rows.entry c z).toNat ∨
      (s.rows.entry c z).toNat + s.vpw ≤ (s.rows.entry b y).toNat

/-- The layout of the block: nothing before it is configured, and then what `APPLY` commits (40_video R214 to R219). -/
def State.layoutOk (s : State) : Prop :=
  s.cfg.valid ∧ (s.alloc.configured = false → s.active.vpSize = 0#32 ∧ s.alloc.dblActive = false) ∧
  (s.alloc.configured = true → s.chainOk ∧ s.rowsOk)

end Sys2Proof.Machine
end

