-- ==== Sys2Proof/Certificates/Slice0/Obligations.lean ====
section
/-!
DEFINITION. The statements for the provers, in the order of OBLIGATIONS.json.
-/

open Sys2Proof Sys2Proof.Machine

/-! ### Encoding -/

/-- Decoding what the encoder wrote gives the instruction back, whatever words follow it (30_encoding R150 to R158, R168). -/
def Obligations.DecodeOfEncode : Prop :=
  ∀ (i : Instr) (rest : List Word), i.wellFormed = true → decode i.port (encode i ++ rest) = .ok i

/-- Encoding what was decoded gives the words back: the command's header and its `LEN` argument words, or the one word of a
host operation (30_encoding R150, R155, R168). -/
def Obligations.EncodeOfDecode : Prop :=
  (∀ (e : Entry) (i : Instr), decodeEntry e = .ok i →
    i.wellFormed = true ∧ i.port = .cmdData ∧
      encode i = [e.e0, e.e1, e.e2, e.e3].take ((hdrLen e.e0).toNat + 1)) ∧
  ∀ (v : Word) (i : Instr), decodeHostOp v = .ok i → i.port = .hostop ∧ encode i = [v]

/-- The common checks of an entry, in their order (30_encoding R157, R166), and the codes of host operations
(30_encoding R168). -/
def Obligations.ChecksInOrder : Prop :=
  (∀ e : Entry, (hdrOp e.e0).toNat = 0 ∨ 0x1C < (hdrOp e.e0).toNat → decodeEntry e = .error .illegalOpcode) ∧
  (∀ e : Entry, 1 ≤ (hdrOp e.e0).toNat ∧ (hdrOp e.e0).toNat ≤ 0x1C → ∃ op : Opcode, op.toByte = hdrOp e.e0 ∧
    decodeEntry e =
      if hdrLen e.e0 ≠ op.format.len then .error .badLength
      else if hdrRsv e.e0 ≠ 0#6 ∨ hdrImm e.e0 &&& op.reservedImm ≠ 0#16 then .error .reservedBits
      else .ok (op.build e)) ∧
  (∀ v : Word, v.toNat = 0 ∨ 8 < v.toNat ↔ decodeHostOp v = .error .badHostop)

/-- Words written out from 30_encoding R172 decode to the instructions that they stand for. -/
def Obligations.DecodedWords : Prop :=
  decode .cmdData [0x00020001#32] = .ok (.setPenColor 2#16) ∧
  decode .cmdData [0x00000105#32, 0x0000027F#32] = .ok (.lineTo 639#16 0#16) ∧
  decode .cmdData [0x00000206#32, 0x0014000A#32, 0x001EFFFB#32] = .ok (.fillRect 10#16 20#16 0xFFFB#16 30#16) ∧
  decode .cmdData [0xFFFD000A#32] = .ok (.vScroll 0xFFFD#16) ∧
  decode .cmdData [0x00000313#32, 0x00020001#32, 0x00040003#32, 0x20001000#32] =
    .ok (.readRawData 1#16 2#16 3#16 4#16 0x20001000#32) ∧
  decode .cmdData [0x00030119#32, 0x20002000#32] = .ok (.fillPath 3#16 0x20002000#32) ∧
  decode .hostop [1#32] = .ok .hostopApply

/-- Writing the words of a command to `CMD_DATA`, with no partial command before it and room in the queue of a queued-mode
block, appends exactly one entry, which decodes to that command, and completes each access (41_queue R265, R266). -/
def Obligations.SubmittedCommandIsQueued : Prop :=
  ∀ (s : State) (i : Instr), i.wellFormed = true → i.port = .cmdData → s.queue.partialCount = 0#2 → s.pushSync = false →
    s.qcount < s.cfg.qdepth →
    ∃ e cb, decodeEntry e = .ok i ∧
      (encode i).foldl State.cmdData s = { s with queue := { s.queue with
        entries := s.queue.entries ++ [e], cb := cb, partialCount := 0#2, partialLen := 0#2 } }

/-! ### The step -/

/-- A step runs the decoded instruction. EXE's step in a drain executes the head of the queue: it is `exec` of the decoded
instruction, then the pop and the rest of the drain (41_queue R268, R269); that a whole command is one step is the model's choice
(log entry 5). EXE's step on a host-operation request is `exec` of the operation of its code (41_queue R264). -/
def Obligations.StepRunsInstruction : Prop :=
  (∀ (s : State) (as : List Agent) (d : Drain) (ms : List Micro) (e : Entry) (es : List Entry) (i : Instr),
    s.env.sched = .exe :: as → s.exe.work = .drainLoop d :: ms → d.left ≠ some 0 → s.queue.entries = e :: es →
    decodeEntry e = .ok i →
    step s = mapNext (State.drainNext d) (exec i ((s.setSched as).setExe { s.exe with ok := true, work := ms }))) ∧
  ∀ (s : State) (as : List Agent) (ms : List Micro) (v : Word) (i : Instr),
    s.env.sched = .exe :: as → s.exe.work = .hostOp v :: ms → decodeHostOp v = .ok i →
    step s = exec i ((s.setSched as).setWork ms)

/-- An entry that fails a common check is popped with only the error recorded; a synchronous drain goes on with the next
entry, the vsync service gives up this cycle and asks for a refresh if it hid the sprites (41_queue R268, R269, R273). A value
written to `HOSTOP` that is no code, above 8 or 0, only records `BAD_HOSTOP` in context 0 with its low byte as `OP`
(30_encoding R168, 41_queue R264); the end of the job is its next step (the model's choice, log entry 8). -/
def Obligations.RejectedHeadIsPopped : Prop :=
  (∀ (s : State) (as : List Agent) (d : Drain) (ms : List Micro) (e : Entry) (es : List Entry) (r : DecodeReject),
    s.env.sched = .exe :: as → s.exe.work = .drainLoop d :: ms → d.left ≠ some 0 → s.queue.entries = e :: es →
    decodeEntry e = .error r →
    ∃ t, step s = .next t ∧
      t = { s with
        sys := (s.raise s.exe.ctx (hdrOp e.e0) (rejectCode r) 0#32).sys
        queue := { s.queue with entries := es }
        comp := { s.comp with
          refreshPending := s.comp.refreshPending || (decide (s.exe.ctx = .vsync) && d.hid) }
        env := { s.env with sched := as }
        exe := { s.exe with
          ok := false
          work := if s.exe.ctx = .vsync then .drainEnd true :: ms
            else .drainLoop ⟨d.left.map (fun n => n - 1), true, d.hid⟩ :: ms } }) ∧
  ∀ (s : State) (as : List Agent) (ms : List Micro) (v : Word),
    s.env.sched = .exe :: as → s.exe.work = .hostOp v :: ms → v.toNat = 0 ∨ 8 < v.toNat →
    step s = .next { s with
      sys := (s.raise .host (v.extractLsb' 0 8) .badHostop 0#32).sys
      env := { s.env with sched := as }
      exe := { s.exe with work := ms } }

/-- The agent that moves next has an enabled step and moves in a state that differs only in the model's own fields; and
every agent with an enabled step is the one that moves under some schedule (00_scope R3; the schedule is the model's own field,
log entry 4). -/
def Obligations.AnyEnabledAgentMayMove : Prop :=
  (∀ (s t : State) (a : Agent), s.pick = some (a, t) →
    s.enabled a = true ∧ t = { s with env := { s.env with sched := t.env.sched, tick := t.env.tick } }) ∧
  ∀ (s : State) (a : Agent), s.enabled a = true → step (s.setSched [a]) = (s.setSched []).agentStep a

/-! ### Whole-machine rules -/

/-- `EXECUTE` of any entry completes, and changes nothing but the paint state, memory, the row tables, the cursor's and the
compositor's own flags, the error record and the success flag: the queue, the registers HOST writes, the configuration, the
sequencer and the rest of the job are left alone (41_queue R268, 42_paint R310 to R317; 10_state R43, R51, R64). -/
def Obligations.CommandsLeaveTheRestAlone : Prop :=
  ∀ (s : State) (e : Entry), ∃ t, s.executeEntry e = .next t ∧
    t = { s with
      mem := t.mem
      paint := t.paint
      rows := t.rows
      comp := t.comp
      cursor := { s.cursor with saved0 := t.cursor.saved0, saved1 := t.cursor.saved1, allowDraw := t.cursor.allowDraw }
      sys := { s.sys with err := t.sys.err, errAddr := t.sys.errAddr, irqStatus := t.sys.irqStatus }
      exe := { s.exe with ok := t.exe.ok } }

/-- A command that fails has changed nothing but the error record (60_exceptions R475). -/
def Obligations.FailedCommandsArePrecise : Prop :=
  ∀ (s t : State) (e : Entry), s.executeEntry e = .next t → t.exe.ok = false →
    onlyErrorRecord s t ∧ t.sys.irqStatus = s.sys.irqStatus ||| 0x8#4

/-- Every command but `VSCROLL`, `SWAPBUFFERS` and `READRAWDATA` stores only to the bytes of drawing-viewport pixels that lie in
`CLIPVP` (42_paint R304). -/
def Obligations.DrawingStaysInClip : Prop :=
  ∀ (i : Instr) (s t : State),
    i.port = .cmdData → (∀ n, i ≠ .vScroll n) → i ≠ .swapBuffers → (∀ x y w h a, i ≠ .readRawData x y w h a) →
    exec i s = .next t → storesOnly (s.clippedPixel (fun _ => True)) s t

/-- Only commands and reset change the paint state: no step of HOST or SEQ does, no step of the platform, and no step of EXE other
than one that executes an entry: neither one that starts a job, nor another step of a job, nor the drain's own step when the
queue is empty or its limit reached (40_video R219; 10_state, section 5). So a step of the whole machine changes it only when EXE
moves with an entry to execute, or a reset acts. -/
def Obligations.OnlyCommandsChangePaint : Prop :=
  (∀ s : State, s.hostStep.paint = s.paint ∧ s.seqStep.paint = s.paint ∧ s.startNext.paint = s.paint) ∧
  (∀ (s t : State) (m : Micro), (∀ d, m ≠ .drainLoop d) → s.microStep m = .next t → t.paint = s.paint) ∧
  (∀ (s : State) (d : Drain), s.queue.entries = [] ∨ d.left = some 0 →
    ∃ t, s.microStep (.drainLoop d) = .next t ∧ t = { s with exe := t.exe } ∧ t.paint = s.paint) ∧
  (∀ s : State, (∀ is, s.env.inputs ≠ .reset :: is) → (∀ is, s.env.inputs ≠ .resetMidStep :: is) →
    s.outsideStep.paint = s.paint) ∧
  ∀ s t : State, step s = .next t → t.paint = s.paint ∨
    (s.pick.map (fun p => p.1) = some .exe ∧ ∃ d ms e es, s.exe.work = .drainLoop d :: ms ∧ d.left ≠ some 0 ∧
      s.queue.entries = e :: es) ∨
    (s.pick.map (fun p => p.1) = some .outside ∧
      ∃ is, s.env.inputs = .reset :: is ∨ s.env.inputs = .resetMidStep :: is)

/-- A synchronous drain executes every queued entry, one EXE step each (the model's choice, log entry 5), and leaves the queue
empty (41_queue R269, R271). -/
def Obligations.SyncDrainEmptiesQueue : Prop :=
  ∀ (s : State) (ms : List Micro) (ran hid : Bool),
    s.exe.work = .drainLoop ⟨none, ran, hid⟩ :: ms → s.exe.ctx ≠ .vsync →
    ∃ t, State.exeRun s.qcount s = .next t ∧ t.queue = { s.queue with entries := [] } ∧
      t.exe.work = .drainLoop ⟨none, ran || decide (0 < s.qcount), hid⟩ :: ms ∧
      t.exe.state = s.exe.state ∧ t.exe.ctx = s.exe.ctx ∧ t.held = s.held

/-- The steps of a hide pass, of a show pass and of a compositing cycle, run one after the other, have the effect of the whole
pass (45_sprites R431 to R433, 41_queue R262; the steps that only begin or end a pass are the model's, log entry 8). A hide pass
after a show pass gives every visible byte back, and a show pass after that brings every byte of memory, and every flag, back to
what the first show pass left (R447): where no fault occurs, the buffers lie apart, nothing was shown before, and no static
sprite was still to be drawn (one drawn for the first time over a dynamic sprite is partly erased by the hide pass: log entry
35). -/
def Obligations.HideStepsAreHidePass : Prop :=
  (∀ (s : State) (ms : List Micro), s.exe.work = s.hideSteps ++ ms →
    State.exeRun (s.recordCount + 2) s = .next ((s.setWork ms).hidePass)) ∧
  (∀ (s : State) (ms : List Micro), s.exe.work = .showBegin :: ms →
    State.exeRun (s.recordCount + 3) s = .next ((s.setWork ms).showPass)) ∧
  (∀ (s : State) (ms : List Micro), s.exe.work = .refresh :: ms →
    State.exeRun (1 + (if s.comp.shown then s.recordCount + 2 else 0) + (s.recordCount + 3)) s =
      .next (if s.comp.shown then (s.setWork ms).hidePass.showPass else (s.setWork ms).showPass)) ∧
  ∀ u : State, u.passApart → u.passReadable → u.passSettled →
    let s := u.showPass
    let h := s.hidePass
    let t := h.showPass
    (∀ a, u.visiblePixel (wrapAddr a) → memByte h.mem a = memByte u.mem a) ∧
      sameBytes s t ∧ t = { s with mem := t.mem }

/-- `RESTORE` (45_sprites R436, R437): it writes only visible pixels of the viewport; where its buffer, the pixels and each other
lie apart each pixel takes its saved byte; a buffer byte that does not exist is a fault and nothing is restored. `HIDE_PASS` of a
record or of the cursor (R431, R443): without `ALLOWDRAW` nothing, with it a restore, and then `ALLOWDRAW` is 0, after a fault
too. The pass ends hidden and settled. DEDUCED, so the model's reading: that a `PRIV` byte that does not exist is left as it is
(log entry 33), that clearing `ALLOWDRAW` keeps `DRAWN` (log entry 20), and that the cursor's saved rectangle is read unsigned
(log entry 18). -/
def Obligations.RestoreStaysInViewport : Prop :=
  (∀ (s : State) (sx sy : Int) (sw sh sb : Nat),
    let t := s.restoreArea sx sy sw sh sb
    let target : Nat → Prop := fun a => ∃ i j : Nat, i < sw ∧ j < sh ∧ s.vpb.has (sx + i, sy + j) = true ∧
      s.vfbAddr (sx + i) (sy + j) = a
    storesOnly (fun a => ∃ p : Point, s.vpb.has p = true ∧ s.vfbAddr p.1 p.2 = a) s t ∧
    (∀ fa, s.lowestBadOf (inRun sb (sw * sh)) fa → t = s.raisePass fa) ∧
    (s.runOk sb (sw * sh) → onlyMemory s t ∧ storesOnly target s t ∧
      (s.visibleApart → apart (inRun sb (sw * sh)) s.visiblePixel → ∀ i j : Nat, i < sw → j < sh →
        s.vpb.has (sx + i, sy + j) = true → t.vfbRead (sx + i) (sy + j) = memByte s.mem (sb + j * sw + i)))) ∧
  (∀ (s : State) (k fa : Nat), s.lowestBadOf (inRun (s.recordAddr k) 32) fa → ∃ t, s.hideRecord k = t ∧
    t = { s with mem := t.mem, sys := (s.raisePass fa).sys } ∧ storesOnly (s.privByte k) s t ∧
    (memOk s (wrapAddr (s.recordAddr k + 17)) = true → (t.recordPriv k).getLsbD 0 = false) ∧
    (memOk s (wrapAddr (s.recordAddr k + 17)) = false → sameBytes s t)) ∧
  (∀ (s : State) (k : Nat), s.runOk (s.recordAddr k) 32 →
    let a := s.recordAddr k
    let u := s.restoreArea (memHalf s.mem (a + 20)).toInt (memHalf s.mem (a + 22)).toInt
      (memHalf s.mem (a + 24)).toNat (memHalf s.mem (a + 26)).toNat (memWord s.mem (a + 12)).toNat
    ((s.recordPriv k).getLsbD 0 = false → s.hideRecord k = s) ∧
    ((s.recordPriv k).getLsbD 0 = true → ∃ t, s.hideRecord k = t ∧ t = { u with mem := t.mem } ∧
      storesOnly (s.privByte k) u t ∧ (t.recordPriv k).getLsbD 0 = false ∧
      (t.recordPriv k).getLsbD 1 = (u.recordPriv k).getLsbD 1)) ∧
  (∀ s : State,
    let u := s.restoreArea (loHalf s.cursor.saved0).toNat (hiHalf s.cursor.saved0).toNat
      (loHalf s.cursor.saved1).toNat (hiHalf s.cursor.saved1).toNat s.cursor.bg.toNat
    (s.cursor.allowDraw = false → s.hideCursor = s) ∧
    (s.cursor.allowDraw = true → s.hideCursor = { u with cursor := { s.cursor with allowDraw := false } })) ∧
  ∀ s : State, s.hidePass.comp = { s.comp with shown := false, phase := .settled } ∧ s.hidePass.cursor.allowDraw = false

/-- SEQ writes no memory, but for the rebuild of the chain when a pending geometry is committed at a frame boundary, and then
only the descriptors of the new chain (20_memory R127, 40_video R243). -/
def Obligations.SequencerWritesNoMemory : Prop :=
  ∀ s : State, (s.geom.pending = false → s.seqStep.mem = s.mem) ∧
    storesOnly (inRun s.alloc.chainBase.toNat (12 * (s.seqStep.pieces.length * s.seqStep.active.vt))) s s.seqStep

/-! ### Invariants -/

/-- The state after reset satisfies every invariant (10_state R78). -/
def Obligations.ResetInvariants : Prop :=
  State.reset.memoryOk ∧ State.reset.paintOk ∧ State.reset.outputOk ∧ State.reset.reservedOk ∧ State.reset.jobOk ∧
    State.reset.partialOk ∧ State.reset.roomOk ∧ State.reset.layoutOk

/-- Every step keeps the memory's canonical form. -/
def Obligations.StepKeepsMemoryForm : Prop :=
  ∀ s t : State, s.memoryOk → step s = .next t → t.memoryOk

/-- Every step keeps `CLIP_ABS = CLIP_REL + (OX, OY, OX, OY)` and the normalized rectangles (10_state R57 to R59). -/
def Obligations.StepKeepsClipSum : Prop :=
  ∀ s t : State, s.paintOk → step s = .next t → t.paintOk

/-- Every step keeps the output quiet while SEQ is stopped and the block quiet before it is configured (10_state R72, R74). -/
def Obligations.StepKeepsOutputQuiet : Prop :=
  ∀ s t : State, s.outputOk → step s = .next t → t.outputOk

/-- Every step keeps the reserved bits at 0 and an invalid error record all 0 (10_state R30, R40, R42, R47). -/
def Obligations.StepKeepsReservedBits : Prop :=
  ∀ s t : State, s.reservedOk → step s = .next t → t.reservedOk

/-- Every step keeps EXE's jobs well formed and HOST held on the request that its job serves (41_queue R260 to R264). -/
def Obligations.StepKeepsJobs : Prop :=
  ∀ s t : State, s.jobOk → step s = .next t → t.jobOk

/-- Every step keeps the queue within `QDEPTH` entries (10_state R62) and the partial command within its length. -/
def Obligations.StepKeepsQueueBound : Prop :=
  ∀ s t : State, s.jobOk → s.roomOk → s.partialOk → step s = .next t → t.roomOk ∧ t.partialOk

/-! ### Errors and registers -/

/-- `raise Error` (60_exceptions R473): the first error is recorded with its fields, a later one only sets `OVERFLOW`, the
interrupt bit is set, and nothing else changes. HOST's return from an error: a write to `ERR` with bit 31 set clears the record
and its address, any other is ignored; a write to `IRQ_STATUS` clears the bits written 1; neither touches the other (10_state
R47, R49). -/
def Obligations.ErrorCaptureAndReturn : Prop :=
  (∀ (s : State) (ctx : ErrCtx) (op : Byte) (code : ErrCode) (fa : Word),
    (errValid s.sys.err = false →
      (s.raise ctx op code fa).sys.err.toNat =
        2 ^ 31 + ctx.toBits.toNat * 2 ^ 24 + op.toNat * 2 ^ 8 + code.toByte.toNat ∧
      (s.raise ctx op code fa).sys.errAddr = if code = .busExe ∨ code = .busSeq then fa else 0#32) ∧
    (errValid s.sys.err = true →
      (s.raise ctx op code fa).sys.err = s.sys.err ||| 0x40000000#32 ∧
      (s.raise ctx op code fa).sys.errAddr = s.sys.errAddr) ∧
    (s.raise ctx op code fa).sys.irqStatus = s.sys.irqStatus ||| 0x8#4 ∧
    s.raise ctx op code fa = { s with sys := { s.sys with
      err := (s.raise ctx op code fa).sys.err
      errAddr := (s.raise ctx op code fa).sys.errAddr
      irqStatus := (s.raise ctx op code fa).sys.irqStatus } }) ∧
  ∀ (s : State) (v : Word),
    s.hostWrite 4 0x024 v =
      (if v.getLsbD 31 = true then { s with sys := { s.sys with err := 0#32, errAddr := 0#32 } } else s) ∧
    s.hostWrite 4 0x02C v = { s with sys := { s.sys with irqStatus := s.sys.irqStatus &&& ~~~(v.setWidth 4) } }

/-- A register access of another width, at an offset that is no multiple of 4, or at an offset that names no register is ignored,
and a read of it gives 0. No register write of HOST changes a read-only register (the active configuration, the allocation
results, the pending geometry, the paint state, the active sprite list, the row tables, the sequencer's state), memory, EXE, or
an entry that is already queued (10_state R30, R43 to R45, R51, R53 to R61, R63, R67, R70, R73). A register that HOST can write
reads back what was written, its reserved bits 0 (R32, R37 to R42, R46, R50 to R52). In every state, each read-only register
reads its own piece of the state at its offset of R79, the write-only ones read 0 (R31, R34 to R37, R43 to R45, R47 to R49, R51
to R61, R67, R73, R75, R76; an entry past the end of a row table's list reads 0, log entry 23). `STATUS` reads the state's flags
(R33), and the level `IRQ` is up when an enabled interrupt bit is set (R50). -/
def Obligations.RegisterAccessRules : Prop :=
  (∀ (s : State) (width off : Nat) (v : Word),
    width ≠ 4 ∨ off % 4 ≠ 0 ∨ Reg.ofOffset s.cfg off = none → s.hostWrite width off v = s ∧ s.regRead width off = 0#32) ∧
  (∀ (s : State) (width off : Nat) (v : Word),
    let t := s.hostWrite width off v
    t.active = s.active ∧ t.alloc = s.alloc ∧ t.geom = s.geom ∧ t.paint = s.paint ∧ t.sprActive = s.sprActive ∧
      t.rows = s.rows ∧ t.seq = s.seq ∧ t.mem = s.mem ∧ t.exe = s.exe ∧ t.cfg = s.cfg ∧
      t.cursor.saved0 = s.cursor.saved0 ∧ t.cursor.saved1 = s.cursor.saved1 ∧ t.cursor.allowDraw = s.cursor.allowDraw ∧
      t.queue.suspend = s.queue.suspend ∧ s.queue.entries <+: t.queue.entries) ∧
  (∀ (s : State) (v : Word), s.cfg.valid →
    (∀ p ∈ [(0x004, 0x00000001#32), (0x020, 0xFFFFFFFF#32), (0x030, 0x0000000F#32), (0x040, 0xFFFFFFFF#32),
        (0x044, 0xFFFFFFFF#32), (0x048, 0xFFFFFFFF#32), (0x04C, 0xFFFFFFFF#32), (0x050, 0xFFFFFFFF#32),
        (0x054, 0x00000F3F#32), (0x058, 0xFFFFFFFF#32), (0x05C, 0x00000001#32), (0x060, 0xFFFFFFFF#32),
        (0x064, 0xFFFFFFFF#32), (0x068, 0xFFFFFFFF#32), (0x06C, 0xFFFFFFFF#32), (0x070, 0xFFFFFFFF#32),
        (0x074, 0xFFFFFFFF#32), (0x078, 0xFFFFFFFF#32), (0x07C, 0xFFFFFFFF#32), (0x1C0, 0xFFFFFFFF#32),
        (0x1C4, 0xFFFFFFFF#32), (0x1C8, 0xFFFFFFFF#32), (0x1E0, 0xFFFFFFFF#32), (0x1E4, 0xFFFFFFFF#32),
        (0x1E8, 0xFFFFFFFF#32), (0x1EC, 0xFFFFFFFF#32), (0x1F0, 0x00000001#32)],
      (s.hostWrite 4 p.1 v).regRead 4 p.1 = v &&& p.2) ∧
    ∀ i < s.cfg.npool, s.pools.length = s.cfg.npool →
      (s.hostWrite 4 (0x100 + 8 * i) v).regRead 4 (0x100 + 8 * i) = v ∧
      (s.hostWrite 4 (0x104 + 8 * i) v).regRead 4 (0x104 + 8 * i) = v) ∧
  (∀ s : State, s.cfg.valid →
    (∀ p ∈ [(0x000, 0x46474C07#32), (0x00C, BitVec.ofNat 32 (s.qcount % 65536)),
        (0x014, BitVec.ofNat 32 (s.queue.partialCount.toNat + 256 * s.queue.partialLen.toNat)),
        (0x010, 0#32), (0x01C, 0#32), (0x024, s.sys.err), (0x028, s.sys.errAddr), (0x02C, s.sys.irqStatus.setWidth 32),
        (0x034, s.seq.frameCount), (0x038, s.seq.scanline.setWidth 32), (0x080, s.active.freq), (0x084, s.active.h0),
        (0x088, s.active.h1), (0x08C, s.active.v0), (0x090, s.active.v1), (0x094, s.active.mode), (0x098, s.active.vpSize),
        (0x09C, s.active.vpCfg), (0x0C0, s.alloc.vpPos), (0x0C4, s.alloc.chainBase), (0x0C8, s.alloc.chainLen),
        (0x0CC, s.alloc.chainCap), (0x0D0, s.alloc.group), (0x0D4, s.alloc.constBase), (0x0D8, s.alloc.clen),
        (0x0DC, s.alloc.rowStride), (0x0E0, s.geom.pH), (0x0E4, s.geom.pV)],
      s.regRead 4 p.1 = p.2) ∧
    (∀ p ∈ [(0x180, s.paint.pen.setWidth 32), (0x184, s.paint.brush.setWidth 32), (0x188, s.paint.posX), (0x18C, s.paint.posY),
        (0x190, s.paint.originY ++ s.paint.originX), (0x194, s.paint.clipRel.y1 ++ s.paint.clipRel.x1),
        (0x198, s.paint.clipRel.y2 ++ s.paint.clipRel.x2), (0x19C, s.paint.clipAbs.x1), (0x1A0, s.paint.clipAbs.y1),
        (0x1A4, s.paint.clipAbs.x2), (0x1A8, s.paint.clipAbs.y2), (0x1AC, s.paint.scroll.y1 ++ s.paint.scroll.x1),
        (0x1B0, s.paint.scroll.y2 ++ s.paint.scroll.x2), (0x1B4, s.paint.glyphOpt.setWidth 32),
        (0x1B8, if s.paint.swap then 1#32 else 0#32), (0x1CC, s.sprActive.base), (0x1D0, s.sprActive.count),
        (0x1D4, s.sprActive.stride), (0x1F4, s.cursor.saved0), (0x1F8, s.cursor.saved1),
        (0x1FC, if s.cursor.allowDraw then 1#32 else 0#32)],
      s.regRead 4 p.1 = p.2) ∧
    (∀ k : Fin 8, s.regRead 4 (0x0A0 + 4 * k) = s.active.label.get k) ∧
    ∀ r < s.cfg.maxRows, s.regRead 4 (0x1000 + 4 * r) = s.rows.rt0.getD r 0#32 ∧
      s.regRead 4 (0x5000 + 4 * r) = s.rows.rt1.getD r 0#32) ∧
  (∀ s : State,
    let w := s.regRead 4 0x008
    ∀ k < 32, w.getLsbD k =
      match k with
      | 0 => s.alloc.configured
      | 1 => decide (s.seq.phase ≠ .stop)
      | 2 => decide (s.exe.state ≠ .idle)
      | 3 => decide (s.queue.entries = [])
      | 4 => decide (s.qcount = s.cfg.qdepth)
      | 5 => s.comp.refreshPending
      | 6 => s.comp.shown
      | 7 => s.alloc.dblActive
      | 8 => s.rows.visBuf
      | 9 => s.geom.pending
      | 10 => s.exe.vsReq
      | k + 11 => decide (5 ≤ k) && s.queue.suspend.getLsbD (k - 5)) ∧
  ∀ s : State, s.irqLevel = true ↔ ∃ k < 4, s.sys.irqStatus.getLsbD k = true ∧ s.sys.irqEnable.getLsbD k = true

/-- What every register of the map that can be read reads after reset (10_state R79, 70_reset R511; `CMD_DATA`, `WAIT` and
`HOSTOP` have no reset value), with the suggested parameters (the model's choice, log entry 1); and what the agents are doing. -/
def Obligations.ResetRegisterValues : Prop :=
  (∀ p ∈ [(0x000, 0x46474C07#32), (0x004, 0x00000001#32), (0x008, 0x00000008#32), (0x054, 0x00000108#32),
      (0x180, 0x0000003F#32), (0x194, 0x80008000#32), (0x198, 0x7FFF7FFF#32), (0x19C, 0xFFFF8000#32),
      (0x1A0, 0xFFFF8000#32), (0x1A4, 0x00007FFF#32), (0x1A8, 0x00007FFF#32), (0x1AC, 0x80008000#32),
      (0x1B0, 0x7FFF7FFF#32)],
    State.reset.regRead 4 p.1 = p.2) ∧
  (∀ off ∈ [0x00C, 0x014, 0x020, 0x024, 0x028, 0x02C, 0x030, 0x034, 0x038, 0x040, 0x044, 0x048, 0x04C, 0x050, 0x058, 0x05C,
      0x080, 0x084, 0x088, 0x08C, 0x090, 0x094, 0x098, 0x09C, 0x0C0, 0x0C4, 0x0C8, 0x0CC, 0x0D0, 0x0D4, 0x0D8, 0x0DC, 0x0E0,
      0x0E4, 0x184, 0x188, 0x18C, 0x190, 0x1B4, 0x1B8, 0x1C0, 0x1C4, 0x1C8, 0x1CC, 0x1D0, 0x1D4, 0x1E0, 0x1E4, 0x1E8, 0x1EC,
      0x1F0, 0x1F4, 0x1F8, 0x1FC],
    State.reset.regRead 4 off = 0#32) ∧
  (∀ k < 8, State.reset.regRead 4 (0x060 + 4 * k) = 0#32 ∧ State.reset.regRead 4 (0x0A0 + 4 * k) = 0#32) ∧
  (∀ i < State.reset.cfg.npool, State.reset.regRead 4 (0x100 + 8 * i) = 0#32 ∧
    State.reset.regRead 4 (0x104 + 8 * i) = 0#32) ∧
  (∀ r < State.reset.cfg.maxRows, State.reset.regRead 4 (0x1000 + 4 * r) = 0#32 ∧
    State.reset.regRead 4 (0x5000 + 4 * r) = 0#32) ∧
  State.reset.held = .free ∧ State.reset.exe.state = .idle ∧ State.reset.seq.phase = .stop ∧
    State.reset.seq.pixOut = 0x00#8 ∧ State.reset.comp.phase = .idle

/-- The reset action ends every job, releases HOST and gives every element of the spec its reset value, but leaves memory and the
parameters; a `WAIT` read that was held returns 0 (70_reset R510, R511). The model's own inputs, schedule and counter of free
choices stay as they are: that is the model's choice (log entry 29). -/
def Obligations.ResetAction : Prop :=
  ∀ s : State, s.doReset = { State.reset with
    cfg := s.cfg
    mem := s.mem
    pools := List.replicate s.cfg.npool ⟨0#32, 0#32⟩
    env := { s.env with readData := if s.held = .wait then 0#32 else s.env.readData } }

/-- The accesses that can hold HOST (41_queue R263 to R266, R279; 10_state R30, R35 to R37). A `WAIT` read holds HOST, and so
does a `HOSTOP` write, with its value, and nothing else happens to either before it completes; every other read, of any width
at any offset, returns what its register reads, without holding HOST. `CMD_DATA` is the assembly port: a first word is a header
and tells how many follow, each later word is the next one of the command, and the last one pushes it. A synchronous push holds
HOST for EXE; a queued one is appended at once, or holds HOST while the queue is full and is then appended by HOST's own step; a
`WAIT` read completes exactly when the queue is empty and EXE idle, and returns 0; HOST has no step of its own while it is held
on a request that EXE serves. HOST that is not held takes its next access. -/
def Obligations.HeldAccesses : Prop :=
  (∀ (s : State) (e : Entry),
    (s.queue.suspend = 0#8 ∧ s.sys.bgexec = false → s.push e = { s with held := .syncPush e }) ∧
    (¬ (s.queue.suspend = 0#8 ∧ s.sys.bgexec = false) ∧ s.qcount < s.cfg.qdepth →
      s.push e = { s with queue := { s.queue with entries := s.queue.entries ++ [e] } }) ∧
    (¬ (s.queue.suspend = 0#8 ∧ s.sys.bgexec = false) ∧ ¬ s.qcount < s.cfg.qdepth →
      s.push e = { s with held := .fullPush e }) ∧
    (s.held = .fullPush e → (s.hostEnabled = true ↔ s.qcount < s.cfg.qdepth) ∧
      s.hostStep = { s with held := .free, queue := { s.queue with entries := s.queue.entries ++ [e] } }) ∧
    (s.held = .syncPush e → s.hostEnabled = false)) ∧
  (∀ s : State, s.held = .wait →
    (s.hostEnabled = true ↔ s.qcount = 0 ∧ s.exe.state = .idle) ∧
    s.hostStep = { s with held := .free, env := { s.env with readData := 0#32 } }) ∧
  (∀ (s : State) (v : Word),
    s.hostRead 4 0x018 = { s with held := .wait } ∧
    s.hostWrite 4 0x01C v = { s with held := .hostOp v } ∧
    (s.held = .hostOp v → s.hostEnabled = false) ∧
    s.hostWrite 4 0x010 v = s.cmdData v) ∧
  (∀ (s : State) (width off : Nat), ¬ (width = 4 ∧ off = 0x018) →
    s.hostRead width off = { s with env := { s.env with readData := s.regRead width off } }) ∧
  (∀ (s : State) (w : Word),
    let n := s.queue.partialCount
    let len := if n = 0#2 then (w.extractLsb' 8 2) else s.queue.partialLen
    let cb : Entry :=
      match n.toNat with
      | 0 => ⟨w, 0#32, 0#32, 0#32⟩
      | 1 => { s.queue.cb with e1 := w }
      | 2 => { s.queue.cb with e2 := w }
      | _ => { s.queue.cb with e3 := w }
    s.cmdData w =
      if n = len then
        State.push { s with queue := { s.queue with cb := cb, partialCount := 0#2, partialLen := 0#2 } } cb
      else { s with queue := { s.queue with cb := cb, partialCount := n + 1#2, partialLen := len } }) ∧
  ∀ (s : State) (is : List Input) (width off : Nat) (v : Word), s.held = .free →
    let t := { s with env := { s.env with inputs := is } }
    (s.env.inputs = .regWrite width off v :: is → s.hostEnabled = true ∧ s.hostStep = t.hostWrite width off v) ∧
    (s.env.inputs = .regRead width off :: is → s.hostEnabled = true ∧ s.hostStep = t.hostRead width off)

/-- EXE leaves idle only for a waiting job: the vsync service first, and else HOST's request (41_queue R261). How each job starts:
a service drains the entries present at its start (R272), a synchronous push drains a full queue, appends its entry and drains to
empty (R266), and a host operation performs its code (R264). Every drain hides the sprites first exactly when they are shown and
either a refresh is pending or it will draw in the visible buffer (R269). A service executes at most the entries present at its
start, in their order, whatever stands behind them, and ends early after an error (R267, R272, R273). A drain whose queue is
empty or whose limit is reached runs a compositing cycle if it hid the sprites or a refresh is pending, and its end sets `DRAINED`
exactly when it executed an entry and left the queue empty (R269, R270). The job's end makes EXE idle and releases HOST, but for
the vsync service, which HOST does not wait for. The jobs' form, the steps that only begin or end something, and the hide steps
before `SETSPRITES`, are the model's (log entries 7, 8, 24). -/
def Obligations.JobPriority : Prop :=
  (∀ s : State, s.exe.state = .idle → s.exe.work = [] →
    (s.exeEnabled = true ↔ s.exe.vsReq = true ∨ (∃ e, s.held = .syncPush e) ∨ ∃ v, s.held = .hostOp v) ∧
    (s.exe.vsReq = true → ∃ hid, s.drainHidesFirst hid ∧ s.startNext = { s with exe := { s.exe with
      state := .vservice, vsReq := false, ctx := .vsync, ok := true
      work := (if hid then s.hideSteps else []) ++ [.drainLoop ⟨some s.qcount, false, hid⟩, .jobEnd] } }) ∧
    (∀ e, s.exe.vsReq = false → s.held = .syncPush e → s.startNext = { s with exe := { s.exe with
      state := .sdrain, ctx := .sync, ok := true
      work := (if s.qcount = s.cfg.qdepth then [.drainBegin] else []) ++ [.pushEntry e, .drainBegin, .jobEnd] } }) ∧
    (∀ v, s.exe.vsReq = false → s.held = .hostOp v → s.startNext = { s with exe := { s.exe with
      state := .hostop, ctx := .host, ok := true
      work := (if s.comp.shown = true ∧ v = 7#32 then s.hideSteps else []) ++ [.hostOp v, .jobEnd] } })) ∧
  (∀ s : State, ∃ hid, s.drainHidesFirst hid ∧ s.microStep .drainBegin = .next { s with exe := { s.exe with
    ctx := .sync
    work := (if hid then s.hideSteps else []) ++ .drainLoop ⟨none, false, hid⟩ :: s.exe.work } }) ∧
  (∀ (s : State) (e : Entry), s.microStep (.pushEntry e) =
    .next { s with queue := { s.queue with entries := s.queue.entries ++ [e] } }) ∧
  (∀ s : State, s.microStep .jobEnd = .next { s with
    exe := { s.exe with state := .idle }
    held := if s.exe.state = .vservice then s.held else .free }) ∧
  (∀ (s : State) (n : Nat) (ran hid : Bool) (ms : List Micro),
    s.exe.work = .drainLoop ⟨some n, ran, hid⟩ :: ms → s.exe.ctx = .vsync → n ≤ s.qcount →
    ∃ j t, j ≤ n ∧ State.exeRun j s = .next t ∧ t.queue = { s.queue with entries := s.queue.entries.drop j } ∧
      ((j = n ∧ t.exe.work = .drainLoop ⟨some 0, ran || decide (0 < n), hid⟩ :: ms) ∨
        (0 < j ∧ t.exe.ok = false ∧ t.exe.work = .drainEnd true :: ms ∧ (hid = true → t.comp.refreshPending = true)))) ∧
  (∀ (s : State) (d : Drain), s.queue.entries = [] ∨ d.left = some 0 →
    s.microStep (.drainLoop d) = .next { s with exe := { s.exe with
      work := (if d.hid = true ∨ s.comp.refreshPending = true then [.refresh, .drainEnd d.ran] else [.drainEnd d.ran]) ++
        s.exe.work } }) ∧
  ∀ (s : State) (ran : Bool), s.microStep (.drainEnd ran) = .next { s with sys := { s.sys with
    irqStatus := if ran = true ∧ s.queue.entries = [] then s.sys.irqStatus ||| 4#4 else s.sys.irqStatus } }

/-! ### The sequencer and the chain -/

/-- The `FETCH` step (40_video R231, R233, R234): the descriptor is latched, its vsync event requests a service when
background execution is enabled, not suspended and EXE idle; a descriptor of length 0 is skipped; a descriptor byte that does
not exist stops SEQ. -/
def Obligations.FetchStep : Prop :=
  ∀ s : State, s.seq.phase = .fetch →
    let w0 := memWord s.mem s.seq.dptr.toNat
    let eof := w0.getLsbD 30
    let u : State := { s with
      seq := { s.seq with
        latLen := w0.extractLsb' 12 12
        latEof := eof
        latBuf := memWord s.mem (s.seq.dptr.toNat + 4)
        latNext := memWord s.mem (s.seq.dptr.toNat + 8)
        scanline := BitVec.ofNat 16 (s.seq.didx / s.alloc.group.toNat)
        bidx := 0 }
      sys := { s.sys with irqStatus := if eof then s.sys.irqStatus ||| 1#4 else s.sys.irqStatus }
      exe := { s.exe with vsReq := s.exe.vsReq ||
        (eof && s.sys.bgexec && decide (s.queue.suspend = 0#8) && decide (s.exe.state = .idle)) } }
    (s.runOk s.seq.dptr.toNat 12 →
      s.seqStep = if w0.extractLsb' 12 12 = 0#12 then u.seqAdvance else u.setSeq { u.seq with phase := .emit }) ∧
    (¬ s.runOk s.seq.dptr.toNat 12 → ∃ fa k, k < 12 ∧ fa = wrapAddr (s.seq.dptr.toNat + k) ∧ memOk s fa = false ∧
      s.runOk s.seq.dptr.toNat k ∧
      s.seqStep = (s.raise .seq 0x00#8 .busSeq (BitVec.ofNat 32 fa)).setSeq
        { s.seq with phase := .stop, pixOut := 0x00#8 })

/-- The `EMIT` step (40_video R236): the byte at `LAT_BUF + BIDX` is emitted, the last one of the descriptor is followed by
`ADVANCE` in the same step, and a byte that does not exist stops SEQ (60_exceptions R479). -/
def Obligations.EmitStep : Prop :=
  ∀ s : State, s.seq.phase = .emit →
    (memOk s (wrapAddr (s.seq.latBuf.toNat + s.seq.bidx)) = true → s.seq.bidx + 1 ≠ s.seq.latLen.toNat →
      s.seqStep = { s with seq := { s.seq with
        pixOut := memByte s.mem (s.seq.latBuf.toNat + s.seq.bidx), bidx := s.seq.bidx + 1 } }) ∧
    (memOk s (wrapAddr (s.seq.latBuf.toNat + s.seq.bidx)) = true → s.seq.bidx + 1 = s.seq.latLen.toNat →
      s.seqStep = State.seqAdvance { s with seq := { s.seq with
        pixOut := memByte s.mem (s.seq.latBuf.toNat + s.seq.bidx), bidx := s.seq.bidx + 1 } }) ∧
    (memOk s (wrapAddr (s.seq.latBuf.toNat + s.seq.bidx)) = false →
      s.seqStep = (s.raise .seq 0x00#8 .busSeq (BitVec.ofNat 32 (wrapAddr (s.seq.latBuf.toNat + s.seq.bidx)))).setSeq
        { s.seq with phase := .stop, pixOut := 0x00#8 })

/-- `ADVANCE` and the frame boundary (40_video R234, R235, R243): following the link back to descriptor 0 counts a frame and
commits a pending geometry: its porches, the new `GROUP` and `CHAIN_LEN`, and the chain of the new timing, the only memory
written. -/
def Obligations.AdvanceAndFrameBoundary : Prop :=
  ∀ s : State,
    let u := s.seqAdvance
    (s.seq.latNext ≠ s.alloc.chainBase → u = { s with seq := { s.seq with
      dptr := s.seq.latNext, didx := s.seq.didx + 1, phase := .fetch } }) ∧
    (s.seq.latNext = s.alloc.chainBase →
      u.seq = { s.seq with
        dptr := s.seq.latNext, didx := 0, phase := .fetch, frameCount := s.seq.frameCount + 1#32 } ∧
      u.sys = { s.sys with irqStatus := s.sys.irqStatus ||| 2#4 } ∧
      u.geom.pending = false ∧
      u = { s with
        mem := u.mem, seq := u.seq, sys := u.sys, active := u.active, alloc := u.alloc
        geom := { s.geom with pending := false } } ∧
      (s.geom.pending = true →
        (u.active.hfp = (loHalf s.geom.pH).toNat ∧ u.active.hbp = (hiHalf s.geom.pH).toNat ∧
          u.active.vfp = (loHalf s.geom.pV).toNat ∧ u.active.vbp = (hiHalf s.geom.pV).toNat) ∧
        (u.active.hvis = s.active.hvis ∧ u.active.hsync = s.active.hsync ∧ u.active.vvis = s.active.vvis ∧
          u.active.vsync = s.active.vsync ∧
          u.active = { s.active with h0 := u.active.h0, h1 := u.active.h1, v0 := u.active.v0, v1 := u.active.v1 }) ∧
        u.alloc = { s.alloc with
          group := natWord u.pieces.length, chainLen := natWord (u.pieces.length * u.active.vt) } ∧
        storesOnly (inRun s.alloc.chainBase.toNat (12 * (u.pieces.length * u.active.vt))) s u ∧ sameBytes u u.build) ∧
      (s.geom.pending = false → u.active = s.active ∧ u.alloc = s.alloc ∧ sameBytes s u))

/-- `BUILD` writes a circular chain (40_video R221, R226): each descriptor's `NEXT` word is the address of the one after it,
the last one's is descriptor 0's, its `BUF` word is its piece's target, its `LENGTH` is its piece's and its `SIZE` that rounded
up to a multiple of 4, its `EOF` bit marks the first piece of line `VVIS`, `OWNER` is 1 and `SOSF` and `OFFSET` are 0. The target
of every piece (R205, R222, R223): a blank or sync piece has the constant buffer of its kind and of its line's vertical sync; a
row piece has its byte of the row that the line shows, the line being in the viewport and, with `MSBLACK`, the first of its
source row, and else the blank of its line. The pieces of a line (R202, R204, R207): piece after piece they are the bytes of the
four blocks in the order that `SB` gives, `HT` bytes in all, each piece at most `CLEN` long; a piece follows one of another kind
at offset 0, and one of the same kind only where that one is full, at the offset after it. -/
def Obligations.BuiltChainIsCircular : Prop :=
  (∀ (s : State) (line k : Nat) (p : Piece),
    s.alloc.group.toNat = s.pieces.length → s.alloc.chainLen.toNat = s.pieces.length * s.active.vt →
    s.alloc.chainBase.toNat + 12 * s.alloc.chainLen.toNat ≤ 2 ^ 32 →
    line < s.active.vt → s.pieces[k]? = some p → p.len < 4096 →
    let d := line * s.alloc.group.toNat + k
    let word0 := memWord s.build.mem (s.descAddr d)
    memWord s.build.mem (s.descAddr d + 8) =
      BitVec.ofNat 32 (s.alloc.chainBase.toNat + 12 * ((d + 1) % s.alloc.chainLen.toNat)) ∧
    memWord s.build.mem (s.descAddr d + 4) = BitVec.ofNat 32 (s.pieceTarget line p s.visTbl) ∧
    (word0.extractLsb' 12 12).toNat = p.len ∧
    (p.len ≤ 4092 → let size := (word0.extractLsb' 0 12).toNat; size % 4 = 0 ∧ p.len ≤ size ∧ size < p.len + 4) ∧
    word0.extractLsb' 24 6 = 0#6 ∧ word0.getLsbD 31 = true ∧
    word0.getLsbD 30 = decide (d = (s.active.vvis * s.alloc.group.toNat) % s.alloc.chainLen.toNat)) ∧
  (∀ (s : State) (line len off : Nat) (t : Bool),
    let base := s.alloc.constBase.toNat
    let clen := s.alloc.clen.toNat
    let vsyncAt := s.active.vvis + s.active.vfp
    let v := if vsyncAt ≤ line ∧ line < vsyncAt + s.active.vsync then 1 else 0
    let scan := (s.active.mode.extractLsb' 8 4).toNat
    let row : Int := ((line / scan : Nat) : Int) - (hiHalf s.alloc.vpPos).toNat
    s.pieceTarget line ⟨.blank, len, off⟩ t = base + 2 * clen * v ∧
    s.pieceTarget line ⟨.sync, len, off⟩ t = base + clen + 2 * clen * v ∧
    s.pieceTarget line ⟨.row, len, off⟩ t = s.rowTarget line off t ∧
    s.rowTarget line off t =
      if line < s.active.vvis ∧ 0 ≤ row ∧ row < (hiHalf s.active.vpSize).toNat ∧
          (line % scan = 0 ∨ s.active.mode.getLsbD 2 = false) then
        (s.rows.entry t row.toNat).toNat + off
      else base + 2 * clen * v) ∧
  ∀ (t : Timings) (vpcol vpw clen : Nat), 0 < clen → vpcol + vpw ≤ t.hvis →
    let ps := linePieces t vpcol vpw clen
    let bytes : List (SegKind × Nat) → List SegKind := fun xs => xs.flatMap (fun x => List.replicate x.2 x.1)
    let fp := [(SegKind.blank, t.hfp)]
    let sync := [(SegKind.sync, t.hsync)]
    let bp := [(SegKind.blank, t.hbp)]
    let vis := [(SegKind.blank, vpcol), (SegKind.row, vpw), (SegKind.blank, t.hvis - vpcol - vpw)]
    bytes (ps.map (fun p => (p.kind, p.len))) = bytes (
      match (t.mode.extractLsb' 4 2).toNat with
      | 0 => fp ++ sync ++ bp ++ vis
      | 1 => sync ++ bp ++ vis ++ fp
      | 2 => bp ++ vis ++ fp ++ sync
      | _ => vis ++ fp ++ sync ++ bp) ∧
    (ps.map (fun p => p.len)).sum = t.ht ∧
    (∀ p ∈ ps, 1 ≤ p.len ∧ p.len ≤ clen) ∧
    (∀ p, ps[0]? = some p → p.off = 0) ∧
    ∀ (k : Nat) (p q : Piece), ps[k]? = some p → ps[k + 1]? = some q →
      (q.kind = p.kind → p.len = clen ∧ q.off = p.off + p.len) ∧ (q.kind ≠ p.kind → q.off = 0)

/-! ### State-setting commands -/

/-- `SETPENCOLOR`, `SETBRUSHCOLOR`, `SETGLYPHOPTIONS` and `SETPAINTOPTIONS` (42_paint R310, R311, R313, R314). -/
def Obligations.SetColoursAndOptions : Prop :=
  ∀ s : State,
    (∀ c : Half, c.toNat < 64 → ∃ t, exec (.setPenColor c) s = .next t ∧ t.paint.pen.toNat = c.toNat ∧
      t = { s with paint := { s.paint with pen := t.paint.pen } } ∧ sameBytes s t) ∧
    (∀ c : Half, c.toNat < 64 → ∃ t, exec (.setBrushColor c) s = .next t ∧ t.paint.brush.toNat = c.toNat ∧
      t = { s with paint := { s.paint with brush := t.paint.brush } } ∧ sameBytes s t) ∧
    (∀ o : Half, ∃ t, exec (.setGlyphOptions o) s = .next t ∧
      t = { s with paint := { s.paint with glyphOpt := o } } ∧ sameBytes s t) ∧
    (∀ o : Half, o.toNat < 2 → ∃ t, exec (.setPaintOptions o) s = .next t ∧
      (t.paint.swap = true ↔ o.toNat = 1) ∧
      t = { s with paint := { s.paint with swap := t.paint.swap } } ∧ sameBytes s t)

/-- `MOVETO` (42_paint R300, R312): the 32-bit pen position is the exact sum of operand and origin. `SETSCROLLINGREGION`
(42_paint R315): the normalized rectangle, not translated. -/
def Obligations.MoveToAndScrollingRegion : Prop :=
  ∀ s : State,
    (∀ x y : Half, ∃ t, exec (.moveTo x y) s = .next t ∧
      t.paint.posX.toInt = x.toInt + s.paint.originX.toInt ∧ t.paint.posY.toInt = y.toInt + s.paint.originY.toInt ∧
      t = { s with paint := { s.paint with posX := t.paint.posX, posY := t.paint.posY } } ∧ sameBytes s t) ∧
    (∀ x1 y1 x2 y2 : Half, ∃ t, exec (.setScrollingRegion x1 y1 x2 y2) s = .next t ∧
      t.paint.scroll.x1.toInt = min x1.toInt x2.toInt ∧ t.paint.scroll.y1.toInt = min y1.toInt y2.toInt ∧
      t.paint.scroll.x2.toInt = max x1.toInt x2.toInt ∧ t.paint.scroll.y2.toInt = max y1.toInt y2.toInt ∧
      t = { s with paint := { s.paint with scroll := t.paint.scroll } } ∧ sameBytes s t)

/-- `SETORIGIN` and `SETCLIPPINGRECT` (42_paint R316, R317): each computes the absolute clip again, exactly. -/
def Obligations.OriginAndClip : Prop :=
  ∀ s : State,
    (∀ x y : Half, ∃ t, exec (.setOrigin x y) s = .next t ∧ t.paint.originX = x ∧ t.paint.originY = y ∧
      t.paint.clipAbs.x1.toInt = s.paint.clipRel.x1.toInt + x.toInt ∧
      t.paint.clipAbs.y1.toInt = s.paint.clipRel.y1.toInt + y.toInt ∧
      t.paint.clipAbs.x2.toInt = s.paint.clipRel.x2.toInt + x.toInt ∧
      t.paint.clipAbs.y2.toInt = s.paint.clipRel.y2.toInt + y.toInt ∧
      t = { s with paint := { s.paint with originX := x, originY := y, clipAbs := t.paint.clipAbs } } ∧ sameBytes s t) ∧
    (∀ x1 y1 x2 y2 : Half, ∃ t, exec (.setClippingRect x1 y1 x2 y2) s = .next t ∧
      t.paint.clipRel.x1.toInt = min x1.toInt x2.toInt ∧ t.paint.clipRel.y1.toInt = min y1.toInt y2.toInt ∧
      t.paint.clipRel.x2.toInt = max x1.toInt x2.toInt ∧ t.paint.clipRel.y2.toInt = max y1.toInt y2.toInt ∧
      t.paint.clipAbs.x1.toInt = t.paint.clipRel.x1.toInt + s.paint.originX.toInt ∧
      t.paint.clipAbs.y1.toInt = t.paint.clipRel.y1.toInt + s.paint.originY.toInt ∧
      t.paint.clipAbs.x2.toInt = t.paint.clipRel.x2.toInt + s.paint.originX.toInt ∧
      t.paint.clipAbs.y2.toInt = t.paint.clipRel.y2.toInt + s.paint.originY.toInt ∧
      t = { s with paint := { s.paint with clipRel := t.paint.clipRel, clipAbs := t.paint.clipAbs } } ∧ sameBytes s t)

/-! ### Drawing commands -/

/-- `SETPIXEL` and `LINETO` (43_raster R340 to R342): the pixels of the point, or of the line from the pen position, that lie in
`CLIPVP` take the effective pen colour; `LINETO` moves the pen to the end point whatever is drawn. -/
def Obligations.PointAndLine : Prop :=
  ∀ (x y : Half) (s : State),
    (∃ t, exec (.setPixel x y) s = .next t ∧ onlyMemory s t ∧ plots s t (fun p => p = s.absPoint x y) s.penE) ∧
    (∃ t, exec (.lineTo x y) s = .next t ∧ onlyMemoryAndPen s t ∧
      t.paint.posX.toInt = x.toInt + s.paint.originX.toInt ∧ t.paint.posY.toInt = y.toInt + s.paint.originY.toInt ∧
      plots s t (fun p => p ∈ linePoints s.penPos (s.absPoint x y)) s.penE)

/-- The line algorithm (43_raster R340): it plots `max(|dx|, |dy|) + 1` points, the first is the start and the last the end,
each step goes to one of the eight neighbours, and every point lies in the box of the two end points. -/
def Obligations.LineReachesItsEnd : Prop :=
  ∀ p q : Point,
    (linePoints p q).length = max (q.1 - p.1).natAbs (q.2 - p.2).natAbs + 1 ∧
    (linePoints p q).head? = some p ∧ (linePoints p q).getLast? = some q ∧
    (∀ r ∈ linePoints p q, betweenCorners p q r) ∧
    ∀ (k : Nat) (a b : Point), (linePoints p q)[k]? = some a → (linePoints p q)[k + 1]? = some b →
      a ≠ b ∧ (b.1 - a.1).natAbs ≤ 1 ∧ (b.2 - a.2).natAbs ≤ 1

/-- `FILLRECT` and `CLEAR` (43_raster R343, R344). -/
def Obligations.FillRectAndClear : Prop :=
  ∀ s : State,
    (∀ x1 y1 x2 y2 : Half, ∃ t, exec (.fillRect x1 y1 x2 y2) s = .next t ∧ onlyMemory s t ∧
      plots s t (betweenCorners (s.absPoint x1 y1) (s.absPoint x2 y2)) s.brushE) ∧
    (∃ t, exec .clear s = .next t ∧ onlyMemory s t ∧ plots s t (fun _ => True) s.brushE)

/-- `FILLELLIPSE` and `DRAWELLIPSE` (43_raster R345 to R347): the offsets inside the ellipse around the pen position, or those
of them with a neighbour outside; nothing for a size that is not positive. -/
def Obligations.Ellipses : Prop :=
  ∀ (w h : Half) (s : State),
    (∃ t, exec (.fillEllipse w h) s = .next t ∧ onlyMemory s t ∧
      plots s t (fun p => 0 < w.toInt ∧ 0 < h.toInt ∧
        ellipseInside (w.toInt / 2) (h.toInt / 2) (p.1 - s.paint.posX.toInt, p.2 - s.paint.posY.toInt) = true) s.brushE) ∧
    (∃ t, exec (.drawEllipse w h) s = .next t ∧ onlyMemory s t ∧
      plots s t (fun p => 0 < w.toInt ∧ 0 < h.toInt ∧
        ellipseOutline (w.toInt / 2) (h.toInt / 2) (p.1 - s.paint.posX.toInt, p.2 - s.paint.posY.toInt) = true) s.penE)

/-- `INVERTRECT` and `SWAPFGBG` (43_raster R348, R349): the pixels of the rectangle in `CLIPVP` keep their sync bits; the first
inverts their colour, the second exchanges the encoded pen and brush colours and leaves every other colour. -/
def Obligations.RecolourCommands : Prop :=
  ∀ (x1 y1 x2 y2 : Half) (s : State),
    (∃ t, exec (.invertRect x1 y1 x2 y2) s = .next t ∧ onlyMemory s t ∧
      rewrites s t (betweenCorners (s.absPoint x1 y1) (s.absPoint x2 y2)) (fun b => b ^^^ 0x3F#8)) ∧
    (∃ t, exec (.swapFgBg x1 y1 x2 y2) s = .next t ∧ onlyMemory s t ∧
      rewrites s t (betweenCorners (s.absPoint x1 y1) (s.absPoint x2 y2)) (fun b =>
        let pen := encColour s.active.bpc s.penE
        let brush := encColour s.active.bpc s.brushE
        if b.extractLsb' 0 6 = pen then (b &&& 0xC0#8) ||| brush.setWidth 8
        else if b.extractLsb' 0 6 = brush then (b &&& 0xC0#8) ||| pen.setWidth 8
        else b))

/-- `INVERTRECT` twice, and `SWAPFGBG` twice, restore every byte (43_raster R348, R349). -/
def Obligations.RecolourTwiceRestores : Prop :=
  ∀ (x1 y1 x2 y2 : Half) (s : State),
    (∃ t u, exec (.invertRect x1 y1 x2 y2) s = .next t ∧ exec (.invertRect x1 y1 x2 y2) t = .next u ∧ sameBytes s u) ∧
    (∃ t u, exec (.swapFgBg x1 y1 x2 y2) s = .next t ∧ exec (.swapFgBg x1 y1 x2 y2) t = .next u ∧ sameBytes s u)

/-- `FILLPATH` and `DRAWPATH` (43_raster R350 to R352) with a readable path: the points inside it by the even-odd rule, or the
points of its lines. -/
def Obligations.PathCommands : Prop :=
  ∀ (n : Half) (addr : Word) (s : State), s.runOk addr.toNat (4 * n.toNat) →
    (∃ t, exec (.fillPath n addr) s = .next t ∧ onlyMemory s t ∧
      plots s t (fun p => 3 ≤ n.toNat ∧
        (∃ bb, boundingBox (s.pathPoints n addr) = some bb ∧ bb.has p = true) ∧
        insidePath (s.pathPoints n addr) p = true) s.brushE) ∧
    (∃ t, exec (.drawPath n addr) s = .next t ∧ onlyMemory s t ∧
      plots s t (fun p => p ∈ polylinePoints (s.pathPoints n addr)) s.penE)

/-- A pointer operand with a byte that does not exist: the commands that read or write through it record `BUS_EXE` with their
opcode and the lowest such address (a path's: the first, log entry 14), and change nothing else: the path's points, a glyph
record and its bitmap, a glyph buffer's descriptor, its cells and their glyphs, a bitmap's header and its pixels, and the bytes
of a raw transfer's buffer under the pixels that it moves (60_exceptions R478, 43_raster R352, 44_blit R383, R385, R388, R389,
R392, R393). -/
def Obligations.BadPointerOperands : Prop :=
  ∀ (s : State) (addr : Word) (fa : Nat),
    (∀ n : Half, s.pathBad n addr = some fa →
      exec (.fillPath n addr) s = .next (s.raiseCmd 0x19#8 .busExe fa) ∧
      exec (.drawPath n addr) s = .next (s.raiseCmd 0x1A#8 .busExe fa)) ∧
    (s.lowestBadOf (inRun addr.toNat 12) fa → exec (.drawGlyph addr) s = .next (s.raiseCmd 0x0C#8 .busExe fa)) ∧
    (s.runOk addr.toNat 12 →
      let g := s.glyphRecord addr.toNat
      g.w ≠ 0 → g.h ≠ 0 → s.lowestBadOf (inRun g.data (g.h * glyphBpr g.w)) fa →
      exec (.drawGlyph addr) s = .next (s.raiseCmd 0x0C#8 .busExe fa)) ∧
    (∀ c1 r1 c2 r2 : Half,
      let b := s.glyphBuffer addr.toNat
      let cs := b.cells c1 r1 c2 r2
      let fails := exec (.renderGlyphsBuffer addr c1 r1 c2 r2) s = .next (s.raiseCmd 0x15#8 .busExe fa)
      (s.lowestBadOf (inRun addr.toNat 16) fa → fails) ∧
      (s.runOk addr.toNat 16 → b.gw ≠ 0 → b.gh ≠ 0 → b.cols ≠ 0 → b.rows ≠ 0 →
        (s.lowestBadOf (fun a => ∃ c ∈ cs, inRun (b.cellAddr c) 4 a) fa → fails) ∧
        ((∀ c ∈ cs, s.runOk (b.cellAddr c) 4) →
          s.lowestBadOf (fun a => ∃ c ∈ cs,
            inRun (b.glyph (memWord s.mem (b.cellAddr c))).data (b.gh * glyphBpr b.gw) a) fa → fails))) ∧
    (∀ x y : Half,
      let b := readBitmap s.mem addr.toNat
      let fails := exec (.drawBitmap x y addr) s = .next (s.raiseCmd 0x16#8 .busExe fa)
      (s.lowestBadOf (inRun addr.toNat 8) fa → fails) ∧
      (s.runOk addr.toNat 8 → s.lowestBadOf (inRun b.data (b.w * b.h)) fa → fails)) ∧
    ∀ x y w h : Half, 0 < w.toInt → 0 < h.toInt →
      let byte : Rect → Nat → Prop := fun r a => ∃ i j : Nat, i < w.toNat ∧ j < h.toNat ∧
        r.has ((s.absPoint x y).1 + i, (s.absPoint x y).2 + j) = true ∧ wrapAddr (addr.toNat + j * w.toNat + i) = a
      (s.lowestBadOf (byte s.vpb) fa → exec (.readRawData x y w h addr) s = .next (s.raiseCmd 0x13#8 .busExe fa)) ∧
      (s.lowestBadOf (byte s.clipVp) fa → exec (.writeRawData x y w h addr) s = .next (s.raiseCmd 0x14#8 .busExe fa))

/-! ### Copies, transfers and scrolls -/

/-- `COPYRECT` (44_blit R391) writes only destination pixels in `CLIPVP`; where no two pixels share a byte, each one whose
source lies in the rectangle and the viewport takes the source's old byte, overlap or not. -/
def Obligations.CopyRect : Prop :=
  ∀ (x1 y1 x2 y2 : Half) (s : State),
    let r := s.absRect x1 y1 x2 y2
    let source : Point → Point := fun p => (p.1 - s.paint.posX.toInt + r.x1, p.2 - s.paint.posY.toInt + r.y1)
    let copied : Point → Prop := fun p => (r.inter s.vpb).has (source p) = true
    ∃ t, exec (.copyRect x1 y1 x2 y2) s = .next t ∧ onlyMemory s t ∧ storesOnly (s.clippedPixel copied) s t ∧
      (s.pixelsApart → ∀ p, copied p → s.clipVp.has p = true →
        t.fbRead p.1 p.2 = s.fbRead (source p).1 (source p).2)

/-- `READRAWDATA` and `WRITERAWDATA` (44_blit R392, R393) of a rectangle whose buffer bytes all exist: whole bytes of the
viewport's pixels go to the buffer; buffer bytes go to the pixels in `CLIPVP` with their sync bits set to `SI`. A size that is
not positive does nothing. The model's choice: with `BPC = 0` the colour bits are stored without `ENC` too (DESIGN CHOICE, log
entry 36). -/
def Obligations.RawTransfers : Prop :=
  ∀ (x y w h : Half) (addr : Word) (s : State),
    let px : Nat → Int := fun i => (s.absPoint x y).1 + i
    let py : Nat → Int := fun j => (s.absPoint x y).2 + j
    let buf : Nat → Nat → Nat := fun i j => wrapAddr (addr.toNat + j * w.toNat + i)
    (w.toInt ≤ 0 ∨ h.toInt ≤ 0 →
      exec (.readRawData x y w h addr) s = .next s ∧ exec (.writeRawData x y w h addr) s = .next s) ∧
    (0 < w.toInt → 0 < h.toInt →
      (∀ i j : Nat, i < w.toNat → j < h.toNat → s.vpb.has (px i, py j) = true → memOk s (buf i j) = true) →
      ∃ t, exec (.readRawData x y w h addr) s = .next t ∧ onlyMemory s t ∧
        storesOnly (fun a => ∃ i j, i < w.toNat ∧ j < h.toNat ∧ s.vpb.has (px i, py j) = true ∧ buf i j = a) s t ∧
        ∀ i j : Nat, i < w.toNat → j < h.toNat → s.vpb.has (px i, py j) = true →
          memByte t.mem (buf i j) = s.fbRead (px i) (py j)) ∧
    (0 < w.toInt → 0 < h.toInt →
      (∀ i j : Nat, i < w.toNat → j < h.toNat → s.clipVp.has (px i, py j) = true → memOk s (buf i j) = true) →
      ∃ t, exec (.writeRawData x y w h addr) s = .next t ∧ onlyMemory s t ∧
        storesOnly (s.clippedPixel (fun p => ∃ i j, i < w.toNat ∧ j < h.toNat ∧ p = (px i, py j))) s t ∧
        (s.pixelsApart → ∀ i j : Nat, i < w.toNat → j < h.toNat → s.clipVp.has (px i, py j) = true →
          t.fbRead (px i) (py j) = (memByte s.mem (buf i j) &&& 0x3F#8) ||| s.si))

/-- `VSCROLL` of a full-width region (44_blit R394 to R396): the rows of the drawing table in the region rotate, every other
entry of both tables stays, and of memory only the `BUF` words of the visible `ROW` descriptors may change, none in
double-buffer mode; in single-buffer mode each of them is the target that the rotated table gives it (40_video R223, R227;
`BuiltChainIsCircular` spells the targets out). A count that is a multiple of the region's height, or an empty region, does
nothing. -/
def Obligations.VScrollRotatesRows : Prop :=
  ∀ (n : Half) (s : State),
    let e := s.scrollRegion
    let m := n.toInt % (e.height : Int)
    (e.isEmpty = true ∨ m = 0 → exec (.vScroll n) s = .next s) ∧
    (e.isEmpty = false → m ≠ 0 → e.x1 = 0 → e.x2 = (s.vpw : Int) - 1 →
      ∃ t, exec (.vScroll n) s = .next t ∧
        t = { s with mem := t.mem, rows := { s.rows with rt0 := t.rows.rt0, rt1 := t.rows.rt1 } } ∧
        (∀ y : Nat, t.rows.entry s.drawTbl y =
          if e.y1 ≤ (y : Int) ∧ (y : Int) ≤ e.y2 then
            s.rows.entry s.drawTbl (e.y1 + ((y : Int) - e.y1 - m) % (e.height : Int)).toNat
          else s.rows.entry s.drawTbl y) ∧
        (∀ y : Nat, t.rows.entry (!s.drawTbl) y = s.rows.entry (!s.drawTbl) y) ∧
        (s.alloc.dblActive = true → sameBytes s t) ∧ storesOnly s.bufWord s t ∧
        (s.layoutOk → s.alloc.dblActive = false → t.targets t.mem false))

/-- `HSCROLL`, and `VSCROLL` of a region narrower than the viewport (44_blit R395, R397, R399): only pixels of the region
change, and where no two pixels share a byte each takes the old byte of its column or row, wrapped within the region. -/
def Obligations.ScrollsWithinRegion : Prop :=
  ∀ (n : Half) (s : State),
    let e := s.scrollRegion
    let m := n.toInt % (e.height : Int)
    let k := n.toInt % (e.width : Int)
    (e.isEmpty = true ∨ k = 0 → exec (.hScroll n) s = .next s) ∧
    (e.isEmpty = false → k ≠ 0 → ∃ t, exec (.hScroll n) s = .next t ∧ onlyMemory s t ∧
      storesOnly (s.clippedPixel (fun p => e.has p = true)) s t ∧
      (s.pixelsApart → ∀ p : Point, e.has p = true →
        t.fbRead p.1 p.2 = s.fbRead (e.x1 + (p.1 - e.x1 - k) % (e.width : Int)) p.2)) ∧
    (e.isEmpty = false → m ≠ 0 → ¬ (e.x1 = 0 ∧ e.x2 = (s.vpw : Int) - 1) →
      ∃ t, exec (.vScroll n) s = .next t ∧ onlyMemory s t ∧
      storesOnly (s.clippedPixel (fun p => e.has p = true)) s t ∧
      (s.pixelsApart → ∀ p : Point, e.has p = true →
        t.fbRead p.1 p.2 = s.fbRead p.1 (e.y1 + (p.2 - e.y1 - m) % (e.height : Int))))

/-! ### Glyphs and bitmaps -/

/-- `DRAWGLYPH` (44_blit R382, R383) of a readable glyph: only pixels of its footprint in `CLIPVP` change, and where no two
pixels share a byte each takes the colour of its output bit, a transparent one keeping its byte. A glyph without width or
height draws nothing. -/
def Obligations.DrawGlyph : Prop :=
  ∀ (addr : Word) (s : State), s.runOk addr.toNat 12 →
    let g := s.glyphRecord addr.toNat
    let o := s.paint.glyphOpt
    let c := s.absPoint (memHalf s.mem addr.toNat) (memHalf s.mem (addr.toNat + 2))
    let inside : Point → Prop := fun p =>
      c.1 ≤ p.1 ∧ p.1 < c.1 + glyphOutWidth g o ∧ c.2 ≤ p.2 ∧ p.2 < c.2 + g.h
    (g.w = 0 ∨ g.h = 0 → exec (.drawGlyph addr) s = .next s) ∧
    (g.w ≠ 0 → g.h ≠ 0 → s.runOk g.data (g.h * glyphBpr g.w) →
      ∃ t, exec (.drawGlyph addr) s = .next t ∧ onlyMemory s t ∧ storesOnly (s.clippedPixel inside) s t ∧
        (s.pixelsApart → ∀ p : Point, inside p → s.clipVp.has p = true →
          t.fbRead p.1 p.2 =
            match glyphColour o s.penE s.brushE (glyphOut s.mem g o (p.1 - c.1).toNat (p.2 - c.2).toNat) with
            | some col => s.pixByte col
            | none => s.fbRead p.1 p.2))

/-- `RENDERGLYPHSBUFFER` (44_blit R385 to R388) of a readable buffer: it completes, and only pixels in `CLIPVP` of the footprint
of a cell in the clamped range change, each to a byte whose sync bits are `SI`. Where no two pixels share a byte, each takes the
colour that the last cell in row-major order to paint it gives it: the palette colour of the glyph's output bit under the cell's
options, a transparent background painting nothing. A buffer without cells draws nothing. -/
def Obligations.RenderGlyphsBuffer : Prop :=
  ∀ (addr : Word) (c1 r1 c2 r2 : Half) (s : State), s.runOk addr.toNat 16 →
    let b := s.glyphBuffer addr.toNat
    let cs := b.cells c1 r1 c2 r2
    let inside : Point → Prop := fun p => ∃ c ∈ cs,
      let cw := memWord s.mem (b.cellAddr c)
      let x : Int := ((c.1 * b.gw : Nat) : Int) + s.paint.originX.toInt
      let y : Int := ((c.2 * b.gh : Nat) : Int) + s.paint.originY.toInt
      x ≤ p.1 ∧ p.1 < x + glyphOutWidth (b.glyph cw) (hiHalf cw) ∧ y ≤ p.2 ∧ p.2 < y + b.gh
    (b.gw = 0 ∨ b.gh = 0 ∨ b.cols = 0 ∨ b.rows = 0 → exec (.renderGlyphsBuffer addr c1 r1 c2 r2) s = .next s) ∧
    (b.gw ≠ 0 → b.gh ≠ 0 → b.cols ≠ 0 → b.rows ≠ 0 →
      (∀ c ∈ cs, s.runOk (b.cellAddr c) 4) →
      (∀ c ∈ cs, s.runOk (b.glyph (memWord s.mem (b.cellAddr c))).data (b.gh * glyphBpr b.gw)) →
      ∃ t, exec (.renderGlyphsBuffer addr c1 r1 c2 r2) s = .next t ∧ onlyMemory s t ∧
        storesOnly (s.clippedPixel inside) s t ∧
        (∀ a, memByte t.mem a ≠ memByte s.mem a → memByte t.mem a &&& 0xC0#8 = s.si) ∧
        (s.pixelsApart → ∀ p : Point, s.clipVp.has p = true →
          t.fbRead p.1 p.2 =
            match cs.reverse.findSome? (s.cellPaint b p) with
            | some col => s.pixByte col
            | none => s.fbRead p.1 p.2))

/-- `DRAWBITMAP` (44_blit R389, R390) of a readable bitmap: only opaque pixels of its footprint in `CLIPVP` change, and where no
two pixels share a byte each takes its bitmap pixel's colour. -/
def Obligations.DrawBitmap : Prop :=
  ∀ (x y : Half) (addr : Word) (s : State), s.runOk addr.toNat 8 →
    let b := readBitmap s.mem addr.toNat
    let c := s.absPoint x y
    let pix : Point → Byte := fun p => memByte s.mem (b.pixAddr (p.1 - c.1).toNat (p.2 - c.2).toNat)
    let inside : Point → Prop := fun p =>
      (c.1 ≤ p.1 ∧ p.1 < c.1 + b.w ∧ c.2 ≤ p.2 ∧ p.2 < c.2 + b.h) ∧ 2 ≤ ((pix p).extractLsb' 6 2).toNat
    s.runOk b.data (b.w * b.h) →
      ∃ t, exec (.drawBitmap x y addr) s = .next t ∧ onlyMemory s t ∧ storesOnly (s.clippedPixel inside) s t ∧
        (s.pixelsApart → ∀ p : Point, inside p → s.clipVp.has p = true →
          t.fbRead p.1 p.2 = s.pixByte ((pix p).extractLsb' 0 6))

/-! ### Sprites and buffers -/

/-- `REFRESHSPRITES` (45_sprites R441) only requests a compositing pass; so does a HOST write to `CUR_POS`, `CUR_BMP` or
`CUR_CTRL`, and not one to `CUR_HOT` or `CUR_BG` (R445). What a show pass does with a record (R432, R435, R438): nothing when it
is invisible, a static sprite already drawn, or without a frame; a fault when a byte that it needs does not exist; else
`DRAWSPRITE` in the part of the footprint that lies in the viewport, with `SAVED_*` and `PRIV` written. The steps of the pass
(R432): the request is taken back, then the records of a valid list (R434) have their parts in list order, then the cursor
(R439), drawn last at `CUR_POS - CUR_HOT`. `seen` starts false, and after a record's part it is set exactly when it was or when
that record exists and has `ALLOWDRAW`; the pass ends with `SHOWN` set when the cursor has `ALLOWDRAW` or `seen` is set. DEDUCED,
so the model's reading: that the save buffer's fault comes before the bitmap's (log entry 14), that the cursor's 8 header bytes
are checked first (log entry 17), and that each record's `ALLOWDRAW` is looked at right after its part of the pass (log entry
19). DESIGN CHOICE: with `BPC = 0` a sprite's pixels are stored without `ENC` too (log entry 36). -/
def Obligations.RefreshSprites : Prop :=
  (∀ s : State, ∃ t, exec .refreshSprites s = .next t ∧
    t = { s with comp := { s.comp with refreshPending := true } } ∧ sameBytes s t) ∧
  (∀ (s : State) (v : Word), s.cfg.valid →
    let asked := { s with comp := { s.comp with refreshPending := true } }
    s.hostWrite 4 0x1E0 v = { asked with cursor := { s.cursor with pos := v } } ∧
    s.hostWrite 4 0x1E8 v = { asked with cursor := { s.cursor with bmp := v } } ∧
    s.hostWrite 4 0x1F0 v = { asked with cursor := { s.cursor with en := v.getLsbD 0 } } ∧
    s.hostWrite 4 0x1E4 v = { s with cursor := { s.cursor with hot := v } } ∧
    s.hostWrite 4 0x1EC v = { s with cursor := { s.cursor with bg := v } }) ∧
  (∀ (s : State) (d : Draw) (p : Point),
    let r := s.drawArea d
    ((r.x : Int) ≤ p.1 ∧ p.1 < r.x + r.w ∧ (r.y : Int) ≤ p.2 ∧ p.2 < r.y + r.h ↔
      s.vpb.has p = true ∧ d.sx ≤ p.1 ∧ p.1 < d.sx + d.bitmap.w ∧ d.sy ≤ p.2 ∧ p.2 < d.sy + d.bitmap.h) ∧
    (r.w = 0 ∨ r.h = 0 → r = ⟨0, 0, 0, 0⟩)) ∧
  (∀ (s : State) (k : Nat),
    let a := s.recordAddr k
    let flags := memByte s.mem (a + 16)
    let frames := (memWord s.mem (a + 4)).toNat
    let cur := (memHalf s.mem (a + 10)).toNat
    let frame := (memWord s.mem (frames + 4 * cur)).toNat
    let b := readBitmap s.mem frame
    let d : Draw := ⟨(memHalf s.mem a).toInt, (memHalf s.mem (a + 2)).toInt, b, (memWord s.mem (a + 12)).toNat⟩
    let r := s.drawArea d
    let t := s.showRecord k
    (∀ fa, s.lowestBadOf (inRun a 32) fa → t = s.raisePass fa) ∧
    (s.runOk a 32 →
      (flags.getLsbD 0 = false ∨ (flags.getLsbD 1 = true ∧ (s.recordPriv k).getLsbD 1 = true) → t = s) ∧
      (flags.getLsbD 0 = true → ¬ (flags.getLsbD 1 = true ∧ (s.recordPriv k).getLsbD 1 = true) →
        ((memHalf s.mem (a + 8)).toNat ≤ cur ∨ frames = 0 → t = s) ∧
        (cur < (memHalf s.mem (a + 8)).toNat → frames ≠ 0 →
          (∀ fa, s.lowestBadOf (inRun (frames + 4 * cur) 4) fa → t = s.raisePass fa) ∧
          (s.runOk (frames + 4 * cur) 4 →
            (frame = 0 → t = s) ∧
            (frame ≠ 0 → ∀ fa, s.lowestBadOf (inRun frame 8) fa → t = s.raisePass fa) ∧
            (frame ≠ 0 → s.runOk frame 8 →
              (∀ fa, s.lowestBadOf (s.drawBuffer d) fa → t = s.raisePass fa) ∧
              ((∀ x, s.drawBuffer d x → memOk s x = true) → ∀ fa, s.lowestBadOf (s.drawSource d) fa →
                t = s.raisePass fa) ∧
              ((∀ x, s.drawBuffer d x ∨ s.drawSource d x → memOk s x = true) →
                onlyMemory s t ∧ storesOnly (fun x => s.drawWrites d x ∨ s.bookkeeping k x) s t ∧
                t.recordPriv k = (if flags.getLsbD 1 then 0x02#8 else 0x01#8) ∧
                (s.drawApart d (s.bookkeeping k) → s.composited t d ∧
                  memHalf t.mem (a + 20) = BitVec.ofNat 16 r.x ∧ memHalf t.mem (a + 22) = BitVec.ofNat 16 r.y ∧
                  memHalf t.mem (a + 24) = BitVec.ofNat 16 r.w ∧ memHalf t.mem (a + 26) = BitVec.ofNat 16 r.h)))))))) ∧
  (∀ (s : State) (k : Nat) (seen : Bool),
    let t := s.showRecord k
    let after : State → List Micro → State := fun u ms => { u with exe := { u.exe with work := ms ++ u.exe.work } }
    (s.listValid = true ↔ s.sprActive.base ≠ 0#32 ∧ 1 ≤ s.sprActive.count.toNat ∧
      s.sprActive.count.toNat ≤ s.cfg.maxSprites ∧ 32 ≤ s.sprActive.stride.toNat ∧ s.sprActive.stride.toNat % 4 = 0) ∧
    s.recordCount = (if s.listValid = true then s.sprActive.count.toNat else 0) ∧
    s.recordAddr k = (s.sprActive.base.toNat + k * s.sprActive.stride.toNat) % 2 ^ 32 ∧
    s.microStep .showBegin = .next (after s.showStart [.showRecords 0 false]) ∧
    (k < s.recordCount → ∃ now : Bool,
      (now = true ↔ seen = true ∨ (t.runOk (s.recordAddr k) 32 ∧ (t.recordPriv k).getLsbD 0 = true)) ∧
      s.microStep (.showRecords k seen) = .next (after t [.showRecords (k + 1) now])) ∧
    (¬ k < s.recordCount → s.microStep (.showRecords k seen) = .next (after s [.showCursor seen])) ∧
    s.microStep (.showCursor seen) = .next (s.showFinish seen)) ∧
  ∀ (s : State) (seen : Bool),
    let d : Draw := ⟨(loHalf s.cursor.pos).toInt - (loHalf s.cursor.hot).toInt,
      (hiHalf s.cursor.pos).toInt - (hiHalf s.cursor.hot).toInt, readBitmap s.mem s.cursor.bmp.toNat, s.cursor.bg.toNat⟩
    let r := s.drawArea d
    let ends : State → State := fun u => { u with comp := { s.comp with shown := u.cursor.allowDraw || seen, phase := .idle } }
    let t := s.showFinish seen
    s.showStart = { s with comp := { s.comp with refreshPending := false } } ∧
    (s.cursor.en = false ∨ s.cursor.bmp = 0#32 → t = ends s) ∧
    (s.cursor.en = true → s.cursor.bmp ≠ 0#32 →
      (∀ fa, s.lowestBadOf (inRun s.cursor.bmp.toNat 8) fa → t = ends (s.raisePass fa)) ∧
      (s.runOk s.cursor.bmp.toNat 8 →
        (∀ fa, s.lowestBadOf (s.drawBuffer d) fa → t = ends (s.raisePass fa)) ∧
        ((∀ x, s.drawBuffer d x → memOk s x = true) → ∀ fa, s.lowestBadOf (s.drawSource d) fa →
          t = ends (s.raisePass fa)) ∧
        ((∀ x, s.drawBuffer d x ∨ s.drawSource d x → memOk s x = true) →
          t = { s with
            mem := t.mem
            cursor := { s.cursor with saved0 := natPair r.x r.y, saved1 := natPair r.w r.h, allowDraw := true }
            comp := { s.comp with shown := true, phase := .idle } } ∧
          storesOnly (s.drawWrites d) s t ∧ (s.drawApart d (fun _ => False) → s.composited t d))))

/-- `SWAPBUFFERS` (44_blit R405) does nothing without double buffering. With it, in this order: shown sprites are hidden; the
visible buffer becomes the other one, both row tables staying; the `BUF` words of the visible `ROW` descriptors, and no other
memory, take the targets that the new visible table gives them (40_video R223, R227; `BuiltChainIsCircular` spells them out);
every record that exists loses its `DRAWN` flag; and with a list or a cursor to show, a show pass runs. The model's own: that all
this is one step (DESIGN CHOICE, log entry 6), that a record with any header byte missing is skipped (DEDUCED, log entry 16), and
that clearing `DRAWN` keeps `ALLOWDRAW` and writes bits 7:2 as 0 (DEDUCED, log entry 20). -/
def Obligations.SwapBuffers : Prop :=
  ∀ s : State,
    (s.alloc.dblActive = false → exec .swapBuffers s = .next s) ∧
    (s.alloc.dblActive = true → ∃ t u v w, exec .swapBuffers s = .next t ∧
      u = (if s.comp.shown = true then s.hidePass else s) ∧
      (v = { u with mem := v.mem, rows := { u.rows with visBuf := !u.rows.visBuf } } ∧ storesOnly s.bufWord u v ∧
        (s.layoutOk → v.targets v.mem v.visTbl)) ∧
      (w = { v with
          mem := w.mem
          sys := { v.sys with err := w.sys.err, errAddr := w.sys.errAddr, irqStatus := w.sys.irqStatus } } ∧
        storesOnly (fun a => ∃ k < s.recordCount, s.runOk (s.recordAddr k) 32 ∧ s.privByte k a) v w ∧
        (∀ k < s.recordCount, s.runOk (s.recordAddr k) 32 → w.recordPriv k = v.recordPriv k &&& 0x01#8) ∧
        ((∀ k < s.recordCount, s.runOk (s.recordAddr k) 32) → w.sys = v.sys)) ∧
      t = (if s.listValid = true ∨ s.cursorWanted = true then w.showPass else w) ∧
      t.rows = { s.rows with visBuf := !s.rows.visBuf } ∧ t.paint = s.paint ∧ t.queue = s.queue ∧ t.seq = s.seq)

/-- `SETSPRITES` (45_sprites R440) takes the staged list, hides what was shown, clears the `PRIV` byte of every record of the new
list that exists, and requests a pass; besides the hide pass it stores nothing but those `PRIV` bytes. That a record with any of
its 32 header bytes missing faults and keeps its `PRIV` byte is DEDUCED (log entry 16). -/
def Obligations.SetSprites : Prop :=
  ∀ s : State, ∃ t u, exec .hostopSetSprites s = .next t ∧ u = (if s.comp.shown = true then s.hidePass else s) ∧
    t.sprActive = s.sprStaged ∧ t.comp.refreshPending = true ∧ t.comp.shown = false ∧
    (∀ k < t.recordCount, t.recordBad k = none → t.recordPriv k = 0x00#8) ∧
    t = { s with
      mem := t.mem, sprActive := t.sprActive, comp := t.comp
      cursor := { s.cursor with allowDraw := t.cursor.allowDraw }
      sys := { s.sys with err := t.sys.err, errAddr := t.sys.errAddr, irqStatus := t.sys.irqStatus } } ∧
    t.comp = { u.comp with refreshPending := true } ∧ t.cursor = u.cursor ∧
    storesOnly (fun a => ∃ k < t.recordCount, t.recordBad k = none ∧ t.privByte k a) u t ∧
    ((∀ k < t.recordCount, t.recordBad k = none) → t.sys = u.sys)

/-! ### Host operations -/

/-- `APPLY` with a plan (40_video R218, R219) commits it: the active registers are the staged ones, SEQ starts at the chain, the
row tables are the plan's, the queue, the paint state, the frame counter and the error record stay, and of memory only the chain,
the constant buffers, the rows and the records' `PRIV` bytes may change. The `PRIV` bytes that exist are 0; at every other
address the rows read `SI`, constant buffer `k` reads `K_B0`, `K_S0`, `K_B1`, `K_S1`, and the chain is the one that `BUILD`
writes. That the `PRIV` bytes that exist are cleared and one that does not is passed over in silence is DEDUCED (log entry
16). -/
def Obligations.ApplyCommits : Prop :=
  ∀ (s : State) (p : Plan), s.applyPlan = .ok p → ∃ t, exec .hostopApply s = .next t ∧
    t.active = { s.staged with vpSize := natPair p.vpw p.vph } ∧ t.rows = ⟨p.rt0.map natWord, p.rt1.map natWord, false⟩ ∧
    t.alloc = ⟨natPair p.vpcol p.vprow, natWord p.chainBase, natWord (p.group * p.vt), natWord (p.group * p.vt),
      natWord p.group, natWord p.constBase, natWord p.clen, natWord p.stride, true, s.staged.dbl⟩ ∧
    t.seq = { s.seq with phase := .fetch, pixOut := 0x00#8, dptr := natWord p.chainBase, didx := 0 } ∧
    t.geom = ⟨false, 0#32, 0#32⟩ ∧ t.exe = { s.exe with vsReq := false } ∧
    t.comp.shown = false ∧ t.comp.phase = .idle ∧ t.cursor = { s.cursor with allowDraw := false } ∧
    t.comp.refreshPending = (s.comp.refreshPending || s.listValid || s.cursorWanted) ∧
    (t.queue = s.queue ∧ t.paint = s.paint ∧ t.staged = s.staged ∧ t.pools = s.pools ∧ t.sprStaged = s.sprStaged ∧
      t.sprActive = s.sprActive ∧ t.held = s.held ∧ t.cfg = s.cfg ∧ t.env = s.env ∧ t.sys = s.sys) ∧
    (let priv : Nat → Prop := fun a => ∃ k < s.recordCount, memOk s a = true ∧ s.privByte k a
     storesOnly (fun a =>
      inRun (natWord p.chainBase).toNat (12 * (p.group * p.vt)) a ∨ inRun p.constBase (4 * p.clen) a ∨
      (∃ r ∈ p.rt0 ++ p.rt1, inRun r p.stride a) ∨ priv a) s t ∧
     (∀ a, priv (wrapAddr a) → memByte t.mem a = 0x00#8) ∧
     ∀ a, ¬ priv (wrapAddr a) →
      (∀ r ∈ p.rt0 ++ p.rt1, inRun r p.stride (wrapAddr a) → memByte t.mem a = t.active.si) ∧
      (∀ k < 4, inRun (p.constBase + k * p.clen) p.clen (wrapAddr a) → memByte t.mem a = t.active.constByte k) ∧
      memByte t.mem a = memByte t.build.mem a)

/-- `APPLY` without a plan (40_video R220, 60_exceptions R476, R481) only records the first check that fails: the timing, then
the viewport, then the pools, then memory for the chain and the constant buffers (`NOMEM_CHAIN`, 40_video R214, R215), then
memory for the rows (`NOMEM_VIEWPORT`, R216): none at all for the default height, or fewer than a given height needs. The
allocator takes the first pool with room (R214). -/
def Obligations.ApplyFailsWithoutEffect : Prop :=
  (∀ (s : State) (c : ErrCode), s.applyPlan = .error c →
    (∃ t, exec .hostopApply s = .next t ∧ t = s.raise .host 0x01#8 c 0#32 ∧ onlyErrorRecord s t ∧ sameBytes s t) ∧
    (c = .cfgTiming ↔ s.staged.valid = false) ∧
    (c = .cfgViewport ↔ s.staged.valid = true ∧ viewportOk s.cfg.maxRows s.staged = false) ∧
    (c = .cfgPool ↔ s.staged.valid = true ∧ viewportOk s.cfg.maxRows s.staged = true ∧ s.poolsOk = false) ∧
    (c = .cfgTiming ∨ c = .cfgViewport ∨ c = .cfgPool ∨ c = .nomemChain ∨ c = .nomemViewport)) ∧
  (∀ s : State, s.staged.valid = true → viewportOk s.cfg.maxRows s.staged = true → s.poolsOk = true →
    let t := s.staged
    let clen := roundUp4 (min s.cfg.maxd t.ht)
    let g := (linePieces t ((t.hvis - t.vpwWanted) / 2) t.vpwWanted clen).length
    let pools := s.pools.map (fun p => PoolFree.mk p.base.toNat p.size.toNat)
    let stride := roundUp4 t.vpwWanted
    let nb := if t.dbl then 2 else 1
    let rows : List PoolFree → Nat := fun ps => (ps.map (fun p => p.free / stride)).sum
    let short : List PoolFree → Prop := fun ps =>
      (t.vphWanted = 0 ∧ (t.vvis / t.scan = 0 ∨ s.cfg.maxRows = 0 ∨ rows ps < nb)) ∨
      (t.vphWanted ≠ 0 ∧ rows ps < nb * t.vphWanted)
    (s.applyPlan = .error .nomemChain ↔ poolAlloc (12 * g * t.vt) pools = none ∨
      ∃ a ps, poolAlloc (12 * g * t.vt) pools = some (a, ps) ∧ poolAlloc (4 * clen) ps = none) ∧
    (s.applyPlan = .error .nomemViewport ↔
      ∃ a ps b qs, poolAlloc (12 * g * t.vt) pools = some (a, ps) ∧ poolAlloc (4 * clen) ps = some (b, qs) ∧ short qs)) ∧
  ∀ (n a : Nat) (ps qs : List PoolFree),
    (poolAlloc n ps = none ↔ ∀ p ∈ ps, p.free < n) ∧
    (poolAlloc n ps = some (a, qs) ↔ ∃ before p after, ps = before ++ p :: after ∧ (∀ q ∈ before, q.free < n) ∧
      n ≤ p.free ∧ a = p.next ∧ qs = before ++ ⟨p.next + n, p.free - n⟩ :: after)

/-- A plan places the chain, the constant buffers and every row inside one pool each, and all of them apart from each other
(40_video R214 to R217), and has as many rows as the viewport is high, twice that with double buffering. Its numbers are those of
R207, R212, R215 and R216: the width asked for or the whole visible width; the height asked for or the most rows that the
visible raster, `MAX_ROWS` and the pools allow; the viewport centred, rounded to the left and top; `CLEN`, `G` and `VT` of the
staged timing; and the addresses that the allocator gives the chain, the constant buffers and the rows in that order (the
allocator's own rule R214 is in `ApplyFailsWithoutEffect`). So `APPLY` leaves a layout in which no two pixels of a viewport share
a byte, and every step of the machine keeps it. -/
def Obligations.PlanPlacesRowsInPools : Prop :=
  (∀ (s : State) (p : Plan), s.applyPlan = .ok p →
    p.rt0.length = p.vph ∧ p.rt1.length = (if s.staged.dbl then p.vph else 0) ∧ 1 ≤ p.vph ∧ p.vpw ≤ p.stride ∧
    (∀ r ∈ p.rt0 ++ p.rt1, ∃ q ∈ s.pools, q.base.toNat ≤ r ∧ r + p.stride ≤ q.base.toNat + q.size.toNat) ∧
    (p.rt0 ++ p.rt1).Pairwise (fun a b => a + p.stride ≤ b ∨ b + p.stride ≤ a) ∧
    (s.cfg.valid →
      (∃ q ∈ s.pools, q.base.toNat ≤ p.chainBase ∧
        p.chainBase + 12 * (p.group * p.vt) ≤ q.base.toNat + q.size.toNat) ∧
      (∃ q ∈ s.pools, q.base.toNat ≤ p.constBase ∧ p.constBase + 4 * p.clen ≤ q.base.toNat + q.size.toNat) ∧
      (p.chainBase + 12 * (p.group * p.vt) ≤ p.constBase ∨ p.constBase + 4 * p.clen ≤ p.chainBase) ∧
      (∀ r ∈ p.rt0 ++ p.rt1,
        (r + p.stride ≤ p.chainBase ∨ p.chainBase + 12 * (p.group * p.vt) ≤ r) ∧
        (r + p.stride ≤ p.constBase ∨ p.constBase + 4 * p.clen ≤ r)) ∧
      ∃ t, exec .hostopApply s = .next t ∧ t.layoutOk)) ∧
  (∀ (s : State) (p : Plan), s.applyPlan = .ok p →
    let t := s.staged
    let wanted := (hiHalf t.vpSize).toNat
    let shown := t.vvis / t.scan
    let ht := t.hvis + t.hfp + t.hsync + t.hbp
    let nb := if t.dbl then 2 else 1
    p.vpw = (if (loHalf t.vpSize).toNat = 0 then t.hvis else (loHalf t.vpSize).toNat) ∧ p.vpw ≤ t.hvis ∧ p.vph ≤ shown ∧
    p.vpcol = (t.hvis - p.vpw) / 2 ∧ p.vprow = (shown - p.vph) / 2 ∧
    (p.clen % 4 = 0 ∧ min s.cfg.maxd ht ≤ p.clen ∧ p.clen < min s.cfg.maxd ht + 4) ∧
    p.group = (linePieces t p.vpcol p.vpw p.clen).length ∧ p.vt = t.vvis + t.vfp + t.vsync + t.vbp ∧
    (p.stride % 4 = 0 ∧ p.stride < p.vpw + 4) ∧
    ∃ ps qs,
      poolAlloc (12 * (p.group * p.vt)) (s.pools.map (fun q => ⟨q.base.toNat, q.size.toNat⟩)) = some (p.chainBase, ps) ∧
      poolAlloc (4 * p.clen) ps = some (p.constBase, qs) ∧
      (let avail := (qs.map (fun q => q.free / p.stride)).sum
       p.vph = (if wanted = 0 then min shown (min s.cfg.maxRows (avail / nb)) else wanted) ∧
       nb * p.vph ≤ avail) ∧
      poolAllocMany p.stride (nb * p.vph) qs = some (p.rt0 ++ p.rt1)) ∧
  (∀ (n k : Nat) (ps : List PoolFree), poolAllocMany n 0 ps = some [] ∧
    ∀ as, poolAllocMany n (k + 1) ps = some as ↔
      ∃ a qs rest, poolAlloc n ps = some (a, qs) ∧ poolAllocMany n k qs = some rest ∧ as = a :: rest) ∧
  (∀ s : State, s.layoutOk → s.pixelsApart ∧ s.visibleApart) ∧
  ∀ s t : State, s.layoutOk → step s = .next t → t.layoutOk

/-- `MOVESCREEN` and `SHRINKSCREEN` (40_video R240 to R242): an accepted candidate becomes the pending geometry, a rejected one
only records `GEOMETRY` with the operation's code. A candidate is accepted exactly when the block is configured, its porches fit
16 bits, the totals of its line and frame fit 16 bits, and its chain fits the capacity, with the group size of the candidate's
timing (R207, R242). That these four conditions alone decide is the model's choice: R242 also derives that a `SHRINKSCREEN` with
`dy > 0` is always rejected (DESIGN CHOICE, log entry 34). -/
def Obligations.GeometryOperations : Prop :=
  ∀ s : State,
    let b := s.basePorches
    let dx := (loHalf s.sys.hostArg).toInt
    let dy := (hiHalf s.sys.hostArg).toInt
    let move : Porches := ⟨b.hfp - dx, b.hbp + dx, b.vfp - dy, b.vbp + dy⟩
    let shrink : Porches := ⟨b.hfp + dx, b.hbp + dx, b.vfp + dy, b.vbp + dy⟩
    let isPending : State → Porches → Prop := fun t c =>
      t = { s with geom := t.geom } ∧ t.geom.pending = true ∧
        ((loHalf t.geom.pH).toNat : Int) = c.hfp ∧ ((hiHalf t.geom.pH).toNat : Int) = c.hbp ∧
        ((loHalf t.geom.pV).toNat : Int) = c.vfp ∧ ((hiHalf t.geom.pV).toNat : Int) = c.vbp
    (s.geom.pending = false → b = ⟨s.active.hfp, s.active.hbp, s.active.vfp, s.active.vbp⟩) ∧
    (s.geom.pending = true → b = ⟨(loHalf s.geom.pH).toNat, (hiHalf s.geom.pH).toNat, (loHalf s.geom.pV).toNat,
      (hiHalf s.geom.pV).toNat⟩) ∧
    (s.geometryAccepts move → ∃ t, exec .hostopMoveScreen s = .next t ∧ isPending t move ∧ sameBytes s t) ∧
    (¬ s.geometryAccepts move → exec .hostopMoveScreen s = .next (s.raise .host 0x05#8 .geometry 0#32)) ∧
    (s.geometryAccepts shrink → ∃ t, exec .hostopShrinkScreen s = .next t ∧ isPending t shrink ∧ sameBytes s t) ∧
    (¬ s.geometryAccepts shrink → exec .hostopShrinkScreen s = .next (s.raise .host 0x06#8 .geometry 0#32))

/-- `SUSPEND` and `RESUME` (41_queue R276, R277): the counter goes up and down by one; at its ends the operation only records its
error; the final `RESUME` begins a synchronous drain of a queue that is not empty, with its hide pass first where R269 asks for
one. -/
def Obligations.SuspendResume : Prop :=
  ∀ s : State,
    (s.queue.suspend ≠ 255#8 → ∃ t, exec .hostopSuspend s = .next t ∧ t.queue.suspend.toNat = s.queue.suspend.toNat + 1 ∧
      t = { s with queue := { s.queue with suspend := t.queue.suspend } } ∧ sameBytes s t) ∧
    (s.queue.suspend = 255#8 → exec .hostopSuspend s = .next (s.raise .host 0x03#8 .suspendOverflow 0#32)) ∧
    (s.queue.suspend ≠ 0#8 → ∃ t, exec .hostopResume s = .next t ∧ t.queue.suspend.toNat + 1 = s.queue.suspend.toNat ∧
      t = { s with queue := { s.queue with suspend := t.queue.suspend }, exe := t.exe } ∧ sameBytes s t ∧
      (¬ (s.queue.suspend = 1#8 ∧ s.queue.entries ≠ []) → t.exe = s.exe) ∧
      (s.queue.suspend = 1#8 → s.queue.entries ≠ [] → ∃ hid, s.drainHidesFirst hid ∧ t.exe = { s.exe with
        ctx := .sync
        work := (if hid then s.hideSteps else []) ++ .drainLoop ⟨none, false, hid⟩ :: s.exe.work })) ∧
    (s.queue.suspend = 0#8 → exec .hostopResume s = .next (s.raise .host 0x04#8 .resumeUnderflow 0#32))

/-- `DRAIN` and `CMDABORT` (41_queue R275, R278): the first begins a synchronous drain to empty, whatever `SUSPEND` and `BGEXEC`
are, and hides shown sprites first when the drain will draw under them or a refresh is pending; the second discards the
partial command and no entry. -/
def Obligations.DrainAndAbort : Prop :=
  ∀ s : State,
    (∃ t, exec .hostopDrain s = .next t ∧ t = { s with exe := t.exe } ∧ sameBytes s t ∧ ∃ hid,
      s.drainHidesFirst hid ∧ t.exe = { s.exe with
        ctx := .sync
        work := (if hid then s.hideSteps else []) ++ .drainLoop ⟨none, false, hid⟩ :: s.exe.work }) ∧
    (∃ t, exec .hostopCmdAbort s = .next t ∧
      t = { s with queue := { s.queue with partialCount := 0#2, partialLen := 0#2 } } ∧ sameBytes s t)
end

