-- ==== Sys2Proof/Laws/Encoding.lean ====
section
/-!
SUPPORT. The fields of encoded words: what each field of a header, a pair word and an opcode byte reads.
-/

namespace Sys2Proof

@[simp] theorem loHalf_pairWord (lo hi : Half) : loHalf (pairWord lo hi) = lo := by
  apply BitVec.eq_of_getLsbD_eq
  intro i hi
  simp only [loHalf, pairWord, BitVec.getLsbD_append, BitVec.getLsbD_extractLsb']
  repeat' split
  all_goals first
    | (exfalso; omega)
    | (simp only [hi, decide_true, Bool.true_and]; first | rfl | (congr 1; omega))

@[simp] theorem hiHalf_pairWord (lo hi : Half) : hiHalf (pairWord lo hi) = hi := by
  apply BitVec.eq_of_getLsbD_eq
  intro i hi
  simp only [hiHalf, pairWord, BitVec.getLsbD_append, BitVec.getLsbD_extractLsb']
  repeat' split
  all_goals first
    | (exfalso; omega)
    | (simp only [hi, decide_true, Bool.true_and]; first | rfl | (congr 1; omega))

@[simp] theorem pairWord_halves (w : Word) : pairWord (loHalf w) (hiHalf w) = w := by
  apply BitVec.eq_of_getLsbD_eq
  intro i hi
  simp only [pairWord, loHalf, hiHalf, BitVec.getLsbD_append, BitVec.getLsbD_extractLsb']
  by_cases h : i < 16
  · simp [h]
  · simp [h, show 16 + (i - 16) = i by omega, show i - 16 < 16 by omega]

@[simp] theorem hdrImm_headerWord (op : Byte) (len : BitVec 2) (imm : Half) : hdrImm (headerWord op len imm) = imm := by
  apply BitVec.eq_of_getLsbD_eq
  intro i hi
  simp only [hdrImm, headerWord, BitVec.getLsbD_append, BitVec.getLsbD_extractLsb']
  repeat' split
  all_goals first
    | (exfalso; omega)
    | (simp only [hi, decide_true, Bool.true_and]; first | rfl | (congr 1; omega))

@[simp] theorem hdrOp_headerWord (op : Byte) (len : BitVec 2) (imm : Half) : hdrOp (headerWord op len imm) = op := by
  apply BitVec.eq_of_getLsbD_eq
  intro i hi
  simp only [hdrOp, headerWord, BitVec.getLsbD_append, BitVec.getLsbD_extractLsb']
  repeat' split
  all_goals first
    | (exfalso; omega)
    | (simp only [hi, decide_true, Bool.true_and]; first | rfl | (congr 1; omega))

@[simp] theorem hdrLen_headerWord (op : Byte) (len : BitVec 2) (imm : Half) : hdrLen (headerWord op len imm) = len := by
  apply BitVec.eq_of_getLsbD_eq
  intro i hi
  simp only [hdrLen, headerWord, BitVec.getLsbD_append, BitVec.getLsbD_extractLsb']
  repeat' split
  all_goals first
    | (exfalso; omega)
    | (simp only [hi, decide_true, Bool.true_and]; first | rfl | (congr 1; omega))

@[simp] theorem hdrRsv_headerWord (op : Byte) (len : BitVec 2) (imm : Half) : hdrRsv (headerWord op len imm) = 0#6 := by
  apply BitVec.eq_of_getLsbD_eq
  intro i hi
  simp only [hdrRsv, headerWord, BitVec.getLsbD_append, BitVec.getLsbD_extractLsb', BitVec.getLsbD_zero]
  repeat' split
  all_goals first
    | (exfalso; omega)
    | (simp only [hi, decide_true, Bool.true_and])

/-- A header is determined by its four fields. -/
theorem header_ext (h : Word) (hr : hdrRsv h = 0#6) : headerWord (hdrOp h) (hdrLen h) (hdrImm h) = h := by
  apply BitVec.eq_of_getLsbD_eq
  intro i hi
  have hrb : ∀ k, (hdrRsv h).getLsbD k = false := by intro k; rw [hr]; simp
  simp only [headerWord, hdrOp, hdrLen, hdrImm, BitVec.getLsbD_append, BitVec.getLsbD_extractLsb', BitVec.getLsbD_zero]
  by_cases h1 : i < 16
  · rw [if_pos h1]
    by_cases h2 : i < 10
    · rw [if_pos h2]
      by_cases h3 : i < 8
      · simp [h3]
      · simp [h3, show i - 8 < 2 by omega, show 8 + (i - 8) = i by omega]
    · rw [if_neg h2]
      have := hrb (i - 10)
      simp only [hdrRsv, BitVec.getLsbD_extractLsb'] at this
      rw [show 10 + (i - 10) = i by omega] at this
      simpa [show i - 10 < 6 by omega] using this.symm
  · rw [if_neg h1]
    simp [show i - 16 < 16 by omega, show 16 + (i - 16) = i by omega]

@[simp] theorem Opcode.ofByte_toByte (op : Opcode) : Opcode.ofByte op.toByte = some op := by
  cases op <;> rfl

/-- Each opcode byte names one opcode (30_encoding R155). -/
theorem Opcode.toByte_of_ofByte (b : Byte) (op : Opcode) (h : Opcode.ofByte b = some op) : op.toByte = b := by
  unfold Opcode.ofByte at h
  split at h
  all_goals first
    | (obtain rfl := Option.some.inj h; apply BitVec.eq_of_toNat_eq; simp_all [Opcode.toByte])
    | cases h

@[simp] theorem hdrOp_header (op : Opcode) (imm : Half) : hdrOp (op.header imm) = op.toByte := by simp [Opcode.header]
@[simp] theorem hdrLen_header (op : Opcode) (imm : Half) : hdrLen (op.header imm) = op.format.len := by
  simp [Opcode.header]
@[simp] theorem hdrRsv_header (op : Opcode) (imm : Half) : hdrRsv (op.header imm) = 0#6 := by simp [Opcode.header]
@[simp] theorem hdrImm_header (op : Opcode) (imm : Half) : hdrImm (op.header imm) = imm := by simp [Opcode.header]

/-- The common checks pass on an entry whose header the encoder wrote with no reserved immediate bit set. -/
theorem decodeEntry_header (op : Opcode) (imm : Half) (a b c : Word) (h : imm &&& op.reservedImm = 0#16) :
    decodeEntry ⟨op.header imm, a, b, c⟩ = .ok (op.build ⟨op.header imm, a, b, c⟩) := by
  simp [decodeEntry, h]

/-- The low half of a header. -/
theorem loHalf_header (op : Opcode) (imm : Half) :
    loHalf (op.header imm) = ((0#6 ++ (op.format.len ++ op.toByte : BitVec 10)) : Half) := by
  apply BitVec.eq_of_getLsbD_eq
  intro i hi
  simp only [loHalf, Opcode.header, headerWord, BitVec.getLsbD_append, BitVec.getLsbD_extractLsb', BitVec.getLsbD_zero]
  repeat' split
  all_goals first
    | (exfalso; omega)
    | (simp only [hi, decide_true, Bool.true_and] <;> first | rfl | (congr 1; omega))

end Sys2Proof
end

