-- ==== Sys2Proof/Laws/Geometry.lean ====
section
/-!
SUPPORT. What the geometry check accepts (40_video R242).
-/

namespace Sys2Proof.Machine

theorem porchOk_iff {n : Int} : porchOk n = true ↔ 0 ≤ n ∧ n ≤ 65535 := by
  simp [porchOk]

/-- A porch that fits its field is kept by it. -/
theorem toNat_ofInt_of_porchOk {n : Int} (h : porchOk n = true) : ((BitVec.ofInt 16 n).toNat : Int) = n := by
  have h := porchOk_iff.1 h
  rw [BitVec.toNat_ofInt]
  omega

/-- A timing register pair is its two halves. -/
theorem eq_pairWord {w : Word} {lo hi : Half} (h1 : (loHalf w).toNat = lo.toNat) (h2 : (hiHalf w).toNat = hi.toNat) :
    w = pairWord lo hi := by
  rw [← pairWord_halves w, BitVec.eq_of_toNat_eq h1, BitVec.eq_of_toNat_eq h2]

/-- The timing of a candidate whose porches fit their fields has them, and the active sizes. -/
theorem candidateTiming_fields (s : State) (c : Porches) (h1 : porchOk c.hfp = true) (h2 : porchOk c.hbp = true)
    (h3 : porchOk c.vfp = true) (h4 : porchOk c.vbp = true) :
    let t := s.candidateTiming c
    t = { s.active with h0 := t.h0, h1 := t.h1, v0 := t.v0, v1 := t.v1 } ∧
    (t.hvis = s.active.hvis ∧ t.hsync = s.active.hsync ∧ t.vvis = s.active.vvis ∧ t.vsync = s.active.vsync) ∧
    (t.hfp : Int) = c.hfp ∧ (t.hbp : Int) = c.hbp ∧ (t.vfp : Int) = c.vfp ∧ (t.vbp : Int) = c.vbp := by
  simp only [State.candidateTiming, Timings.withPorches, Timings.hvis, Timings.hsync, Timings.vvis, Timings.vsync, Timings.hfp,
    Timings.hbp, Timings.vfp, Timings.vbp, loHalf_pairWord, hiHalf_pairWord]
  exact ⟨trivial, ⟨trivial, trivial, trivial, trivial⟩, toNat_ofInt_of_porchOk h1, toNat_ofInt_of_porchOk h2,
    toNat_ofInt_of_porchOk h3, toNat_ofInt_of_porchOk h4⟩

/-- The geometry check says exactly whether the four conditions of 40_video R242 hold. -/
theorem geometryOk_iff (s : State) (c : Porches) : s.geometryOk c = true ↔ s.geometryAccepts c := by
  simp only [State.geometryOk, State.geometryAccepts, Bool.and_eq_true, decide_eq_true_eq, List.forall_mem_cons,
    List.not_mem_nil, false_imp_iff, implies_true, and_true, ← porchOk_iff]
  constructor
  · rintro ⟨⟨⟨⟨⟨hc, h1⟩, h2⟩, h3⟩, h4⟩, ht, hv, hg⟩
    obtain ⟨-, ⟨a1, a2, a3, a4⟩, b1, b2, b3, b4⟩ := candidateTiming_fields s c h1 h2 h3 h4
    refine ⟨hc, ⟨h1, h2, h3, h4⟩, ?_, ?_⟩
    · unfold Timings.ht at ht
      unfold Timings.vt at hv
      omega
    · intro t e e1 e2 e3 e4 f1 f2 f3 f4
      have : t = s.candidateTiming c := by
        rw [e]
        unfold State.candidateTiming Timings.withPorches
        have g1 : t.h0 = pairWord (loHalf s.active.h0) (BitVec.ofInt 16 c.hfp) :=
          eq_pairWord e1 (by have := toNat_ofInt_of_porchOk h1; unfold Timings.hfp at f1; omega)
        have g2 : t.h1 = pairWord (loHalf s.active.h1) (BitVec.ofInt 16 c.hbp) :=
          eq_pairWord e2 (by have := toNat_ofInt_of_porchOk h2; unfold Timings.hbp at f2; omega)
        have g3 : t.v0 = pairWord (loHalf s.active.v0) (BitVec.ofInt 16 c.vfp) :=
          eq_pairWord e3 (by have := toNat_ofInt_of_porchOk h3; unfold Timings.vfp at f3; omega)
        have g4 : t.v1 = pairWord (loHalf s.active.v1) (BitVec.ofInt 16 c.vbp) :=
          eq_pairWord e4 (by have := toNat_ofInt_of_porchOk h4; unfold Timings.vbp at f4; omega)
        rw [g1, g2, g3, g4]
      rw [this]
      exact hg
  · rintro ⟨hc, ⟨h1, h2, h3, h4⟩, ⟨ht, hv⟩, hg⟩
    obtain ⟨a0, ⟨a1, a2, a3, a4⟩, b1, b2, b3, b4⟩ := candidateTiming_fields s c h1 h2 h3 h4
    refine ⟨⟨⟨⟨⟨hc, h1⟩, h2⟩, h3⟩, h4⟩, ?_, ?_, hg _ a0 a1 a2 a3 a4 b1 b2 b3 b4⟩
    · unfold Timings.ht
      omega
    · unfold Timings.vt
      omega

end Sys2Proof.Machine
end

