-- ==== Sys2Proof/Laws/Memory.lean ====
section
/-!
SUPPORT. The laws of memory: what a byte reads after each memory operation, and that every operation keeps the canonical
form.
-/

namespace Sys2Proof.Machine

theorem wrapAddr_lt (a : Nat) : wrapAddr a < addrSpace := Nat.mod_lt _ (by decide)

@[simp] theorem wrapAddr_wrapAddr (a : Nat) : wrapAddr (wrapAddr a) = wrapAddr a := Nat.mod_mod _ _

theorem wrapAddr_of_lt {a : Nat} (h : a < addrSpace) : wrapAddr a = a := Nat.mod_eq_of_lt h

@[simp] theorem memByte_wrapAddr (m : Memory) (a : Nat) : memByte m (wrapAddr a) = memByte m a := by
  simp [memByte]

theorem memByte_congr (m : Memory) {a b : Nat} (h : wrapAddr a = wrapAddr b) : memByte m a = memByte m b := by
  simp only [memByte, h]

/-! ### Lookup -/

@[simp] theorem memLookup_nil (a : Nat) : memLookup [] a = none := rfl

theorem memLookup_cons (c : Host.Cell) (m : Memory) (a : Nat) :
    memLookup (c :: m) a = if a = c.1 then some c.2 else memLookup m a := rfl

theorem memLookup_memInsert (m : Memory) (a b : Nat) (v : Byte) :
    memLookup (memInsert m a v) b = if b = a then some v else memLookup m b := by
  induction m with
  | nil => simp [memInsert, memLookup]
  | cons c m ih =>
    obtain ⟨k, w⟩ := c
    simp only [memInsert]
    split
    · simp [memLookup]
    · split
      · subst_vars; simp only [memLookup]; split <;> simp_all
      · simp only [memLookup_cons, ih]
        split
        · rename_i h1 h2 h3
          have : ¬ b = a := by omega
          simp [this]
        · rfl

theorem memLookup_append (l m : Memory) (a : Nat) :
    memLookup (l ++ m) a = (memLookup l a).or (memLookup m a) := by
  induction l with
  | nil => simp
  | cons c l ih => simp only [List.cons_append, memLookup_cons, ih]; split <;> simp

theorem memLookup_filter (m : Memory) (p : Nat → Bool) (a : Nat) :
    memLookup (m.filter (fun c => p c.1)) a = if p a then memLookup m a else none := by
  induction m with
  | nil => simp
  | cons c m ih =>
    rw [List.filter_cons]
    split
    · simp only [memLookup_cons, ih]; split <;> simp_all
    · rename_i hc
      simp only [memLookup_cons, ih]
      by_cases e : a = c.1
      · subst e; simp [hc]
      · simp [e]

theorem memLookup_eq_none {m : Memory} {a : Nat} (h : ∀ c ∈ m, c.1 ≠ a) : memLookup m a = none := by
  induction m with
  | nil => rfl
  | cons c m ih =>
    rw [memLookup_cons, if_neg (fun e => h c (by simp) e.symm), ih (fun d hd => h d (by simp [hd]))]

/-! ### Reading a byte after a store -/

theorem memByte_memStore (m : Memory) (a b : Nat) (v : Byte) :
    memByte (memStore m a v) b = if wrapAddr b = wrapAddr a then v else memByte m b := by
  simp only [memByte, memStore, memLookup_memInsert]
  split <;> simp

/-- A byte that no cell of a stored list names reads as before. -/
theorem memByte_memStoreAll_of_notMem (cs : List (Nat × Byte)) (m : Memory) (b : Nat)
    (h : ∀ c ∈ cs, wrapAddr c.1 ≠ wrapAddr b) : memByte (memStoreAll m cs) b = memByte m b := by
  induction cs generalizing m with
  | nil => rfl
  | cons c cs ih =>
    have h1 := h c (by simp)
    have := ih (memStore m c.1 c.2) (fun d hd => h d (by simp [hd]))
    simp only [memStoreAll, List.foldl_cons] at this ⊢
    rw [this, memByte_memStore, if_neg (fun e => h1 e.symm)]

/-- A byte that some cell of a stored list names, and which every such cell gives the same value, reads that value. -/
theorem memByte_memStoreAll_of_mem (cs : List (Nat × Byte)) (m : Memory) (b : Nat) (v : Byte)
    (h : ∀ c ∈ cs, wrapAddr c.1 = wrapAddr b → c.2 = v) (hex : ∃ c ∈ cs, wrapAddr c.1 = wrapAddr b) :
    memByte (memStoreAll m cs) b = v := by
  induction cs generalizing m with
  | nil => simp at hex
  | cons c cs ih =>
    by_cases hr : ∃ d ∈ cs, wrapAddr d.1 = wrapAddr b
    · exact ih (memStore m c.1 c.2) (fun d hd => h d (by simp [hd])) hr
    · have hc : wrapAddr c.1 = wrapAddr b := by
        obtain ⟨d, hd, he⟩ := hex
        rcases List.mem_cons.1 hd with rfl | hd
        · exact he
        · exact absurd ⟨d, hd, he⟩ hr
      have hn := memByte_memStoreAll_of_notMem cs (memStore m c.1 c.2) b (fun d hd e => hr ⟨d, hd, e⟩)
      simp only [memStoreAll, List.foldl_cons] at hn ⊢
      rw [hn, memByte_memStore, if_pos hc.symm, h c (by simp) hc]

theorem memStoreAll_append (m : Memory) (as bs : List (Nat × Byte)) :
    memStoreAll m (as ++ bs) = memStoreAll (memStoreAll m as) bs := by
  simp [memStoreAll, List.foldl_append]

/-- A fold of stores changes no byte that none of its elements changes. -/
theorem memByte_foldl_of_notMem {α : Type} {f : Memory → α → Memory} {l : List α} {b : Nat}
    (h : ∀ x ∈ l, ∀ m, memByte (f m x) b = memByte m b) (m : Memory) : memByte (l.foldl f m) b = memByte m b := by
  induction l generalizing m with
  | nil => rfl
  | cons x l ih => rw [List.foldl_cons, ih (fun y hy => h y (by simp [hy])), h x (by simp)]

/-- A fold of stores gives a byte the value `v` that one of its elements `x` gives it in every memory that satisfies `I`, which
every element keeps, when no other element changes that byte. -/
theorem memByte_foldl_of_mem {α : Type} {f : Memory → α → Memory} {l : List α} {b : Nat} {v : Byte} {x : α} (hx : x ∈ l)
    (I : Memory → Prop) {m : Memory} (h0 : I m) (hI : ∀ y ∈ l, ∀ m, I m → I (f m y))
    (hv : ∀ m, I m → memByte (f m x) b = v)
    (h : ∀ y ∈ l, y ≠ x → ∀ m, memByte (f m y) b = memByte m b) : memByte (l.foldl f m) b = v := by
  have key : ∀ l : List α, (∀ y ∈ l, ∀ m, I m → I (f m y)) → (∀ y ∈ l, y ≠ x → ∀ m, memByte (f m y) b = memByte m b) →
      ∀ m, I m → (memByte m b = v ∨ x ∈ l) → memByte (l.foldl f m) b = v := by
    intro l
    induction l with
    | nil => intro _ _ m _ h; simpa using h
    | cons y l ih =>
      intro hI h m hm hd
      rw [List.foldl_cons]
      refine ih (fun z hz => hI z (by simp [hz])) (fun z hz => h z (by simp [hz])) _ (hI y (by simp) m hm) ?_
      by_cases e : y = x
      · exact .inl (e ▸ hv m hm)
      · rcases hd with hd | hd
        · exact .inl (by rw [h y (by simp) e, hd])
        · exact .inr (by simpa [Ne.symm e] using hd)
  exact key l hI h m h0 (.inr hx)

theorem mem_blockCells {a : Nat} {bs : List Byte} {c : Nat × Byte} :
    c ∈ blockCells a bs ↔ ∃ k, bs[k]? = some c.2 ∧ c.1 = a + k := by
  simp only [blockCells, List.mem_map, Prod.exists]
  constructor
  · rintro ⟨v, k, h, rfl⟩
    exact ⟨k, List.mem_zipIdx_iff_getElem?.1 h, rfl⟩
  · rintro ⟨k, h, e⟩
    exact ⟨c.2, k, List.mem_zipIdx_iff_getElem?.2 h, by rw [← e]⟩

theorem memLookup_blockCells (a : Nat) (bs : List Byte) (b : Nat) :
    memLookup (blockCells a bs) b = if a ≤ b then bs[b - a]? else none := by
  have key : ∀ (bs : List Byte) (n : Nat),
      memLookup ((bs.zipIdx n).map (fun p => (a + p.2, p.1))) b = if a + n ≤ b then bs[b - (a + n)]? else none := by
    intro bs
    induction bs with
    | nil => intro n; simp
    | cons v bs ih =>
      intro n
      simp only [List.zipIdx_cons, List.map_cons, memLookup_cons, ih]
      by_cases h1 : b = a + n
      · subst h1; simp
      · rw [if_neg h1]
        by_cases h2 : a + n ≤ b
        · rw [if_pos (by omega), if_pos h2]
          have : b - (a + n) = (b - (a + (n + 1))) + 1 := by omega
          rw [this, List.getElem?_cons_succ]
        · rw [if_neg (by omega), if_neg h2]
  simpa [blockCells] using key bs 0

/-- A byte outside a stored run reads as before. -/
theorem memByte_memStoreBlock_of_notMem (m : Memory) (a : Nat) (bs : List Byte) (b : Nat)
    (h : ∀ k < bs.length, wrapAddr (a + k) ≠ wrapAddr b) : memByte (memStoreBlock m a bs) b = memByte m b := by
  unfold memStoreBlock
  split
  · rename_i hw
    have hb := wrapAddr_lt b
    have hout : ¬ (a ≤ wrapAddr b ∧ wrapAddr b < a + bs.length) := by
      rintro ⟨h1, h2⟩
      refine h (wrapAddr b - a) (by omega) ?_
      rw [Nat.add_sub_cancel' h1]
      simp
    simp only [memByte, memLookup_append, memLookup_blockCells,
      memLookup_filter m (fun x => decide (x < a)), memLookup_filter m (fun x => decide (a + bs.length ≤ x))]
    by_cases h1 : wrapAddr b < a
    · simp [h1, show ¬ a ≤ wrapAddr b by omega, show ¬ a + bs.length ≤ wrapAddr b by omega]
    · have h2 : a + bs.length ≤ wrapAddr b := by omega
      simp [h1, h2, show bs.length ≤ wrapAddr b - a by omega]
  · refine memByte_memStoreAll_of_notMem _ _ _ (fun c hc => ?_)
    obtain ⟨k, hk, e⟩ := mem_blockCells.1 hc
    rw [e]
    exact h k (List.getElem?_eq_some_iff.1 hk).1

/-- A byte of a stored run, which is no longer than the address space, reads its new value. -/
theorem memByte_memStoreBlock_of_mem (m : Memory) (a : Nat) (bs : List Byte) (b k : Nat) (v : Byte)
    (hlen : bs.length ≤ addrSpace) (hk : bs[k]? = some v) (hb : wrapAddr b = wrapAddr (a + k)) :
    memByte (memStoreBlock m a bs) b = v := by
  have hkl : k < bs.length := (List.getElem?_eq_some_iff.1 hk).1
  unfold memStoreBlock
  split
  · rename_i hw
    have e : wrapAddr b = a + k := by rw [hb, wrapAddr_of_lt (by omega)]
    simp only [memByte, memLookup_append, memLookup_blockCells, e,
      memLookup_filter m (fun x => decide (x < a)), memLookup_filter m (fun x => decide (a + bs.length ≤ x))]
    simp [hk]
  · refine memByte_memStoreAll_of_mem _ _ _ _ (fun c hc he => ?_) ⟨(a + k, v), mem_blockCells.2 ⟨k, hk, rfl⟩, hb.symm⟩
    obtain ⟨j, hj, e⟩ := mem_blockCells.1 hc
    have hjl : j < bs.length := (List.getElem?_eq_some_iff.1 hj).1
    rw [e, hb] at he
    have : j = k := by
      simp only [wrapAddr, addrSpace] at he hlen
      omega
    subst this
    rw [hk] at hj
    exact (Option.some.inj hj).symm

/-! ### The canonical form -/

theorem memory_wf_iff (m : Memory) :
    Memory.wf m = true ↔ m.Pairwise (fun c d => c.1 < d.1) ∧ ∀ c ∈ m, c.1 < addrSpace := by
  simp [Memory.wf]

@[simp] theorem wf_nil : Memory.wf [] = true := by decide

theorem mem_memInsert {m : Memory} {a : Nat} {v : Byte} {c : Host.Cell} (h : c ∈ memInsert m a v) :
    c = (a, v) ∨ c ∈ m := by
  induction m with
  | nil => simpa [memInsert] using h
  | cons d m ih =>
    obtain ⟨k, w⟩ := d
    simp only [memInsert] at h
    split at h
    · simpa using h
    · split at h
      · rcases List.mem_cons.1 h with h | h
        · exact .inl h
        · exact .inr (by simp [h])
      · rcases List.mem_cons.1 h with h | h
        · exact .inr (by simp [h])
        · rcases ih h with h | h
          · exact .inl h
          · exact .inr (by simp [h])

theorem wf_memInsert {m : Memory} (h : Memory.wf m = true) {a : Nat} (ha : a < addrSpace) (v : Byte) :
    Memory.wf (memInsert m a v) = true := by
  rw [memory_wf_iff] at h ⊢
  refine ⟨?_, fun c hc => ?_⟩
  · obtain ⟨hp, -⟩ := h
    induction m with
    | nil => simp [memInsert]
    | cons d m ih =>
      obtain ⟨k, w⟩ := d
      have hp' := List.pairwise_cons.1 hp
      simp only [memInsert]
      split
      · rename_i hlt
        refine List.pairwise_cons.2 ⟨fun c hc => ?_, hp⟩
        rcases List.mem_cons.1 hc with rfl | hc
        · exact hlt
        · exact Nat.lt_trans hlt (hp'.1 c hc)
      · split
        · subst_vars
          exact List.pairwise_cons.2 ⟨hp'.1, hp'.2⟩
        · refine List.pairwise_cons.2 ⟨fun c hc => ?_, ih hp'.2⟩
          rcases mem_memInsert hc with rfl | hc
          · show k < a
            omega
          · exact hp'.1 c hc
  · rcases mem_memInsert hc with rfl | hc
    · exact ha
    · exact h.2 c hc

theorem wf_memStore {m : Memory} (h : Memory.wf m = true) (a : Nat) (v : Byte) : Memory.wf (memStore m a v) = true :=
  wf_memInsert h (wrapAddr_lt a) v

theorem wf_foldl {α : Type} {f : Memory → α → Memory} (hf : ∀ m x, Memory.wf m = true → Memory.wf (f m x) = true)
    (l : List α) {m : Memory} (h : Memory.wf m = true) : Memory.wf (l.foldl f m) = true := by
  induction l generalizing m with
  | nil => exact h
  | cons x l ih => exact ih (hf m x h)

theorem wf_memStoreAll {m : Memory} (h : Memory.wf m = true) (cs : List (Nat × Byte)) :
    Memory.wf (memStoreAll m cs) = true :=
  wf_foldl (fun _ _ h => wf_memStore h _ _) cs h

theorem pairwise_blockCells (a : Nat) (bs : List Byte) : (blockCells a bs).Pairwise (fun c d => c.1 < d.1) := by
  have key : ∀ (bs : List Byte) (n : Nat),
      ((bs.zipIdx n).map (fun p => (a + p.2, p.1))).Pairwise (fun c d => c.1 < d.1) := by
    intro bs
    induction bs with
    | nil => intro n; simp
    | cons v bs ih =>
      intro n
      simp only [List.zipIdx_cons, List.map_cons]
      refine List.pairwise_cons.2 ⟨fun c hc => ?_, ih (n + 1)⟩
      obtain ⟨p, hp, rfl⟩ := List.mem_map.1 hc
      have := (List.mem_zipIdx hp).1
      show a + n < a + p.2
      omega
  exact key bs 0

theorem wf_memStoreBlock {m : Memory} (h : Memory.wf m = true) (a : Nat) (bs : List Byte) :
    Memory.wf (memStoreBlock m a bs) = true := by
  unfold memStoreBlock
  split
  · rename_i hw
    rw [memory_wf_iff] at h ⊢
    have hblk : ∀ c ∈ blockCells a bs, a ≤ c.1 ∧ c.1 < a + bs.length := by
      intro c hc
      obtain ⟨k, hk, e⟩ := mem_blockCells.1 hc
      have := (List.getElem?_eq_some_iff.1 hk).1
      omega
    refine ⟨?_, ?_⟩
    · rw [List.append_assoc]
      refine List.pairwise_append.2 ⟨h.1.sublist List.filter_sublist, ?_, ?_⟩
      · refine List.pairwise_append.2 ⟨pairwise_blockCells a bs, h.1.sublist List.filter_sublist, ?_⟩
        intro c hc d hd
        have := (hblk c hc).2
        have := (List.mem_filter.1 hd).2
        simp at this
        omega
      · intro c hc d hd
        have h1 := (List.mem_filter.1 hc).2
        simp at h1
        rcases List.mem_append.1 hd with hd | hd
        · have := (hblk d hd).1; omega
        · have := (List.mem_filter.1 hd).2
          simp at this
          omega
    · intro c hc
      rcases List.mem_append.1 hc with hc | hc
      · rcases List.mem_append.1 hc with hc | hc
        · exact h.2 c (List.mem_filter.1 hc).1
        · have := (hblk c hc).2; omega
      · exact h.2 c (List.mem_filter.1 hc).1
  · exact wf_memStoreAll h _

theorem wf_memWriteLe {m : Memory} (h : Memory.wf m = true) (a n v : Nat) : Memory.wf (memWriteLe m a n v) = true :=
  wf_memStoreBlock h a _

theorem memCut_pairwise (landed : Nat → Bool) (old : Memory) {final : Memory}
    (h : final.Pairwise (fun c d => c.1 < d.1)) : (memCut landed old final).Pairwise (fun c d => c.1 < d.1) := by
  refine List.Pairwise.filterMap _ (fun c d hcd => ?_) h
  intro x hx y hy
  have e : ∀ (c x : Host.Cell),
      (if landed c.1 then some c else (memLookup old c.1).map (fun v => (c.1, v))) = some x → x.1 = c.1 := by
    intro c x hx
    split at hx
    · exact (congrArg Prod.fst (Option.some.inj hx)).symm
    · obtain ⟨v, -, rfl⟩ := Option.map_eq_some_iff.1 hx
      rfl
  rw [e c x hx, e d y hy]
  exact hcd

theorem wf_memCut (landed : Nat → Bool) (old : Memory) {final : Memory} (h : Memory.wf final = true) :
    Memory.wf (memCut landed old final) = true := by
  rw [memory_wf_iff] at h ⊢
  refine ⟨memCut_pairwise landed old h.1, fun x hx => ?_⟩
  obtain ⟨c, hc, e⟩ := List.mem_filterMap.1 hx
  split at e
  · exact (Option.some.inj e) ▸ h.2 c hc
  · obtain ⟨v, -, rfl⟩ := Option.map_eq_some_iff.1 e
    exact h.2 c hc

/-- The memory of the state after reset is canonical. -/
theorem reset_mem_wf : Memory.wf State.reset.mem = true := by decide

/-! ### Multi-byte reads -/

@[simp] theorem length_bytesLe (v n : Nat) : (bytesLe v n).length = n := by simp [bytesLe]

theorem bytesLe_getElem? (v n k : Nat) (h : k < n) : (bytesLe v n)[k]? = some (BitVec.ofNat 8 (v >>> (8 * k))) := by
  simp [bytesLe, h]

theorem memReadLe_congr {m m' : Memory} {a n : Nat} (h : ∀ k < n, memByte m (a + k) = memByte m' (a + k)) :
    memReadLe m a n = memReadLe m' a n := by
  induction n generalizing a with
  | zero => rfl
  | succ n ih =>
    have h0 := h 0 (by omega)
    simp only [Nat.add_zero] at h0
    have h1 : memReadLe m (a + 1) n = memReadLe m' (a + 1) n :=
      ih (fun k hk => by have := h (k + 1) (by omega); rwa [show a + (k + 1) = a + 1 + k by omega] at this)
    simp only [memReadLe, h0, h1]

end Sys2Proof.Machine
end

