-- ==== Sys2Proof/Laws/State.lean ====
section
/-!
SUPPORT. One lemma per field per update of the state.
-/

namespace Sys2Proof.Machine

@[simp] theorem State.setMem_cfg (s : State) (m : Memory) : (s.setMem m).cfg = s.cfg := rfl
@[simp] theorem State.setMem_mem (s : State) (m : Memory) : (s.setMem m).mem = m := rfl
@[simp] theorem State.setMem_sys (s : State) (m : Memory) : (s.setMem m).sys = s.sys := rfl
@[simp] theorem State.setMem_staged (s : State) (m : Memory) : (s.setMem m).staged = s.staged := rfl
@[simp] theorem State.setMem_pools (s : State) (m : Memory) : (s.setMem m).pools = s.pools := rfl
@[simp] theorem State.setMem_active (s : State) (m : Memory) : (s.setMem m).active = s.active := rfl
@[simp] theorem State.setMem_alloc (s : State) (m : Memory) : (s.setMem m).alloc = s.alloc := rfl
@[simp] theorem State.setMem_geom (s : State) (m : Memory) : (s.setMem m).geom = s.geom := rfl
@[simp] theorem State.setMem_paint (s : State) (m : Memory) : (s.setMem m).paint = s.paint := rfl
@[simp] theorem State.setMem_sprStaged (s : State) (m : Memory) : (s.setMem m).sprStaged = s.sprStaged := rfl
@[simp] theorem State.setMem_sprActive (s : State) (m : Memory) : (s.setMem m).sprActive = s.sprActive := rfl
@[simp] theorem State.setMem_cursor (s : State) (m : Memory) : (s.setMem m).cursor = s.cursor := rfl
@[simp] theorem State.setMem_comp (s : State) (m : Memory) : (s.setMem m).comp = s.comp := rfl
@[simp] theorem State.setMem_queue (s : State) (m : Memory) : (s.setMem m).queue = s.queue := rfl
@[simp] theorem State.setMem_exe (s : State) (m : Memory) : (s.setMem m).exe = s.exe := rfl
@[simp] theorem State.setMem_held (s : State) (m : Memory) : (s.setMem m).held = s.held := rfl
@[simp] theorem State.setMem_rows (s : State) (m : Memory) : (s.setMem m).rows = s.rows := rfl
@[simp] theorem State.setMem_seq (s : State) (m : Memory) : (s.setMem m).seq = s.seq := rfl
@[simp] theorem State.setMem_env (s : State) (m : Memory) : (s.setMem m).env = s.env := rfl

@[simp] theorem State.writeCells_cfg (s : State) (cs : List (Nat × Byte)) : (s.writeCells cs).cfg = s.cfg := rfl
@[simp] theorem State.writeCells_mem (s : State) (cs : List (Nat × Byte)) : (s.writeCells cs).mem = memStoreAll s.mem cs := rfl
@[simp] theorem State.writeCells_sys (s : State) (cs : List (Nat × Byte)) : (s.writeCells cs).sys = s.sys := rfl
@[simp] theorem State.writeCells_staged (s : State) (cs : List (Nat × Byte)) : (s.writeCells cs).staged = s.staged := rfl
@[simp] theorem State.writeCells_pools (s : State) (cs : List (Nat × Byte)) : (s.writeCells cs).pools = s.pools := rfl
@[simp] theorem State.writeCells_active (s : State) (cs : List (Nat × Byte)) : (s.writeCells cs).active = s.active := rfl
@[simp] theorem State.writeCells_alloc (s : State) (cs : List (Nat × Byte)) : (s.writeCells cs).alloc = s.alloc := rfl
@[simp] theorem State.writeCells_geom (s : State) (cs : List (Nat × Byte)) : (s.writeCells cs).geom = s.geom := rfl
@[simp] theorem State.writeCells_paint (s : State) (cs : List (Nat × Byte)) : (s.writeCells cs).paint = s.paint := rfl
@[simp] theorem State.writeCells_sprStaged (s : State) (cs : List (Nat × Byte)) : (s.writeCells cs).sprStaged = s.sprStaged := rfl
@[simp] theorem State.writeCells_sprActive (s : State) (cs : List (Nat × Byte)) : (s.writeCells cs).sprActive = s.sprActive := rfl
@[simp] theorem State.writeCells_cursor (s : State) (cs : List (Nat × Byte)) : (s.writeCells cs).cursor = s.cursor := rfl
@[simp] theorem State.writeCells_comp (s : State) (cs : List (Nat × Byte)) : (s.writeCells cs).comp = s.comp := rfl
@[simp] theorem State.writeCells_queue (s : State) (cs : List (Nat × Byte)) : (s.writeCells cs).queue = s.queue := rfl
@[simp] theorem State.writeCells_exe (s : State) (cs : List (Nat × Byte)) : (s.writeCells cs).exe = s.exe := rfl
@[simp] theorem State.writeCells_held (s : State) (cs : List (Nat × Byte)) : (s.writeCells cs).held = s.held := rfl
@[simp] theorem State.writeCells_rows (s : State) (cs : List (Nat × Byte)) : (s.writeCells cs).rows = s.rows := rfl
@[simp] theorem State.writeCells_seq (s : State) (cs : List (Nat × Byte)) : (s.writeCells cs).seq = s.seq := rfl
@[simp] theorem State.writeCells_env (s : State) (cs : List (Nat × Byte)) : (s.writeCells cs).env = s.env := rfl

@[simp] theorem State.plotAll_cfg (s : State) (ps : List Point) (c : Colour) : (s.plotAll ps c).cfg = s.cfg := rfl
@[simp] theorem State.plotAll_mem (s : State) (ps : List Point) (c : Colour) : (s.plotAll ps c).mem = memStoreAll s.mem (s.plotCells ps c) := rfl
@[simp] theorem State.plotAll_sys (s : State) (ps : List Point) (c : Colour) : (s.plotAll ps c).sys = s.sys := rfl
@[simp] theorem State.plotAll_staged (s : State) (ps : List Point) (c : Colour) : (s.plotAll ps c).staged = s.staged := rfl
@[simp] theorem State.plotAll_pools (s : State) (ps : List Point) (c : Colour) : (s.plotAll ps c).pools = s.pools := rfl
@[simp] theorem State.plotAll_active (s : State) (ps : List Point) (c : Colour) : (s.plotAll ps c).active = s.active := rfl
@[simp] theorem State.plotAll_alloc (s : State) (ps : List Point) (c : Colour) : (s.plotAll ps c).alloc = s.alloc := rfl
@[simp] theorem State.plotAll_geom (s : State) (ps : List Point) (c : Colour) : (s.plotAll ps c).geom = s.geom := rfl
@[simp] theorem State.plotAll_paint (s : State) (ps : List Point) (c : Colour) : (s.plotAll ps c).paint = s.paint := rfl
@[simp] theorem State.plotAll_sprStaged (s : State) (ps : List Point) (c : Colour) : (s.plotAll ps c).sprStaged = s.sprStaged := rfl
@[simp] theorem State.plotAll_sprActive (s : State) (ps : List Point) (c : Colour) : (s.plotAll ps c).sprActive = s.sprActive := rfl
@[simp] theorem State.plotAll_cursor (s : State) (ps : List Point) (c : Colour) : (s.plotAll ps c).cursor = s.cursor := rfl
@[simp] theorem State.plotAll_comp (s : State) (ps : List Point) (c : Colour) : (s.plotAll ps c).comp = s.comp := rfl
@[simp] theorem State.plotAll_queue (s : State) (ps : List Point) (c : Colour) : (s.plotAll ps c).queue = s.queue := rfl
@[simp] theorem State.plotAll_exe (s : State) (ps : List Point) (c : Colour) : (s.plotAll ps c).exe = s.exe := rfl
@[simp] theorem State.plotAll_held (s : State) (ps : List Point) (c : Colour) : (s.plotAll ps c).held = s.held := rfl
@[simp] theorem State.plotAll_rows (s : State) (ps : List Point) (c : Colour) : (s.plotAll ps c).rows = s.rows := rfl
@[simp] theorem State.plotAll_seq (s : State) (ps : List Point) (c : Colour) : (s.plotAll ps c).seq = s.seq := rfl
@[simp] theorem State.plotAll_env (s : State) (ps : List Point) (c : Colour) : (s.plotAll ps c).env = s.env := rfl

@[simp] theorem State.setPaint_cfg (s : State) (p : Paint) : (s.setPaint p).cfg = s.cfg := rfl
@[simp] theorem State.setPaint_mem (s : State) (p : Paint) : (s.setPaint p).mem = s.mem := rfl
@[simp] theorem State.setPaint_sys (s : State) (p : Paint) : (s.setPaint p).sys = s.sys := rfl
@[simp] theorem State.setPaint_staged (s : State) (p : Paint) : (s.setPaint p).staged = s.staged := rfl
@[simp] theorem State.setPaint_pools (s : State) (p : Paint) : (s.setPaint p).pools = s.pools := rfl
@[simp] theorem State.setPaint_active (s : State) (p : Paint) : (s.setPaint p).active = s.active := rfl
@[simp] theorem State.setPaint_alloc (s : State) (p : Paint) : (s.setPaint p).alloc = s.alloc := rfl
@[simp] theorem State.setPaint_geom (s : State) (p : Paint) : (s.setPaint p).geom = s.geom := rfl
@[simp] theorem State.setPaint_paint (s : State) (p : Paint) : (s.setPaint p).paint = p := rfl
@[simp] theorem State.setPaint_sprStaged (s : State) (p : Paint) : (s.setPaint p).sprStaged = s.sprStaged := rfl
@[simp] theorem State.setPaint_sprActive (s : State) (p : Paint) : (s.setPaint p).sprActive = s.sprActive := rfl
@[simp] theorem State.setPaint_cursor (s : State) (p : Paint) : (s.setPaint p).cursor = s.cursor := rfl
@[simp] theorem State.setPaint_comp (s : State) (p : Paint) : (s.setPaint p).comp = s.comp := rfl
@[simp] theorem State.setPaint_queue (s : State) (p : Paint) : (s.setPaint p).queue = s.queue := rfl
@[simp] theorem State.setPaint_exe (s : State) (p : Paint) : (s.setPaint p).exe = s.exe := rfl
@[simp] theorem State.setPaint_held (s : State) (p : Paint) : (s.setPaint p).held = s.held := rfl
@[simp] theorem State.setPaint_rows (s : State) (p : Paint) : (s.setPaint p).rows = s.rows := rfl
@[simp] theorem State.setPaint_seq (s : State) (p : Paint) : (s.setPaint p).seq = s.seq := rfl
@[simp] theorem State.setPaint_env (s : State) (p : Paint) : (s.setPaint p).env = s.env := rfl

@[simp] theorem State.pushWork_cfg (s : State) (ms : List Micro) : (s.pushWork ms).cfg = s.cfg := rfl
@[simp] theorem State.pushWork_mem (s : State) (ms : List Micro) : (s.pushWork ms).mem = s.mem := rfl
@[simp] theorem State.pushWork_sys (s : State) (ms : List Micro) : (s.pushWork ms).sys = s.sys := rfl
@[simp] theorem State.pushWork_staged (s : State) (ms : List Micro) : (s.pushWork ms).staged = s.staged := rfl
@[simp] theorem State.pushWork_pools (s : State) (ms : List Micro) : (s.pushWork ms).pools = s.pools := rfl
@[simp] theorem State.pushWork_active (s : State) (ms : List Micro) : (s.pushWork ms).active = s.active := rfl
@[simp] theorem State.pushWork_alloc (s : State) (ms : List Micro) : (s.pushWork ms).alloc = s.alloc := rfl
@[simp] theorem State.pushWork_geom (s : State) (ms : List Micro) : (s.pushWork ms).geom = s.geom := rfl
@[simp] theorem State.pushWork_paint (s : State) (ms : List Micro) : (s.pushWork ms).paint = s.paint := rfl
@[simp] theorem State.pushWork_sprStaged (s : State) (ms : List Micro) : (s.pushWork ms).sprStaged = s.sprStaged := rfl
@[simp] theorem State.pushWork_sprActive (s : State) (ms : List Micro) : (s.pushWork ms).sprActive = s.sprActive := rfl
@[simp] theorem State.pushWork_cursor (s : State) (ms : List Micro) : (s.pushWork ms).cursor = s.cursor := rfl
@[simp] theorem State.pushWork_comp (s : State) (ms : List Micro) : (s.pushWork ms).comp = s.comp := rfl
@[simp] theorem State.pushWork_queue (s : State) (ms : List Micro) : (s.pushWork ms).queue = s.queue := rfl
@[simp] theorem State.pushWork_exe (s : State) (ms : List Micro) : (s.pushWork ms).exe = { s.exe with work := ms ++ s.exe.work } := rfl
@[simp] theorem State.pushWork_held (s : State) (ms : List Micro) : (s.pushWork ms).held = s.held := rfl
@[simp] theorem State.pushWork_rows (s : State) (ms : List Micro) : (s.pushWork ms).rows = s.rows := rfl
@[simp] theorem State.pushWork_seq (s : State) (ms : List Micro) : (s.pushWork ms).seq = s.seq := rfl
@[simp] theorem State.pushWork_env (s : State) (ms : List Micro) : (s.pushWork ms).env = s.env := rfl

@[simp] theorem State.requestRefresh_cfg (s : State) : (s.requestRefresh).cfg = s.cfg := rfl
@[simp] theorem State.requestRefresh_mem (s : State) : (s.requestRefresh).mem = s.mem := rfl
@[simp] theorem State.requestRefresh_sys (s : State) : (s.requestRefresh).sys = s.sys := rfl
@[simp] theorem State.requestRefresh_staged (s : State) : (s.requestRefresh).staged = s.staged := rfl
@[simp] theorem State.requestRefresh_pools (s : State) : (s.requestRefresh).pools = s.pools := rfl
@[simp] theorem State.requestRefresh_active (s : State) : (s.requestRefresh).active = s.active := rfl
@[simp] theorem State.requestRefresh_alloc (s : State) : (s.requestRefresh).alloc = s.alloc := rfl
@[simp] theorem State.requestRefresh_geom (s : State) : (s.requestRefresh).geom = s.geom := rfl
@[simp] theorem State.requestRefresh_paint (s : State) : (s.requestRefresh).paint = s.paint := rfl
@[simp] theorem State.requestRefresh_sprStaged (s : State) : (s.requestRefresh).sprStaged = s.sprStaged := rfl
@[simp] theorem State.requestRefresh_sprActive (s : State) : (s.requestRefresh).sprActive = s.sprActive := rfl
@[simp] theorem State.requestRefresh_cursor (s : State) : (s.requestRefresh).cursor = s.cursor := rfl
@[simp] theorem State.requestRefresh_comp (s : State) : (s.requestRefresh).comp = { s.comp with refreshPending := true } := rfl
@[simp] theorem State.requestRefresh_queue (s : State) : (s.requestRefresh).queue = s.queue := rfl
@[simp] theorem State.requestRefresh_exe (s : State) : (s.requestRefresh).exe = s.exe := rfl
@[simp] theorem State.requestRefresh_held (s : State) : (s.requestRefresh).held = s.held := rfl
@[simp] theorem State.requestRefresh_rows (s : State) : (s.requestRefresh).rows = s.rows := rfl
@[simp] theorem State.requestRefresh_seq (s : State) : (s.requestRefresh).seq = s.seq := rfl
@[simp] theorem State.requestRefresh_env (s : State) : (s.requestRefresh).env = s.env := rfl

@[simp] theorem State.raise_cfg (s : State) (x : ErrCtx) (op : Byte) (code : ErrCode) (fa : Word) : (s.raise x op code fa).cfg = s.cfg := rfl
@[simp] theorem State.raise_mem (s : State) (x : ErrCtx) (op : Byte) (code : ErrCode) (fa : Word) : (s.raise x op code fa).mem = s.mem := rfl
@[simp] theorem State.raise_staged (s : State) (x : ErrCtx) (op : Byte) (code : ErrCode) (fa : Word) : (s.raise x op code fa).staged = s.staged := rfl
@[simp] theorem State.raise_pools (s : State) (x : ErrCtx) (op : Byte) (code : ErrCode) (fa : Word) : (s.raise x op code fa).pools = s.pools := rfl
@[simp] theorem State.raise_active (s : State) (x : ErrCtx) (op : Byte) (code : ErrCode) (fa : Word) : (s.raise x op code fa).active = s.active := rfl
@[simp] theorem State.raise_alloc (s : State) (x : ErrCtx) (op : Byte) (code : ErrCode) (fa : Word) : (s.raise x op code fa).alloc = s.alloc := rfl
@[simp] theorem State.raise_geom (s : State) (x : ErrCtx) (op : Byte) (code : ErrCode) (fa : Word) : (s.raise x op code fa).geom = s.geom := rfl
@[simp] theorem State.raise_paint (s : State) (x : ErrCtx) (op : Byte) (code : ErrCode) (fa : Word) : (s.raise x op code fa).paint = s.paint := rfl
@[simp] theorem State.raise_sprStaged (s : State) (x : ErrCtx) (op : Byte) (code : ErrCode) (fa : Word) : (s.raise x op code fa).sprStaged = s.sprStaged := rfl
@[simp] theorem State.raise_sprActive (s : State) (x : ErrCtx) (op : Byte) (code : ErrCode) (fa : Word) : (s.raise x op code fa).sprActive = s.sprActive := rfl
@[simp] theorem State.raise_cursor (s : State) (x : ErrCtx) (op : Byte) (code : ErrCode) (fa : Word) : (s.raise x op code fa).cursor = s.cursor := rfl
@[simp] theorem State.raise_comp (s : State) (x : ErrCtx) (op : Byte) (code : ErrCode) (fa : Word) : (s.raise x op code fa).comp = s.comp := rfl
@[simp] theorem State.raise_queue (s : State) (x : ErrCtx) (op : Byte) (code : ErrCode) (fa : Word) : (s.raise x op code fa).queue = s.queue := rfl
@[simp] theorem State.raise_exe (s : State) (x : ErrCtx) (op : Byte) (code : ErrCode) (fa : Word) : (s.raise x op code fa).exe = s.exe := rfl
@[simp] theorem State.raise_held (s : State) (x : ErrCtx) (op : Byte) (code : ErrCode) (fa : Word) : (s.raise x op code fa).held = s.held := rfl
@[simp] theorem State.raise_rows (s : State) (x : ErrCtx) (op : Byte) (code : ErrCode) (fa : Word) : (s.raise x op code fa).rows = s.rows := rfl
@[simp] theorem State.raise_seq (s : State) (x : ErrCtx) (op : Byte) (code : ErrCode) (fa : Word) : (s.raise x op code fa).seq = s.seq := rfl
@[simp] theorem State.raise_env (s : State) (x : ErrCtx) (op : Byte) (code : ErrCode) (fa : Word) : (s.raise x op code fa).env = s.env := rfl

@[simp] theorem State.raiseCmd_cfg (s : State) (op : Byte) (code : ErrCode) (fa : Nat) : (s.raiseCmd op code fa).cfg = s.cfg := rfl
@[simp] theorem State.raiseCmd_mem (s : State) (op : Byte) (code : ErrCode) (fa : Nat) : (s.raiseCmd op code fa).mem = s.mem := rfl
@[simp] theorem State.raiseCmd_sys (s : State) (op : Byte) (code : ErrCode) (fa : Nat) : (s.raiseCmd op code fa).sys = (s.raise s.exe.ctx op code (BitVec.ofNat 32 fa)).sys := rfl
@[simp] theorem State.raiseCmd_staged (s : State) (op : Byte) (code : ErrCode) (fa : Nat) : (s.raiseCmd op code fa).staged = s.staged := rfl
@[simp] theorem State.raiseCmd_pools (s : State) (op : Byte) (code : ErrCode) (fa : Nat) : (s.raiseCmd op code fa).pools = s.pools := rfl
@[simp] theorem State.raiseCmd_active (s : State) (op : Byte) (code : ErrCode) (fa : Nat) : (s.raiseCmd op code fa).active = s.active := rfl
@[simp] theorem State.raiseCmd_alloc (s : State) (op : Byte) (code : ErrCode) (fa : Nat) : (s.raiseCmd op code fa).alloc = s.alloc := rfl
@[simp] theorem State.raiseCmd_geom (s : State) (op : Byte) (code : ErrCode) (fa : Nat) : (s.raiseCmd op code fa).geom = s.geom := rfl
@[simp] theorem State.raiseCmd_paint (s : State) (op : Byte) (code : ErrCode) (fa : Nat) : (s.raiseCmd op code fa).paint = s.paint := rfl
@[simp] theorem State.raiseCmd_sprStaged (s : State) (op : Byte) (code : ErrCode) (fa : Nat) : (s.raiseCmd op code fa).sprStaged = s.sprStaged := rfl
@[simp] theorem State.raiseCmd_sprActive (s : State) (op : Byte) (code : ErrCode) (fa : Nat) : (s.raiseCmd op code fa).sprActive = s.sprActive := rfl
@[simp] theorem State.raiseCmd_cursor (s : State) (op : Byte) (code : ErrCode) (fa : Nat) : (s.raiseCmd op code fa).cursor = s.cursor := rfl
@[simp] theorem State.raiseCmd_comp (s : State) (op : Byte) (code : ErrCode) (fa : Nat) : (s.raiseCmd op code fa).comp = s.comp := rfl
@[simp] theorem State.raiseCmd_queue (s : State) (op : Byte) (code : ErrCode) (fa : Nat) : (s.raiseCmd op code fa).queue = s.queue := rfl
@[simp] theorem State.raiseCmd_exe (s : State) (op : Byte) (code : ErrCode) (fa : Nat) : (s.raiseCmd op code fa).exe = { s.exe with ok := false } := rfl
@[simp] theorem State.raiseCmd_held (s : State) (op : Byte) (code : ErrCode) (fa : Nat) : (s.raiseCmd op code fa).held = s.held := rfl
@[simp] theorem State.raiseCmd_rows (s : State) (op : Byte) (code : ErrCode) (fa : Nat) : (s.raiseCmd op code fa).rows = s.rows := rfl
@[simp] theorem State.raiseCmd_seq (s : State) (op : Byte) (code : ErrCode) (fa : Nat) : (s.raiseCmd op code fa).seq = s.seq := rfl
@[simp] theorem State.raiseCmd_env (s : State) (op : Byte) (code : ErrCode) (fa : Nat) : (s.raiseCmd op code fa).env = s.env := rfl

@[simp] theorem State.raisePass_cfg (s : State) (fa : Nat) : (s.raisePass fa).cfg = s.cfg := rfl
@[simp] theorem State.raisePass_mem (s : State) (fa : Nat) : (s.raisePass fa).mem = s.mem := rfl
@[simp] theorem State.raisePass_sys (s : State) (fa : Nat) : (s.raisePass fa).sys = (s.raise s.exe.ctx 0x00#8 .busExe (BitVec.ofNat 32 fa)).sys := rfl
@[simp] theorem State.raisePass_staged (s : State) (fa : Nat) : (s.raisePass fa).staged = s.staged := rfl
@[simp] theorem State.raisePass_pools (s : State) (fa : Nat) : (s.raisePass fa).pools = s.pools := rfl
@[simp] theorem State.raisePass_active (s : State) (fa : Nat) : (s.raisePass fa).active = s.active := rfl
@[simp] theorem State.raisePass_alloc (s : State) (fa : Nat) : (s.raisePass fa).alloc = s.alloc := rfl
@[simp] theorem State.raisePass_geom (s : State) (fa : Nat) : (s.raisePass fa).geom = s.geom := rfl
@[simp] theorem State.raisePass_paint (s : State) (fa : Nat) : (s.raisePass fa).paint = s.paint := rfl
@[simp] theorem State.raisePass_sprStaged (s : State) (fa : Nat) : (s.raisePass fa).sprStaged = s.sprStaged := rfl
@[simp] theorem State.raisePass_sprActive (s : State) (fa : Nat) : (s.raisePass fa).sprActive = s.sprActive := rfl
@[simp] theorem State.raisePass_cursor (s : State) (fa : Nat) : (s.raisePass fa).cursor = s.cursor := rfl
@[simp] theorem State.raisePass_comp (s : State) (fa : Nat) : (s.raisePass fa).comp = s.comp := rfl
@[simp] theorem State.raisePass_queue (s : State) (fa : Nat) : (s.raisePass fa).queue = s.queue := rfl
@[simp] theorem State.raisePass_exe (s : State) (fa : Nat) : (s.raisePass fa).exe = s.exe := rfl
@[simp] theorem State.raisePass_held (s : State) (fa : Nat) : (s.raisePass fa).held = s.held := rfl
@[simp] theorem State.raisePass_rows (s : State) (fa : Nat) : (s.raisePass fa).rows = s.rows := rfl
@[simp] theorem State.raisePass_seq (s : State) (fa : Nat) : (s.raisePass fa).seq = s.seq := rfl
@[simp] theorem State.raisePass_env (s : State) (fa : Nat) : (s.raisePass fa).env = s.env := rfl

@[simp] theorem State.setIrq_cfg (s : State) (b : BitVec 4) : (s.setIrq b).cfg = s.cfg := rfl
@[simp] theorem State.setIrq_mem (s : State) (b : BitVec 4) : (s.setIrq b).mem = s.mem := rfl
@[simp] theorem State.setIrq_sys (s : State) (b : BitVec 4) : (s.setIrq b).sys = { s.sys with irqStatus := s.sys.irqStatus ||| b } := rfl
@[simp] theorem State.setIrq_staged (s : State) (b : BitVec 4) : (s.setIrq b).staged = s.staged := rfl
@[simp] theorem State.setIrq_pools (s : State) (b : BitVec 4) : (s.setIrq b).pools = s.pools := rfl
@[simp] theorem State.setIrq_active (s : State) (b : BitVec 4) : (s.setIrq b).active = s.active := rfl
@[simp] theorem State.setIrq_alloc (s : State) (b : BitVec 4) : (s.setIrq b).alloc = s.alloc := rfl
@[simp] theorem State.setIrq_geom (s : State) (b : BitVec 4) : (s.setIrq b).geom = s.geom := rfl
@[simp] theorem State.setIrq_paint (s : State) (b : BitVec 4) : (s.setIrq b).paint = s.paint := rfl
@[simp] theorem State.setIrq_sprStaged (s : State) (b : BitVec 4) : (s.setIrq b).sprStaged = s.sprStaged := rfl
@[simp] theorem State.setIrq_sprActive (s : State) (b : BitVec 4) : (s.setIrq b).sprActive = s.sprActive := rfl
@[simp] theorem State.setIrq_cursor (s : State) (b : BitVec 4) : (s.setIrq b).cursor = s.cursor := rfl
@[simp] theorem State.setIrq_comp (s : State) (b : BitVec 4) : (s.setIrq b).comp = s.comp := rfl
@[simp] theorem State.setIrq_queue (s : State) (b : BitVec 4) : (s.setIrq b).queue = s.queue := rfl
@[simp] theorem State.setIrq_exe (s : State) (b : BitVec 4) : (s.setIrq b).exe = s.exe := rfl
@[simp] theorem State.setIrq_held (s : State) (b : BitVec 4) : (s.setIrq b).held = s.held := rfl
@[simp] theorem State.setIrq_rows (s : State) (b : BitVec 4) : (s.setIrq b).rows = s.rows := rfl
@[simp] theorem State.setIrq_seq (s : State) (b : BitVec 4) : (s.setIrq b).seq = s.seq := rfl
@[simp] theorem State.setIrq_env (s : State) (b : BitVec 4) : (s.setIrq b).env = s.env := rfl

@[simp] theorem State.clearIrq_cfg (s : State) (v : Word) : (s.clearIrq v).cfg = s.cfg := rfl
@[simp] theorem State.clearIrq_mem (s : State) (v : Word) : (s.clearIrq v).mem = s.mem := rfl
@[simp] theorem State.clearIrq_sys (s : State) (v : Word) : (s.clearIrq v).sys = { s.sys with irqStatus := s.sys.irqStatus &&& ~~~(v.setWidth 4) } := rfl
@[simp] theorem State.clearIrq_staged (s : State) (v : Word) : (s.clearIrq v).staged = s.staged := rfl
@[simp] theorem State.clearIrq_pools (s : State) (v : Word) : (s.clearIrq v).pools = s.pools := rfl
@[simp] theorem State.clearIrq_active (s : State) (v : Word) : (s.clearIrq v).active = s.active := rfl
@[simp] theorem State.clearIrq_alloc (s : State) (v : Word) : (s.clearIrq v).alloc = s.alloc := rfl
@[simp] theorem State.clearIrq_geom (s : State) (v : Word) : (s.clearIrq v).geom = s.geom := rfl
@[simp] theorem State.clearIrq_paint (s : State) (v : Word) : (s.clearIrq v).paint = s.paint := rfl
@[simp] theorem State.clearIrq_sprStaged (s : State) (v : Word) : (s.clearIrq v).sprStaged = s.sprStaged := rfl
@[simp] theorem State.clearIrq_sprActive (s : State) (v : Word) : (s.clearIrq v).sprActive = s.sprActive := rfl
@[simp] theorem State.clearIrq_cursor (s : State) (v : Word) : (s.clearIrq v).cursor = s.cursor := rfl
@[simp] theorem State.clearIrq_comp (s : State) (v : Word) : (s.clearIrq v).comp = s.comp := rfl
@[simp] theorem State.clearIrq_queue (s : State) (v : Word) : (s.clearIrq v).queue = s.queue := rfl
@[simp] theorem State.clearIrq_exe (s : State) (v : Word) : (s.clearIrq v).exe = s.exe := rfl
@[simp] theorem State.clearIrq_held (s : State) (v : Word) : (s.clearIrq v).held = s.held := rfl
@[simp] theorem State.clearIrq_rows (s : State) (v : Word) : (s.clearIrq v).rows = s.rows := rfl
@[simp] theorem State.clearIrq_seq (s : State) (v : Word) : (s.clearIrq v).seq = s.seq := rfl
@[simp] theorem State.clearIrq_env (s : State) (v : Word) : (s.clearIrq v).env = s.env := rfl

@[simp] theorem State.setSuspend_cfg (s : State) (v : BitVec 8) : (s.setSuspend v).cfg = s.cfg := rfl
@[simp] theorem State.setSuspend_mem (s : State) (v : BitVec 8) : (s.setSuspend v).mem = s.mem := rfl
@[simp] theorem State.setSuspend_sys (s : State) (v : BitVec 8) : (s.setSuspend v).sys = s.sys := rfl
@[simp] theorem State.setSuspend_staged (s : State) (v : BitVec 8) : (s.setSuspend v).staged = s.staged := rfl
@[simp] theorem State.setSuspend_pools (s : State) (v : BitVec 8) : (s.setSuspend v).pools = s.pools := rfl
@[simp] theorem State.setSuspend_active (s : State) (v : BitVec 8) : (s.setSuspend v).active = s.active := rfl
@[simp] theorem State.setSuspend_alloc (s : State) (v : BitVec 8) : (s.setSuspend v).alloc = s.alloc := rfl
@[simp] theorem State.setSuspend_geom (s : State) (v : BitVec 8) : (s.setSuspend v).geom = s.geom := rfl
@[simp] theorem State.setSuspend_paint (s : State) (v : BitVec 8) : (s.setSuspend v).paint = s.paint := rfl
@[simp] theorem State.setSuspend_sprStaged (s : State) (v : BitVec 8) : (s.setSuspend v).sprStaged = s.sprStaged := rfl
@[simp] theorem State.setSuspend_sprActive (s : State) (v : BitVec 8) : (s.setSuspend v).sprActive = s.sprActive := rfl
@[simp] theorem State.setSuspend_cursor (s : State) (v : BitVec 8) : (s.setSuspend v).cursor = s.cursor := rfl
@[simp] theorem State.setSuspend_comp (s : State) (v : BitVec 8) : (s.setSuspend v).comp = s.comp := rfl
@[simp] theorem State.setSuspend_queue (s : State) (v : BitVec 8) : (s.setSuspend v).queue = { s.queue with suspend := v } := rfl
@[simp] theorem State.setSuspend_exe (s : State) (v : BitVec 8) : (s.setSuspend v).exe = s.exe := rfl
@[simp] theorem State.setSuspend_held (s : State) (v : BitVec 8) : (s.setSuspend v).held = s.held := rfl
@[simp] theorem State.setSuspend_rows (s : State) (v : BitVec 8) : (s.setSuspend v).rows = s.rows := rfl
@[simp] theorem State.setSuspend_seq (s : State) (v : BitVec 8) : (s.setSuspend v).seq = s.seq := rfl
@[simp] theorem State.setSuspend_env (s : State) (v : BitVec 8) : (s.setSuspend v).env = s.env := rfl

@[simp] theorem State.build_cfg (s : State) : (s.build).cfg = s.cfg := rfl
@[simp] theorem State.build_mem (s : State) : (s.build).mem = memStoreBlock s.mem s.alloc.chainBase.toNat s.chainBytes := rfl
@[simp] theorem State.build_sys (s : State) : (s.build).sys = s.sys := rfl
@[simp] theorem State.build_staged (s : State) : (s.build).staged = s.staged := rfl
@[simp] theorem State.build_pools (s : State) : (s.build).pools = s.pools := rfl
@[simp] theorem State.build_active (s : State) : (s.build).active = s.active := rfl
@[simp] theorem State.build_alloc (s : State) : (s.build).alloc = s.alloc := rfl
@[simp] theorem State.build_geom (s : State) : (s.build).geom = s.geom := rfl
@[simp] theorem State.build_paint (s : State) : (s.build).paint = s.paint := rfl
@[simp] theorem State.build_sprStaged (s : State) : (s.build).sprStaged = s.sprStaged := rfl
@[simp] theorem State.build_sprActive (s : State) : (s.build).sprActive = s.sprActive := rfl
@[simp] theorem State.build_cursor (s : State) : (s.build).cursor = s.cursor := rfl
@[simp] theorem State.build_comp (s : State) : (s.build).comp = s.comp := rfl
@[simp] theorem State.build_queue (s : State) : (s.build).queue = s.queue := rfl
@[simp] theorem State.build_exe (s : State) : (s.build).exe = s.exe := rfl
@[simp] theorem State.build_held (s : State) : (s.build).held = s.held := rfl
@[simp] theorem State.build_rows (s : State) : (s.build).rows = s.rows := rfl
@[simp] theorem State.build_seq (s : State) : (s.build).seq = s.seq := rfl
@[simp] theorem State.build_env (s : State) : (s.build).env = s.env := rfl

@[simp] theorem State.retarget_cfg (s : State) (t : Bool) : (s.retarget t).cfg = s.cfg := rfl
@[simp] theorem State.retarget_sys (s : State) (t : Bool) : (s.retarget t).sys = s.sys := rfl
@[simp] theorem State.retarget_staged (s : State) (t : Bool) : (s.retarget t).staged = s.staged := rfl
@[simp] theorem State.retarget_pools (s : State) (t : Bool) : (s.retarget t).pools = s.pools := rfl
@[simp] theorem State.retarget_active (s : State) (t : Bool) : (s.retarget t).active = s.active := rfl
@[simp] theorem State.retarget_alloc (s : State) (t : Bool) : (s.retarget t).alloc = s.alloc := rfl
@[simp] theorem State.retarget_geom (s : State) (t : Bool) : (s.retarget t).geom = s.geom := rfl
@[simp] theorem State.retarget_paint (s : State) (t : Bool) : (s.retarget t).paint = s.paint := rfl
@[simp] theorem State.retarget_sprStaged (s : State) (t : Bool) : (s.retarget t).sprStaged = s.sprStaged := rfl
@[simp] theorem State.retarget_sprActive (s : State) (t : Bool) : (s.retarget t).sprActive = s.sprActive := rfl
@[simp] theorem State.retarget_cursor (s : State) (t : Bool) : (s.retarget t).cursor = s.cursor := rfl
@[simp] theorem State.retarget_comp (s : State) (t : Bool) : (s.retarget t).comp = s.comp := rfl
@[simp] theorem State.retarget_queue (s : State) (t : Bool) : (s.retarget t).queue = s.queue := rfl
@[simp] theorem State.retarget_exe (s : State) (t : Bool) : (s.retarget t).exe = s.exe := rfl
@[simp] theorem State.retarget_held (s : State) (t : Bool) : (s.retarget t).held = s.held := rfl
@[simp] theorem State.retarget_rows (s : State) (t : Bool) : (s.retarget t).rows = s.rows := rfl
@[simp] theorem State.retarget_seq (s : State) (t : Bool) : (s.retarget t).seq = s.seq := rfl
@[simp] theorem State.retarget_env (s : State) (t : Bool) : (s.retarget t).env = s.env := rfl

@[simp] theorem State.setRecordPriv_cfg (s : State) (k : Nat) (v : Byte) : (s.setRecordPriv k v).cfg = s.cfg := rfl
@[simp] theorem State.setRecordPriv_mem (s : State) (k : Nat) (v : Byte) : (s.setRecordPriv k v).mem = memStore s.mem (s.recordAddr k + 17) v := rfl
@[simp] theorem State.setRecordPriv_sys (s : State) (k : Nat) (v : Byte) : (s.setRecordPriv k v).sys = s.sys := rfl
@[simp] theorem State.setRecordPriv_staged (s : State) (k : Nat) (v : Byte) : (s.setRecordPriv k v).staged = s.staged := rfl
@[simp] theorem State.setRecordPriv_pools (s : State) (k : Nat) (v : Byte) : (s.setRecordPriv k v).pools = s.pools := rfl
@[simp] theorem State.setRecordPriv_active (s : State) (k : Nat) (v : Byte) : (s.setRecordPriv k v).active = s.active := rfl
@[simp] theorem State.setRecordPriv_alloc (s : State) (k : Nat) (v : Byte) : (s.setRecordPriv k v).alloc = s.alloc := rfl
@[simp] theorem State.setRecordPriv_geom (s : State) (k : Nat) (v : Byte) : (s.setRecordPriv k v).geom = s.geom := rfl
@[simp] theorem State.setRecordPriv_paint (s : State) (k : Nat) (v : Byte) : (s.setRecordPriv k v).paint = s.paint := rfl
@[simp] theorem State.setRecordPriv_sprStaged (s : State) (k : Nat) (v : Byte) : (s.setRecordPriv k v).sprStaged = s.sprStaged := rfl
@[simp] theorem State.setRecordPriv_sprActive (s : State) (k : Nat) (v : Byte) : (s.setRecordPriv k v).sprActive = s.sprActive := rfl
@[simp] theorem State.setRecordPriv_cursor (s : State) (k : Nat) (v : Byte) : (s.setRecordPriv k v).cursor = s.cursor := rfl
@[simp] theorem State.setRecordPriv_comp (s : State) (k : Nat) (v : Byte) : (s.setRecordPriv k v).comp = s.comp := rfl
@[simp] theorem State.setRecordPriv_queue (s : State) (k : Nat) (v : Byte) : (s.setRecordPriv k v).queue = s.queue := rfl
@[simp] theorem State.setRecordPriv_exe (s : State) (k : Nat) (v : Byte) : (s.setRecordPriv k v).exe = s.exe := rfl
@[simp] theorem State.setRecordPriv_held (s : State) (k : Nat) (v : Byte) : (s.setRecordPriv k v).held = s.held := rfl
@[simp] theorem State.setRecordPriv_rows (s : State) (k : Nat) (v : Byte) : (s.setRecordPriv k v).rows = s.rows := rfl
@[simp] theorem State.setRecordPriv_seq (s : State) (k : Nat) (v : Byte) : (s.setRecordPriv k v).seq = s.seq := rfl
@[simp] theorem State.setRecordPriv_env (s : State) (k : Nat) (v : Byte) : (s.setRecordPriv k v).env = s.env := rfl

@[simp] theorem State.composite_cfg (s : State) (x y : Int) (b : Bitmap) (sb : Nat) : (s.composite x y b sb).cfg = s.cfg := rfl
@[simp] theorem State.composite_sys (s : State) (x y : Int) (b : Bitmap) (sb : Nat) : (s.composite x y b sb).sys = s.sys := rfl
@[simp] theorem State.composite_staged (s : State) (x y : Int) (b : Bitmap) (sb : Nat) : (s.composite x y b sb).staged = s.staged := rfl
@[simp] theorem State.composite_pools (s : State) (x y : Int) (b : Bitmap) (sb : Nat) : (s.composite x y b sb).pools = s.pools := rfl
@[simp] theorem State.composite_active (s : State) (x y : Int) (b : Bitmap) (sb : Nat) : (s.composite x y b sb).active = s.active := rfl
@[simp] theorem State.composite_alloc (s : State) (x y : Int) (b : Bitmap) (sb : Nat) : (s.composite x y b sb).alloc = s.alloc := rfl
@[simp] theorem State.composite_geom (s : State) (x y : Int) (b : Bitmap) (sb : Nat) : (s.composite x y b sb).geom = s.geom := rfl
@[simp] theorem State.composite_paint (s : State) (x y : Int) (b : Bitmap) (sb : Nat) : (s.composite x y b sb).paint = s.paint := rfl
@[simp] theorem State.composite_sprStaged (s : State) (x y : Int) (b : Bitmap) (sb : Nat) : (s.composite x y b sb).sprStaged = s.sprStaged := rfl
@[simp] theorem State.composite_sprActive (s : State) (x y : Int) (b : Bitmap) (sb : Nat) : (s.composite x y b sb).sprActive = s.sprActive := rfl
@[simp] theorem State.composite_cursor (s : State) (x y : Int) (b : Bitmap) (sb : Nat) : (s.composite x y b sb).cursor = s.cursor := rfl
@[simp] theorem State.composite_comp (s : State) (x y : Int) (b : Bitmap) (sb : Nat) : (s.composite x y b sb).comp = s.comp := rfl
@[simp] theorem State.composite_queue (s : State) (x y : Int) (b : Bitmap) (sb : Nat) : (s.composite x y b sb).queue = s.queue := rfl
@[simp] theorem State.composite_exe (s : State) (x y : Int) (b : Bitmap) (sb : Nat) : (s.composite x y b sb).exe = s.exe := rfl
@[simp] theorem State.composite_held (s : State) (x y : Int) (b : Bitmap) (sb : Nat) : (s.composite x y b sb).held = s.held := rfl
@[simp] theorem State.composite_rows (s : State) (x y : Int) (b : Bitmap) (sb : Nat) : (s.composite x y b sb).rows = s.rows := rfl
@[simp] theorem State.composite_seq (s : State) (x y : Int) (b : Bitmap) (sb : Nat) : (s.composite x y b sb).seq = s.seq := rfl
@[simp] theorem State.composite_env (s : State) (x y : Int) (b : Bitmap) (sb : Nat) : (s.composite x y b sb).env = s.env := rfl

@[simp] theorem State.hideEnd_cfg (s : State) : (s.hideEnd).cfg = s.cfg := rfl
@[simp] theorem State.hideEnd_mem (s : State) : (s.hideEnd).mem = s.mem := rfl
@[simp] theorem State.hideEnd_sys (s : State) : (s.hideEnd).sys = s.sys := rfl
@[simp] theorem State.hideEnd_staged (s : State) : (s.hideEnd).staged = s.staged := rfl
@[simp] theorem State.hideEnd_pools (s : State) : (s.hideEnd).pools = s.pools := rfl
@[simp] theorem State.hideEnd_active (s : State) : (s.hideEnd).active = s.active := rfl
@[simp] theorem State.hideEnd_alloc (s : State) : (s.hideEnd).alloc = s.alloc := rfl
@[simp] theorem State.hideEnd_geom (s : State) : (s.hideEnd).geom = s.geom := rfl
@[simp] theorem State.hideEnd_paint (s : State) : (s.hideEnd).paint = s.paint := rfl
@[simp] theorem State.hideEnd_sprStaged (s : State) : (s.hideEnd).sprStaged = s.sprStaged := rfl
@[simp] theorem State.hideEnd_sprActive (s : State) : (s.hideEnd).sprActive = s.sprActive := rfl
@[simp] theorem State.hideEnd_cursor (s : State) : (s.hideEnd).cursor = s.cursor := rfl
@[simp] theorem State.hideEnd_comp (s : State) : (s.hideEnd).comp = { s.comp with shown := false, phase := .settled } := rfl
@[simp] theorem State.hideEnd_queue (s : State) : (s.hideEnd).queue = s.queue := rfl
@[simp] theorem State.hideEnd_exe (s : State) : (s.hideEnd).exe = s.exe := rfl
@[simp] theorem State.hideEnd_held (s : State) : (s.hideEnd).held = s.held := rfl
@[simp] theorem State.hideEnd_rows (s : State) : (s.hideEnd).rows = s.rows := rfl
@[simp] theorem State.hideEnd_seq (s : State) : (s.hideEnd).seq = s.seq := rfl
@[simp] theorem State.hideEnd_env (s : State) : (s.hideEnd).env = s.env := rfl

@[simp] theorem State.showStart_cfg (s : State) : (s.showStart).cfg = s.cfg := rfl
@[simp] theorem State.showStart_mem (s : State) : (s.showStart).mem = s.mem := rfl
@[simp] theorem State.showStart_sys (s : State) : (s.showStart).sys = s.sys := rfl
@[simp] theorem State.showStart_staged (s : State) : (s.showStart).staged = s.staged := rfl
@[simp] theorem State.showStart_pools (s : State) : (s.showStart).pools = s.pools := rfl
@[simp] theorem State.showStart_active (s : State) : (s.showStart).active = s.active := rfl
@[simp] theorem State.showStart_alloc (s : State) : (s.showStart).alloc = s.alloc := rfl
@[simp] theorem State.showStart_geom (s : State) : (s.showStart).geom = s.geom := rfl
@[simp] theorem State.showStart_paint (s : State) : (s.showStart).paint = s.paint := rfl
@[simp] theorem State.showStart_sprStaged (s : State) : (s.showStart).sprStaged = s.sprStaged := rfl
@[simp] theorem State.showStart_sprActive (s : State) : (s.showStart).sprActive = s.sprActive := rfl
@[simp] theorem State.showStart_cursor (s : State) : (s.showStart).cursor = s.cursor := rfl
@[simp] theorem State.showStart_comp (s : State) : (s.showStart).comp = { s.comp with refreshPending := false } := rfl
@[simp] theorem State.showStart_queue (s : State) : (s.showStart).queue = s.queue := rfl
@[simp] theorem State.showStart_exe (s : State) : (s.showStart).exe = s.exe := rfl
@[simp] theorem State.showStart_held (s : State) : (s.showStart).held = s.held := rfl
@[simp] theorem State.showStart_rows (s : State) : (s.showStart).rows = s.rows := rfl
@[simp] theorem State.showStart_seq (s : State) : (s.showStart).seq = s.seq := rfl
@[simp] theorem State.showStart_env (s : State) : (s.showStart).env = s.env := rfl

@[simp] theorem State.beginDrain_cfg (s : State) (x : ErrCtx) (l : Option Nat) : (s.beginDrain x l).cfg = s.cfg := rfl
@[simp] theorem State.beginDrain_mem (s : State) (x : ErrCtx) (l : Option Nat) : (s.beginDrain x l).mem = s.mem := rfl
@[simp] theorem State.beginDrain_sys (s : State) (x : ErrCtx) (l : Option Nat) : (s.beginDrain x l).sys = s.sys := rfl
@[simp] theorem State.beginDrain_staged (s : State) (x : ErrCtx) (l : Option Nat) : (s.beginDrain x l).staged = s.staged := rfl
@[simp] theorem State.beginDrain_pools (s : State) (x : ErrCtx) (l : Option Nat) : (s.beginDrain x l).pools = s.pools := rfl
@[simp] theorem State.beginDrain_active (s : State) (x : ErrCtx) (l : Option Nat) : (s.beginDrain x l).active = s.active := rfl
@[simp] theorem State.beginDrain_alloc (s : State) (x : ErrCtx) (l : Option Nat) : (s.beginDrain x l).alloc = s.alloc := rfl
@[simp] theorem State.beginDrain_geom (s : State) (x : ErrCtx) (l : Option Nat) : (s.beginDrain x l).geom = s.geom := rfl
@[simp] theorem State.beginDrain_paint (s : State) (x : ErrCtx) (l : Option Nat) : (s.beginDrain x l).paint = s.paint := rfl
@[simp] theorem State.beginDrain_sprStaged (s : State) (x : ErrCtx) (l : Option Nat) : (s.beginDrain x l).sprStaged = s.sprStaged := rfl
@[simp] theorem State.beginDrain_sprActive (s : State) (x : ErrCtx) (l : Option Nat) : (s.beginDrain x l).sprActive = s.sprActive := rfl
@[simp] theorem State.beginDrain_cursor (s : State) (x : ErrCtx) (l : Option Nat) : (s.beginDrain x l).cursor = s.cursor := rfl
@[simp] theorem State.beginDrain_comp (s : State) (x : ErrCtx) (l : Option Nat) : (s.beginDrain x l).comp = s.comp := rfl
@[simp] theorem State.beginDrain_queue (s : State) (x : ErrCtx) (l : Option Nat) : (s.beginDrain x l).queue = s.queue := rfl
@[simp] theorem State.beginDrain_held (s : State) (x : ErrCtx) (l : Option Nat) : (s.beginDrain x l).held = s.held := rfl
@[simp] theorem State.beginDrain_rows (s : State) (x : ErrCtx) (l : Option Nat) : (s.beginDrain x l).rows = s.rows := rfl
@[simp] theorem State.beginDrain_seq (s : State) (x : ErrCtx) (l : Option Nat) : (s.beginDrain x l).seq = s.seq := rfl
@[simp] theorem State.beginDrain_env (s : State) (x : ErrCtx) (l : Option Nat) : (s.beginDrain x l).env = s.env := rfl

@[simp] theorem State.commitRegs_cfg (s : State) (p : Plan) : (s.commitRegs p).cfg = s.cfg := rfl
@[simp] theorem State.commitRegs_mem (s : State) (p : Plan) : (s.commitRegs p).mem = s.mem := rfl
@[simp] theorem State.commitRegs_sys (s : State) (p : Plan) : (s.commitRegs p).sys = s.sys := rfl
@[simp] theorem State.commitRegs_staged (s : State) (p : Plan) : (s.commitRegs p).staged = s.staged := rfl
@[simp] theorem State.commitRegs_pools (s : State) (p : Plan) : (s.commitRegs p).pools = s.pools := rfl
@[simp] theorem State.commitRegs_active (s : State) (p : Plan) : (s.commitRegs p).active = { s.staged with vpSize := natPair p.vpw p.vph } := rfl
@[simp] theorem State.commitRegs_geom (s : State) (p : Plan) : (s.commitRegs p).geom = ⟨false, 0#32, 0#32⟩ := rfl
@[simp] theorem State.commitRegs_paint (s : State) (p : Plan) : (s.commitRegs p).paint = s.paint := rfl
@[simp] theorem State.commitRegs_sprStaged (s : State) (p : Plan) : (s.commitRegs p).sprStaged = s.sprStaged := rfl
@[simp] theorem State.commitRegs_sprActive (s : State) (p : Plan) : (s.commitRegs p).sprActive = s.sprActive := rfl
@[simp] theorem State.commitRegs_cursor (s : State) (p : Plan) : (s.commitRegs p).cursor = s.cursor := rfl
@[simp] theorem State.commitRegs_comp (s : State) (p : Plan) : (s.commitRegs p).comp = s.comp := rfl
@[simp] theorem State.commitRegs_queue (s : State) (p : Plan) : (s.commitRegs p).queue = s.queue := rfl
@[simp] theorem State.commitRegs_exe (s : State) (p : Plan) : (s.commitRegs p).exe = { s.exe with vsReq := false } := rfl
@[simp] theorem State.commitRegs_held (s : State) (p : Plan) : (s.commitRegs p).held = s.held := rfl
@[simp] theorem State.commitRegs_rows (s : State) (p : Plan) : (s.commitRegs p).rows = ⟨p.rt0.map natWord, p.rt1.map natWord, false⟩ := rfl
@[simp] theorem State.commitRegs_seq (s : State) (p : Plan) : (s.commitRegs p).seq = { s.seq with phase := .stop, pixOut := 0x00#8 } := rfl
@[simp] theorem State.commitRegs_env (s : State) (p : Plan) : (s.commitRegs p).env = s.env := rfl

@[simp] theorem State.startSeq_cfg (s : State) : (s.startSeq).cfg = s.cfg := rfl
@[simp] theorem State.startSeq_mem (s : State) : (s.startSeq).mem = s.mem := rfl
@[simp] theorem State.startSeq_sys (s : State) : (s.startSeq).sys = s.sys := rfl
@[simp] theorem State.startSeq_staged (s : State) : (s.startSeq).staged = s.staged := rfl
@[simp] theorem State.startSeq_pools (s : State) : (s.startSeq).pools = s.pools := rfl
@[simp] theorem State.startSeq_active (s : State) : (s.startSeq).active = s.active := rfl
@[simp] theorem State.startSeq_alloc (s : State) : (s.startSeq).alloc = { s.alloc with configured := true } := rfl
@[simp] theorem State.startSeq_geom (s : State) : (s.startSeq).geom = s.geom := rfl
@[simp] theorem State.startSeq_paint (s : State) : (s.startSeq).paint = s.paint := rfl
@[simp] theorem State.startSeq_sprStaged (s : State) : (s.startSeq).sprStaged = s.sprStaged := rfl
@[simp] theorem State.startSeq_sprActive (s : State) : (s.startSeq).sprActive = s.sprActive := rfl
@[simp] theorem State.startSeq_cursor (s : State) : (s.startSeq).cursor = s.cursor := rfl
@[simp] theorem State.startSeq_comp (s : State) : (s.startSeq).comp = s.comp := rfl
@[simp] theorem State.startSeq_queue (s : State) : (s.startSeq).queue = s.queue := rfl
@[simp] theorem State.startSeq_exe (s : State) : (s.startSeq).exe = s.exe := rfl
@[simp] theorem State.startSeq_held (s : State) : (s.startSeq).held = s.held := rfl
@[simp] theorem State.startSeq_rows (s : State) : (s.startSeq).rows = s.rows := rfl
@[simp] theorem State.startSeq_seq (s : State) : (s.startSeq).seq = { s.seq with dptr := s.alloc.chainBase, didx := 0, phase := .fetch } := rfl
@[simp] theorem State.startSeq_env (s : State) : (s.startSeq).env = s.env := rfl

@[simp] theorem State.geometryCommit_cfg (s : State) : (s.geometryCommit).cfg = s.cfg := rfl
@[simp] theorem State.geometryCommit_sys (s : State) : (s.geometryCommit).sys = s.sys := rfl
@[simp] theorem State.geometryCommit_staged (s : State) : (s.geometryCommit).staged = s.staged := rfl
@[simp] theorem State.geometryCommit_pools (s : State) : (s.geometryCommit).pools = s.pools := rfl
@[simp] theorem State.geometryCommit_geom (s : State) : (s.geometryCommit).geom = { s.geom with pending := false } := rfl
@[simp] theorem State.geometryCommit_paint (s : State) : (s.geometryCommit).paint = s.paint := rfl
@[simp] theorem State.geometryCommit_sprStaged (s : State) : (s.geometryCommit).sprStaged = s.sprStaged := rfl
@[simp] theorem State.geometryCommit_sprActive (s : State) : (s.geometryCommit).sprActive = s.sprActive := rfl
@[simp] theorem State.geometryCommit_cursor (s : State) : (s.geometryCommit).cursor = s.cursor := rfl
@[simp] theorem State.geometryCommit_comp (s : State) : (s.geometryCommit).comp = s.comp := rfl
@[simp] theorem State.geometryCommit_queue (s : State) : (s.geometryCommit).queue = s.queue := rfl
@[simp] theorem State.geometryCommit_exe (s : State) : (s.geometryCommit).exe = s.exe := rfl
@[simp] theorem State.geometryCommit_held (s : State) : (s.geometryCommit).held = s.held := rfl
@[simp] theorem State.geometryCommit_rows (s : State) : (s.geometryCommit).rows = s.rows := rfl
@[simp] theorem State.geometryCommit_seq (s : State) : (s.geometryCommit).seq = s.seq := rfl
@[simp] theorem State.geometryCommit_env (s : State) : (s.geometryCommit).env = s.env := rfl

@[simp] theorem State.setSeq_cfg (s : State) (q : Seq) : (s.setSeq q).cfg = s.cfg := rfl
@[simp] theorem State.setSeq_mem (s : State) (q : Seq) : (s.setSeq q).mem = s.mem := rfl
@[simp] theorem State.setSeq_sys (s : State) (q : Seq) : (s.setSeq q).sys = s.sys := rfl
@[simp] theorem State.setSeq_staged (s : State) (q : Seq) : (s.setSeq q).staged = s.staged := rfl
@[simp] theorem State.setSeq_pools (s : State) (q : Seq) : (s.setSeq q).pools = s.pools := rfl
@[simp] theorem State.setSeq_active (s : State) (q : Seq) : (s.setSeq q).active = s.active := rfl
@[simp] theorem State.setSeq_alloc (s : State) (q : Seq) : (s.setSeq q).alloc = s.alloc := rfl
@[simp] theorem State.setSeq_geom (s : State) (q : Seq) : (s.setSeq q).geom = s.geom := rfl
@[simp] theorem State.setSeq_paint (s : State) (q : Seq) : (s.setSeq q).paint = s.paint := rfl
@[simp] theorem State.setSeq_sprStaged (s : State) (q : Seq) : (s.setSeq q).sprStaged = s.sprStaged := rfl
@[simp] theorem State.setSeq_sprActive (s : State) (q : Seq) : (s.setSeq q).sprActive = s.sprActive := rfl
@[simp] theorem State.setSeq_cursor (s : State) (q : Seq) : (s.setSeq q).cursor = s.cursor := rfl
@[simp] theorem State.setSeq_comp (s : State) (q : Seq) : (s.setSeq q).comp = s.comp := rfl
@[simp] theorem State.setSeq_queue (s : State) (q : Seq) : (s.setSeq q).queue = s.queue := rfl
@[simp] theorem State.setSeq_exe (s : State) (q : Seq) : (s.setSeq q).exe = s.exe := rfl
@[simp] theorem State.setSeq_held (s : State) (q : Seq) : (s.setSeq q).held = s.held := rfl
@[simp] theorem State.setSeq_rows (s : State) (q : Seq) : (s.setSeq q).rows = s.rows := rfl
@[simp] theorem State.setSeq_seq (s : State) (q : Seq) : (s.setSeq q).seq = q := rfl
@[simp] theorem State.setSeq_env (s : State) (q : Seq) : (s.setSeq q).env = s.env := rfl

@[simp] theorem State.seqFault_cfg (s : State) (fa : Nat) : (s.seqFault fa).cfg = s.cfg := rfl
@[simp] theorem State.seqFault_mem (s : State) (fa : Nat) : (s.seqFault fa).mem = s.mem := rfl
@[simp] theorem State.seqFault_sys (s : State) (fa : Nat) : (s.seqFault fa).sys = (s.raise .seq 0x00#8 .busSeq (BitVec.ofNat 32 fa)).sys := rfl
@[simp] theorem State.seqFault_staged (s : State) (fa : Nat) : (s.seqFault fa).staged = s.staged := rfl
@[simp] theorem State.seqFault_pools (s : State) (fa : Nat) : (s.seqFault fa).pools = s.pools := rfl
@[simp] theorem State.seqFault_active (s : State) (fa : Nat) : (s.seqFault fa).active = s.active := rfl
@[simp] theorem State.seqFault_alloc (s : State) (fa : Nat) : (s.seqFault fa).alloc = s.alloc := rfl
@[simp] theorem State.seqFault_geom (s : State) (fa : Nat) : (s.seqFault fa).geom = s.geom := rfl
@[simp] theorem State.seqFault_paint (s : State) (fa : Nat) : (s.seqFault fa).paint = s.paint := rfl
@[simp] theorem State.seqFault_sprStaged (s : State) (fa : Nat) : (s.seqFault fa).sprStaged = s.sprStaged := rfl
@[simp] theorem State.seqFault_sprActive (s : State) (fa : Nat) : (s.seqFault fa).sprActive = s.sprActive := rfl
@[simp] theorem State.seqFault_cursor (s : State) (fa : Nat) : (s.seqFault fa).cursor = s.cursor := rfl
@[simp] theorem State.seqFault_comp (s : State) (fa : Nat) : (s.seqFault fa).comp = s.comp := rfl
@[simp] theorem State.seqFault_queue (s : State) (fa : Nat) : (s.seqFault fa).queue = s.queue := rfl
@[simp] theorem State.seqFault_exe (s : State) (fa : Nat) : (s.seqFault fa).exe = s.exe := rfl
@[simp] theorem State.seqFault_held (s : State) (fa : Nat) : (s.seqFault fa).held = s.held := rfl
@[simp] theorem State.seqFault_rows (s : State) (fa : Nat) : (s.seqFault fa).rows = s.rows := rfl
@[simp] theorem State.seqFault_seq (s : State) (fa : Nat) : (s.seqFault fa).seq = { s.seq with phase := .stop, pixOut := 0x00#8 } := rfl
@[simp] theorem State.seqFault_env (s : State) (fa : Nat) : (s.seqFault fa).env = s.env := rfl

@[simp] theorem State.splitAccess_cfg (s : State) (l : List Input) : (s.splitAccess l).cfg = s.cfg := rfl
@[simp] theorem State.splitAccess_mem (s : State) (l : List Input) : (s.splitAccess l).mem = s.mem := rfl
@[simp] theorem State.splitAccess_sys (s : State) (l : List Input) : (s.splitAccess l).sys = s.sys := rfl
@[simp] theorem State.splitAccess_staged (s : State) (l : List Input) : (s.splitAccess l).staged = s.staged := rfl
@[simp] theorem State.splitAccess_pools (s : State) (l : List Input) : (s.splitAccess l).pools = s.pools := rfl
@[simp] theorem State.splitAccess_active (s : State) (l : List Input) : (s.splitAccess l).active = s.active := rfl
@[simp] theorem State.splitAccess_alloc (s : State) (l : List Input) : (s.splitAccess l).alloc = s.alloc := rfl
@[simp] theorem State.splitAccess_geom (s : State) (l : List Input) : (s.splitAccess l).geom = s.geom := rfl
@[simp] theorem State.splitAccess_paint (s : State) (l : List Input) : (s.splitAccess l).paint = s.paint := rfl
@[simp] theorem State.splitAccess_sprStaged (s : State) (l : List Input) : (s.splitAccess l).sprStaged = s.sprStaged := rfl
@[simp] theorem State.splitAccess_sprActive (s : State) (l : List Input) : (s.splitAccess l).sprActive = s.sprActive := rfl
@[simp] theorem State.splitAccess_cursor (s : State) (l : List Input) : (s.splitAccess l).cursor = s.cursor := rfl
@[simp] theorem State.splitAccess_comp (s : State) (l : List Input) : (s.splitAccess l).comp = s.comp := rfl
@[simp] theorem State.splitAccess_queue (s : State) (l : List Input) : (s.splitAccess l).queue = s.queue := rfl
@[simp] theorem State.splitAccess_exe (s : State) (l : List Input) : (s.splitAccess l).exe = s.exe := rfl
@[simp] theorem State.splitAccess_held (s : State) (l : List Input) : (s.splitAccess l).held = s.held := rfl
@[simp] theorem State.splitAccess_rows (s : State) (l : List Input) : (s.splitAccess l).rows = s.rows := rfl
@[simp] theorem State.splitAccess_seq (s : State) (l : List Input) : (s.splitAccess l).seq = s.seq := rfl
@[simp] theorem State.splitAccess_sched (s : State) (l : List Input) : (s.splitAccess l).env.sched = s.env.sched := rfl

@[simp] theorem State.setHeld_cfg (s : State) (h : Held) : (s.setHeld h).cfg = s.cfg := rfl
@[simp] theorem State.setHeld_mem (s : State) (h : Held) : (s.setHeld h).mem = s.mem := rfl
@[simp] theorem State.setHeld_sys (s : State) (h : Held) : (s.setHeld h).sys = s.sys := rfl
@[simp] theorem State.setHeld_staged (s : State) (h : Held) : (s.setHeld h).staged = s.staged := rfl
@[simp] theorem State.setHeld_pools (s : State) (h : Held) : (s.setHeld h).pools = s.pools := rfl
@[simp] theorem State.setHeld_active (s : State) (h : Held) : (s.setHeld h).active = s.active := rfl
@[simp] theorem State.setHeld_alloc (s : State) (h : Held) : (s.setHeld h).alloc = s.alloc := rfl
@[simp] theorem State.setHeld_geom (s : State) (h : Held) : (s.setHeld h).geom = s.geom := rfl
@[simp] theorem State.setHeld_paint (s : State) (h : Held) : (s.setHeld h).paint = s.paint := rfl
@[simp] theorem State.setHeld_sprStaged (s : State) (h : Held) : (s.setHeld h).sprStaged = s.sprStaged := rfl
@[simp] theorem State.setHeld_sprActive (s : State) (h : Held) : (s.setHeld h).sprActive = s.sprActive := rfl
@[simp] theorem State.setHeld_cursor (s : State) (h : Held) : (s.setHeld h).cursor = s.cursor := rfl
@[simp] theorem State.setHeld_comp (s : State) (h : Held) : (s.setHeld h).comp = s.comp := rfl
@[simp] theorem State.setHeld_queue (s : State) (h : Held) : (s.setHeld h).queue = s.queue := rfl
@[simp] theorem State.setHeld_exe (s : State) (h : Held) : (s.setHeld h).exe = s.exe := rfl
@[simp] theorem State.setHeld_held (s : State) (h : Held) : (s.setHeld h).held = h := rfl
@[simp] theorem State.setHeld_rows (s : State) (h : Held) : (s.setHeld h).rows = s.rows := rfl
@[simp] theorem State.setHeld_seq (s : State) (h : Held) : (s.setHeld h).seq = s.seq := rfl
@[simp] theorem State.setHeld_env (s : State) (h : Held) : (s.setHeld h).env = s.env := rfl

@[simp] theorem State.setQueue_cfg (s : State) (q : Queue) : (s.setQueue q).cfg = s.cfg := rfl
@[simp] theorem State.setQueue_mem (s : State) (q : Queue) : (s.setQueue q).mem = s.mem := rfl
@[simp] theorem State.setQueue_sys (s : State) (q : Queue) : (s.setQueue q).sys = s.sys := rfl
@[simp] theorem State.setQueue_staged (s : State) (q : Queue) : (s.setQueue q).staged = s.staged := rfl
@[simp] theorem State.setQueue_pools (s : State) (q : Queue) : (s.setQueue q).pools = s.pools := rfl
@[simp] theorem State.setQueue_active (s : State) (q : Queue) : (s.setQueue q).active = s.active := rfl
@[simp] theorem State.setQueue_alloc (s : State) (q : Queue) : (s.setQueue q).alloc = s.alloc := rfl
@[simp] theorem State.setQueue_geom (s : State) (q : Queue) : (s.setQueue q).geom = s.geom := rfl
@[simp] theorem State.setQueue_paint (s : State) (q : Queue) : (s.setQueue q).paint = s.paint := rfl
@[simp] theorem State.setQueue_sprStaged (s : State) (q : Queue) : (s.setQueue q).sprStaged = s.sprStaged := rfl
@[simp] theorem State.setQueue_sprActive (s : State) (q : Queue) : (s.setQueue q).sprActive = s.sprActive := rfl
@[simp] theorem State.setQueue_cursor (s : State) (q : Queue) : (s.setQueue q).cursor = s.cursor := rfl
@[simp] theorem State.setQueue_comp (s : State) (q : Queue) : (s.setQueue q).comp = s.comp := rfl
@[simp] theorem State.setQueue_queue (s : State) (q : Queue) : (s.setQueue q).queue = q := rfl
@[simp] theorem State.setQueue_exe (s : State) (q : Queue) : (s.setQueue q).exe = s.exe := rfl
@[simp] theorem State.setQueue_held (s : State) (q : Queue) : (s.setQueue q).held = s.held := rfl
@[simp] theorem State.setQueue_rows (s : State) (q : Queue) : (s.setQueue q).rows = s.rows := rfl
@[simp] theorem State.setQueue_seq (s : State) (q : Queue) : (s.setQueue q).seq = s.seq := rfl
@[simp] theorem State.setQueue_env (s : State) (q : Queue) : (s.setQueue q).env = s.env := rfl

@[simp] theorem State.setReadData_cfg (s : State) (v : Word) : (s.setReadData v).cfg = s.cfg := rfl
@[simp] theorem State.setReadData_mem (s : State) (v : Word) : (s.setReadData v).mem = s.mem := rfl
@[simp] theorem State.setReadData_sys (s : State) (v : Word) : (s.setReadData v).sys = s.sys := rfl
@[simp] theorem State.setReadData_staged (s : State) (v : Word) : (s.setReadData v).staged = s.staged := rfl
@[simp] theorem State.setReadData_pools (s : State) (v : Word) : (s.setReadData v).pools = s.pools := rfl
@[simp] theorem State.setReadData_active (s : State) (v : Word) : (s.setReadData v).active = s.active := rfl
@[simp] theorem State.setReadData_alloc (s : State) (v : Word) : (s.setReadData v).alloc = s.alloc := rfl
@[simp] theorem State.setReadData_geom (s : State) (v : Word) : (s.setReadData v).geom = s.geom := rfl
@[simp] theorem State.setReadData_paint (s : State) (v : Word) : (s.setReadData v).paint = s.paint := rfl
@[simp] theorem State.setReadData_sprStaged (s : State) (v : Word) : (s.setReadData v).sprStaged = s.sprStaged := rfl
@[simp] theorem State.setReadData_sprActive (s : State) (v : Word) : (s.setReadData v).sprActive = s.sprActive := rfl
@[simp] theorem State.setReadData_cursor (s : State) (v : Word) : (s.setReadData v).cursor = s.cursor := rfl
@[simp] theorem State.setReadData_comp (s : State) (v : Word) : (s.setReadData v).comp = s.comp := rfl
@[simp] theorem State.setReadData_queue (s : State) (v : Word) : (s.setReadData v).queue = s.queue := rfl
@[simp] theorem State.setReadData_exe (s : State) (v : Word) : (s.setReadData v).exe = s.exe := rfl
@[simp] theorem State.setReadData_held (s : State) (v : Word) : (s.setReadData v).held = s.held := rfl
@[simp] theorem State.setReadData_rows (s : State) (v : Word) : (s.setReadData v).rows = s.rows := rfl
@[simp] theorem State.setReadData_seq (s : State) (v : Word) : (s.setReadData v).seq = s.seq := rfl
@[simp] theorem State.setReadData_env (s : State) (v : Word) : (s.setReadData v).env = { s.env with readData := v } := rfl

@[simp] theorem State.append_cfg (s : State) (e : Entry) : (s.append e).cfg = s.cfg := rfl
@[simp] theorem State.append_mem (s : State) (e : Entry) : (s.append e).mem = s.mem := rfl
@[simp] theorem State.append_sys (s : State) (e : Entry) : (s.append e).sys = s.sys := rfl
@[simp] theorem State.append_staged (s : State) (e : Entry) : (s.append e).staged = s.staged := rfl
@[simp] theorem State.append_pools (s : State) (e : Entry) : (s.append e).pools = s.pools := rfl
@[simp] theorem State.append_active (s : State) (e : Entry) : (s.append e).active = s.active := rfl
@[simp] theorem State.append_alloc (s : State) (e : Entry) : (s.append e).alloc = s.alloc := rfl
@[simp] theorem State.append_geom (s : State) (e : Entry) : (s.append e).geom = s.geom := rfl
@[simp] theorem State.append_paint (s : State) (e : Entry) : (s.append e).paint = s.paint := rfl
@[simp] theorem State.append_sprStaged (s : State) (e : Entry) : (s.append e).sprStaged = s.sprStaged := rfl
@[simp] theorem State.append_sprActive (s : State) (e : Entry) : (s.append e).sprActive = s.sprActive := rfl
@[simp] theorem State.append_cursor (s : State) (e : Entry) : (s.append e).cursor = s.cursor := rfl
@[simp] theorem State.append_comp (s : State) (e : Entry) : (s.append e).comp = s.comp := rfl
@[simp] theorem State.append_queue (s : State) (e : Entry) : (s.append e).queue = { s.queue with entries := s.queue.entries ++ [e] } := rfl
@[simp] theorem State.append_exe (s : State) (e : Entry) : (s.append e).exe = s.exe := rfl
@[simp] theorem State.append_held (s : State) (e : Entry) : (s.append e).held = s.held := rfl
@[simp] theorem State.append_rows (s : State) (e : Entry) : (s.append e).rows = s.rows := rfl
@[simp] theorem State.append_seq (s : State) (e : Entry) : (s.append e).seq = s.seq := rfl
@[simp] theorem State.append_env (s : State) (e : Entry) : (s.append e).env = s.env := rfl

@[simp] theorem State.setStaged_cfg (s : State) (t : Timings) : (s.setStaged t).cfg = s.cfg := rfl
@[simp] theorem State.setStaged_mem (s : State) (t : Timings) : (s.setStaged t).mem = s.mem := rfl
@[simp] theorem State.setStaged_sys (s : State) (t : Timings) : (s.setStaged t).sys = s.sys := rfl
@[simp] theorem State.setStaged_staged (s : State) (t : Timings) : (s.setStaged t).staged = t := rfl
@[simp] theorem State.setStaged_pools (s : State) (t : Timings) : (s.setStaged t).pools = s.pools := rfl
@[simp] theorem State.setStaged_active (s : State) (t : Timings) : (s.setStaged t).active = s.active := rfl
@[simp] theorem State.setStaged_alloc (s : State) (t : Timings) : (s.setStaged t).alloc = s.alloc := rfl
@[simp] theorem State.setStaged_geom (s : State) (t : Timings) : (s.setStaged t).geom = s.geom := rfl
@[simp] theorem State.setStaged_paint (s : State) (t : Timings) : (s.setStaged t).paint = s.paint := rfl
@[simp] theorem State.setStaged_sprStaged (s : State) (t : Timings) : (s.setStaged t).sprStaged = s.sprStaged := rfl
@[simp] theorem State.setStaged_sprActive (s : State) (t : Timings) : (s.setStaged t).sprActive = s.sprActive := rfl
@[simp] theorem State.setStaged_cursor (s : State) (t : Timings) : (s.setStaged t).cursor = s.cursor := rfl
@[simp] theorem State.setStaged_comp (s : State) (t : Timings) : (s.setStaged t).comp = s.comp := rfl
@[simp] theorem State.setStaged_queue (s : State) (t : Timings) : (s.setStaged t).queue = s.queue := rfl
@[simp] theorem State.setStaged_exe (s : State) (t : Timings) : (s.setStaged t).exe = s.exe := rfl
@[simp] theorem State.setStaged_held (s : State) (t : Timings) : (s.setStaged t).held = s.held := rfl
@[simp] theorem State.setStaged_rows (s : State) (t : Timings) : (s.setStaged t).rows = s.rows := rfl
@[simp] theorem State.setStaged_seq (s : State) (t : Timings) : (s.setStaged t).seq = s.seq := rfl
@[simp] theorem State.setStaged_env (s : State) (t : Timings) : (s.setStaged t).env = s.env := rfl

@[simp] theorem State.setSys_cfg (s : State) (r : SysRegs) : (s.setSys r).cfg = s.cfg := rfl
@[simp] theorem State.setSys_mem (s : State) (r : SysRegs) : (s.setSys r).mem = s.mem := rfl
@[simp] theorem State.setSys_sys (s : State) (r : SysRegs) : (s.setSys r).sys = r := rfl
@[simp] theorem State.setSys_staged (s : State) (r : SysRegs) : (s.setSys r).staged = s.staged := rfl
@[simp] theorem State.setSys_pools (s : State) (r : SysRegs) : (s.setSys r).pools = s.pools := rfl
@[simp] theorem State.setSys_active (s : State) (r : SysRegs) : (s.setSys r).active = s.active := rfl
@[simp] theorem State.setSys_alloc (s : State) (r : SysRegs) : (s.setSys r).alloc = s.alloc := rfl
@[simp] theorem State.setSys_geom (s : State) (r : SysRegs) : (s.setSys r).geom = s.geom := rfl
@[simp] theorem State.setSys_paint (s : State) (r : SysRegs) : (s.setSys r).paint = s.paint := rfl
@[simp] theorem State.setSys_sprStaged (s : State) (r : SysRegs) : (s.setSys r).sprStaged = s.sprStaged := rfl
@[simp] theorem State.setSys_sprActive (s : State) (r : SysRegs) : (s.setSys r).sprActive = s.sprActive := rfl
@[simp] theorem State.setSys_cursor (s : State) (r : SysRegs) : (s.setSys r).cursor = s.cursor := rfl
@[simp] theorem State.setSys_comp (s : State) (r : SysRegs) : (s.setSys r).comp = s.comp := rfl
@[simp] theorem State.setSys_queue (s : State) (r : SysRegs) : (s.setSys r).queue = s.queue := rfl
@[simp] theorem State.setSys_exe (s : State) (r : SysRegs) : (s.setSys r).exe = s.exe := rfl
@[simp] theorem State.setSys_held (s : State) (r : SysRegs) : (s.setSys r).held = s.held := rfl
@[simp] theorem State.setSys_rows (s : State) (r : SysRegs) : (s.setSys r).rows = s.rows := rfl
@[simp] theorem State.setSys_seq (s : State) (r : SysRegs) : (s.setSys r).seq = s.seq := rfl
@[simp] theorem State.setSys_env (s : State) (r : SysRegs) : (s.setSys r).env = s.env := rfl

@[simp] theorem State.setCursor_cfg (s : State) (c : Cursor) : (s.setCursor c).cfg = s.cfg := rfl
@[simp] theorem State.setCursor_mem (s : State) (c : Cursor) : (s.setCursor c).mem = s.mem := rfl
@[simp] theorem State.setCursor_sys (s : State) (c : Cursor) : (s.setCursor c).sys = s.sys := rfl
@[simp] theorem State.setCursor_staged (s : State) (c : Cursor) : (s.setCursor c).staged = s.staged := rfl
@[simp] theorem State.setCursor_pools (s : State) (c : Cursor) : (s.setCursor c).pools = s.pools := rfl
@[simp] theorem State.setCursor_active (s : State) (c : Cursor) : (s.setCursor c).active = s.active := rfl
@[simp] theorem State.setCursor_alloc (s : State) (c : Cursor) : (s.setCursor c).alloc = s.alloc := rfl
@[simp] theorem State.setCursor_geom (s : State) (c : Cursor) : (s.setCursor c).geom = s.geom := rfl
@[simp] theorem State.setCursor_paint (s : State) (c : Cursor) : (s.setCursor c).paint = s.paint := rfl
@[simp] theorem State.setCursor_sprStaged (s : State) (c : Cursor) : (s.setCursor c).sprStaged = s.sprStaged := rfl
@[simp] theorem State.setCursor_sprActive (s : State) (c : Cursor) : (s.setCursor c).sprActive = s.sprActive := rfl
@[simp] theorem State.setCursor_cursor (s : State) (c : Cursor) : (s.setCursor c).cursor = c := rfl
@[simp] theorem State.setCursor_comp (s : State) (c : Cursor) : (s.setCursor c).comp = s.comp := rfl
@[simp] theorem State.setCursor_queue (s : State) (c : Cursor) : (s.setCursor c).queue = s.queue := rfl
@[simp] theorem State.setCursor_exe (s : State) (c : Cursor) : (s.setCursor c).exe = s.exe := rfl
@[simp] theorem State.setCursor_held (s : State) (c : Cursor) : (s.setCursor c).held = s.held := rfl
@[simp] theorem State.setCursor_rows (s : State) (c : Cursor) : (s.setCursor c).rows = s.rows := rfl
@[simp] theorem State.setCursor_seq (s : State) (c : Cursor) : (s.setCursor c).seq = s.seq := rfl
@[simp] theorem State.setCursor_env (s : State) (c : Cursor) : (s.setCursor c).env = s.env := rfl

@[simp] theorem State.setSprStaged_cfg (s : State) (l : SpriteList) : (s.setSprStaged l).cfg = s.cfg := rfl
@[simp] theorem State.setSprStaged_mem (s : State) (l : SpriteList) : (s.setSprStaged l).mem = s.mem := rfl
@[simp] theorem State.setSprStaged_sys (s : State) (l : SpriteList) : (s.setSprStaged l).sys = s.sys := rfl
@[simp] theorem State.setSprStaged_staged (s : State) (l : SpriteList) : (s.setSprStaged l).staged = s.staged := rfl
@[simp] theorem State.setSprStaged_pools (s : State) (l : SpriteList) : (s.setSprStaged l).pools = s.pools := rfl
@[simp] theorem State.setSprStaged_active (s : State) (l : SpriteList) : (s.setSprStaged l).active = s.active := rfl
@[simp] theorem State.setSprStaged_alloc (s : State) (l : SpriteList) : (s.setSprStaged l).alloc = s.alloc := rfl
@[simp] theorem State.setSprStaged_geom (s : State) (l : SpriteList) : (s.setSprStaged l).geom = s.geom := rfl
@[simp] theorem State.setSprStaged_paint (s : State) (l : SpriteList) : (s.setSprStaged l).paint = s.paint := rfl
@[simp] theorem State.setSprStaged_sprStaged (s : State) (l : SpriteList) : (s.setSprStaged l).sprStaged = l := rfl
@[simp] theorem State.setSprStaged_sprActive (s : State) (l : SpriteList) : (s.setSprStaged l).sprActive = s.sprActive := rfl
@[simp] theorem State.setSprStaged_cursor (s : State) (l : SpriteList) : (s.setSprStaged l).cursor = s.cursor := rfl
@[simp] theorem State.setSprStaged_comp (s : State) (l : SpriteList) : (s.setSprStaged l).comp = s.comp := rfl
@[simp] theorem State.setSprStaged_queue (s : State) (l : SpriteList) : (s.setSprStaged l).queue = s.queue := rfl
@[simp] theorem State.setSprStaged_exe (s : State) (l : SpriteList) : (s.setSprStaged l).exe = s.exe := rfl
@[simp] theorem State.setSprStaged_held (s : State) (l : SpriteList) : (s.setSprStaged l).held = s.held := rfl
@[simp] theorem State.setSprStaged_rows (s : State) (l : SpriteList) : (s.setSprStaged l).rows = s.rows := rfl
@[simp] theorem State.setSprStaged_seq (s : State) (l : SpriteList) : (s.setSprStaged l).seq = s.seq := rfl
@[simp] theorem State.setSprStaged_env (s : State) (l : SpriteList) : (s.setSprStaged l).env = s.env := rfl

@[simp] theorem State.setPool_cfg (s : State) (i : Nat) (f : Pool → Pool) : (s.setPool i f).cfg = s.cfg := rfl
@[simp] theorem State.setPool_mem (s : State) (i : Nat) (f : Pool → Pool) : (s.setPool i f).mem = s.mem := rfl
@[simp] theorem State.setPool_sys (s : State) (i : Nat) (f : Pool → Pool) : (s.setPool i f).sys = s.sys := rfl
@[simp] theorem State.setPool_staged (s : State) (i : Nat) (f : Pool → Pool) : (s.setPool i f).staged = s.staged := rfl
@[simp] theorem State.setPool_pools (s : State) (i : Nat) (f : Pool → Pool) : (s.setPool i f).pools = s.pools.modify i f := rfl
@[simp] theorem State.setPool_active (s : State) (i : Nat) (f : Pool → Pool) : (s.setPool i f).active = s.active := rfl
@[simp] theorem State.setPool_alloc (s : State) (i : Nat) (f : Pool → Pool) : (s.setPool i f).alloc = s.alloc := rfl
@[simp] theorem State.setPool_geom (s : State) (i : Nat) (f : Pool → Pool) : (s.setPool i f).geom = s.geom := rfl
@[simp] theorem State.setPool_paint (s : State) (i : Nat) (f : Pool → Pool) : (s.setPool i f).paint = s.paint := rfl
@[simp] theorem State.setPool_sprStaged (s : State) (i : Nat) (f : Pool → Pool) : (s.setPool i f).sprStaged = s.sprStaged := rfl
@[simp] theorem State.setPool_sprActive (s : State) (i : Nat) (f : Pool → Pool) : (s.setPool i f).sprActive = s.sprActive := rfl
@[simp] theorem State.setPool_cursor (s : State) (i : Nat) (f : Pool → Pool) : (s.setPool i f).cursor = s.cursor := rfl
@[simp] theorem State.setPool_comp (s : State) (i : Nat) (f : Pool → Pool) : (s.setPool i f).comp = s.comp := rfl
@[simp] theorem State.setPool_queue (s : State) (i : Nat) (f : Pool → Pool) : (s.setPool i f).queue = s.queue := rfl
@[simp] theorem State.setPool_exe (s : State) (i : Nat) (f : Pool → Pool) : (s.setPool i f).exe = s.exe := rfl
@[simp] theorem State.setPool_held (s : State) (i : Nat) (f : Pool → Pool) : (s.setPool i f).held = s.held := rfl
@[simp] theorem State.setPool_rows (s : State) (i : Nat) (f : Pool → Pool) : (s.setPool i f).rows = s.rows := rfl
@[simp] theorem State.setPool_seq (s : State) (i : Nat) (f : Pool → Pool) : (s.setPool i f).seq = s.seq := rfl
@[simp] theorem State.setPool_env (s : State) (i : Nat) (f : Pool → Pool) : (s.setPool i f).env = s.env := rfl

@[simp] theorem State.setExe_cfg (s : State) (x : Exe) : (s.setExe x).cfg = s.cfg := rfl
@[simp] theorem State.setExe_mem (s : State) (x : Exe) : (s.setExe x).mem = s.mem := rfl
@[simp] theorem State.setExe_sys (s : State) (x : Exe) : (s.setExe x).sys = s.sys := rfl
@[simp] theorem State.setExe_staged (s : State) (x : Exe) : (s.setExe x).staged = s.staged := rfl
@[simp] theorem State.setExe_pools (s : State) (x : Exe) : (s.setExe x).pools = s.pools := rfl
@[simp] theorem State.setExe_active (s : State) (x : Exe) : (s.setExe x).active = s.active := rfl
@[simp] theorem State.setExe_alloc (s : State) (x : Exe) : (s.setExe x).alloc = s.alloc := rfl
@[simp] theorem State.setExe_geom (s : State) (x : Exe) : (s.setExe x).geom = s.geom := rfl
@[simp] theorem State.setExe_paint (s : State) (x : Exe) : (s.setExe x).paint = s.paint := rfl
@[simp] theorem State.setExe_sprStaged (s : State) (x : Exe) : (s.setExe x).sprStaged = s.sprStaged := rfl
@[simp] theorem State.setExe_sprActive (s : State) (x : Exe) : (s.setExe x).sprActive = s.sprActive := rfl
@[simp] theorem State.setExe_cursor (s : State) (x : Exe) : (s.setExe x).cursor = s.cursor := rfl
@[simp] theorem State.setExe_comp (s : State) (x : Exe) : (s.setExe x).comp = s.comp := rfl
@[simp] theorem State.setExe_queue (s : State) (x : Exe) : (s.setExe x).queue = s.queue := rfl
@[simp] theorem State.setExe_exe (s : State) (x : Exe) : (s.setExe x).exe = x := rfl
@[simp] theorem State.setExe_held (s : State) (x : Exe) : (s.setExe x).held = s.held := rfl
@[simp] theorem State.setExe_rows (s : State) (x : Exe) : (s.setExe x).rows = s.rows := rfl
@[simp] theorem State.setExe_seq (s : State) (x : Exe) : (s.setExe x).seq = s.seq := rfl
@[simp] theorem State.setExe_env (s : State) (x : Exe) : (s.setExe x).env = s.env := rfl

@[simp] theorem State.setWork_cfg (s : State) (ms : List Micro) : (s.setWork ms).cfg = s.cfg := rfl
@[simp] theorem State.setWork_mem (s : State) (ms : List Micro) : (s.setWork ms).mem = s.mem := rfl
@[simp] theorem State.setWork_sys (s : State) (ms : List Micro) : (s.setWork ms).sys = s.sys := rfl
@[simp] theorem State.setWork_staged (s : State) (ms : List Micro) : (s.setWork ms).staged = s.staged := rfl
@[simp] theorem State.setWork_pools (s : State) (ms : List Micro) : (s.setWork ms).pools = s.pools := rfl
@[simp] theorem State.setWork_active (s : State) (ms : List Micro) : (s.setWork ms).active = s.active := rfl
@[simp] theorem State.setWork_alloc (s : State) (ms : List Micro) : (s.setWork ms).alloc = s.alloc := rfl
@[simp] theorem State.setWork_geom (s : State) (ms : List Micro) : (s.setWork ms).geom = s.geom := rfl
@[simp] theorem State.setWork_paint (s : State) (ms : List Micro) : (s.setWork ms).paint = s.paint := rfl
@[simp] theorem State.setWork_sprStaged (s : State) (ms : List Micro) : (s.setWork ms).sprStaged = s.sprStaged := rfl
@[simp] theorem State.setWork_sprActive (s : State) (ms : List Micro) : (s.setWork ms).sprActive = s.sprActive := rfl
@[simp] theorem State.setWork_cursor (s : State) (ms : List Micro) : (s.setWork ms).cursor = s.cursor := rfl
@[simp] theorem State.setWork_comp (s : State) (ms : List Micro) : (s.setWork ms).comp = s.comp := rfl
@[simp] theorem State.setWork_queue (s : State) (ms : List Micro) : (s.setWork ms).queue = s.queue := rfl
@[simp] theorem State.setWork_exe (s : State) (ms : List Micro) : (s.setWork ms).exe = { s.exe with work := ms } := rfl
@[simp] theorem State.setWork_held (s : State) (ms : List Micro) : (s.setWork ms).held = s.held := rfl
@[simp] theorem State.setWork_rows (s : State) (ms : List Micro) : (s.setWork ms).rows = s.rows := rfl
@[simp] theorem State.setWork_seq (s : State) (ms : List Micro) : (s.setWork ms).seq = s.seq := rfl
@[simp] theorem State.setWork_env (s : State) (ms : List Micro) : (s.setWork ms).env = s.env := rfl

@[simp] theorem State.startJob_cfg (s : State) (st : ExeState) (x : ErrCtx) (ms : List Micro) : (s.startJob st x ms).cfg = s.cfg := rfl
@[simp] theorem State.startJob_mem (s : State) (st : ExeState) (x : ErrCtx) (ms : List Micro) : (s.startJob st x ms).mem = s.mem := rfl
@[simp] theorem State.startJob_sys (s : State) (st : ExeState) (x : ErrCtx) (ms : List Micro) : (s.startJob st x ms).sys = s.sys := rfl
@[simp] theorem State.startJob_staged (s : State) (st : ExeState) (x : ErrCtx) (ms : List Micro) : (s.startJob st x ms).staged = s.staged := rfl
@[simp] theorem State.startJob_pools (s : State) (st : ExeState) (x : ErrCtx) (ms : List Micro) : (s.startJob st x ms).pools = s.pools := rfl
@[simp] theorem State.startJob_active (s : State) (st : ExeState) (x : ErrCtx) (ms : List Micro) : (s.startJob st x ms).active = s.active := rfl
@[simp] theorem State.startJob_alloc (s : State) (st : ExeState) (x : ErrCtx) (ms : List Micro) : (s.startJob st x ms).alloc = s.alloc := rfl
@[simp] theorem State.startJob_geom (s : State) (st : ExeState) (x : ErrCtx) (ms : List Micro) : (s.startJob st x ms).geom = s.geom := rfl
@[simp] theorem State.startJob_paint (s : State) (st : ExeState) (x : ErrCtx) (ms : List Micro) : (s.startJob st x ms).paint = s.paint := rfl
@[simp] theorem State.startJob_sprStaged (s : State) (st : ExeState) (x : ErrCtx) (ms : List Micro) : (s.startJob st x ms).sprStaged = s.sprStaged := rfl
@[simp] theorem State.startJob_sprActive (s : State) (st : ExeState) (x : ErrCtx) (ms : List Micro) : (s.startJob st x ms).sprActive = s.sprActive := rfl
@[simp] theorem State.startJob_cursor (s : State) (st : ExeState) (x : ErrCtx) (ms : List Micro) : (s.startJob st x ms).cursor = s.cursor := rfl
@[simp] theorem State.startJob_comp (s : State) (st : ExeState) (x : ErrCtx) (ms : List Micro) : (s.startJob st x ms).comp = s.comp := rfl
@[simp] theorem State.startJob_queue (s : State) (st : ExeState) (x : ErrCtx) (ms : List Micro) : (s.startJob st x ms).queue = s.queue := rfl
@[simp] theorem State.startJob_exe (s : State) (st : ExeState) (x : ErrCtx) (ms : List Micro) : (s.startJob st x ms).exe = { s.exe with state := st, ctx := x, ok := true, work := ms } := rfl
@[simp] theorem State.startJob_held (s : State) (st : ExeState) (x : ErrCtx) (ms : List Micro) : (s.startJob st x ms).held = s.held := rfl
@[simp] theorem State.startJob_rows (s : State) (st : ExeState) (x : ErrCtx) (ms : List Micro) : (s.startJob st x ms).rows = s.rows := rfl
@[simp] theorem State.startJob_seq (s : State) (st : ExeState) (x : ErrCtx) (ms : List Micro) : (s.startJob st x ms).seq = s.seq := rfl
@[simp] theorem State.startJob_env (s : State) (st : ExeState) (x : ErrCtx) (ms : List Micro) : (s.startJob st x ms).env = s.env := rfl

@[simp] theorem State.popEntry_cfg (s : State) : (s.popEntry).cfg = s.cfg := rfl
@[simp] theorem State.popEntry_mem (s : State) : (s.popEntry).mem = s.mem := rfl
@[simp] theorem State.popEntry_sys (s : State) : (s.popEntry).sys = s.sys := rfl
@[simp] theorem State.popEntry_staged (s : State) : (s.popEntry).staged = s.staged := rfl
@[simp] theorem State.popEntry_pools (s : State) : (s.popEntry).pools = s.pools := rfl
@[simp] theorem State.popEntry_active (s : State) : (s.popEntry).active = s.active := rfl
@[simp] theorem State.popEntry_alloc (s : State) : (s.popEntry).alloc = s.alloc := rfl
@[simp] theorem State.popEntry_geom (s : State) : (s.popEntry).geom = s.geom := rfl
@[simp] theorem State.popEntry_paint (s : State) : (s.popEntry).paint = s.paint := rfl
@[simp] theorem State.popEntry_sprStaged (s : State) : (s.popEntry).sprStaged = s.sprStaged := rfl
@[simp] theorem State.popEntry_sprActive (s : State) : (s.popEntry).sprActive = s.sprActive := rfl
@[simp] theorem State.popEntry_cursor (s : State) : (s.popEntry).cursor = s.cursor := rfl
@[simp] theorem State.popEntry_comp (s : State) : (s.popEntry).comp = s.comp := rfl
@[simp] theorem State.popEntry_queue (s : State) : (s.popEntry).queue = { s.queue with entries := s.queue.entries.tail } := rfl
@[simp] theorem State.popEntry_exe (s : State) : (s.popEntry).exe = s.exe := rfl
@[simp] theorem State.popEntry_held (s : State) : (s.popEntry).held = s.held := rfl
@[simp] theorem State.popEntry_rows (s : State) : (s.popEntry).rows = s.rows := rfl
@[simp] theorem State.popEntry_seq (s : State) : (s.popEntry).seq = s.seq := rfl
@[simp] theorem State.popEntry_env (s : State) : (s.popEntry).env = s.env := rfl

@[simp] theorem State.dropInput_cfg (s : State) : (s.dropInput).cfg = s.cfg := rfl
@[simp] theorem State.dropInput_mem (s : State) : (s.dropInput).mem = s.mem := rfl
@[simp] theorem State.dropInput_sys (s : State) : (s.dropInput).sys = s.sys := rfl
@[simp] theorem State.dropInput_staged (s : State) : (s.dropInput).staged = s.staged := rfl
@[simp] theorem State.dropInput_pools (s : State) : (s.dropInput).pools = s.pools := rfl
@[simp] theorem State.dropInput_active (s : State) : (s.dropInput).active = s.active := rfl
@[simp] theorem State.dropInput_alloc (s : State) : (s.dropInput).alloc = s.alloc := rfl
@[simp] theorem State.dropInput_geom (s : State) : (s.dropInput).geom = s.geom := rfl
@[simp] theorem State.dropInput_paint (s : State) : (s.dropInput).paint = s.paint := rfl
@[simp] theorem State.dropInput_sprStaged (s : State) : (s.dropInput).sprStaged = s.sprStaged := rfl
@[simp] theorem State.dropInput_sprActive (s : State) : (s.dropInput).sprActive = s.sprActive := rfl
@[simp] theorem State.dropInput_cursor (s : State) : (s.dropInput).cursor = s.cursor := rfl
@[simp] theorem State.dropInput_comp (s : State) : (s.dropInput).comp = s.comp := rfl
@[simp] theorem State.dropInput_queue (s : State) : (s.dropInput).queue = s.queue := rfl
@[simp] theorem State.dropInput_exe (s : State) : (s.dropInput).exe = s.exe := rfl
@[simp] theorem State.dropInput_held (s : State) : (s.dropInput).held = s.held := rfl
@[simp] theorem State.dropInput_rows (s : State) : (s.dropInput).rows = s.rows := rfl
@[simp] theorem State.dropInput_seq (s : State) : (s.dropInput).seq = s.seq := rfl
@[simp] theorem State.dropInput_env (s : State) : (s.dropInput).env = { s.env with inputs := s.env.inputs.tail } := rfl

@[simp] theorem State.setSched_cfg (s : State) (l : List Agent) : (s.setSched l).cfg = s.cfg := rfl
@[simp] theorem State.setSched_mem (s : State) (l : List Agent) : (s.setSched l).mem = s.mem := rfl
@[simp] theorem State.setSched_sys (s : State) (l : List Agent) : (s.setSched l).sys = s.sys := rfl
@[simp] theorem State.setSched_staged (s : State) (l : List Agent) : (s.setSched l).staged = s.staged := rfl
@[simp] theorem State.setSched_pools (s : State) (l : List Agent) : (s.setSched l).pools = s.pools := rfl
@[simp] theorem State.setSched_active (s : State) (l : List Agent) : (s.setSched l).active = s.active := rfl
@[simp] theorem State.setSched_alloc (s : State) (l : List Agent) : (s.setSched l).alloc = s.alloc := rfl
@[simp] theorem State.setSched_geom (s : State) (l : List Agent) : (s.setSched l).geom = s.geom := rfl
@[simp] theorem State.setSched_paint (s : State) (l : List Agent) : (s.setSched l).paint = s.paint := rfl
@[simp] theorem State.setSched_sprStaged (s : State) (l : List Agent) : (s.setSched l).sprStaged = s.sprStaged := rfl
@[simp] theorem State.setSched_sprActive (s : State) (l : List Agent) : (s.setSched l).sprActive = s.sprActive := rfl
@[simp] theorem State.setSched_cursor (s : State) (l : List Agent) : (s.setSched l).cursor = s.cursor := rfl
@[simp] theorem State.setSched_comp (s : State) (l : List Agent) : (s.setSched l).comp = s.comp := rfl
@[simp] theorem State.setSched_queue (s : State) (l : List Agent) : (s.setSched l).queue = s.queue := rfl
@[simp] theorem State.setSched_exe (s : State) (l : List Agent) : (s.setSched l).exe = s.exe := rfl
@[simp] theorem State.setSched_held (s : State) (l : List Agent) : (s.setSched l).held = s.held := rfl
@[simp] theorem State.setSched_rows (s : State) (l : List Agent) : (s.setSched l).rows = s.rows := rfl
@[simp] theorem State.setSched_seq (s : State) (l : List Agent) : (s.setSched l).seq = s.seq := rfl
@[simp] theorem State.setSched_env (s : State) (l : List Agent) : (s.setSched l).env = { s.env with sched := l } := rfl

@[simp] theorem State.nextTick_cfg (s : State) : (s.nextTick).cfg = s.cfg := rfl
@[simp] theorem State.nextTick_mem (s : State) : (s.nextTick).mem = s.mem := rfl
@[simp] theorem State.nextTick_sys (s : State) : (s.nextTick).sys = s.sys := rfl
@[simp] theorem State.nextTick_staged (s : State) : (s.nextTick).staged = s.staged := rfl
@[simp] theorem State.nextTick_pools (s : State) : (s.nextTick).pools = s.pools := rfl
@[simp] theorem State.nextTick_active (s : State) : (s.nextTick).active = s.active := rfl
@[simp] theorem State.nextTick_alloc (s : State) : (s.nextTick).alloc = s.alloc := rfl
@[simp] theorem State.nextTick_geom (s : State) : (s.nextTick).geom = s.geom := rfl
@[simp] theorem State.nextTick_paint (s : State) : (s.nextTick).paint = s.paint := rfl
@[simp] theorem State.nextTick_sprStaged (s : State) : (s.nextTick).sprStaged = s.sprStaged := rfl
@[simp] theorem State.nextTick_sprActive (s : State) : (s.nextTick).sprActive = s.sprActive := rfl
@[simp] theorem State.nextTick_cursor (s : State) : (s.nextTick).cursor = s.cursor := rfl
@[simp] theorem State.nextTick_comp (s : State) : (s.nextTick).comp = s.comp := rfl
@[simp] theorem State.nextTick_queue (s : State) : (s.nextTick).queue = s.queue := rfl
@[simp] theorem State.nextTick_exe (s : State) : (s.nextTick).exe = s.exe := rfl
@[simp] theorem State.nextTick_held (s : State) : (s.nextTick).held = s.held := rfl
@[simp] theorem State.nextTick_rows (s : State) : (s.nextTick).rows = s.rows := rfl
@[simp] theorem State.nextTick_seq (s : State) : (s.nextTick).seq = s.seq := rfl
@[simp] theorem State.nextTick_env (s : State) : (s.nextTick).env = { s.env with tick := s.env.tick + 1 } := rfl

@[simp] theorem State.setMemMap_cfg (s : State) (rs : List Region) : (s.setMemMap rs).cfg = { s.cfg with memMap := rs } := rfl
@[simp] theorem State.setMemMap_mem (s : State) (rs : List Region) : (s.setMemMap rs).mem = s.mem := rfl
@[simp] theorem State.setMemMap_sys (s : State) (rs : List Region) : (s.setMemMap rs).sys = s.sys := rfl
@[simp] theorem State.setMemMap_staged (s : State) (rs : List Region) : (s.setMemMap rs).staged = s.staged := rfl
@[simp] theorem State.setMemMap_pools (s : State) (rs : List Region) : (s.setMemMap rs).pools = s.pools := rfl
@[simp] theorem State.setMemMap_active (s : State) (rs : List Region) : (s.setMemMap rs).active = s.active := rfl
@[simp] theorem State.setMemMap_alloc (s : State) (rs : List Region) : (s.setMemMap rs).alloc = s.alloc := rfl
@[simp] theorem State.setMemMap_geom (s : State) (rs : List Region) : (s.setMemMap rs).geom = s.geom := rfl
@[simp] theorem State.setMemMap_paint (s : State) (rs : List Region) : (s.setMemMap rs).paint = s.paint := rfl
@[simp] theorem State.setMemMap_sprStaged (s : State) (rs : List Region) : (s.setMemMap rs).sprStaged = s.sprStaged := rfl
@[simp] theorem State.setMemMap_sprActive (s : State) (rs : List Region) : (s.setMemMap rs).sprActive = s.sprActive := rfl
@[simp] theorem State.setMemMap_cursor (s : State) (rs : List Region) : (s.setMemMap rs).cursor = s.cursor := rfl
@[simp] theorem State.setMemMap_comp (s : State) (rs : List Region) : (s.setMemMap rs).comp = s.comp := rfl
@[simp] theorem State.setMemMap_queue (s : State) (rs : List Region) : (s.setMemMap rs).queue = s.queue := rfl
@[simp] theorem State.setMemMap_exe (s : State) (rs : List Region) : (s.setMemMap rs).exe = s.exe := rfl
@[simp] theorem State.setMemMap_held (s : State) (rs : List Region) : (s.setMemMap rs).held = s.held := rfl
@[simp] theorem State.setMemMap_rows (s : State) (rs : List Region) : (s.setMemMap rs).rows = s.rows := rfl
@[simp] theorem State.setMemMap_seq (s : State) (rs : List Region) : (s.setMemMap rs).seq = s.seq := rfl
@[simp] theorem State.setMemMap_env (s : State) (rs : List Region) : (s.setMemMap rs).env = s.env := rfl

@[simp] theorem State.raise_bgexec (s : State) (x : ErrCtx) (op : Byte) (code : ErrCode) (fa : Word) :
    (s.raise x op code fa).sys.bgexec = s.sys.bgexec := rfl
@[simp] theorem State.raise_hostArg (s : State) (x : ErrCtx) (op : Byte) (code : ErrCode) (fa : Word) :
    (s.raise x op code fa).sys.hostArg = s.sys.hostArg := rfl
@[simp] theorem State.raise_irqEnable (s : State) (x : ErrCtx) (op : Byte) (code : ErrCode) (fa : Word) :
    (s.raise x op code fa).sys.irqEnable = s.sys.irqEnable := rfl
@[simp] theorem State.raise_irqStatus (s : State) (x : ErrCtx) (op : Byte) (code : ErrCode) (fa : Word) :
    (s.raise x op code fa).sys.irqStatus = s.sys.irqStatus ||| 0x8#4 := rfl

/-- Everything that beginning a drain changes of the executor. -/
theorem State.beginDrain_exe (s : State) (x : ErrCtx) (l : Option Nat) :
    (s.beginDrain x l).exe = { s.exe with
      ctx := x
      work := ((if s.drainHides l then s.hideSteps else []) ++ [.drainLoop ⟨l, false, s.drainHides l⟩]) ++ s.exe.work } := rfl

end Sys2Proof.Machine
end

