-- ==== Sys2Proof/Laws/Operands.lean ====
section
/-!
SUPPORT. What the shared operations can do: membership in rectangles and runs, the `MEM_OK` checks, and the bytes that plots
and stores change.
-/

namespace Sys2Proof.Machine

/-! ### Rectangles -/

theorem mem_intsFromTo {lo hi x : Int} : x ∈ intsFromTo lo hi ↔ lo ≤ x ∧ x ≤ hi := by
  simp only [intsFromTo, List.mem_map, List.mem_range]
  constructor
  · rintro ⟨k, hk, rfl⟩; omega
  · rintro ⟨h1, h2⟩
    exact ⟨(x - lo).toNat, by omega, by omega⟩

theorem Rect.has_iff {r : Rect} {p : Point} :
    r.has p = true ↔ r.x1 ≤ p.1 ∧ p.1 ≤ r.x2 ∧ r.y1 ≤ p.2 ∧ p.2 ≤ r.y2 := by
  simp [Rect.has]

theorem Rect.mem_points {r : Rect} {p : Point} : p ∈ r.points ↔ r.has p = true := by
  obtain ⟨x, y⟩ := p
  simp only [Rect.points, List.mem_flatMap, List.mem_map, mem_intsFromTo, Rect.has_iff, Prod.mk.injEq]
  constructor
  · rintro ⟨b, hb, a, ha, rfl, rfl⟩
    exact ⟨ha.1, ha.2, hb.1, hb.2⟩
  · rintro ⟨h1, h2, h3, h4⟩
    exact ⟨y, ⟨h3, h4⟩, x, ⟨h1, h2⟩, rfl, rfl⟩

theorem Rect.has_inter {a b : Rect} {p : Point} : (a.inter b).has p = true ↔ a.has p = true ∧ b.has p = true := by
  simp only [Rect.has_iff, Rect.inter]
  omega

theorem Rect.has_norm {a b c d : Int} {p : Point} :
    (Rect.norm ⟨a, b, c, d⟩).has p = true ↔ betweenCorners (a, b) (c, d) p := by
  simp only [Rect.has_iff, Rect.norm, betweenCorners]

theorem mem_gridPoints {w h : Nat} {q : Nat × Nat} : q ∈ gridPoints w h ↔ q.1 < w ∧ q.2 < h := by
  obtain ⟨i, j⟩ := q
  simp only [gridPoints, List.mem_flatMap, List.mem_map, List.mem_range, Prod.mk.injEq]
  constructor
  · rintro ⟨b, hb, a, ha, rfl, rfl⟩; exact ⟨ha, hb⟩
  · rintro ⟨h1, h2⟩; exact ⟨j, h2, i, h1, rfl, rfl⟩

/-- `CLIPVP` lies in the viewport. -/
theorem State.vpb_of_clipVp {s : State} {p : Point} (h : s.clipVp.has p = true) : s.vpb.has p = true :=
  (Rect.has_inter.1 h).2

/-! ### Address checks -/

theorem mem_byteRange {a n x : Nat} : x ∈ byteRange a n ↔ inRun a n x := by
  simp [byteRange, inRun]

theorem lowestBad_eq_none {s : State} {as : List Nat} : lowestBad s as = none ↔ ∀ a ∈ as, memOk s a = true := by
  simp [lowestBad, List.min?_eq_none_iff]

theorem firstBad_eq_none {s : State} {as : List Nat} : firstBad s as = none ↔ ∀ a ∈ as, memOk s a = true := by
  simp [firstBad]

theorem lowestBad_byteRange {s : State} {a n : Nat} : lowestBad s (byteRange a n) = none ↔ s.runOk a n := by
  simp [lowestBad_eq_none, byteRange, State.runOk]

theorem firstBad_byteRange {s : State} {a n : Nat} : firstBad s (byteRange a n) = none ↔ s.runOk a n := by
  simp [firstBad_eq_none, byteRange, State.runOk]

/-- What a check reports: the lowest failing address of those that it goes through. -/
theorem lowestBad_eq_some {s : State} {as : List Nat} {P : Nat → Prop} (h : ∀ a, a ∈ as ↔ P a) {fa : Nat} :
    lowestBad s as = some fa ↔ s.lowestBadOf P fa := by
  simp only [lowestBad, List.min?_eq_some_iff, List.mem_filter, h, State.lowestBadOf, Bool.not_eq_true']
  constructor
  · rintro ⟨⟨h1, h2⟩, h3⟩
    exact ⟨h1, h2, fun b hb hb' => h3 b ⟨hb, hb'⟩⟩
  · rintro ⟨h1, h2, h3⟩
    exact ⟨⟨h1, h2⟩, fun b hb => h3 b hb.1 hb.2⟩

theorem lowestBad_byteRange_some {s : State} {a n fa : Nat} :
    lowestBad s (byteRange a n) = some fa ↔ s.lowestBadOf (inRun a n) fa :=
  lowestBad_eq_some (fun _ => mem_byteRange)

/-- A failing address that a check reports is one of those checked. -/
theorem lowestBad_mem {s : State} {as : List Nat} {fa : Nat} (h : lowestBad s as = some fa) :
    fa ∈ as ∧ memOk s fa = false := by
  have := List.mem_filter.1 (List.min?_mem h)
  simpa using this

/-! ### Offsets in an area -/

theorem inRun_grid {sb w h i j : Nat} (hi : i < w) (hj : j < h) : inRun sb (w * h) (wrapAddr (sb + j * w + i)) := by
  refine ⟨j * w + i, ?_, by rw [Nat.add_assoc]⟩
  calc j * w + i < j * w + w := by omega
    _ = (j + 1) * w := by ring
    _ ≤ h * w := Nat.mul_le_mul_right _ hj
    _ = w * h := by ring

/-- Every byte of a save buffer is that of one offset. -/
theorem exists_grid_of_inRun {sb w h a : Nat} (hr : inRun sb (w * h) a) :
    ∃ i j, i < w ∧ j < h ∧ wrapAddr (sb + j * w + i) = a := by
  obtain ⟨k, hk, rfl⟩ := hr
  have hw : 0 < w := by
    rcases Nat.eq_zero_or_pos w with rfl | h
    · simp at hk
    · exact h
  refine ⟨k % w, k / w, Nat.mod_lt _ hw, Nat.div_lt_of_lt_mul hk, ?_⟩
  rw [Nat.add_assoc, Nat.div_add_mod' k w]

theorem grid_inj {w i j i' j' : Nat} (hi : i < w) (hi' : i' < w) (h : j * w + i = j' * w + i') : i = i' ∧ j = j' := by
  have e1 : (j * w + i) / w = j := by
    rw [Nat.add_comm, Nat.add_mul_div_right _ _ (by omega), Nat.div_eq_of_lt hi, Nat.zero_add]
  have e2 : (j' * w + i') / w = j' := by
    rw [Nat.add_comm, Nat.add_mul_div_right _ _ (by omega), Nat.div_eq_of_lt hi', Nat.zero_add]
  obtain rfl : j = j' := by rw [← e1, h, e2]
  omega

/-! ### Pixels -/

theorem State.pixAddr_lt (s : State) (t : Bool) (x y : Int) : s.pixAddr t x y < addrSpace := wrapAddr_lt _

@[simp] theorem State.wrapAddr_fbAddr (s : State) (x y : Int) : wrapAddr (s.fbAddr x y) = s.fbAddr x y :=
  wrapAddr_of_lt (wrapAddr_lt _)

@[simp] theorem State.wrapAddr_vfbAddr (s : State) (x y : Int) : wrapAddr (s.vfbAddr x y) = s.vfbAddr x y :=
  wrapAddr_of_lt (wrapAddr_lt _)

theorem State.mem_plotCells {s : State} {ps : List Point} {c : Colour} {q : Nat × Byte} :
    q ∈ s.plotCells ps c ↔ ∃ p ∈ ps, s.clipVp.has p = true ∧ q = (s.fbAddr p.1 p.2, s.pixByte c) := by
  simp only [State.plotCells, State.plotCell, List.mem_filterMap]
  constructor
  · rintro ⟨p, hp, h⟩
    split at h
    · exact ⟨p, hp, ‹_›, (Option.some.inj h).symm⟩
    · cases h
  · rintro ⟨p, hp, hc, rfl⟩
    exact ⟨p, hp, by rw [if_pos hc]⟩

/-- Plotting a list of points changes exactly the pixels of the list that lie in `CLIPVP`. -/
theorem State.plots_plotAll (s : State) (ps : List Point) (c : Colour) : plots s (s.plotAll ps c) (· ∈ ps) c := by
  intro a
  constructor
  · rintro ⟨p, hp, hc, ha⟩
    refine memByte_memStoreAll_of_mem _ _ _ _ (fun q hq _ => ?_) ⟨(s.fbAddr p.1 p.2, s.pixByte c), ?_, ?_⟩
    · obtain ⟨p', -, -, rfl⟩ := State.mem_plotCells.1 hq
      rfl
    · exact State.mem_plotCells.2 ⟨p, hp, hc, rfl⟩
    · rw [← ha]; simp
  · intro h
    refine memByte_memStoreAll_of_notMem _ _ _ (fun q hq e => h ?_)
    obtain ⟨p, hp, hc, rfl⟩ := State.mem_plotCells.1 hq
    exact ⟨p, hp, hc, by simpa using e⟩

/-- Two descriptions of the same pixels of `CLIPVP` say the same of a plot. -/
theorem plots_congr {s t : State} {P Q : Point → Prop} {c : Colour}
    (h : ∀ p, s.clipVp.has p = true → (P p ↔ Q p)) (hp : plots s t P c) : plots s t Q c := by
  intro a
  have e : s.clippedPixel P (wrapAddr a) ↔ s.clippedPixel Q (wrapAddr a) := by
    constructor
    · rintro ⟨p, h1, h2, h3⟩; exact ⟨p, (h p h2).1 h1, h2, h3⟩
    · rintro ⟨p, h1, h2, h3⟩; exact ⟨p, (h p h2).2 h1, h2, h3⟩
  exact ⟨fun k => (hp a).1 (e.2 k), fun k => (hp a).2 (fun k' => k (e.1 k'))⟩

/-- A state that differs from one after a plot in no byte of memory has the same plot. -/
theorem plots_of_mem {s t u : State} {P : Point → Prop} {c : Colour} (h : u.mem = t.mem) (hp : plots s t P c) :
    plots s u P c := by
  intro a
  rw [h]
  exact hp a

/-- Storing a write set changes no byte but those it names. -/
theorem storesOnly_writeCells {s : State} {cs : List (Nat × Byte)} {P : Nat → Prop}
    (h : ∀ c ∈ cs, P (wrapAddr c.1)) : storesOnly P s (s.writeCells cs) := by
  intro a ha
  exact memByte_memStoreAll_of_notMem _ _ _ (fun c hc e => ha (e ▸ h c hc))

/-- Rewriting every pixel of a list by a function of its own byte changes exactly those pixels. -/
theorem State.rewrites_recolour (s : State) (ps : List Point) (f : Byte → Option Byte) (g : Byte → Byte)
    (hfg : ∀ b, (f b).getD b = g b) (hps : ∀ p ∈ ps, s.clipVp.has p = true) :
    rewrites s (s.writeCells (s.recolourCells ps f)) (· ∈ ps) g := by
  have hmem : ∀ q, q ∈ s.recolourCells ps f ↔
      ∃ p ∈ ps, ∃ b, f (s.fbRead p.1 p.2) = some b ∧ q = (s.fbAddr p.1 p.2, b) := by
    intro q
    simp only [State.recolourCells, List.mem_filterMap, Option.map_eq_some_iff]
    constructor
    · rintro ⟨p, hp, b, hb, rfl⟩; exact ⟨p, hp, b, hb, rfl⟩
    · rintro ⟨p, hp, b, hb, rfl⟩; exact ⟨p, hp, b, hb, rfl⟩
  have hread : ∀ (p : Point) (a : Nat), s.fbAddr p.1 p.2 = wrapAddr a → s.fbRead p.1 p.2 = memByte s.mem a := by
    intro p a e
    unfold State.fbRead
    rw [e, memByte_wrapAddr]
  intro a
  constructor
  · rintro ⟨p, hp, -, ha⟩
    have hr := hread p a ha
    rcases hf : f (memByte s.mem a) with _ | b
    · have : g (memByte s.mem a) = memByte s.mem a := by rw [← hfg, hf]; rfl
      rw [this]
      refine memByte_memStoreAll_of_notMem _ _ _ (fun q hq e => ?_)
      obtain ⟨p', hp', b', hb', rfl⟩ := (hmem q).1 hq
      rw [hread p' a (by simpa using e), hf] at hb'
      cases hb'
    · have : g (memByte s.mem a) = b := by rw [← hfg, hf]; rfl
      rw [this]
      refine memByte_memStoreAll_of_mem _ _ _ _ (fun q hq e => ?_) ⟨(s.fbAddr p.1 p.2, b), ?_, ?_⟩
      · obtain ⟨p', hp', b', hb', rfl⟩ := (hmem q).1 hq
        rw [hread p' a (by simpa using e), hf] at hb'
        exact (Option.some.inj hb').symm
      · exact (hmem _).2 ⟨p, hp, b, by rw [hr, hf], rfl⟩
      · rw [← ha]; simp
  · intro h
    refine memByte_memStoreAll_of_notMem _ _ _ (fun q hq e => h ?_)
    obtain ⟨p, hp, b, hb, rfl⟩ := (hmem q).1 hq
    exact ⟨p, hp, hps p hp, by simpa using e⟩

/-- A write set over distinct pixels of the drawing buffer gives each pixel its own cell's value. -/
theorem fbRead_writeCells_of_apart {s : State} {cs : List (Nat × Byte)} {p : Point} {v : Byte}
    (hex : (s.fbAddr p.1 p.2, v) ∈ cs)
    (huniq : ∀ c ∈ cs, wrapAddr c.1 = s.fbAddr p.1 p.2 → c.2 = v) :
    (s.writeCells cs).fbRead p.1 p.2 = v := by
  show memByte (memStoreAll s.mem cs) (s.fbAddr p.1 p.2) = v
  exact memByte_memStoreAll_of_mem _ _ _ _ (fun c hc e => huniq c hc (by simpa using e)) ⟨_, hex, rfl⟩

end Sys2Proof.Machine
end

