-- ==== Sys2Proof/Laws/PerInstr.lean ====
section
/-!
SUPPORT. The fixed bits of `spec/opcode_table.json` (30_encoding R154), one lemma per instruction.
-/

namespace Sys2Proof.Laws.HeaderFixedBits

/-- The `mask` of the instruction's row. -/
def mask : Instr → Word
  | .setPenColor _ => 0xFFC0FFFF#32
  | .setBrushColor _ => 0xFFC0FFFF#32
  | .setPixel _ _ => 0xFFFFFFFF#32
  | .moveTo _ _ => 0xFFFFFFFF#32
  | .lineTo _ _ => 0xFFFFFFFF#32
  | .fillRect _ _ _ _ => 0xFFFFFFFF#32
  | .fillEllipse _ _ => 0xFFFFFFFF#32
  | .drawEllipse _ _ => 0xFFFFFFFF#32
  | .clear => 0xFFFFFFFF#32
  | .vScroll _ => 0x0000FFFF#32
  | .hScroll _ => 0x0000FFFF#32
  | .drawGlyph _ => 0xFFFFFFFF#32
  | .setGlyphOptions _ => 0x0000FFFF#32
  | .setPaintOptions _ => 0xFFFEFFFF#32
  | .invertRect _ _ _ _ => 0xFFFFFFFF#32
  | .copyRect _ _ _ _ => 0xFFFFFFFF#32
  | .setScrollingRegion _ _ _ _ => 0xFFFFFFFF#32
  | .swapFgBg _ _ _ _ => 0xFFFFFFFF#32
  | .readRawData _ _ _ _ _ => 0xFFFFFFFF#32
  | .writeRawData _ _ _ _ _ => 0xFFFFFFFF#32
  | .renderGlyphsBuffer _ _ _ _ _ => 0xFFFFFFFF#32
  | .drawBitmap _ _ _ => 0xFFFFFFFF#32
  | .refreshSprites => 0xFFFFFFFF#32
  | .swapBuffers => 0xFFFFFFFF#32
  | .fillPath _ _ => 0x0000FFFF#32
  | .drawPath _ _ => 0x0000FFFF#32
  | .setOrigin _ _ => 0xFFFFFFFF#32
  | .setClippingRect _ _ _ _ => 0xFFFFFFFF#32
  | .hostopApply => 0xFFFFFFFF#32
  | .hostopDrain => 0xFFFFFFFF#32
  | .hostopSuspend => 0xFFFFFFFF#32
  | .hostopResume => 0xFFFFFFFF#32
  | .hostopMoveScreen => 0xFFFFFFFF#32
  | .hostopShrinkScreen => 0xFFFFFFFF#32
  | .hostopSetSprites => 0xFFFFFFFF#32
  | .hostopCmdAbort => 0xFFFFFFFF#32

/-- The `match` of the instruction's row. -/
def pattern : Instr → Word
  | .setPenColor _ => 0x00000001#32
  | .setBrushColor _ => 0x00000002#32
  | .setPixel _ _ => 0x00000103#32
  | .moveTo _ _ => 0x00000104#32
  | .lineTo _ _ => 0x00000105#32
  | .fillRect _ _ _ _ => 0x00000206#32
  | .fillEllipse _ _ => 0x00000107#32
  | .drawEllipse _ _ => 0x00000108#32
  | .clear => 0x00000009#32
  | .vScroll _ => 0x0000000A#32
  | .hScroll _ => 0x0000000B#32
  | .drawGlyph _ => 0x0000010C#32
  | .setGlyphOptions _ => 0x0000000D#32
  | .setPaintOptions _ => 0x0000000E#32
  | .invertRect _ _ _ _ => 0x0000020F#32
  | .copyRect _ _ _ _ => 0x00000210#32
  | .setScrollingRegion _ _ _ _ => 0x00000211#32
  | .swapFgBg _ _ _ _ => 0x00000212#32
  | .readRawData _ _ _ _ _ => 0x00000313#32
  | .writeRawData _ _ _ _ _ => 0x00000314#32
  | .renderGlyphsBuffer _ _ _ _ _ => 0x00000315#32
  | .drawBitmap _ _ _ => 0x00000216#32
  | .refreshSprites => 0x00000017#32
  | .swapBuffers => 0x00000018#32
  | .fillPath _ _ => 0x00000119#32
  | .drawPath _ _ => 0x0000011A#32
  | .setOrigin _ _ => 0x0000011B#32
  | .setClippingRect _ _ _ _ => 0x0000021C#32
  | .hostopApply => 0x00000001#32
  | .hostopDrain => 0x00000002#32
  | .hostopSuspend => 0x00000003#32
  | .hostopResume => 0x00000004#32
  | .hostopMoveScreen => 0x00000005#32
  | .hostopShrinkScreen => 0x00000006#32
  | .hostopSetSprites => 0x00000007#32
  | .hostopCmdAbort => 0x00000008#32

/-- The first word of a well-formed instruction's encoding has exactly the fixed bits of its row. -/
def Statement (i : Instr) : Prop :=
  i.wellFormed = true → ∃ w ws, encode i = w :: ws ∧ w &&& mask i = pattern i

/-- A header under the mask of a format whose immediate is an operand. -/
theorem header_and_low (op : Opcode) (imm : Half) : op.header imm &&& 0x0000FFFF#32 = op.header 0#16 := by
  apply BitVec.eq_of_getLsbD_eq
  intro i hi
  have hm : (0x0000FFFF#32).getLsbD i = decide (i < 16) := by
    revert i; decide
  rw [BitVec.getLsbD_and, hm]
  simp only [Opcode.header, headerWord, BitVec.getLsbD_append]
  by_cases h : i < 16
  · simp [h]
  · simp [h]

/-- A header without an immediate, under the mask that fixes every bit. -/
theorem header_and_full (op : Opcode) : op.header 0#16 &&& 0xFFFFFFFF#32 = op.header 0#16 := by
  cases op <;> decide

/-- A header whose immediate is below 64, under the mask of the colour commands. -/
theorem header_and_colour (op : Opcode) (imm : Half) (h : imm.toNat < 64) :
    op.header imm &&& 0xFFC0FFFF#32 = op.header 0#16 := by
  have key : ∀ n : Fin 64, op.header (BitVec.ofNat 16 n) &&& 0xFFC0FFFF#32 = op.header 0#16 := by
    cases op <;> decide
  have e := key ⟨imm.toNat, h⟩
  rwa [BitVec.ofNat_toNat, BitVec.setWidth_eq] at e

/-- A header whose immediate is below 2, under the mask of `SETPAINTOPTIONS`. -/
theorem header_and_swap (op : Opcode) (imm : Half) (h : imm.toNat < 2) :
    op.header imm &&& 0xFFFEFFFF#32 = op.header 0#16 := by
  have key : ∀ n : Fin 2, op.header (BitVec.ofNat 16 n) &&& 0xFFFEFFFF#32 = op.header 0#16 := by
    cases op <;> decide
  have e := key ⟨imm.toNat, h⟩
  rwa [BitVec.ofNat_toNat, BitVec.setWidth_eq] at e

theorem setPenColor (imm : Half) : Statement (.setPenColor imm) :=
    fun h => ⟨_, _, rfl, header_and_colour .setPenColor imm (of_decide_eq_true h)⟩

theorem setBrushColor (imm : Half) : Statement (.setBrushColor imm) :=
    fun h => ⟨_, _, rfl, header_and_colour .setBrushColor imm (of_decide_eq_true h)⟩

theorem setPixel (x : Half) (y : Half) : Statement (.setPixel x y) := fun _ => ⟨_, _, rfl, header_and_full .setPixel⟩

theorem moveTo (x : Half) (y : Half) : Statement (.moveTo x y) := fun _ => ⟨_, _, rfl, header_and_full .moveTo⟩

theorem lineTo (x : Half) (y : Half) : Statement (.lineTo x y) := fun _ => ⟨_, _, rfl, header_and_full .lineTo⟩

theorem fillRect (x1 : Half) (y1 : Half) (x2 : Half) (y2 : Half) : Statement (.fillRect x1 y1 x2 y2) :=
    fun _ => ⟨_, _, rfl, header_and_full .fillRect⟩

theorem fillEllipse (w : Half) (h : Half) : Statement (.fillEllipse w h) :=
    fun _ => ⟨_, _, rfl, header_and_full .fillEllipse⟩

theorem drawEllipse (w : Half) (h : Half) : Statement (.drawEllipse w h) :=
    fun _ => ⟨_, _, rfl, header_and_full .drawEllipse⟩

theorem clear : Statement .clear := fun _ => ⟨_, _, rfl, header_and_full .clear⟩

theorem vScroll (imm : Half) : Statement (.vScroll imm) := fun _ => ⟨_, _, rfl, header_and_low .vScroll imm⟩

theorem hScroll (imm : Half) : Statement (.hScroll imm) := fun _ => ⟨_, _, rfl, header_and_low .hScroll imm⟩

theorem drawGlyph (addr : Word) : Statement (.drawGlyph addr) := fun _ => ⟨_, _, rfl, header_and_full .drawGlyph⟩

theorem setGlyphOptions (imm : Half) : Statement (.setGlyphOptions imm) :=
    fun _ => ⟨_, _, rfl, header_and_low .setGlyphOptions imm⟩

theorem setPaintOptions (imm : Half) : Statement (.setPaintOptions imm) :=
    fun h => ⟨_, _, rfl, header_and_swap .setPaintOptions imm (of_decide_eq_true h)⟩

theorem invertRect (x1 : Half) (y1 : Half) (x2 : Half) (y2 : Half) : Statement (.invertRect x1 y1 x2 y2) :=
    fun _ => ⟨_, _, rfl, header_and_full .invertRect⟩

theorem copyRect (x1 : Half) (y1 : Half) (x2 : Half) (y2 : Half) : Statement (.copyRect x1 y1 x2 y2) :=
    fun _ => ⟨_, _, rfl, header_and_full .copyRect⟩

theorem setScrollingRegion (x1 : Half) (y1 : Half) (x2 : Half) (y2 : Half) : Statement (.setScrollingRegion x1 y1 x2 y2) :=
    fun _ => ⟨_, _, rfl, header_and_full .setScrollingRegion⟩

theorem swapFgBg (x1 : Half) (y1 : Half) (x2 : Half) (y2 : Half) : Statement (.swapFgBg x1 y1 x2 y2) :=
    fun _ => ⟨_, _, rfl, header_and_full .swapFgBg⟩

theorem readRawData (x : Half) (y : Half) (w : Half) (h : Half) (addr : Word) : Statement (.readRawData x y w h addr) :=
    fun _ => ⟨_, _, rfl, header_and_full .readRawData⟩

theorem writeRawData (x : Half) (y : Half) (w : Half) (h : Half) (addr : Word) : Statement (.writeRawData x y w h addr) :=
    fun _ => ⟨_, _, rfl, header_and_full .writeRawData⟩

theorem renderGlyphsBuffer (addr : Word) (c1 : Half) (r1 : Half) (c2 : Half) (r2 : Half) : Statement (.renderGlyphsBuffer addr c1 r1 c2 r2) :=
    fun _ => ⟨_, _, rfl, header_and_full .renderGlyphsBuffer⟩

theorem drawBitmap (x : Half) (y : Half) (addr : Word) : Statement (.drawBitmap x y addr) :=
    fun _ => ⟨_, _, rfl, header_and_full .drawBitmap⟩

theorem refreshSprites : Statement .refreshSprites := fun _ => ⟨_, _, rfl, header_and_full .refreshSprites⟩

theorem swapBuffers : Statement .swapBuffers := fun _ => ⟨_, _, rfl, header_and_full .swapBuffers⟩

theorem fillPath (n : Half) (addr : Word) : Statement (.fillPath n addr) :=
    fun _ => ⟨_, _, rfl, header_and_low .fillPath n⟩

theorem drawPath (n : Half) (addr : Word) : Statement (.drawPath n addr) :=
    fun _ => ⟨_, _, rfl, header_and_low .drawPath n⟩

theorem setOrigin (x : Half) (y : Half) : Statement (.setOrigin x y) :=
    fun _ => ⟨_, _, rfl, header_and_full .setOrigin⟩

theorem setClippingRect (x1 : Half) (y1 : Half) (x2 : Half) (y2 : Half) : Statement (.setClippingRect x1 y1 x2 y2) :=
    fun _ => ⟨_, _, rfl, header_and_full .setClippingRect⟩

theorem hostopApply : Statement .hostopApply := fun _ => ⟨_, _, rfl, by decide⟩

theorem hostopDrain : Statement .hostopDrain := fun _ => ⟨_, _, rfl, by decide⟩

theorem hostopSuspend : Statement .hostopSuspend := fun _ => ⟨_, _, rfl, by decide⟩

theorem hostopResume : Statement .hostopResume := fun _ => ⟨_, _, rfl, by decide⟩

theorem hostopMoveScreen : Statement .hostopMoveScreen := fun _ => ⟨_, _, rfl, by decide⟩

theorem hostopShrinkScreen : Statement .hostopShrinkScreen := fun _ => ⟨_, _, rfl, by decide⟩

theorem hostopSetSprites : Statement .hostopSetSprites := fun _ => ⟨_, _, rfl, by decide⟩

theorem hostopCmdAbort : Statement .hostopCmdAbort := fun _ => ⟨_, _, rfl, by decide⟩

end Sys2Proof.Laws.HeaderFixedBits
end

