-- ==== Sys2Proof/Laws/Sprites.lean ====
section
/-!
SUPPORT. What the compositor's operations leave alone, and what one restored, saved or drawn pixel does to memory.
-/

namespace Sys2Proof.Machine

/-! ### What a pass leaves alone -/

/-- The part of a state that no compositing pass changes: all but memory, the cursor's saved fields, the compositor's flags and
the error record. -/
def State.fixed (s : State) : State :=
  { s with
    mem := []
    sys := { s.sys with err := 0#32, errAddr := 0#32, irqStatus := 0#4 }
    cursor := { s.cursor with saved0 := 0#32, saved1 := 0#32, allowDraw := false }
    comp := ⟨false, false, .idle⟩ }

/-- Two states with the same fixed part differ in memory, the cursor's saved fields, the flags and the error record only. -/
theorem eq_of_fixed {s t : State} (h : t.fixed = s.fixed) : t = { s with
    mem := t.mem
    sys := { s.sys with err := t.sys.err, errAddr := t.sys.errAddr, irqStatus := t.sys.irqStatus }
    cursor := { s.cursor with saved0 := t.cursor.saved0, saved1 := t.cursor.saved1, allowDraw := t.cursor.allowDraw }
    comp := t.comp } := by
  obtain ⟨a1, a2, ⟨b1, b2, b3, b4, b5, b6⟩, a4, a5, a6, a7, a8, a9, a10, a11, ⟨c1, c2, c3, c4, c5, c6, c7, c8⟩, a13, a14, a15,
    a16, a17, a18, a19⟩ := s
  obtain ⟨a1', a2', ⟨b1', b2', b3', b4', b5', b6'⟩, a4', a5', a6', a7', a8', a9', a10', a11',
    ⟨c1', c2', c3', c4', c5', c6', c7', c8'⟩, a13', a14', a15', a16', a17', a18', a19'⟩ := t
  simp only [State.fixed, State.mk.injEq, SysRegs.mk.injEq, Cursor.mk.injEq] at h ⊢
  simp only [and_true, true_and] at h ⊢
  exact h

@[simp] theorem fixed_setMem (s : State) (m : Memory) : (s.setMem m).fixed = s.fixed := rfl
@[simp] theorem fixed_raisePass (s : State) (fa : Nat) : (s.raisePass fa).fixed = s.fixed := rfl
@[simp] theorem fixed_setRecordPriv (s : State) (k : Nat) (v : Byte) : (s.setRecordPriv k v).fixed = s.fixed := rfl

theorem recordAddr_of_fixed {s t : State} (h : t.fixed = s.fixed) (k : Nat) : t.recordAddr k = s.recordAddr k := by
  show t.fixed.recordAddr k = s.fixed.recordAddr k
  rw [h]
theorem recordCount_of_fixed {s t : State} (h : t.fixed = s.fixed) : t.recordCount = s.recordCount := by
  show t.fixed.recordCount = s.fixed.recordCount
  rw [h]
theorem recordBad_of_fixed {s t : State} (h : t.fixed = s.fixed) (k : Nat) : t.recordBad k = s.recordBad k := by
  show t.fixed.recordBad k = s.fixed.recordBad k
  rw [h]
theorem memOk_of_fixed {s t : State} (h : t.fixed = s.fixed) (a : Nat) : memOk t a = memOk s a := by
  show memOk t.fixed a = memOk s.fixed a
  rw [h]
theorem vpb_of_fixed {s t : State} (h : t.fixed = s.fixed) : t.vpb = s.vpb := by
  show t.fixed.vpb = s.fixed.vpb
  rw [h]
theorem vfbAddr_of_fixed {s t : State} (h : t.fixed = s.fixed) (x y : Int) : t.vfbAddr x y = s.vfbAddr x y := by
  show t.fixed.vfbAddr x y = s.fixed.vfbAddr x y
  rw [h]
theorem si_of_fixed {s t : State} (h : t.fixed = s.fixed) : t.si = s.si := by
  show t.fixed.si = s.fixed.si
  rw [h]
theorem spriteArea_of_fixed {s t : State} (h : t.fixed = s.fixed) (sx sy : Int) (b : Bitmap) :
    t.spriteArea sx sy b = s.spriteArea sx sy b := by
  show t.fixed.spriteArea sx sy b = s.fixed.spriteArea sx sy b
  rw [h]
theorem cursorWanted_of_fixed {s t : State} (h : t.fixed = s.fixed) : t.cursorWanted = s.cursorWanted := by
  show t.fixed.cursorWanted = s.fixed.cursorWanted
  rw [h]
theorem cursorPos_of_fixed {s t : State} (h : t.fixed = s.fixed) : t.cursorPos = s.cursorPos := by
  show t.fixed.cursorPos = s.fixed.cursorPos
  rw [h]
theorem lowestBad_of_fixed {s t : State} (h : t.fixed = s.fixed) (as : List Nat) : lowestBad t as = lowestBad s as := by
  show lowestBad t.fixed as = lowestBad s.fixed as
  rw [h]

theorem foldl_fixed {α : Type} {f : State → α → State} (hf : ∀ s x, (f s x).fixed = s.fixed) (l : List α) (s : State) :
    (l.foldl f s).fixed = s.fixed := by
  induction l generalizing s with
  | nil => rfl
  | cons x l ih => rw [List.foldl_cons, ih, hf]

@[simp] theorem fixed_restoreArea (s : State) (sx sy : Int) (sw sh sb : Nat) :
    (s.restoreArea sx sy sw sh sb).fixed = s.fixed := by
  unfold State.restoreArea; split <;> rfl
@[simp] theorem fixed_dropAllowDraw (s : State) (k : Nat) : (s.dropAllowDraw k).fixed = s.fixed := by
  unfold State.dropAllowDraw; split <;> rfl
@[simp] theorem fixed_hideRecord (s : State) (k : Nat) : (s.hideRecord k).fixed = s.fixed := by
  unfold State.hideRecord; split
  · simp
  · split <;> simp
@[simp] theorem fixed_hideCursor (s : State) : s.hideCursor.fixed = s.fixed := by
  unfold State.hideCursor; split
  · exact fixed_restoreArea s _ _ _ _ _
  · rfl
@[simp] theorem fixed_hidePass (s : State) : s.hidePass.fixed = s.fixed :=
  (foldl_fixed fixed_hideRecord _ _).trans (fixed_hideCursor s)
@[simp] theorem fixed_composite (s : State) (sx sy : Int) (b : Bitmap) (sb : Nat) :
    (s.composite sx sy b sb).fixed = s.fixed := rfl
@[simp] theorem fixed_drawRecord (s : State) (k hdr : Nat) : (s.drawRecord k hdr).fixed = s.fixed := by
  unfold State.drawRecord; simp only []; split
  · rfl
  · rw [fixed_setRecordPriv, fixed_composite, fixed_setMem]
@[simp] theorem fixed_showRecord (s : State) (k : Nat) : (s.showRecord k).fixed = s.fixed := by
  unfold State.showRecord; split
  · rfl
  · simp only []
    split
    · rfl
    · split
      · rfl
      · split
        · rfl
        · rfl
        · simp
@[simp] theorem fixed_drawCursor (s : State) : s.drawCursor.fixed = s.fixed := by
  unfold State.drawCursor; split
  · rfl
  · simp only []; split <;> rfl
@[simp] theorem fixed_showFinish (s : State) (seen : Bool) : (s.showFinish seen).fixed = s.fixed := by
  unfold State.showFinish; simp only []; split
  · exact fixed_drawCursor s
  · rfl
theorem fixed_showFold (l : List Nat) (p : State × Bool) : (l.foldl showStep p).1.fixed = p.1.fixed := by
  induction l generalizing p with
  | nil => rfl
  | cons k l ih => rw [List.foldl_cons, ih]; exact fixed_showRecord p.1 k
@[simp] theorem fixed_showPass (s : State) : s.showPass.fixed = s.fixed := by
  unfold State.showPass; simp only []
  rw [fixed_showFinish, fixed_showFold]; rfl
@[simp] theorem fixed_refreshPass (s : State) : s.refreshPass.fixed = s.fixed := by
  unfold State.refreshPass; split <;> simp
@[simp] theorem fixed_clearPriv (s : State) (k : Nat) : (s.clearPriv k).fixed = s.fixed := by
  unfold State.clearPriv; split <;> rfl
@[simp] theorem fixed_updatePriv (f : Byte → Byte) (s : State) (k : Nat) : (s.updatePriv f k).fixed = s.fixed := by
  unfold State.updatePriv; split <;> rfl
@[simp] theorem fixed_updatePrivs (s : State) (f : Byte → Byte) : (s.updatePrivs f).fixed = s.fixed :=
  foldl_fixed (fixed_updatePriv f) _ _

/-! ### One pixel -/

theorem memByte_restorePixel (s : State) (sx sy : Int) (sw sb : Nat) (m : Memory) (q : Nat × Nat) (b : Nat) :
    memByte (s.restorePixel sx sy sw sb m q) b =
      if s.vpb.has (sx + q.1, sy + q.2) = true ∧ s.vfbAddr (sx + q.1) (sy + q.2) = wrapAddr b then
        memByte m (sb + q.2 * sw + q.1)
      else memByte m b := by
  unfold State.restorePixel
  by_cases h : s.vpb.has (sx + q.1, sy + q.2) = true
  · rw [if_pos h, memByte_memStore, State.wrapAddr_vfbAddr]
    by_cases e : wrapAddr b = s.vfbAddr (sx + q.1) (sy + q.2)
    · rw [if_pos e, if_pos ⟨h, e.symm⟩]
    · rw [if_neg e, if_neg (fun h => e h.2.symm)]
  · rw [if_neg h, if_neg (fun k => h k.1)]

theorem memByte_savePixel (s : State) (r : SavedArea) (sb : Nat) (m : Memory) (q : Nat × Nat) (b : Nat) :
    memByte (s.savePixel r sb m q) b =
      if wrapAddr b = wrapAddr (sb + q.2 * r.w + q.1) then memByte m (s.areaAddr r q) else memByte m b :=
  memByte_memStore _ _ _ _

theorem memByte_drawPixel (s : State) (sx sy : Int) (bm : Bitmap) (r : SavedArea) (m : Memory) (q : Nat × Nat) (b : Nat) :
    memByte (s.drawPixel sx sy bm r m q) b =
      if opaquePix (memByte m (spriteSource sx sy bm r q)) = true ∧ s.areaAddr r q = wrapAddr b then
        (memByte m (spriteSource sx sy bm r q) &&& 0x3F#8) ||| s.si
      else memByte m b := by
  unfold State.drawPixel
  by_cases h : opaquePix (memByte m (spriteSource sx sy bm r q)) = true
  · rw [if_pos h, memByte_memStore]
    have e0 : wrapAddr (s.areaAddr r q) = s.areaAddr r q := State.wrapAddr_vfbAddr s _ _
    rw [e0]
    by_cases e : wrapAddr b = s.areaAddr r q
    · rw [if_pos e, if_pos ⟨h, e.symm⟩]
    · rw [if_neg e, if_neg (fun h => e h.2.symm)]
  · rw [if_neg h, if_neg (fun k => h k.1)]

@[simp] theorem recordPriv_setRecordPriv (s : State) (k : Nat) (v : Byte) : (s.setRecordPriv k v).recordPriv k = v := by
  show memByte (memStore s.mem (s.recordAddr k + 17) v) (s.recordAddr k + 17) = v
  rw [memByte_memStore, if_pos rfl]

theorem memByte_setRecordPriv (s : State) (k : Nat) (v : Byte) (b : Nat) :
    memByte (s.setRecordPriv k v).mem b = if wrapAddr b = wrapAddr (s.recordAddr k + 17) then v else memByte s.mem b :=
  memByte_memStore _ _ _ _

end Sys2Proof.Machine
end

