-- ==== Sys2Proof/Tests/Slice0.lean ====
section
/-!
SUPPORT. The model's own tests. Every expected value is taken from the spec: the rule's worked example or the vector of
95_test_vectors.md that the comment names. The last part shows, for each statement of the obligations that has hypotheses,
a state that meets them.
-/

namespace Sys2Proof.Tests

open Sys2Proof.Machine

/-! ### Fixtures -/

/-- Something read from the next state of an outcome. -/
def got {α : Type} (o : Host.Outcome State Fault Refusal) (f : State → α) : Option α :=
  match o with
  | .next t => some (f t)
  | .fault _ => none
  | .refused _ => none

/-- The timing of 40_video R228, as it is staged. -/
def smallTimings : Timings :=
  { Timings.zero with
    h0 := pairWord 8#16 2#16, h1 := pairWord 3#16 3#16, v0 := pairWord 4#16 1#16, v1 := pairWord 1#16 2#16
    mode := 0x208#32 }

/-- The block before the `APPLY` of 40_video R228, with a pool that is just large enough. -/
def before : State := { State.reset with staged := smallTimings, pools := [⟨0x1000#32, 0x1D0#32⟩] }

/-- The small configuration of 95_test_vectors.md, its rows holding the given bytes. -/
def screen (r0 r1 : List Byte) : State :=
  { State.reset with
    mem := blockCells 0x11C0 (r0 ++ r1)
    active := { smallTimings with vpSize := pairWord 8#16 2#16 }
    alloc := ⟨0#32, 0x1000#32, 32#32, 32#32, 4#32, 0x1180#32, 16#32, 8#32, true, false⟩
    rows := ⟨[0x11C0#32, 0x11C8#32], [], false⟩
    seq := { State.reset.seq with phase := .fetch, dptr := 0x1000#32 } }

/-- A blank row. -/
def blankRow : List Byte := List.replicate 8 0xC0#8

/-- The small configuration with both rows blank. -/
def blank : State := screen blankRow blankRow

/-- The letters that the vectors name the bytes of row 0 by. -/
def letters : List Byte := [0xCA#8, 0xCB#8, 0xCC#8, 0xCD#8, 0xCE#8, 0xCF#8, 0xD0#8, 0xD1#8]

/-- The small configuration with `DBL = 1`, the second buffer at 0x11D0. -/
def twoBuffers : State :=
  { blank with
    mem := blockCells 0x11C0 (List.replicate 32 0xC0#8)
    alloc := { blank.alloc with dblActive := true }
    rows := ⟨[0x11C0#32, 0x11C8#32], [0x11D0#32, 0x11D8#32], false⟩ }

/-- The state with bytes stored in its memory. -/
def withBytes (s : State) (a : Nat) (bs : List Byte) : State := s.setMem (memStoreBlock s.mem a bs)

/-- The state with EXE in a synchronous drain. -/
def inSync (s : State) : State := { s with exe := { s.exe with state := .sdrain, ctx := .sync } }

/-- The bytes of a row of the drawing viewport after an outcome. -/
def rowOf (y : Int) (o : Host.Outcome State Fault Refusal) : Option (List Byte) :=
  got o (fun t => (List.range 8).map (fun x => t.fbRead x y))

/-- The plan of a state, if it has one. -/
def planOf (s : State) : Option Plan :=
  match s.applyPlan with
  | .ok p => some p
  | .error _ => none

/-- The error of a state's plan, if it has none. -/
def planError (s : State) : Option ErrCode :=
  match s.applyPlan with
  | .ok _ => none
  | .error c => some c

/-! ### Well-formed instructions -/

/-- 30_encoding R153: `IMM16` bits 15:6 of `SETPENCOLOR` are reserved. -/
theorem test_wf_setPenColor : (Instr.setPenColor 64#16).wellFormed = false ∧ (Instr.setPenColor 63#16).wellFormed = true := by decide
theorem test_wf_setBrushColor : (Instr.setBrushColor 64#16).wellFormed = false ∧ (Instr.setBrushColor 63#16).wellFormed = true := by decide
/-- 30_encoding R153: `IMM16` bits 15:1 of `SETPAINTOPTIONS` are reserved. -/
theorem test_wf_setPaintOptions : (Instr.setPaintOptions 2#16).wellFormed = false ∧ (Instr.setPaintOptions 1#16).wellFormed = true := by decide

/-! ### Decoding (30_encoding R172, 95 V1 to V37) -/

theorem test_decode_setPenColor : decode .cmdData [0x00020001#32] = .ok (.setPenColor 2#16) := rfl
theorem test_decode_setBrushColor : decode .cmdData [0x00200002#32] = .ok (.setBrushColor 0x20#16) := rfl
theorem test_decode_setPixel : decode .cmdData [0x00000103#32, 0x00010002#32] = .ok (.setPixel 2#16 1#16) := rfl
theorem test_decode_moveTo : decode .cmdData [0x00000104#32, 0x00000000#32] = .ok (.moveTo 0#16 0#16) := rfl
theorem test_decode_lineTo : decode .cmdData [0x00000105#32, 0x0000027F#32] = .ok (.lineTo 639#16 0#16) := rfl
theorem test_decode_fillRect : decode .cmdData [0x00000206#32, 0x0014000A#32, 0x001EFFFB#32] =
    .ok (.fillRect 10#16 20#16 0xFFFB#16 30#16) := rfl
theorem test_decode_fillEllipse : decode .cmdData [0x00000107#32, 0x00030005#32] = .ok (.fillEllipse 5#16 3#16) := rfl
theorem test_decode_drawEllipse : decode .cmdData [0x00000108#32, 0x00030005#32] = .ok (.drawEllipse 5#16 3#16) := rfl
theorem test_decode_clear : decode .cmdData [0x00000009#32] = .ok .clear := rfl
theorem test_decode_vScroll : decode .cmdData [0xFFFD000A#32] = .ok (.vScroll 0xFFFD#16) := rfl
theorem test_decode_hScroll : decode .cmdData [0xFFFF000B#32] = .ok (.hScroll 0xFFFF#16) := rfl
theorem test_decode_drawGlyph : decode .cmdData [0x0000010C#32, 0x20005000#32] = .ok (.drawGlyph 0x20005000#32) := rfl
theorem test_decode_setGlyphOptions : decode .cmdData [0x0041000D#32] = .ok (.setGlyphOptions 0x41#16) := rfl
theorem test_decode_setPaintOptions : decode .cmdData [0x0001000E#32] = .ok (.setPaintOptions 1#16) := rfl
theorem test_decode_invertRect : decode .cmdData [0x0000020F#32, 0x00020001#32, 0x00040003#32] =
    .ok (.invertRect 1#16 2#16 3#16 4#16) := rfl
theorem test_decode_copyRect : decode .cmdData [0x00000210#32, 0x00020001#32, 0x00040003#32] =
    .ok (.copyRect 1#16 2#16 3#16 4#16) := rfl
theorem test_decode_setScrollingRegion : decode .cmdData [0x00000211#32, 0x000A0000#32, 0x0000027F#32] =
    .ok (.setScrollingRegion 0#16 10#16 639#16 0#16) := rfl
theorem test_decode_swapFgBg : decode .cmdData [0x00000212#32, 0x00000000#32, 0x00000007#32] =
    .ok (.swapFgBg 0#16 0#16 7#16 0#16) := rfl
theorem test_decode_readRawData : decode .cmdData [0x00000313#32, 0x00020001#32, 0x00040003#32, 0x20001000#32] =
    .ok (.readRawData 1#16 2#16 3#16 4#16 0x20001000#32) := rfl
theorem test_decode_writeRawData : decode .cmdData [0x00000314#32, 0x00020001#32, 0x00040003#32, 0x20001000#32] =
    .ok (.writeRawData 1#16 2#16 3#16 4#16 0x20001000#32) := rfl
theorem test_decode_renderGlyphsBuffer : decode .cmdData [0x00000315#32, 0x20003000#32, 0x00000000#32, 0x0018004F#32] =
    .ok (.renderGlyphsBuffer 0x20003000#32 0#16 0#16 79#16 24#16) := rfl
theorem test_decode_drawBitmap : decode .cmdData [0x00000216#32, 0x0007FFFC#32, 0x20004000#32] =
    .ok (.drawBitmap 0xFFFC#16 7#16 0x20004000#32) := rfl
theorem test_decode_refreshSprites : decode .cmdData [0x00000017#32] = .ok .refreshSprites := rfl
theorem test_decode_swapBuffers : decode .cmdData [0x00000018#32] = .ok .swapBuffers := rfl
theorem test_decode_fillPath : decode .cmdData [0x00030119#32, 0x20002000#32] = .ok (.fillPath 3#16 0x20002000#32) := rfl
theorem test_decode_drawPath : decode .cmdData [0x0003011A#32, 0x20002000#32] = .ok (.drawPath 3#16 0x20002000#32) := rfl
theorem test_decode_setOrigin : decode .cmdData [0x0000011B#32, 0x0014000A#32] = .ok (.setOrigin 10#16 20#16) := rfl
theorem test_decode_setClippingRect : decode .cmdData [0x0000021C#32, 0x80008000#32, 0x7FFF7FFF#32] =
    .ok (.setClippingRect 0x8000#16 0x8000#16 0x7FFF#16 0x7FFF#16) := rfl

/-- The eight host-operation codes (30_encoding R168). -/
theorem test_decode_hostops : ([1, 2, 3, 4, 5, 6, 7, 8] : List Nat).map (fun v => decodeHostOp (BitVec.ofNat 32 v)) =
    [.ok .hostopApply, .ok .hostopDrain, .ok .hostopSuspend, .ok .hostopResume, .ok .hostopMoveScreen,
     .ok .hostopShrinkScreen, .ok .hostopSetSprites, .ok .hostopCmdAbort] := rfl

/-- 95 V24 to V32: the malformed headers, in a synchronous drain. -/
theorem test_malformed : ([⟨0x0000001D#32, 0#32, 0#32, 0#32⟩, ⟨0#32, 0#32, 0#32, 0#32⟩,
      ⟨0x00000109#32, 0x12345678#32, 0#32, 0#32⟩, ⟨0x00010009#32, 0#32, 0#32, 0#32⟩, ⟨0x00000401#32, 0#32, 0#32, 0#32⟩,
      ⟨0x00400001#32, 0#32, 0#32, 0#32⟩, ⟨0x0002000E#32, 0#32, 0#32, 0#32⟩, ⟨0xFFFF000D#32, 0#32, 0#32, 0#32⟩,
      ⟨0x00000306#32, 1#32, 2#32, 3#32⟩] : List Entry).map
      (fun e => got ((inSync blank).executeEntry e) (fun t => t.sys.err)) =
    [some 0x82001D07#32, some 0x82000007#32, some 0x82000908#32, some 0x82000909#32, some 0x82000109#32,
     some 0x82000109#32, some 0x82000E09#32, some 0#32, some 0x82000608#32] := by decide

/-- 95 V34 to V37: the codes that are no host operation. -/
theorem test_badHostop : ([0#32, 9#32, 0x10#32, 0x103#32] : List Word).map
      (fun v => got (blank.hostOpStep v) (fun t => (t.sys.err, t.queue.suspend))) =
    [some (0x8000000C#32, 0#8), some (0x8000090C#32, 0#8), some (0x8000100C#32, 0#8), some (0x8000030C#32, 0#8)] := by
  decide

/-- The table's words give their instruction and run it first after reset: `VSCROLL` and `APPLY` (log entry 13). -/
theorem test_tableWords : decodeTableWord 32 0x0001000A = some (.vScroll 1#16) ∧ decodeTableWord 32 1 = some .hostopApply :=
  ⟨rfl, rfl⟩
theorem test_fetchWord : got (step (State.reset.withFetchWord 32 0x00020001)) (fun t => t.paint.pen) = some 0x02#6 := by decide
theorem test_fetchHostop : got (step (State.reset.withFetchWord 32 3)) (fun t => t.queue.suspend) = some 1#8 := by decide

/-! ### Paint state (42_paint R310 to R317) -/

/-- The small configuration with an origin. -/
def withOrigin (s : State) (x y : Half) : State := { s with paint := { s.paint with originX := x, originY := y } }

/-- The small configuration with the pen somewhere. -/
def withPos (s : State) (x y : Word) : State := { s with paint := { s.paint with posX := x, posY := y } }

/-- The small configuration with colours. -/
def withColours (s : State) (pen brush : Colour) : State := { s with paint := { s.paint with pen := pen, brush := brush } }

/-- The small configuration with an absolute clip, origin 0. -/
def withClip (s : State) (x1 y1 x2 y2 : Half) : State :=
  { s with paint := { s.paint with clipRel := ⟨x1, y1, x2, y2⟩, clipAbs := absClip ⟨x1, y1, x2, y2⟩ 0#16 0#16 } }

/-- The small configuration with a scrolling region. -/
def withScroll (s : State) (x1 y1 x2 y2 : Half) : State :=
  { s with paint := { s.paint with scroll := ⟨x1, y1, x2, y2⟩ } }

/-- V87: with `SWAP = 1` the new pen is the effective brush. -/
theorem test_setPenColor : got (exec (.setPenColor 8#16) { blank with paint := { blank.paint with swap := true } })
    (fun t => (t.paint.pen, t.brushE)) = some (0x08#6, 0x08#6) := by decide
theorem test_setBrushColor : got (exec (.setBrushColor 0x20#16) blank) (fun t => (t.paint.brush, t.brushE)) =
    some (0x20#6, 0x20#6) := by decide
/-- R312. -/
theorem test_moveTo : got (exec (.moveTo 3#16 4#16) (withOrigin blank 10#16 0xFFFB#16)) (fun t => t.penPos) = some (13, -1) := by
  decide
/-- V31: every bit is stored. -/
theorem test_setGlyphOptions : got (exec (.setGlyphOptions 0xFFFF#16) blank) (fun t => t.paint.glyphOpt) = some 0xFFFF#16 := by
  decide
/-- R314. -/
theorem test_setPaintOptions : got (exec (.setPaintOptions 1#16) blank) (fun t => (t.penE, t.brushE)) =
    some (0x00#6, 0x3F#6) := by decide
/-- R315. -/
theorem test_setScrollingRegion : got (exec (.setScrollingRegion 0#16 10#16 639#16 0#16) blank) (fun t => t.paint.scroll.toRect) =
    some ⟨0, 0, 639, 10⟩ := by decide
/-- R316. -/
theorem test_setOrigin : got (exec (.setOrigin 10#16 20#16) State.reset) (fun t => t.paint.clipAbs.toRect) =
    some ⟨-32758, -32748, 32777, 32787⟩ := by decide
/-- R317, and V85's normalization. -/
theorem test_setClippingRect : got (exec (.setClippingRect 99#16 49#16 0#16 0#16) (withOrigin blank 10#16 20#16))
    (fun t => (t.paint.clipRel.toRect, t.paint.clipAbs.toRect)) = some (⟨0, 0, 99, 49⟩, ⟨10, 20, 109, 69⟩) := by decide

/-! ### Points, lines and rectangles (43_raster) -/

/-- R342. -/
theorem test_setPixel : rowOf 1 (exec (.setPixel 3#16 1#16) (withColours blank 0x2A#6 0#6)) =
    some [0xC0#8, 0xC0#8, 0xC0#8, 0xEA#8, 0xC0#8, 0xC0#8, 0xC0#8, 0xC0#8] := by decide
/-- V88: with `BPC = 0` each nonzero channel becomes 3. -/
theorem test_setPixel_bpc0 : rowOf 0 (exec (.setPixel 0#16 0#16)
      (withColours { blank with active := { blank.active with mode := 0x200#32 } } 0x15#6 0#6)) =
    some [0xFF#8, 0xC0#8, 0xC0#8, 0xC0#8, 0xC0#8, 0xC0#8, 0xC0#8, 0xC0#8] := by decide
/-- V90, V94. -/
theorem test_linePoints : linePoints (0, 0) (5, 2) = [(0, 0), (1, 0), (2, 1), (3, 1), (4, 2), (5, 2)] ∧
    linePoints (-3, -1) (3, 2) = [(-3, -1), (-2, 0), (-1, 0), (0, 1), (1, 1), (2, 2), (3, 2)] := by decide
/-- 95 section 2.7, the clipped line: only `(0,0)` and `(1,0)` are written, and the pen is at `(5,2)`. -/
theorem test_lineTo : (rowOf 0 (exec (.lineTo 5#16 2#16) (withClip (withColours blank 0x02#6 0#6) 0#16 0#16 1#16 1#16)),
      got (exec (.lineTo 5#16 2#16) blank) (fun t => t.penPos)) =
    (some [0xC2#8, 0xC2#8, 0xC0#8, 0xC0#8, 0xC0#8, 0xC0#8, 0xC0#8, 0xC0#8], some (5, 2)) := by decide
/-- S1: the clipped rectangle. -/
theorem test_fillRect : rowOf 1 (exec (.fillRect 0xFFFE#16 0xFFFE#16 3#16 3#16)
      (withClip (withColours blank 0x3F#6 0x08#6) 1#16 1#16 5#16 5#16)) =
    some [0xC0#8, 0xC8#8, 0xC8#8, 0xC8#8, 0xC0#8, 0xC0#8, 0xC0#8, 0xC0#8] := by decide
/-- V97: the corners in the other order. -/
theorem test_fillRect_norm : rowOf 0 (exec (.fillRect 7#16 1#16 6#16 0#16) (withColours blank 0x3F#6 0x08#6)) =
    some [0xC0#8, 0xC0#8, 0xC0#8, 0xC0#8, 0xC0#8, 0xC0#8, 0xC8#8, 0xC8#8] := by decide
/-- V100: with `SWAP` the brush is the pen. -/
theorem test_clear : rowOf 1 (exec .clear
      (withColours { blank with paint := { blank.paint with swap := true } } 0x02#6 0x20#6)) =
    some (List.replicate 8 0xC2#8) := by decide
/-- V101. -/
theorem test_invertRect : rowOf 0 (exec (.invertRect 0#16 0#16 1#16 0#16) (screen (0xC2#8 :: List.replicate 7 0xC0#8) blankRow)) =
    some [0xFD#8, 0xFF#8, 0xC0#8, 0xC0#8, 0xC0#8, 0xC0#8, 0xC0#8, 0xC0#8] := by decide
/-- S5. -/
theorem test_swapFgBg : rowOf 0 (exec (.swapFgBg 0#16 0#16 7#16 0#16)
      (screen [0xFF#8, 0xC0#8, 0xC2#8, 0xC0#8, 0xFF#8, 0xC0#8, 0xC0#8, 0xC0#8] blankRow)) =
    some [0xC0#8, 0xFF#8, 0xC2#8, 0xFF#8, 0xC0#8, 0xFF#8, 0xFF#8, 0xFF#8] := by decide

/-! ### Ellipses and paths (43_raster R345 to R352) -/

/-- 95 section 2.9, the clipped `FILLELLIPSE 5, 3` at `(0,0)`. -/
theorem test_fillEllipse : (rowOf 0 (exec (.fillEllipse 5#16 3#16) (withColours blank 0#6 0x3F#6)),
      rowOf 1 (exec (.fillEllipse 5#16 3#16) (withColours blank 0#6 0x3F#6))) =
    (some [0xFF#8, 0xFF#8, 0xFF#8, 0xC0#8, 0xC0#8, 0xC0#8, 0xC0#8, 0xC0#8],
     some [0xFF#8, 0xC0#8, 0xC0#8, 0xC0#8, 0xC0#8, 0xC0#8, 0xC0#8, 0xC0#8]) := by decide
/-- V106: the counts of a 9 x 5 ellipse. -/
theorem test_ellipseCounts : ((Rect.points ⟨-4, -2, 4, 2⟩).filter (ellipseInside 4 2)).length = 25 ∧
    ((Rect.points ⟨-4, -2, 4, 2⟩).filter (ellipseOutline 4 2)).length = 16 := by decide
/-- V104: the centre is no outline point; V110: a size that is not positive draws nothing. -/
theorem test_drawEllipse : (rowOf 0 (exec (.drawEllipse 5#16 3#16) blank), rowOf 0 (exec (.drawEllipse 0xFFFD#16 3#16) blank)) =
    (some [0xC0#8, 0xFF#8, 0xFF#8, 0xC0#8, 0xC0#8, 0xC0#8, 0xC0#8, 0xC0#8], some blankRow) := by decide
/-- V112 and V114. -/
theorem test_insidePath : ((Rect.points ⟨0, 0, 6, 4⟩).filter (insidePath [(0, 0), (6, 0), (0, 4)])).length = 16 ∧
    ((Rect.points ⟨0, 0, 4, 4⟩).filter (insidePath [(0, 0), (4, 0), (0, 4), (4, 4)])).length = 8 := by decide
/-- A triangle `(0,0) (6,0) (0,4)` in memory (20_memory R124); V112's two upper rows. -/
theorem test_fillPath : (rowOf 0 (exec (.fillPath 3#16 0x2000#32)
      (withColours (withBytes blank 0x2000 [0, 0, 0, 0, 6, 0, 0, 0, 0, 0, 4, 0]) 0#6 0x3F#6))) =
    some [0xFF#8, 0xFF#8, 0xFF#8, 0xFF#8, 0xFF#8, 0xFF#8, 0xC0#8, 0xC0#8] := by decide
/-- 95 section 2.10, the bus error. -/
theorem test_fillPath_bus : got (exec (.fillPath 3#16 0x30000000#32) (inSync blank)) (fun t => (t.sys.err, t.sys.errAddr)) =
    some (0x8200190D#32, 0x30000000#32) := by decide
/-- R351. -/
theorem test_polyline : polylinePoints [(0, 0), (3, 0), (3, 2)] =
    [(0, 0), (1, 0), (2, 0), (3, 0), (3, 0), (3, 1), (3, 2)] := by decide
/-- One point is plotted (95 section 2.10). -/
theorem test_drawPath : rowOf 1 (exec (.drawPath 1#16 0x2000#32) (withBytes blank 0x2000 [2, 0, 1, 0])) =
    some [0xC0#8, 0xC0#8, 0xFF#8, 0xC0#8, 0xC0#8, 0xC0#8, 0xC0#8, 0xC0#8] := by decide

/-! ### Scrolls, copies and transfers (44_blit R391 to R399) -/

/-- V133: the rows rotate, and descriptors 3 and 11 get new targets. -/
theorem test_vScroll : got (exec (.vScroll 1#16) blank) (fun t => (t.rows.rt0, memWord t.mem (0x1000 + 12 * 3 + 4),
      memWord t.mem (0x1000 + 12 * 11 + 4))) =
    some ([0x11C8#32, 0x11C0#32], 0x11C8#32, 0x11C0#32) := by decide
/-- S2's narrow region: the copy path. -/
theorem test_vScroll_narrow : rowOf 0 (exec (.vScroll 1#16) (withScroll (screen letters blankRow) 0#16 0#16 3#16 1#16)) =
    some [0xC0#8, 0xC0#8, 0xC0#8, 0xC0#8, 0xCE#8, 0xCF#8, 0xD0#8, 0xD1#8] := by decide
/-- V135. -/
theorem test_hScroll : rowOf 0 (exec (.hScroll 1#16) (withScroll (screen letters blankRow) 0#16 0#16 3#16 0#16)) =
    some [0xCD#8, 0xCA#8, 0xCB#8, 0xCC#8, 0xCE#8, 0xCF#8, 0xD0#8, 0xD1#8] := by decide
/-- V136. -/
theorem test_hScroll_left : rowOf 0 (exec (.hScroll 0xFFFF#16) (withScroll (screen letters blankRow) 0#16 0#16 3#16 0#16)) =
    some [0xCB#8, 0xCC#8, 0xCD#8, 0xCA#8, 0xCE#8, 0xCF#8, 0xD0#8, 0xD1#8] := by decide
/-- V126: overlap leftward. -/
theorem test_copyRect : rowOf 0 (exec (.copyRect 1#16 0#16 4#16 0#16) (screen letters blankRow)) =
    some [0xCB#8, 0xCC#8, 0xCD#8, 0xCE#8, 0xCE#8, 0xCF#8, 0xD0#8, 0xD1#8] := by decide
/-- V127: destinations outside the viewport are dropped. -/
theorem test_copyRect_edge : rowOf 0 (exec (.copyRect 0#16 0#16 3#16 0#16) (withPos (screen letters blankRow) 6#32 0#32)) =
    some [0xCA#8, 0xCB#8, 0xCC#8, 0xCD#8, 0xCE#8, 0xCF#8, 0xCA#8, 0xCB#8] := by decide
/-- V131. -/
theorem test_readRawData : got (exec (.readRawData 6#16 1#16 4#16 1#16 0x2000#32) blank)
    (fun t => [0x2000, 0x2001, 0x2002].map (memLookup t.mem)) = some [some 0xC0#8, some 0xC0#8, none] := by decide
/-- V132: a buffer byte that does not exist, in the vsync service. -/
theorem test_readRawData_bus : got (exec (.readRawData 0#16 0#16 2#16 1#16 0x2000#32)
      { blank with
        exe := { blank.exe with state := .vservice, ctx := .vsync }
        cfg := { blank.cfg with memMap := [⟨0, 0x2001⟩] } })
    (fun t => (t.sys.err, t.sys.errAddr, memLookup t.mem 0x2000)) = some (0x8100130D#32, 0x2001#32, none) := by decide
/-- R393. -/
theorem test_writeRawData : rowOf 0 (exec (.writeRawData 0#16 0#16 2#16 1#16 0x2000#32) (withBytes blank 0x2000 [0x02#8, 0xFF#8])) =
    some [0xC2#8, 0xFF#8, 0xC0#8, 0xC0#8, 0xC0#8, 0xC0#8, 0xC0#8, 0xC0#8] := by decide

/-! ### Glyphs and bitmaps (44_blit R380 to R390) -/

/-- The glyph "L" of R381, 3 by 4, at 0x2010. -/
def glyphL : Memory := blockCells 0x2010 [0x80#8, 0x80#8, 0x80#8, 0xE0#8]

/-- The output rows of a glyph, as bits. -/
def glyphRows (m : Memory) (g : Glyph) (o : Half) : List (List Bool) :=
  (List.range g.h).map (fun r => (List.range (glyphOutWidth g o)).map (fun i => glyphOut m g o i r))

/-- V117: `BOLD`, and `BLANK|UNDERLINE`. -/
theorem test_glyphRows : glyphRows glyphL ⟨3, 4, 0x2010⟩ 2#16 =
      [[true, true, false], [true, true, false], [true, true, false], [true, true, true]] ∧
    glyphRows glyphL ⟨3, 4, 0x2010⟩ 0x60#16 =
      [[false, false, false], [false, false, false], [false, false, false], [true, true, true]] := by decide
/-- V117: `DOUBLE = 3` shows the lower half. -/
theorem test_glyphRows_double : (glyphRows glyphL ⟨3, 4, 0x2010⟩ 0x180#16) =
    [[true, true, false, false, false, false], [true, true, false, false, false, false],
     [true, true, true, true, true, true], [true, true, true, true, true, true]] := by decide
/-- V118: italic on an 8-row glyph. -/
theorem test_glyphRows_italic : glyphRows (blockCells 0x2010 (List.replicate 8 0xC0#8)) ⟨2, 8, 0x2010⟩ 8#16 =
    List.replicate 4 [false, true, true] ++ List.replicate 4 [true, true, false] := by decide
/-- V119. -/
theorem test_faint : (faintColour 0x3F#6, faintColour 0x02#6) = (0x2A#6, 0x01#6) := by decide

/-- The small configuration with the glyph record of V120. -/
def glyphScreen : State :=
  withColours { withBytes (withBytes blank 0x2000 [0, 0, 0, 0, 3, 0, 4, 0, 0x10, 0x20, 0, 0]) 0x2010 [0x80, 0x80, 0x80, 0xE0] with
    paint := { blank.paint with glyphOpt := 1#16 } } 0x2A#6 0x20#6

/-- V120. -/
theorem test_drawGlyph : rowOf 1 (exec (.drawGlyph 0x2000#32) glyphScreen) =
    some [0xEA#8, 0xE0#8, 0xE0#8, 0xC0#8, 0xC0#8, 0xC0#8, 0xC0#8, 0xC0#8] := by decide

/-- V121: the clamped range. -/
theorem test_cells : (GlyphBuffer.cells ⟨3, 4, 0, 2, 1, 0⟩ 0#16 0#16 79#16 24#16, GlyphBuffer.cells ⟨3, 4, 0, 2, 1, 0⟩ 5#16 0#16 79#16 24#16) =
    ([(0, 0), (1, 0)], []) := by decide

/-- A glyph buffer of one cell: a 2 by 1 font at 0x2020 whose glyph 1 is `10`, and the cell word of R388's layout. -/
def bufferScreen : State :=
  withBytes (withBytes (withBytes blank 0x2000 [2, 0, 1, 0, 0x20, 0x20, 0, 0, 1, 0, 1, 0, 0x30, 0x20, 0, 0])
    0x2020 [0x00, 0x80]) 0x2030 [0x01, 0xF0, 0x01, 0x00]

/-- R388: foreground `PALETTE[15]`, background `PALETTE[0]`, `FILLBG`. -/
theorem test_renderGlyphsBuffer : rowOf 0 (exec (.renderGlyphsBuffer 0x2000#32 0#16 0#16 0#16 0#16) bufferScreen) =
    some [0xFF#8, 0xC0#8, 0xC0#8, 0xC0#8, 0xC0#8, 0xC0#8, 0xC0#8, 0xC0#8] := by decide

/-- The small configuration with the 2x2 bitmap of V123 at 0x2000. -/
def bitmapScreen : State := withBytes blank 0x2000 [2, 0, 2, 0, 0x08, 0x20, 0, 0, 0xBF, 0x7F, 0x00, 0xC8]

/-- V123: alpha 1 is not drawn, `x = -1` is clipped. -/
theorem test_drawBitmap : (rowOf 0 (exec (.drawBitmap 0xFFFF#16 0#16 0x2000#32) bitmapScreen),
      rowOf 1 (exec (.drawBitmap 0xFFFF#16 0#16 0x2000#32) bitmapScreen)) =
    (some blankRow, some [0xC8#8, 0xC0#8, 0xC0#8, 0xC0#8, 0xC0#8, 0xC0#8, 0xC0#8, 0xC0#8]) := by decide

/-! ### Buffers and sprites (44_blit R405, 45_sprites) -/

/-- V142: the first swap. -/
theorem test_swapBuffers : got (exec .swapBuffers twoBuffers) (fun t => (t.rows.visBuf, memWord t.mem (0x1000 + 12 * 3 + 4),
      memWord t.mem (0x1000 + 12 * 15 + 4), t.fbAddr 0 0)) = some (true, 0x11D0#32, 0x11D8#32, 0x11C0) := by decide
/-- V141. -/
theorem test_swapBuffers_single : got (exec .swapBuffers blank) (fun t => decide (t = blank)) = some true := by decide
theorem test_refreshSprites : got (exec .refreshSprites blank) (fun t => t.comp.refreshPending) = some true := by decide

/-- A sprite record at 0x2000 (20_memory R122): at `(x, 0)`, one frame at 0x2040, save buffer 0x2060, with flags. -/
def record (x : Byte) (flags : Byte) : List Byte :=
  [x, 0, 0, 0, 0x40, 0x20, 0, 0, 1, 0, 0, 0, 0x60, 0x20, 0, 0, flags, 0] ++ List.replicate 14 0#8

/-- The small configuration with one sprite, its frame 2 by 1 with pixels `C1 C2`. -/
def sprite (x flags : Byte) : State :=
  { withBytes (withBytes blank 0x2000 (record x flags)) 0x2040
      [0x48, 0x20, 0, 0, 0, 0, 0, 0, 2, 0, 1, 0, 0x50, 0x20, 0, 0, 0xC1, 0xC2] with
    sprActive := ⟨0x2000#32, 1#32, 32#32⟩, sprStaged := ⟨0x2000#32, 1#32, 32#32⟩ }

/-- V144: drawn at `(7,0)`, the second pixel off screen, the background saved. -/
theorem test_showPass : (((sprite 7 1).showPass).fbRead 7 0, memLookup (sprite 7 1).showPass.mem 0x2060,
      memByte (sprite 7 1).showPass.mem (0x2000 + 24), (sprite 7 1).showPass.recordPriv 0, (sprite 7 1).showPass.comp.shown) =
    (0xC1#8, some 0xC0#8, 1#8, 0x01#8, true) := by decide
/-- V144's hide: the background comes back. -/
theorem test_hidePass : ((sprite 7 1).showPass.hidePass.fbRead 7 0, (sprite 7 1).showPass.hidePass.recordPriv 0) =
    (0xC0#8, 0x00#8) := by decide
/-- V146: a static sprite is drawn once. -/
theorem test_static : ((sprite 0 3).showPass.recordPriv 0, (sprite 0 3).showPass.comp.shown) = (0x02#8, false) := by decide
/-- V152: the cursor. -/
theorem test_cursor : (fun t : State => (t.fbRead 2 0, t.cursor.saved0, t.cursor.saved1, t.comp.shown))
      ({ withBytes blank 0x2000 [1, 0, 1, 0, 0x08, 0x20, 0, 0, 0xF0] with
        cursor := ⟨pairWord 3#16 1#16, pairWord 1#16 1#16, 0x2000#32, 0x2020#32, true, 0#32, 0#32, false⟩ }).showPass =
    (0xF0#8, pairWord 2#16 0#16, pairWord 1#16 1#16, true) := by decide
/-- R440, V150. -/
theorem test_setSprites : got (exec .hostopSetSprites { sprite 7 1 with sprActive := ⟨0#32, 0#32, 0#32⟩ })
    (fun t => (t.sprActive.base, t.comp.refreshPending, t.recordPriv 0)) = some (0x2000#32, true, 0x00#8) := by decide

/-! ### Host operations (40_video R210 to R243, 41_queue R275 to R278) -/

/-- R228: the layout of the small configuration. -/
theorem test_plan : planOf before = some
    { vpw := 8, vph := 2, vpcol := 0, vprow := 0, clen := 16, group := 4, vt := 8, stride := 8, chainBase := 0x1000,
      constBase := 0x1180, rt0 := [0x11C0, 0x11C8], rt1 := [] } := by decide +kernel
/-- V46, V47, V50 to V52, V55, V56. -/
theorem test_planErrors :
    [planError { before with staged := { smallTimings with mode := 0x008#32 } },
      planError { before with staged := { smallTimings with v0 := pairWord 5#16 1#16 } },
      planError { before with staged := { smallTimings with vpSize := pairWord 9#16 0#16 } },
      planError { before with staged := { smallTimings with vpSize := pairWord 0#16 3#16 } },
      planError { before with pools := [⟨0x1002#32, 0x1D0#32⟩] },
      planError { before with pools := [⟨0x1000#32, 0x100#32⟩] },
      planError { before with pools := [⟨0x1000#32, 0x1C0#32⟩] }] =
    [some .cfgTiming, some .cfgTiming, some .cfgViewport, some .cfgViewport, some .cfgPool, some .nomemChain,
     some .nomemViewport] := by decide +kernel
/-- V46: the error record of a failed `APPLY`. -/
theorem test_apply_fails : got (exec .hostopApply { before with staged := { smallTimings with mode := 0x008#32 } })
    (fun t => t.sys.err) = some 0x80000101#32 := by decide
/-- V38: `APPLY` starts SEQ; descriptors 3, 16 and 31 are those of R228, and a row byte is blank. -/
theorem test_apply : got (exec .hostopApply before) (fun t => (t.seq.phase, memWord t.mem (0x1000 + 12 * 3),
      memWord t.mem (0x1000 + 12 * 3 + 4), memWord t.mem (0x1000 + 12 * 16), memWord t.mem (0x1000 + 12 * 31 + 8),
      memByte t.mem 0x11C8)) =
    some (.fetch, 0x80008008#32, 0x11C0#32, 0xC0002004#32, 0x1000#32, 0xC0#8) := by decide +kernel
/-- V41: the segments of a line that starts with the visible block. -/
theorem test_segments : lineSegments { smallTimings with mode := 0x237#32 } 2 4 =
    [⟨.blank, 2⟩, ⟨.row, 4⟩, ⟨.blank, 4⟩, ⟨.sync, 3⟩, ⟨.blank, 3⟩] := by decide
/-- V40: the pieces with a small `MAXD`. -/
theorem test_pieces : linePieces smallTimings 0 8 4 =
    [⟨.blank, 2, 0⟩, ⟨.sync, 3, 0⟩, ⟨.blank, 3, 0⟩, ⟨.row, 4, 0⟩, ⟨.row, 4, 4⟩] := by decide

/-- The small configuration with `HOSTARG`. -/
def withArg (v : Word) : State := { blank with sys := { blank.sys with hostArg := v } }

/-- V61, V62, V63. -/
theorem test_moveScreen : ([2#32, 0xFFFF#32, 3#32] : List Word).map
      (fun v => got (exec .hostopMoveScreen (withArg v)) (fun t => (t.geom, t.sys.err))) =
    [some (⟨true, 0x00050000#32, 0x00020001#32⟩, 0#32), some (⟨true, 0x00020003#32, 0x00020001#32⟩, 0#32),
     some (⟨false, 0#32, 0#32⟩, 0x80000506#32)] := by decide
/-- V64, V65. -/
theorem test_shrinkScreen : ([0x00010000#32, 0xFFFE#32] : List Word).map
      (fun v => got (exec .hostopShrinkScreen (withArg v)) (fun t => (t.geom.pending, t.geom.pH, t.sys.err))) =
    [some (false, 0#32, 0x80000606#32), some (true, 0x00010000#32, 0#32)] := by decide

/-- R242 (log entry 34): `dx = -2`, `dy = 1` removes the front porch, and 3 * 10 descriptors fit. -/
theorem test_shrink_derived : got (exec .hostopShrinkScreen (withArg 0x0001FFFE#32)) (fun t => (t.geom, t.sys.err)) =
    some (⟨true, 0x00010000#32, 0x00030002#32⟩, 0#32) := by decide

/-- The small configuration with `SUSPEND` and some commands queued. -/
def withQueue (suspend : BitVec 8) (es : List Entry) : State :=
  { blank with queue := { blank.queue with suspend := suspend, entries := es } }

/-- The entry of `CLEAR`. -/
def clearEntry : Entry := ⟨0x00000009#32, 0#32, 0#32, 0#32⟩

/-- V73. -/
theorem test_suspend : [got (exec .hostopSuspend (withQueue 255#8 [])) (fun t => (t.sys.err, t.queue.suspend)),
      got (exec .hostopSuspend (withQueue 254#8 [])) (fun t => (t.sys.err, t.queue.suspend))] =
    [some (0x8000030B#32, 255#8), some (0#32, 255#8)] := by decide
/-- V74, and the second error of R473. -/
theorem test_resume : [got (exec .hostopResume (withQueue 0#8 [])) (fun t => t.sys.err),
      got (exec .hostopResume { withQueue 0#8 [] with sys := { blank.sys with err := 0x8000040A#32 } }) (fun t => t.sys.err)] =
    [some 0x8000040A#32, some 0xC000040A#32] := by decide
/-- R277: only the final one begins a drain. -/
theorem test_resume_drains : [got (exec .hostopResume (withQueue 2#8 [clearEntry])) (fun t => t.exe.work.length),
      got (exec .hostopResume (withQueue 1#8 [clearEntry])) (fun t => t.exe.work.length)] = [some 0, some 1] := by decide
/-- V72: `DRAIN` under suspension. -/
theorem test_drain : got (exec .hostopDrain (withQueue 1#8 [clearEntry])) (fun t => (t.exe.ctx, t.exe.work, t.queue.suspend)) =
    some (.sync, [.drainLoop ⟨none, false, false⟩], 1#8) := by decide
/-- V77, V78. -/
theorem test_cmdAbort : (fun s : State => (s.regRead 4 0x014, got (exec .hostopCmdAbort s) (fun t => t.regRead 4 0x014)))
      ((blank.hostWrite 4 0x010 0x00000206#32).hostWrite 4 0x010 0#32) = (0x00000202#32, some 0#32) := by decide

/-! ### The queue, the registers and the sequencer -/

/-- V68, V69, V71: where a push goes. -/
theorem test_push : [({ blank with sys := { blank.sys with bgexec := false } }.cmdData 9#32).held,
      (blank.cmdData 9#32).held, ({ withQueue 1#8 [] with sys := { blank.sys with bgexec := false } }.cmdData 9#32).held] =
    [.syncPush clearEntry, .free, .free] := by decide
/-- V75, V76: after an error the vsync service ends, a synchronous drain goes on. -/
theorem test_drainNext : [{ inSync blank with exe := ⟨.vservice, false, .vsync, false, []⟩ },
      { inSync blank with exe := ⟨.sdrain, false, .sync, false, []⟩ }].map (fun s : State =>
        (State.drainNext ⟨some 3, false, false⟩ s).exe.work) =
    [[.drainEnd true], [.drainLoop ⟨some 2, true, false⟩]] := by decide
/-- 10_state R79: `ID`, `T_MODE` without its reserved bits, a read-only register, a read of another width. -/
theorem test_registers : [blank.regRead 4 0x000, (blank.hostWrite 4 0x054 0xFFFFFFFF#32).regRead 4 0x054,
      (blank.hostWrite 4 0x180 0#32).regRead 4 0x180, blank.regRead 2 0x000, (blank.hostWrite 4 0x100 4#32).regRead 4 0x100] =
    [0x46474C07#32, 0x00000F3F#32, 0x3F#32, 0#32, 4#32] := by decide
/-- V153. -/
theorem test_curPos : (blank.hostWrite 4 0x1E0 0#32).comp.refreshPending = true := by decide

/-- The small configuration with descriptor 16 of R228 at its descriptor pointer: 2 bytes of `K_B0`, with `EOF`. -/
def streaming (bg : Bool) : State :=
  { withBytes (withBytes blank 0x1000 [0x04, 0x20, 0x00, 0xC0, 0x80, 0x11, 0, 0, 0xCC, 0x10, 0, 0]) 0x1180 [0xC0, 0xC0] with
    sys := { blank.sys with bgexec := bg } }

/-- 40_video R231, R233: the fetch latches and raises the vsync event. -/
theorem test_fetch : [streaming true, streaming false].map (fun s : State =>
      (s.seqStep.seq.phase, s.seqStep.seq.latLen, s.seqStep.seq.latBuf, s.seqStep.sys.irqStatus, s.seqStep.exe.vsReq)) =
    [(.emit, 2#12, 0x1180#32, 1#4, true), (.emit, 2#12, 0x1180#32, 1#4, false)] := by decide
/-- 40_video R236: the last byte is followed by `ADVANCE`. -/
theorem test_emit : (fun s : State => (s.seq.pixOut, s.seq.phase, s.seq.dptr, s.seq.didx))
    (streaming true).seqStep.seqStep.seqStep = (0xC0#8, .fetch, 0x10CC#32, 1) := by decide
/-- 60_exceptions R479: a descriptor that does not exist. -/
theorem test_fetch_bus : (fun s : State => (s.seq.phase, s.sys.err, s.sys.errAddr))
    { blank with seq := { blank.seq with dptr := 0xFFFC#32 } }.seqStep = (.stop, 0x8300000E#32, 0x10000#32) := by decide

/-- The small configuration with one sprite drawn at `(7,0)`, of which only the bytes below `n` exist. -/
def cutSprite (n : Nat) : State :=
  { withBytes (sprite 7 1) 0x2011 [0x03] with cfg := { blank.cfg with memMap := [⟨0, n⟩] } }

/-- R443: a header fault of a hide pass clears `ALLOWDRAW`; with no `PRIV` byte there is nothing to clear (log entry 33). -/
theorem test_hide_fault : ([0x2018, 0x2011].map cutSprite).map
      (fun s => ((s.hideRecord 0).recordPriv 0, (s.hideRecord 0).sys.errAddr)) =
    [(0x02#8, 0x2018#32), (0x03#8, 0x2011#32)] := by decide
/-- R219, R481: an `APPLY` that commits records nothing, even with a sprite record that does not exist. -/
theorem test_apply_absent_record : got (exec .hostopApply { before with sprActive := ⟨0x30000000#32, 1#32, 32#32⟩ })
    (fun t => (t.sys.err, t.seq.phase)) = some (0#32, .fetch) := by decide +kernel
/-- R527: an aligned word lands whole; a halfword, and a word that is not aligned, land byte by byte later. -/
theorem test_host_stores : ([(0x2000#32, 4), (0x2001#32, 4), (0x2000#32, 2), (0x2001#32, 1)] : List (Word × Nat)).map
      (fun p => (fun t : State => ([0x2000, 0x2001].map (memLookup t.mem), t.env.tick))
        { State.reset with env := ⟨[.memWrite p.1 p.2 0x44332211#32], [], 0, 0#32⟩ }.hostStep) =
    [([some 0x11#8, some 0x22#8], 0), ([none, none], 1), ([none, none], 1), ([none, some 0x11#8], 0)] := by decide
theorem test_setWordByte : setWordByte 0x44332211#32 2 0xAA#8 = 0x44AA2211#32 ∧ setWordByte 0#32 4 0xAA#8 = 0#32 := by decide

/-! ### The hypotheses of the statements can be met -/

/-- DecodeOfEncode: at the boundary values of the reserved bits. -/
theorem wit_wellFormed : (Instr.setPenColor 63#16).wellFormed = true ∧ (Instr.setPaintOptions 1#16).wellFormed = true ∧
    (Instr.hostopCmdAbort).wellFormed = true := by decide
/-- EncodeOfDecode: entries that decode, with `LEN` 0 and 3, and one that does not. -/
theorem wit_decodeEntry : decodeEntry clearEntry = .ok .clear ∧
    decodeEntry ⟨0x00000313#32, 0#32, 0#32, 0#32⟩ = .ok (.readRawData 0#16 0#16 0#16 0#16 0#32) ∧
    decodeEntry ⟨0x0000001D#32, 0#32, 0#32, 0#32⟩ = .error .illegalOpcode := ⟨rfl, rfl, rfl⟩
theorem wit_decodeHostOp : decodeHostOp 1#32 = .ok .hostopApply ∧ decodeHostOp 8#32 = .ok .hostopCmdAbort ∧
    decodeHostOp 0#32 = .error .badHostop ∧ decodeHostOp 9#32 = .error .badHostop := ⟨rfl, rfl, rfl, rfl⟩
/-- ChecksInOrder: opcodes at the ends of the two ranges. -/
theorem wit_opcodeRanges : ((hdrOp 0#32).toNat = 0 ∨ 0x1C < (hdrOp 0#32).toNat) ∧
    ((hdrOp 0x1D#32).toNat = 0 ∨ 0x1C < (hdrOp 0x1D#32).toNat) ∧
    (1 ≤ (hdrOp 1#32).toNat ∧ (hdrOp 1#32).toNat ≤ 0x1C) ∧
    1 ≤ (hdrOp 0x21C#32).toNat ∧ (hdrOp 0x21C#32).toNat ≤ 0x1C := by decide
/-- SubmittedCommandIsQueued. -/
theorem wit_submitted : (Instr.clear).wellFormed = true ∧ (Instr.clear).port = .cmdData ∧
    State.reset.queue.partialCount = 0#2 ∧ State.reset.pushSync = false ∧ State.reset.qcount < State.reset.cfg.qdepth := by
  decide
/-- StepRunsInstruction, the first part. -/
theorem wit_step : (State.reset.placeEntry clearEntry).env.sched = .exe :: [] ∧
    (State.reset.placeEntry clearEntry).exe.work = .drainLoop ⟨none, false, false⟩ :: [.jobEnd] ∧
    (none : Option Nat) ≠ some 0 ∧ (State.reset.placeEntry clearEntry).queue.entries = clearEntry :: [] ∧
    decodeEntry clearEntry = .ok .clear := ⟨rfl, rfl, by decide, rfl, rfl⟩
/-- StepRunsInstruction, the second part. -/
theorem wit_step_hostop : (State.reset.placeHostOp 1#32).env.sched = .exe :: [] ∧
    (State.reset.placeHostOp 1#32).exe.work = .hostOp 1#32 :: [.jobEnd] ∧ decodeHostOp 1#32 = .ok .hostopApply :=
  ⟨rfl, rfl, rfl⟩

/-- An entry with an illegal opcode. -/
def badEntry : Entry := ⟨0x0000001D#32, 0#32, 0#32, 0#32⟩

/-- A vsync service about to execute an illegal entry, the last of its snapshot, with the sprites hidden. -/
def badService : State :=
  { (State.reset.placeEntry badEntry) with exe := ⟨.vservice, false, .vsync, true, [.drainLoop ⟨some 1, false, true⟩, .jobEnd]⟩ }

/-- RejectedHeadIsPopped, in either kind of drain. -/
theorem wit_rejected : ((State.reset.placeEntry badEntry).env.sched = .exe :: [] ∧
      (State.reset.placeEntry badEntry).exe.work = .drainLoop ⟨none, false, false⟩ :: [.jobEnd] ∧
      (none : Option Nat) ≠ some 0 ∧ (State.reset.placeEntry badEntry).queue.entries = badEntry :: [] ∧
      decodeEntry badEntry = .error .illegalOpcode) ∧
    badService.env.sched = .exe :: [] ∧ badService.exe.work = .drainLoop ⟨some 1, false, true⟩ :: [.jobEnd] ∧
    (some 1 : Option Nat) ≠ some 0 ∧ badService.queue.entries = badEntry :: [] :=
  ⟨⟨rfl, rfl, by decide, rfl, rfl⟩, rfl, rfl, by decide, rfl⟩
/-- RejectedHeadIsPopped, a `HOSTOP` value on either side of the codes. -/
theorem wit_rejected_hostop : ([0#32, 9#32] : List Word).map (fun v => ((State.reset.placeHostOp v).env.sched,
      (State.reset.placeHostOp v).exe.work)) =
      [([.exe], [.hostOp 0#32, .jobEnd]), ([.exe], [.hostOp 9#32, .jobEnd])] ∧
    ((0#32).toNat = 0 ∨ 8 < (0#32).toNat) ∧ ((9#32).toNat = 0 ∨ 8 < (9#32).toNat) := by decide
/-- AnyEnabledAgentMayMove. -/
theorem wit_pick : ((State.reset.placeHostOp 1#32).pick.map (fun p => p.1)) = some .exe ∧ blank.enabled .seq = true ∧
    (blank.pick.map (fun p => p.1)) = some .seq := by decide
/-- FailedCommandsArePrecise. -/
theorem wit_failed : got (blank.executeEntry ⟨0x0000001D#32, 0#32, 0#32, 0#32⟩) (fun t => t.exe.ok) = some false := by decide
/-- DrawingStaysInClip. -/
theorem wit_drawing : (Instr.clear).port = .cmdData ∧ (∀ n, Instr.clear ≠ .vScroll n) ∧ Instr.clear ≠ .swapBuffers ∧
    (∀ x y w h a, Instr.clear ≠ .readRawData x y w h a) ∧ ∃ t, exec .clear blank = .next t :=
  ⟨rfl, nofun, nofun, nofun, _, rfl⟩
/-- OnlyCommandsChangePaint. -/
theorem wit_microStep : (∀ d, Micro.jobEnd ≠ .drainLoop d) ∧ ∃ t, blank.microStep .jobEnd = .next t :=
  ⟨nofun, _, rfl⟩
/-- SyncDrainEmptiesQueue: one entry, and none. -/
theorem wit_drain : (blank.placeEntry clearEntry).exe.work = .drainLoop ⟨none, false, false⟩ :: [.jobEnd] ∧
    (blank.placeEntry clearEntry).exe.ctx ≠ .vsync ∧ (blank.placeEntry clearEntry).qcount = 1 ∧
    (blank.placeEntry clearEntry).popEntry.qcount = 0 := by decide
/-- HideStepsAreHidePass. -/
theorem wit_hide : ((sprite 7 1).setWork ((sprite 7 1).hideSteps ++ [.jobEnd])).exe.work =
    ((sprite 7 1).setWork ((sprite 7 1).hideSteps ++ [.jobEnd])).hideSteps ++ [.jobEnd] := by decide
/-- SequencerWritesNoMemory. -/
theorem wit_noPending : blank.geom.pending = false ∧ blank.seq.phase = .fetch := by decide

/-- A state in which HOST has a register write to make. -/
def hostState : State := { State.reset with env := ⟨[.regWrite 4 0x010 9#32], [], 0, 0#32⟩ }

theorem wit_hostState_steps : ∃ t, step hostState = .next t := ⟨_, rfl⟩
/-- StepKeepsMemoryForm, StepKeepsClipSum, StepKeepsOutputQuiet, StepKeepsReservedBits. -/
theorem wit_invariants : hostState.memoryOk ∧ hostState.paintOk ∧ hostState.outputOk ∧ hostState.reservedOk := by
  unfold State.memoryOk State.paintOk State.outputOk State.reservedOk
  decide
/-- The same invariants in a state with memory, a configured block and a running sequencer. -/
theorem wit_invariants_running : blank.memoryOk ∧ blank.paintOk ∧ blank.outputOk ∧ blank.reservedOk := by
  unfold State.memoryOk State.paintOk State.outputOk State.reservedOk
  decide

/-- A synchronous push in progress: the drain of R266 is next. -/
def pushing : State :=
  { blank with
    exe := ⟨.sdrain, false, .sync, true, [.pushEntry clearEntry, .drainBegin, .jobEnd]⟩
    held := .syncPush clearEntry }

theorem wit_pushing_steps : ∃ t, step (pushing.setSched [.exe]) = .next t := ⟨_, rfl⟩
/-- StepKeepsJobs, StepKeepsQueueBound: an idle executor. -/
theorem wit_jobOk : hostState.jobOk ∧ hostState.partialOk ∧ hostState.roomOk := by
  refine ⟨⟨Or.inl (by decide), fun h => ?_, fun h => ?_⟩, by unfold State.partialOk; decide, by decide, by decide, ?_⟩
  · exact absurd h (by decide)
  · exact absurd h (by decide)
  · intro pre e post h
    cases pre <;> simp [hostState, State.reset] at h
/-- StepKeepsJobs, StepKeepsQueueBound: a job in progress. -/
theorem wit_jobOk_running : pushing.jobOk ∧ pushing.partialOk ∧ pushing.roomOk := by
  refine ⟨⟨Or.inr ⟨by decide, [.pushEntry clearEntry, .drainBegin], rfl, by decide⟩, fun _ => ⟨_, rfl⟩, fun h => ?_⟩,
    by unfold State.partialOk; decide, by decide, by decide, ?_⟩
  · exact absurd h (by decide)
  · intro pre e post h
    rcases pre with _ | ⟨m, _ | ⟨m', _ | ⟨m'', pre⟩⟩⟩
    · injection h with h1 h2
      subst h2
      exact ⟨rfl, rfl, fun e' => by simp, Or.inl (by decide)⟩
    · exact absurd (List.cons.inj (List.cons.inj h).2).1 (by simp)
    · exact absurd (List.cons.inj (List.cons.inj (List.cons.inj h).2).2).1 (by simp)
    · exact absurd (List.cons.inj (List.cons.inj (List.cons.inj h).2).2).2 (by simp)

/-- ErrorCaptureAndReturn: no error recorded, and one. -/
theorem wit_err : errValid blank.sys.err = false ∧ errValid 0x8000040A#32 = true := by decide
/-- RegisterAccessRules: each of the three grounds, at their boundaries. -/
theorem wit_access : (2 : Nat) ≠ 4 ∧ 0x002 % 4 ≠ 0 ∧ Reg.ofOffset State.reset.cfg 0x03C = none ∧
    Reg.ofOffset State.reset.cfg 0x140 = none ∧ Reg.ofOffset State.reset.cfg 0x2000 = none ∧
    Reg.ofOffset State.reset.cfg 0x6000 = none := by decide
/-- HeldAccesses: the three kinds of push, and the two held accesses. -/
theorem wit_held : (pushing.queue.suspend = 0#8 ∧ { blank.sys with bgexec := false }.bgexec = false) ∧
    (¬ (blank.queue.suspend = 0#8 ∧ blank.sys.bgexec = false) ∧ blank.qcount < blank.cfg.qdepth) ∧
    (¬ ((withQueue 1#8 [clearEntry]).queue.suspend = 0#8 ∧ blank.sys.bgexec = false) ∧
      ¬ { withQueue 1#8 [clearEntry] with cfg := { blank.cfg with qdepth := 1 } }.qcount < 1) ∧
    (blank.setHeld (.fullPush clearEntry)).held = .fullPush clearEntry ∧ (blank.setHeld .wait).held = .wait ∧
    (blank.setHeld (.syncPush clearEntry)).held = .syncPush clearEntry ∧
    (blank.setHeld (.hostOp 1#32)).held = .hostOp 1#32 := by decide
/-- HeldAccesses: reads that do not hold HOST, at the offsets next to `WAIT` and of another width, and HOST's next access. -/
theorem wit_reads : (∀ p ∈ [(4, 0x014), (4, 0x01C), (2, 0x018)], ¬ ((p.1 : Nat) = 4 ∧ (p.2 : Nat) = 0x018)) ∧
    hostState.held = .free ∧ hostState.env.inputs = .regWrite 4 0x010 9#32 :: [] ∧
    { hostState.env with inputs := [.regRead 4 0x018] }.inputs = .regRead 4 0x018 :: [] := by decide
/-- JobPriority: each of the three jobs. -/
theorem wit_priority : blank.exe.state = .idle ∧ blank.exe.work = [] ∧
    { blank.exe with vsReq := true }.vsReq = true ∧ blank.exe.vsReq = false ∧
    (blank.setHeld (.syncPush clearEntry)).held = .syncPush clearEntry ∧ (blank.setHeld (.hostOp 1#32)).held = .hostOp 1#32 := by
  decide

/-- FetchStep: readable and not; a length of 0 and another. -/
theorem wit_fetch : (streaming true).seq.phase = .fetch ∧ (streaming true).runOk (streaming true).seq.dptr.toNat 12 ∧
    ¬ blank.runOk 0xFFFC 12 ∧ (memWord (streaming true).mem 0x1000).extractLsb' 12 12 ≠ 0#12 ∧
    (memWord (withBytes blank 0x1000 [0, 0, 0, 0]).mem 0x1000).extractLsb' 12 12 = 0#12 := by
  unfold State.runOk
  decide
/-- EmitStep: the first byte, the last byte, and a byte that does not exist. -/
theorem wit_emit : (streaming true).seqStep.seq.phase = .emit ∧ memOk blank 0x1180 = true ∧ memOk blank 0x10000 = false ∧
    (streaming true).seqStep.seq.bidx + 1 ≠ (streaming true).seqStep.seq.latLen.toNat ∧
    (streaming true).seqStep.seqStep.seq.bidx + 1 = (streaming true).seqStep.seqStep.seq.latLen.toNat := by decide
/-- AdvanceAndFrameBoundary: inside a frame, and at its boundary with and without a pending geometry. -/
theorem wit_advance : (streaming true).seqStep.seq.latNext ≠ blank.alloc.chainBase ∧
    { blank.seq with latNext := 0x1000#32 }.latNext = blank.alloc.chainBase ∧
    (State.adjust (withArg 2#32) 5#8 (withArg 2#32).moveCandidate).geom.pending = true ∧ blank.geom.pending = false := by decide
/-- BuiltChainIsCircular: the first piece of the first line, and the last piece of the last line. -/
theorem wit_chain : blank.alloc.group.toNat = blank.pieces.length ∧
    blank.alloc.chainLen.toNat = blank.pieces.length * blank.active.vt ∧
    blank.alloc.chainBase.toNat + 12 * blank.alloc.chainLen.toNat ≤ 2 ^ 32 ∧
    (0 < blank.active.vt ∧ blank.pieces[0]? = some ⟨.blank, 2, 0⟩) ∧
    7 < blank.active.vt ∧ blank.pieces[3]? = some ⟨.row, 8, 0⟩ ∧ 8 < 4096 := by decide
/-- BuiltChainIsCircular: a viewport as wide as the raster and one in its middle, whole pieces and pieces of 4 bytes. -/
theorem wit_pieces : (0 < 16 ∧ 0 + 8 ≤ smallTimings.hvis) ∧ (0 < 4 ∧ 2 + 4 ≤ smallTimings.hvis) ∧
    (linePieces smallTimings 0 8 4)[0]? = some ⟨.blank, 2, 0⟩ ∧ (linePieces smallTimings 0 8 4)[1]? = some ⟨.sync, 3, 0⟩ ∧
    (linePieces smallTimings 0 8 4)[3]? = some ⟨.row, 4, 0⟩ ∧ (linePieces smallTimings 0 8 4)[4]? = some ⟨.row, 4, 4⟩ ∧
    blank.pieces[3]? = some ⟨.row, 8, 0⟩ ∧ 8 ≤ 4092 := by decide
/-- R228: the targets of the row pieces of lines 0, 1, 2, 4 and 5, of the blank and sync ones of lines 0 and 5, and of line 1's
row with `MSBLACK`. -/
theorem test_targets : [0, 1, 2, 4, 5].map (fun l => blank.pieceTarget l ⟨.row, 8, 0⟩ false) =
      [0x11C0, 0x11C0, 0x11C8, 0x1180, 0x11A0] ∧
    [0, 5].map (fun l => (blank.pieceTarget l ⟨.blank, 2, 0⟩ false, blank.pieceTarget l ⟨.sync, 3, 0⟩ false)) =
      [(0x1180, 0x1190), (0x11A0, 0x11B0)] ∧
    { blank with active := { blank.active with mode := 0x20C#32 } }.pieceTarget 1 ⟨.row, 8, 0⟩ false = 0x1180 := by decide
/-- SetColoursAndOptions: the largest operands. -/
theorem wit_colours : (63#16).toNat < 64 ∧ (1#16).toNat < 2 := by decide
/-- LineReachesItsEnd: a line with two points. -/
theorem wit_line : (linePoints (0, 0) (1, 1))[0]? = some (0, 0) ∧ (linePoints (0, 0) (1, 1))[0 + 1]? = some (1, 1) := by decide
/-- PathCommands: a path of three points, and an empty one. -/
theorem wit_path : blank.runOk (0xFFF4#32).toNat (4 * (3#16).toNat) ∧ blank.runOk (0x30000000#32).toNat (4 * (0#16).toNat) := by
  unfold State.runOk
  decide
/-- BadPointerOperands: the first byte past a region. -/
theorem wit_badPointers : blank.pathBad 1#16 0xFFFE#32 = some 0x10000 ∧
    lowestBad blank (byteRange (0xFFFE#32).toNat 12) = some 0x10000 ∧
    lowestBad blank (byteRange (0xFFFE#32).toNat 16) = some 0x10000 ∧
    lowestBad blank (byteRange (0xFFFE#32).toNat 8) = some 0x10000 := by decide

/-- The rows of the small configuration lie apart. -/
theorem wit_pixelsApart : blank.pixelsApart := by
  have h : ∀ p ∈ blank.vpb.points, ∀ q ∈ blank.vpb.points, blank.fbAddr p.1 p.2 = blank.fbAddr q.1 q.2 → p = q := by decide
  exact fun p q hp hq => h p (Rect.mem_points.2 hp) q (Rect.mem_points.2 hq)
/-- CopyRect: a pixel that is copied, in the clip. -/
theorem wit_copy : ((blank.absRect 0#16 0#16 3#16 0#16).inter blank.vpb).has
      ((0 : Int) - blank.paint.posX.toInt + (blank.absRect 0#16 0#16 3#16 0#16).x1, 0) = true ∧
    blank.clipVp.has (0, 0) = true := by decide
/-- RawTransfers: an empty transfer, and one whose buffer exists. -/
theorem wit_raw : ((0#16).toInt ≤ 0 ∨ (1#16).toInt ≤ 0) ∧ 0 < (2#16).toInt ∧ 0 < (1#16).toInt ∧
    (∀ i j : Nat, i < (2#16).toNat → j < (1#16).toNat →
      memOk blank (wrapAddr ((0xFFFE#32).toNat + j * (2#16).toNat + i)) = true) ∧ blank.vpb.has (1, 0) = true ∧
    blank.clipVp.has (1, 0) = true := by
  refine ⟨by decide, by decide, by decide, ?_, by decide, by decide⟩
  intro i j hi hj
  have : ∀ i < 2, ∀ j < 1, memOk blank (wrapAddr ((0xFFFE#32).toNat + j * (2#16).toNat + i)) = true := by decide
  exact this i hi j hj
/-- VScrollRotatesRows, ScrollsWithinRegion: empty, a multiple of the size, full width and narrow. -/
theorem wit_scroll : (withScroll blank 20#16 20#16 30#16 30#16).scrollRegion.isEmpty = true ∧
    ((2#16).toInt % (blank.scrollRegion.height : Int) = 0) ∧ ((8#16).toInt % (blank.scrollRegion.width : Int) = 0) ∧
    (blank.scrollRegion.isEmpty = false ∧ (1#16).toInt % (blank.scrollRegion.height : Int) ≠ 0 ∧
      (1#16).toInt % (blank.scrollRegion.width : Int) ≠ 0 ∧
      blank.scrollRegion.x1 = 0 ∧ blank.scrollRegion.x2 = (blank.vpw : Int) - 1) ∧
    blank.alloc.dblActive = false ∧ twoBuffers.alloc.dblActive = true ∧
    (withScroll blank 0#16 0#16 3#16 1#16).scrollRegion.isEmpty = false ∧
    ¬ ((withScroll blank 0#16 0#16 3#16 1#16).scrollRegion.x1 = 0 ∧
      (withScroll blank 0#16 0#16 3#16 1#16).scrollRegion.x2 = (blank.vpw : Int) - 1) ∧
    (withScroll blank 0#16 0#16 3#16 1#16).scrollRegion.has (3, 1) = true := by decide
/-- DrawGlyph: a glyph of some size, and one of none. -/
theorem wit_glyph : glyphScreen.runOk (0x2000#32).toNat 12 ∧ (glyphScreen.glyphRecord 0x2000).w ≠ 0 ∧
    (glyphScreen.glyphRecord 0x2000).h ≠ 0 ∧
    glyphScreen.runOk (glyphScreen.glyphRecord 0x2000).data
      ((glyphScreen.glyphRecord 0x2000).h * glyphBpr (glyphScreen.glyphRecord 0x2000).w) ∧
    ((withBytes blank 0x2000 (List.replicate 12 0#8)).glyphRecord 0x2000).w = 0 ∧ glyphScreen.clipVp.has (0, 1) = true := by
  unfold State.runOk
  decide
/-- RenderGlyphsBuffer: a buffer of one cell, and one of none. -/
theorem wit_glyphBuffer : bufferScreen.runOk (0x2000#32).toNat 16 ∧ (bufferScreen.glyphBuffer 0x2000).gw ≠ 0 ∧
    (bufferScreen.glyphBuffer 0x2000).gh ≠ 0 ∧ (bufferScreen.glyphBuffer 0x2000).cols ≠ 0 ∧
    (bufferScreen.glyphBuffer 0x2000).rows ≠ 0 ∧
    (bufferScreen.glyphBuffer 0x2000).cells 0#16 0#16 79#16 24#16 = [(0, 0)] ∧
    bufferScreen.runOk ((bufferScreen.glyphBuffer 0x2000).cellAddr (0, 0)) 4 ∧
    bufferScreen.runOk ((bufferScreen.glyphBuffer 0x2000).glyph (memWord bufferScreen.mem
      ((bufferScreen.glyphBuffer 0x2000).cellAddr (0, 0)))).data 1 ∧
    ((withBytes blank 0x2000 (List.replicate 16 0#8)).glyphBuffer 0x2000).gw = 0 := by
  unfold State.runOk
  decide
/-- DrawBitmap: an opaque pixel in the clip. -/
theorem wit_bitmap : bitmapScreen.runOk (0x2000#32).toNat 8 ∧
    bitmapScreen.runOk (readBitmap bitmapScreen.mem 0x2000).data
      ((readBitmap bitmapScreen.mem 0x2000).w * (readBitmap bitmapScreen.mem 0x2000).h) ∧
    2 ≤ ((memByte bitmapScreen.mem ((readBitmap bitmapScreen.mem 0x2000).pixAddr 1 1)).extractLsb' 6 2).toNat ∧
    bitmapScreen.clipVp.has (0, 1) = true := by
  unfold State.runOk
  decide
/-- SwapBuffers: one buffer; two, with no sprite. -/
theorem wit_swap : blank.alloc.dblActive = false ∧ twoBuffers.alloc.dblActive = true ∧ twoBuffers.comp.shown = false ∧
    twoBuffers.listValid = false ∧ twoBuffers.cursorWanted = false := by decide
/-- SetSprites: a record of the new list, which exists. -/
theorem wit_setSprites : 0 < (sprite 7 1).recordCount ∧ (sprite 7 1).recordBad 0 = none ∧ (sprite 7 1).comp.shown = false := by
  decide
/-- ApplyCommits, PlanPlacesRowsInPools. -/
theorem wit_applyPlan : (planOf before).isSome = true ∧
    (planOf { before with staged := { smallTimings with vpCfg := 1#32, vpSize := pairWord 8#16 1#16 } }).isSome = true := by
  decide +kernel
/-- ApplyFailsWithoutEffect: each of the five errors (`test_planErrors`) is the error of some state. -/
theorem wit_applyFails : (planError { before with staged := { smallTimings with mode := 0x008#32 } }).isSome = true := by decide
/-- GeometryOperations: candidates of both operations that are accepted, and one that each condition of R242 rejects: not
configured, a negative porch, a line and a frame that are too long, a chain that does not fit. -/
theorem wit_geometry : (withArg 2#32).geometryAccepts (withArg 2#32).moveCandidate ∧
    (withArg 0xFFFE#32).geometryAccepts (withArg 0xFFFE#32).shrinkCandidate ∧
    ¬ { withArg 2#32 with alloc := { blank.alloc with configured := false } }.geometryAccepts (withArg 2#32).moveCandidate ∧
    ¬ (withArg 3#32).geometryAccepts (withArg 3#32).moveCandidate ∧
    ¬ (withArg 0x00007FFF#32).geometryAccepts (withArg 0x00007FFF#32).shrinkCandidate ∧
    ¬ (withArg 0x7FFF0000#32).geometryAccepts (withArg 0x7FFF0000#32).shrinkCandidate ∧
    ¬ (withArg 0x00010000#32).geometryAccepts (withArg 0x00010000#32).shrinkCandidate := by
  simp only [← geometryOk_iff]
  decide
/-- GeometryOperations: with a pending geometry and without. -/
theorem wit_pending : blank.geom.pending = false ∧
    ((withArg 2#32).adjust 5#8 (withArg 2#32).moveCandidate).geom.pending = true := by decide
/-- SuspendResume: the ends of the counter's range and the values beside them. -/
theorem wit_suspend : (withQueue 254#8 []).queue.suspend ≠ 255#8 ∧ (withQueue 255#8 []).queue.suspend = 255#8 ∧
    (withQueue 0#8 []).queue.suspend = 0#8 ∧ (withQueue 2#8 []).queue.suspend ≠ 0#8 ∧
    ((withQueue 1#8 [clearEntry]).queue.suspend = 1#8 ∧ (withQueue 1#8 [clearEntry]).queue.entries ≠ []) ∧
    ¬ ((withQueue 1#8 []).queue.suspend = 1#8 ∧ (withQueue 1#8 []).queue.entries ≠ []) := by decide

/-! ### The hypotheses of the compositor, the layout and the checks -/

/-- OnlyCommandsChangePaint. -/
theorem wit_paint : blank.queue.entries = [] ∧ (⟨some 0, true, false⟩ : Drain).left = some 0 ∧
    (∀ is, hostState.env.inputs ≠ .reset :: is) ∧ ∀ is, hostState.env.inputs ≠ .resetMidStep :: is :=
  ⟨rfl, rfl, nofun, nofun⟩
/-- HideStepsAreHidePass. -/
theorem wit_show : ((sprite 7 1).setWork (.showBegin :: [.jobEnd])).exe.work = .showBegin :: [.jobEnd] ∧
    ((sprite 7 1).setWork (.refresh :: [.jobEnd])).exe.work = .refresh :: [.jobEnd] := ⟨rfl, rfl⟩

/-- RefreshSprites: a record to show, and the end of the list; the record of the pass counts for `SHOWN` once it is drawn. -/
theorem wit_records : 0 < (sprite 7 1).recordCount ∧ ¬ 1 < (sprite 7 1).recordCount := by decide
theorem test_seen : got ((sprite 7 1).microStep (.showRecords 0 false)) (fun t => t.exe.work) = some [.showRecords 1 true] ∧
    got ((sprite 7 0).microStep (.showRecords 0 false)) (fun t => t.exe.work) = some [.showRecords 1 false] := by decide

theorem wit_visibleApart : (sprite 7 1).visibleApart := by
  have h : ∀ p ∈ (sprite 7 1).vpb.points, ∀ q ∈ (sprite 7 1).vpb.points,
      (sprite 7 1).vfbAddr p.1 p.2 = (sprite 7 1).vfbAddr q.1 q.2 → p = q := by decide
  exact fun p q hp hq => h p (Rect.mem_points.2 hp) q (Rect.mem_points.2 hq)
/-- The viewport of the small configuration. -/
theorem visible_range {a : Nat} (h : (sprite 7 1).visiblePixel a) : 0x11C0 ≤ a ∧ a < 0x11D0 := by
  obtain ⟨p, hp, rfl⟩ := h
  have h : ∀ p ∈ (sprite 7 1).vpb.points,
      0x11C0 ≤ (sprite 7 1).vfbAddr p.1 p.2 ∧ (sprite 7 1).vfbAddr p.1 p.2 < 0x11D0 := by decide
  exact h p (Rect.mem_points.2 hp)

theorem inRun_range {a n x : Nat} (h : inRun a n x) (hn : a + n ≤ addrSpace) : a ≤ x ∧ x < a + n := by
  obtain ⟨k, hk, rfl⟩ := h
  rw [wrapAddr_of_lt (by omega)]
  omega

/-- The one draw of the sprite. -/
def spriteDraw : Draw := ⟨7, 0, ⟨2, 1, 0x2050⟩, 0x2060⟩

theorem sprite_draws : (sprite 7 1).draws = [spriteDraw] ∧ (sprite 7 1).recordCount = 1 ∧
    (sprite 7 1).recordAddr 0 = 0x2000 ∧ (sprite 7 1).cursorWanted = false ∧
    (sprite 7 1).recordFrame 0 = .header 0x2048 ∧ (memWord (sprite 7 1).mem 0x2004).toNat = 0x2040 ∧
    (memHalf (sprite 7 1).mem 0x200A).toNat = 0 ∧ (sprite 7 1).drawArea spriteDraw = ⟨7, 0, 1, 1⟩ := by decide

theorem sprite_buffer {a : Nat} (h : (sprite 7 1).drawBuffer spriteDraw a) : a = 0x2060 := by
  unfold State.drawBuffer at h
  rw [sprite_draws.2.2.2.2.2.2.2] at h
  have := inRun_range h (by decide)
  simp only [spriteDraw] at this
  omega
theorem sprite_source {a : Nat} (h : (sprite 7 1).drawSource spriteDraw a) : a = 0x2050 := by
  obtain ⟨i, j, hi, hj, rfl⟩ := h
  rw [sprite_draws.2.2.2.2.2.2.2] at hi hj ⊢
  have hi : i < 1 := hi
  have hj : j < 1 := hj
  have ei : i = 0 := by omega
  have ej : j = 0 := by omega
  subst ei ej
  decide
theorem sprite_bookkeeping {a : Nat} (h : (sprite 7 1).bookkeeping 0 a) : a = 0x2011 ∨ (0x2014 ≤ a ∧ a < 0x201C) := by
  unfold State.bookkeeping State.privByte at h
  rw [sprite_draws.2.2.1] at h
  rcases h with h | h
  · exact .inl (by rw [← h]; decide)
  · exact .inr (inRun_range h (by decide))
theorem sprite_input {a : Nat} (h : (sprite 7 1).passInput a) : (0x2000 ≤ a ∧ a < 0x2011) ∨ (0x2040 ≤ a ∧ a < 0x2051) := by
  obtain ⟨e1, e2, e3, e4, e5, e6, e7, e8⟩ := sprite_draws
  unfold State.passInput at h
  rw [e1, e2, e4] at h
  rcases h with ⟨k, hk, h⟩ | h | ⟨d, hd, h⟩
  · have hk0 : k = 0 := by omega
    subst hk0
    rw [e3, e5] at h
    rcases h with h | ⟨_, h | ⟨hdr, hh, h⟩⟩
    · exact .inl (inRun_range h (by decide))
    · have h := h.2.2
      rw [show (0x2000 : Nat) + 4 = 0x2004 from rfl, show (0x2000 : Nat) + 10 = 0x200A from rfl, e6, e7] at h
      have := inRun_range h (by decide)
      omega
    · cases hh
      have := inRun_range h (by decide)
      omega
  · exact absurd h.1 Bool.false_ne_true
  · rw [List.mem_singleton] at hd
    subst hd
    have := sprite_source h
    omega

/-- HideStepsAreHidePass, its identity: a pass that draws a sprite. -/
theorem wit_pass : (sprite 7 1).passApart ∧ (sprite 7 1).passReadable ∧ (sprite 7 1).passSettled := by
  obtain ⟨e1, e2, e3, e4, e5, e6, e7, e8⟩ := sprite_draws
  refine ⟨⟨wit_visibleApart, fun a h1 h2 => ?_, ?_, ?_, ?_⟩, ⟨?_, ?_, ?_⟩, ⟨rfl, ?_⟩⟩
  · have := sprite_input h1
    have := visible_range h2
    omega
  · intro k hk
    have hk0 : k = 0 := by omega
    subst hk0
    refine ⟨fun a h1 h2 => ?_, fun a h1 h2 => ?_, fun j hj => absurd hj (Nat.not_lt_zero j)⟩
    · have := sprite_bookkeeping h1
      have := sprite_input h2
      omega
    · have := sprite_bookkeeping h1
      have := visible_range h2
      omega
  · intro d hd
    rw [e1, List.mem_singleton] at hd
    subst hd
    refine ⟨fun a h1 h2 => ?_, fun a h1 h2 => ?_, fun k hk a h1 h2 => ?_⟩
    · have := sprite_buffer h1
      have := sprite_input h2
      omega
    · have := sprite_buffer h1
      have := visible_range h2
      omega
    · have hk0 : k = 0 := by omega
      subst hk0
      have := sprite_buffer h1
      have := sprite_bookkeeping h2
      omega
  · rw [e1]; exact List.pairwise_singleton _ _
  · intro k hk
    have hk0 : k = 0 := by omega
    subst hk0
    refine ⟨?_, fun _ fa => by rw [e5]; exact nofun⟩
    rw [e3]
    unfold State.runOk
    decide
  · rw [e4]; exact nofun
  · intro d hd a h
    rw [e1, List.mem_singleton] at hd
    subst hd
    rcases h with h | h
    · rw [sprite_buffer h]; decide
    · rw [sprite_source h]; decide
  · intro k hk
    have hk0 : k = 0 := by omega
    subst hk0
    decide
/-- RestoreStaysInViewport and RefreshSprites: a buffer and a bitmap that lie apart from the viewport. -/
theorem wit_drawApart : (sprite 7 1).drawApart spriteDraw ((sprite 7 1).bookkeeping 0) ∧
    (sprite 7 1).drawApart spriteDraw (fun _ => False) ∧
    apart (inRun 0x2060 (1 * 1)) (sprite 7 1).visiblePixel := by
  refine ⟨⟨wit_visibleApart, fun a h1 h2 => ?_, fun a h1 h2 => ?_, fun a h1 h2 => ?_, fun a h1 h2 => ?_,
      fun a h1 h2 => ?_, fun a h1 h2 => ?_⟩,
    ⟨wit_visibleApart, fun a h1 h2 => ?_, nofun, nofun, fun a h1 h2 => ?_, fun a h1 h2 => ?_, fun _ _ h => h⟩,
    fun a h1 h2 => ?_⟩
  · have := sprite_buffer h1
    have := visible_range h2
    omega
  · have := sprite_bookkeeping h1
    have := visible_range h2
    omega
  · have := sprite_bookkeeping h1
    have := sprite_buffer h2
    omega
  · have := sprite_source h1
    have := visible_range h2
    omega
  · have := sprite_source h1
    have := sprite_buffer h2
    omega
  · have := sprite_source h1
    have := sprite_bookkeeping h2
    omega
  · have := sprite_buffer h1
    have := visible_range h2
    omega
  · have := sprite_source h1
    have := visible_range h2
    omega
  · have := sprite_source h1
    have := sprite_buffer h2
    omega
  · have := inRun_range h1 (by decide)
    have := visible_range h2
    omega

/-- A state of which only the bytes of the given regions exist. -/
def onlyBytes (s : State) (rs : List Region) : State := { s with cfg := { s.cfg with memMap := rs } }

/-- RestoreStaysInViewport: a readable buffer and one that is not, a pixel of the area in the viewport, a record that can be
read with and without `ALLOWDRAW` and one that cannot, a cursor shown and hidden. -/
theorem wit_restore : (sprite 7 1).runOk 0x2060 (1 * 1) ∧
    (onlyBytes (sprite 7 1) [⟨0, 0x2060⟩]).lowestBadOf (inRun 0x2060 (1 * 1)) 0x2060 ∧
    (sprite 7 1).vpb.has ((7 : Int) + (0 : Nat), (0 : Int) + (0 : Nat)) = true ∧
    (onlyBytes (sprite 7 1) [⟨0, 0x2018⟩]).lowestBadOf (inRun ((onlyBytes (sprite 7 1) [⟨0, 0x2018⟩]).recordAddr 0) 32) 0x2018 ∧
    memOk (onlyBytes (sprite 7 1) [⟨0, 0x2018⟩]) (wrapAddr 0x2011) = true ∧
    memOk (onlyBytes (sprite 7 1) [⟨0, 0x2011⟩]) (wrapAddr 0x2011) = false ∧
    (sprite 7 1).runOk ((sprite 7 1).recordAddr 0) 32 ∧
    ((sprite 7 1).recordPriv 0).getLsbD 0 = false ∧ ((sprite 7 1).showPass.recordPriv 0).getLsbD 0 = true ∧
    blank.cursor.allowDraw = false ∧ { blank.cursor with allowDraw := true }.allowDraw = true := by
  refine ⟨?_, lowestBad_byteRange_some.1 (by decide), by decide, lowestBad_byteRange_some.1 (by decide), by decide, by decide,
    ?_, by decide, by decide, rfl, rfl⟩
  · unfold State.runOk; decide
  · unfold State.runOk; decide
/-- RegisterAccessRules: the parameters that the reset state has. -/
theorem wit_registers : State.reset.cfg.valid ∧ 0 < State.reset.cfg.npool ∧ 7 < State.reset.cfg.npool ∧
    State.reset.pools.length = State.reset.cfg.npool := by decide
/-- RegisterAccessRules: the last entry of each row table. -/
theorem wit_rowTables : 1023 < State.reset.cfg.maxRows ∧ 0x1000 + 4 * 1023 < 0x5000 := by decide
/-- R79: in a running configuration neighbouring registers read apart. -/
theorem test_reads : [0x0C4, 0x0C8, 0x0D0, 0x0D4, 0x0D8, 0x0DC, 0x1004, 0x1008].map (blank.regRead 4) =
    [0x1000#32, 32#32, 4#32, 0x1180#32, 16#32, 8#32, 0x11C8#32, 0#32] := by decide
/-- JobPriority: a vsync service with an entry to execute, one whose limit is 0, and one whose queue is empty. -/
theorem wit_service : badService.exe.work = .drainLoop ⟨some 1, false, true⟩ :: [.jobEnd] ∧ badService.exe.ctx = .vsync ∧
    1 ≤ badService.qcount ∧ 0 ≤ blank.qcount ∧ (⟨some 0, true, true⟩ : Drain).left = some 0 ∧ blank.queue.entries = [] := by
  decide

/-- BadPointerOperands, below the records: a glyph's bitmap, a buffer's cells and its font, a bitmap's pixels. -/
theorem wit_badData :
    ((onlyBytes glyphScreen [⟨0, 0x2012⟩]).runOk (0x2000#32).toNat 12 ∧
      (onlyBytes glyphScreen [⟨0, 0x2012⟩]).lowestBadOf (inRun 0x2010 (4 * glyphBpr 3)) 0x2012 ∧
      (onlyBytes glyphScreen [⟨0, 0x2012⟩]).glyphRecord 0x2000 = ⟨3, 4, 0x2010⟩) ∧
    ((onlyBytes bufferScreen [⟨0, 0x2030⟩]).runOk (0x2000#32).toNat 16 ∧
      ((onlyBytes bufferScreen [⟨0, 0x2030⟩]).glyphBuffer 0x2000) = ⟨2, 1, 0x2020, 1, 1, 0x2030⟩ ∧
      (onlyBytes bufferScreen [⟨0, 0x2030⟩]).lowestBadOf (fun a => ∃ c ∈ [(0, 0)],
        inRun ((GlyphBuffer.mk 2 1 0x2020 1 1 0x2030).cellAddr c) 4 a) 0x2030) ∧
    ((onlyBytes bufferScreen [⟨0, 0x2020⟩, ⟨0x2030, 4⟩]).runOk 0x2030 4 ∧
      (onlyBytes bufferScreen [⟨0, 0x2020⟩, ⟨0x2030, 4⟩]).lowestBadOf (fun a => ∃ c ∈ [((0, 0) : Nat × Nat)],
        inRun ((GlyphBuffer.mk 2 1 0x2020 1 1 0x2030).glyph (memWord bufferScreen.mem
          ((GlyphBuffer.mk 2 1 0x2020 1 1 0x2030).cellAddr c))).data (1 * glyphBpr 2) a) 0x2021) ∧
    ((onlyBytes bitmapScreen [⟨0, 0x200A⟩]).runOk (0x2000#32).toNat 8 ∧
      (onlyBytes bitmapScreen [⟨0, 0x200A⟩]).lowestBadOf (inRun 0x2008 (2 * 2)) 0x200A) := by
  refine ⟨⟨?_, lowestBad_byteRange_some.1 (by decide), by decide⟩, ⟨?_, by decide, ?_⟩, ⟨?_, ?_⟩,
    ⟨?_, lowestBad_byteRange_some.1 (by decide)⟩⟩
  · unfold State.runOk; decide
  · unfold State.runOk; decide
  · refine (lowestBad_eq_some (as := byteRange 0x2030 4) (fun a => ?_)).1 (by decide)
    rw [mem_byteRange]
    simp only [List.mem_singleton, exists_eq_left]
    exact Iff.rfl
  · unfold State.runOk; decide
  · refine (lowestBad_eq_some (as := byteRange 0x2021 1) (fun a => ?_)).1 (by decide)
    rw [mem_byteRange]
    simp only [List.mem_singleton, exists_eq_left]
    exact Iff.rfl
  · unfold State.runOk; decide
/-- BadPointerOperands, a raw transfer of two pixels whose second buffer byte does not exist. -/
theorem wit_badRaw : 0 < (2#16).toInt ∧ 0 < (1#16).toInt ∧
    (onlyBytes blank [⟨0, 0x2001⟩]).lowestBadOf (fun a => ∃ i j : Nat, i < (2#16).toNat ∧ j < (1#16).toNat ∧
      blank.clipVp.has ((blank.absPoint 0#16 0#16).1 + i, (blank.absPoint 0#16 0#16).2 + j) = true ∧
      wrapAddr ((0x2000#32).toNat + j * (2#16).toNat + i) = a) 0x2001 := by
  refine ⟨by decide, by decide, ⟨1, 0, by decide⟩, by decide, ?_⟩
  rintro a ⟨i, j, hi, hj, -, rfl⟩ h
  have : ∀ i < 2, ∀ j < 1, memOk (onlyBytes blank [⟨0, 0x2001⟩]) (wrapAddr ((0x2000#32).toNat + j * (2#16).toNat + i)) = false →
      0x2001 ≤ wrapAddr ((0x2000#32).toNat + j * (2#16).toNat + i) := by decide
  exact this i hi j hj h

/-- The layout invariant holds of the small configuration, with one buffer and with two. -/
theorem wit_layout : blank.layoutOk ∧ twoBuffers.layoutOk := by
  refine ⟨⟨by decide, by decide, fun _ => ⟨by unfold State.chainOk; decide, ?_⟩⟩,
    ⟨by decide, by decide, fun _ => ⟨by unfold State.chainOk; decide, ?_⟩⟩⟩
  · intro b y hb hy
    cases b
    · have h : ∀ y < 2, (blank.rows.entry false y).toNat + blank.vpw ≤ 2 ^ 32 ∧ ∀ z < 2, (false, y) ≠ (false, z) →
          (blank.rows.entry false y).toNat + blank.vpw ≤ (blank.rows.entry false z).toNat ∨
          (blank.rows.entry false z).toNat + blank.vpw ≤ (blank.rows.entry false y).toNat := by decide
      refine ⟨(h y hy).1, fun c z hc hz => ?_⟩
      cases c
      · exact (h y hy).2 z hz
      · exact absurd (hc rfl) Bool.false_ne_true
    · exact absurd (hb rfl) Bool.false_ne_true
  · intro b y _ hy
    have h : ∀ (b : Bool), ∀ y < 2, (twoBuffers.rows.entry b y).toNat + twoBuffers.vpw ≤ 2 ^ 32 ∧
        ∀ (c : Bool), ∀ z < 2, (b, y) ≠ (c, z) →
          (twoBuffers.rows.entry b y).toNat + twoBuffers.vpw ≤ (twoBuffers.rows.entry c z).toNat ∨
          (twoBuffers.rows.entry c z).toNat + twoBuffers.vpw ≤ (twoBuffers.rows.entry b y).toNat := by decide
    exact ⟨(h b y hy).1, fun c z _ hz => (h b y hy).2 c z hz⟩
theorem wit_layout_steps : ∃ t, step blank = .next t := ⟨_, rfl⟩
/-- DrawGlyph, RenderGlyphsBuffer, DrawBitmap: no two pixels share a byte in their fixtures. -/
theorem wit_pixelsApart_fixtures : glyphScreen.pixelsApart ∧ bufferScreen.pixelsApart ∧ bitmapScreen.pixelsApart :=
  ⟨wit_pixelsApart, wit_pixelsApart, wit_pixelsApart⟩
/-- RenderGlyphsBuffer: a point that its cell paints, in the clip. -/
theorem wit_cellPaint : bufferScreen.clipVp.has (0, 0) = true ∧
    (bufferScreen.cellPaint (bufferScreen.glyphBuffer 0x2000) (0, 0) (0, 0)) = some 0x3F#6 := by decide

/-- RefreshSprites, a record: its header missing; invisible; static and drawn; no frame for its number, and none at all. -/
theorem wit_skipped : (onlyBytes (sprite 7 1) [⟨0, 0x2018⟩]).lowestBadOf (inRun 0x2000 32) 0x2018 ∧
    (memByte (sprite 7 0).mem 0x2010).getLsbD 0 = false ∧
    ((memByte (sprite 7 3).mem 0x2010).getLsbD 1 = true ∧ ((sprite 7 3).showPass.recordPriv 0).getLsbD 1 = true) ∧
    (memHalf (withBytes (sprite 7 1) 0x2008 [0, 0]).mem 0x2008).toNat ≤ (memHalf (sprite 7 1).mem 0x200A).toNat ∧
    (memWord (withBytes (sprite 7 1) 0x2004 [0, 0, 0, 0]).mem 0x2004).toNat = 0 :=
  ⟨lowestBad_byteRange_some.1 (by decide), by decide, by decide, by decide, by decide⟩
/-- RefreshSprites, a record to be drawn: its frame pointer missing; null; its bitmap header missing. -/
theorem wit_frame : ((memByte (sprite 7 1).mem 0x2010).getLsbD 0 = true ∧ (memByte (sprite 7 1).mem 0x2010).getLsbD 1 = false ∧
      (memHalf (sprite 7 1).mem 0x200A).toNat < (memHalf (sprite 7 1).mem 0x2008).toNat) ∧
    (onlyBytes (sprite 7 1) [⟨0, 0x2042⟩]).lowestBadOf (inRun (0x2040 + 4 * 0) 4) 0x2042 ∧
    (memWord (withBytes (sprite 7 1) 0x2040 [0, 0, 0, 0]).mem 0x2040).toNat = 0 ∧
    (onlyBytes (sprite 7 1) [⟨0, 0x204A⟩]).lowestBadOf (inRun 0x2048 8) 0x204A :=
  ⟨by decide, lowestBad_byteRange_some.1 (by decide), by decide, lowestBad_byteRange_some.1 (by decide)⟩
/-- SwapBuffers, SetSprites: sprites shown, and records to rewrite. -/
theorem wit_shown : (sprite 7 1).showPass.comp.shown = true ∧ (sprite 7 1).listValid = true ∧
    { twoBuffers with sprActive := (sprite 7 1).sprActive }.recordCount = 1 := by decide
/-- ApplyCommits: a record whose `PRIV` byte exists, and one whose does not. -/
theorem wit_priv : memOk (sprite 7 1) 0x2011 = true ∧ (sprite 7 1).privByte 0 0x2011 ∧ memOk before 0x30000011 = false := by
  unfold State.privByte
  decide
/-- ApplyFailsWithoutEffect: the checks before the allocation hold, and each pool of `test_planErrors` is too small. -/
theorem wit_nomem : before.staged.valid = true ∧ viewportOk before.cfg.maxRows before.staged = true ∧
    [before, { before with pools := [⟨0x1000#32, 0x100#32⟩] }, { before with pools := [⟨0x1000#32, 0x1C0#32⟩] }].map
      State.poolsOk = [true, true, true] ∧
    poolAlloc 4 [⟨0, 2⟩, ⟨8, 4⟩] = some (8, [⟨0, 2⟩, ⟨12, 0⟩]) ∧ poolAlloc 5 [⟨0, 2⟩, ⟨8, 4⟩] = none := by decide +kernel
/-- PlanPlacesRowsInPools: the parameters of the state with a plan. -/
theorem wit_plan_valid : before.cfg.valid := by decide

/-- RefreshSprites, a record's draw: its save buffer missing, its bitmap missing, nothing missing. -/
theorem wit_draw : (onlyBytes (sprite 7 1) [⟨0, 0x2060⟩]).lowestBadOf
      ((onlyBytes (sprite 7 1) [⟨0, 0x2060⟩]).drawBuffer spriteDraw) 0x2060 ∧
    (onlyBytes (sprite 7 1) [⟨0, 0x2050⟩, ⟨0x2060, 1⟩]).lowestBadOf
      ((onlyBytes (sprite 7 1) [⟨0, 0x2050⟩, ⟨0x2060, 1⟩]).drawSource spriteDraw) 0x2050 ∧
    memOk (onlyBytes (sprite 7 1) [⟨0, 0x2050⟩, ⟨0x2060, 1⟩]) 0x2060 = true ∧
    ∀ x, (sprite 7 1).drawBuffer spriteDraw x ∨ (sprite 7 1).drawSource spriteDraw x → memOk (sprite 7 1) x = true := by
  refine ⟨lowestBad_byteRange_some.1 (by decide), ⟨⟨0, 0, by decide⟩, by decide, ?_⟩, by decide, ?_⟩
  · intro a h _
    exact le_of_eq (sprite_source h).symm
  · rintro x (h | h)
    · rw [sprite_buffer h]; decide
    · rw [sprite_source h]; decide

/-- The small configuration with a cursor at `(2,0)`, its bitmap 1 by 1 at 0x2000, its save buffer at 0x2020. -/
def cursorScreen (rs : List Region) : State :=
  onlyBytes { withBytes blank 0x2000 [1, 0, 1, 0, 0x08, 0x20, 0, 0, 0xF0] with
    cursor := ⟨pairWord 3#16 1#16, pairWord 1#16 1#16, 0x2000#32, 0x2020#32, true, 0#32, 0#32, false⟩ } rs

/-- The one draw of the cursor. -/
def cursorDrawn : Draw := ⟨2, 0, ⟨1, 1, 0x2008⟩, 0x2020⟩

/-- RefreshSprites, the cursor: none; its header, its save buffer, its bitmap or nothing missing. -/
theorem wit_cursor : blank.cursor.en = false ∧ blank.cursor.bmp = 0#32 ∧
    ((cursorScreen []).cursor.en = true ∧ (cursorScreen []).cursor.bmp ≠ 0#32) ∧
    (cursorScreen [⟨0, 0x2004⟩]).lowestBadOf (inRun 0x2000 8) 0x2004 ∧
    (cursorScreen [⟨0, 0x2020⟩]).runOk 0x2000 8 ∧
    (cursorScreen [⟨0, 0x2020⟩]).lowestBadOf ((cursorScreen [⟨0, 0x2020⟩]).drawBuffer cursorDrawn) 0x2020 ∧
    lowestBad (cursorScreen [⟨0, 0x2008⟩, ⟨0x2020, 1⟩]) [spriteSource 2 0 ⟨1, 1, 0x2008⟩ ⟨2, 0, 1, 1⟩ (0, 0)] = some 0x2008 ∧
    (cursorScreen [⟨0, 0x10000⟩]).spriteBad 2 0 ⟨1, 1, 0x2008⟩ 0x2020 = none ∧
    (cursorScreen []).cursorDraw = some cursorDrawn := by
  refine ⟨rfl, rfl, by decide, lowestBad_byteRange_some.1 (by decide), ?_, lowestBad_byteRange_some.1 (by decide), by decide,
    by decide, by decide⟩
  unfold State.runOk
  decide

end Sys2Proof.Tests
end

section
/-!
# The interleaving of the agents (00_scope R3, log entry 4)

What `State.pick` can answer, and that the schedule decides only who moves, never who can move.
-/

namespace Sys2Proof.Machine

/-- The schedule has no part in which agents can move. -/
@[simp] theorem State.enabled_setSched (s : State) (as : List Agent) (a : Agent) :
    (s.setSched as).enabled a = s.enabled a := by
  cases a <;> rfl

@[simp] theorem State.mem_enabledAgents {s : State} {a : Agent} : a ∈ s.enabledAgents ↔ s.enabled a = true := by
  cases a <;> simp [State.enabledAgents]

theorem State.enabled_of_liveSched_eq_cons {s : State} {a : Agent} {as : List Agent} (h : s.liveSched = a :: as) :
    s.enabled a = true := by
  have hhead := List.head?_dropWhile_not (fun b => !s.enabled b) s.env.sched
  rw [← State.liveSched, h] at hhead
  simpa using hhead

/-- The free choice falls on one of the agents it chooses among, whatever the free value is. -/
theorem getD_mod_mem (a : Agent) (as : List Agent) (n : Nat) : (a :: as).getD (n % (as.length + 1)) a ∈ a :: as := by
  have hlt : n % (as.length + 1) < (a :: as).length := Nat.mod_lt n (Nat.succ_pos _)
  rw [List.getD_eq_getElem _ _ hlt]
  exact List.getElem_mem hlt

/-- Who moves next: the first agent of the schedule that can, or, where the schedule names none, one that can, with the
schedule used up and at most one free choice made. -/
theorem State.pick_eq_some_cases {s t : State} {a : Agent} (h : s.pick = some (a, t)) :
    (∃ as, s.liveSched = a :: as ∧ t = s.setSched as) ∨
    (s.liveSched = [] ∧ a ∈ s.enabledAgents ∧ (t = s.setSched [] ∨ t = (s.setSched []).nextTick)) := by
  unfold State.pick at h
  split at h
  case h_1 b bs hlive =>
    cases h
    exact .inl ⟨bs, hlive, rfl⟩
  case h_2 hlive =>
    split at h
    case h_1 => cases h
    case h_2 b hagents =>
      cases h
      exact .inr ⟨hlive, by simp [hagents], .inl rfl⟩
    case h_3 b bs _ hagents =>
      cases h
      exact .inr ⟨hlive, hagents ▸ getD_mod_mem b bs _, .inr rfl⟩

theorem State.enabled_of_pick {s t : State} {a : Agent} (h : s.pick = some (a, t)) : s.enabled a = true := by
  obtain ⟨as, hlive, -⟩ | ⟨-, hmem, -⟩ := pick_eq_some_cases h
  · exact enabled_of_liveSched_eq_cons hlive
  · exact mem_enabledAgents.1 hmem

/-- Picking an agent uses up the schedule and the free choices, and nothing else. -/
theorem State.pick_frame {s t : State} {a : Agent} (h : s.pick = some (a, t)) :
    t = { s with env := { s.env with sched := t.env.sched, tick := t.env.tick } } := by
  obtain ⟨as, -, rfl⟩ | ⟨-, -, rfl | rfl⟩ := pick_eq_some_cases h <;> rfl

/-- An agent that can move is the one that moves when the schedule begins with it. -/
theorem State.pick_setSched_cons {s : State} {a : Agent} (as : List Agent) (h : s.enabled a = true) :
    (s.setSched (a :: as)).pick = some (a, s.setSched as) := by
  have hlive : (s.setSched (a :: as)).liveSched = a :: as := by simp [State.liveSched, h]
  rw [State.pick, hlive]
  rfl

theorem step_of_pick {s t : State} {a : Agent} (h : s.pick = some (a, t)) : step s = t.agentStep a := by
  rw [step, State.systemStep, h]

/-- Settles O8: `pick` answers enabled agents and touches the model's own fields alone, and the schedule of one enabled
agent makes it move. -/
theorem anyEnabledAgentMayMove : Obligations.AnyEnabledAgentMayMove :=
  ⟨fun _ _ _ h => ⟨State.enabled_of_pick h, State.pick_frame h⟩,
    fun _ _ h => step_of_pick (State.pick_setSched_cons [] h)⟩

end Sys2Proof.Machine
end

section
/-!
# What the instructions do (42_paint to 45_sprites, 40_video R210 to R243, 41_queue R264, R275 to R278)

One inversion lemma for the commands and one for the host operations: a command stores a write set, rewrites paint fields, records
an error, rotates rows, asks for a refresh or swaps the buffers, and nothing else. What a command leaves alone follows from it.
-/

namespace Sys2Proof.Machine

/-- The paint state after one command has set a part of it (42_paint R310 to R317). -/
inductive PaintUpdate (p : Paint) : Paint → Prop where
  | pen (c : Colour) : PaintUpdate p { p with pen := c }
  | brush (c : Colour) : PaintUpdate p { p with brush := c }
  | move (q : Point) : PaintUpdate p (p.moveTo q)
  | glyphOpt (o : Half) : PaintUpdate p { p with glyphOpt := o }
  | swap (b : Bool) : PaintUpdate p { p with swap := b }
  | scroll (x1 y1 x2 y2 : Half) : PaintUpdate p { p with scroll := norm16 x1 y1 x2 y2 }
  | origin (x y : Half) : PaintUpdate p { p with originX := x, originY := y, clipAbs := absClip p.clipRel x y }
  | clip (x1 y1 x2 y2 : Half) : PaintUpdate p { p with
      clipRel := norm16 x1 y1 x2 y2
      clipAbs := absClip (norm16 x1 y1 x2 y2) p.originX p.originY }

/-- The state with the sprites hidden, if they were shown. -/
def State.hidden (s : State) : State := if s.comp.shown then s.hidePass else s

/-- The state after the buffers have been swapped, with the passes around the swap (44_blit R405). -/
def State.swapped (s : State) : State :=
  let t := s.hidden.swapTables.updatePrivs privUndrawn
  if t.anySprite then t.refreshPass else t

/-- The state after the staged sprite list has become the active one, with the hide pass before it (45_sprites R440). -/
def State.spritesSet (s : State) : State :=
  (({ s.hidden with sprActive := s.hidden.sprStaged }).updatePrivs (fun _ => 0x00#8)).requestRefresh

/-- What a command can do. -/
inductive CommandEffect (s : State) : State → Prop where
  | same : CommandEffect s s
  | store (cs : List (Nat × Byte)) : CommandEffect s (s.writeCells cs)
  | storeMove (cs : List (Nat × Byte)) (q : Point) : CommandEffect s ((s.writeCells cs).setPaint (s.paint.moveTo q))
  | paint (p : Paint) (h : PaintUpdate s.paint p) : CommandEffect s (s.setPaint p)
  | fail (op : Byte) (fa : Nat) : CommandEffect s (s.raiseCmd op .busExe fa)
  | rotate (e : Rect) (m : Int) : CommandEffect s (s.rotateRows e m)
  | refresh : CommandEffect s s.requestRefresh
  | swap (h : s.alloc.dblActive = true) : CommandEffect s s.swapped

/-- What a host operation can do (30_encoding R168). -/
inductive HostOpEffect (s : State) : State → Prop where
  | error (op : Byte) (code : ErrCode) : HostOpEffect s (s.raise .host op code 0#32)
  | commit (p : Plan) : HostOpEffect s (s.commitPlan p)
  | drain : HostOpEffect s (s.beginDrain .sync none)
  | suspend (v : BitVec 8) : HostOpEffect s (s.setSuspend v)
  | resume (v : BitVec 8) : HostOpEffect s ((s.setSuspend v).beginDrain .sync none)
  | geometry (g : Geom) : HostOpEffect s { s with geom := g }
  | sprites : HostOpEffect s s.spritesSet
  | abort : HostOpEffect s { s with queue := { s.queue with partialCount := 0#2, partialLen := 0#2 } }

theorem CommandEffect.drawGlyphRecord (s : State) (a : Nat) : CommandEffect s (s.drawGlyphRecord a) := by
  unfold State.drawGlyphRecord
  dsimp only
  split
  · exact .same
  · split
    · exact .fail _ _
    · exact .store _

theorem CommandEffect.renderCells (s : State) (b : GlyphBuffer) (cs : List (Nat × Nat)) :
    CommandEffect s (s.renderCells b cs) := by
  unfold State.renderCells
  split
  · exact .fail _ _
  · split
    · exact .fail _ _
    · exact .store _

/-- `VSCROLL` rotates the rows of a region of the viewport's width and copies those of a narrower one. -/
theorem CommandEffect.vScroll {s t : State} {n : Half} (h : execVScroll n s = .next t) : CommandEffect s t := by
  unfold execVScroll at h
  dsimp only at h
  injection h with h
  split at h
  · exact h ▸ .same
  · split at h
    · exact h ▸ .same
    · split at h
      · exact h ▸ .rotate _ _
      · exact h ▸ .store _

theorem exec_commandEffect {i : Instr} {s t : State} (hi : i.port = .cmdData) (h : exec i s = .next t) : CommandEffect s t := by
  cases i with
  | setPenColor | setBrushColor | moveTo | setGlyphOptions | setPaintOptions | setScrollingRegion | setOrigin
  | setClippingRect =>
    injection h with h
    exact h ▸ .paint _ (by constructor)
  | lineTo => injection h with h; exact h ▸ .storeMove _ _
  | refreshSprites => injection h with h; exact h ▸ .refresh
  | setPixel | fillRect | fillEllipse | drawEllipse | clear | invertRect | copyRect | swapFgBg =>
    injection h with h
    exact h ▸ .store _
  | fillPath | drawPath =>
    simp only [exec, execFillPath, execDrawPath, Host.Outcome.next.injEq] at h
    split at h
    · exact h ▸ .fail _ _
    · exact h ▸ .store _
  | drawBitmap =>
    simp only [exec, execDrawBitmap, Host.Outcome.next.injEq] at h
    split at h
    · exact h ▸ .fail _ _
    · split at h
      · exact h ▸ .fail _ _
      · exact h ▸ .store _
  | readRawData | writeRawData =>
    simp only [exec, execReadRawData, execWriteRawData, Host.Outcome.next.injEq] at h
    split at h
    · exact h ▸ .same
    · split at h
      · exact h ▸ .fail _ _
      · exact h ▸ .store _
  | drawGlyph =>
    simp only [exec, execDrawGlyph, Host.Outcome.next.injEq] at h
    split at h
    · exact h ▸ .fail _ _
    · exact h ▸ .drawGlyphRecord _ _
  | renderGlyphsBuffer =>
    simp only [exec, execRenderGlyphsBuffer, Host.Outcome.next.injEq] at h
    split at h
    · exact h ▸ .fail _ _
    · split at h
      · exact h ▸ .same
      · exact h ▸ .renderCells _ _ _
  | vScroll => exact .vScroll h
  | hScroll =>
    simp only [exec, execHScroll, Host.Outcome.next.injEq] at h
    split at h
    · exact h ▸ .same
    · split at h
      · exact h ▸ .same
      · exact h ▸ .store _
  | swapBuffers =>
    simp only [exec, execSwapBuffers, Host.Outcome.next.injEq] at h
    split at h
    · exact h ▸ .same
    next hd => exact h ▸ .swap (by simpa using hd)
  | hostopApply | hostopDrain | hostopSuspend | hostopResume | hostopMoveScreen | hostopShrinkScreen | hostopSetSprites
  | hostopCmdAbort => cases hi

theorem HostOpEffect.adjust (s : State) (op : Byte) (c : Porches) : HostOpEffect s (s.adjust op c) := by
  unfold State.adjust
  split
  · exact .geometry _
  · exact .error _ _

theorem exec_hostOpEffect {i : Instr} {s t : State} (hi : i.port = .hostop) (h : exec i s = .next t) : HostOpEffect s t := by
  cases i with
  | hostopApply =>
    simp only [exec, execHostopApply, Host.Outcome.next.injEq] at h
    split at h
    · exact h ▸ .error _ _
    · exact h ▸ .commit _
  | hostopDrain => injection h with h; exact h ▸ .drain
  | hostopSuspend =>
    simp only [exec, execHostopSuspend, Host.Outcome.next.injEq] at h
    split at h
    · exact h ▸ .error _ _
    · exact h ▸ .suspend _
  | hostopResume =>
    simp only [exec, execHostopResume, Host.Outcome.next.injEq] at h
    split at h
    · exact h ▸ .error _ _
    · split at h
      · exact h ▸ .resume _
      · exact h ▸ .suspend _
  | hostopMoveScreen => injection h with h; exact h ▸ .adjust _ _ _
  | hostopShrinkScreen => injection h with h; exact h ▸ .adjust _ _ _
  | hostopSetSprites => injection h with h; exact h ▸ .sprites
  | hostopCmdAbort => injection h with h; exact h ▸ .abort
  | _ => cases hi

/-! ### The decoders answer instructions of their own port -/

theorem port_build (op : Opcode) (e : Entry) : (op.build e).port = .cmdData := by
  cases op <;> rfl

theorem port_of_decodeEntry {e : Entry} {i : Instr} (h : decodeEntry e = .ok i) : i.port = .cmdData := by
  unfold decodeEntry at h
  split at h
  · cases h
  · split at h
    · cases h
    · split at h
      · cases h
      · injection h with h
        exact h ▸ port_build _ _

theorem port_of_decodeHostOp {v : Word} {i : Instr} (h : decodeHostOp v = .ok i) : i.port = .hostop := by
  unfold decodeHostOp at h
  split at h <;> cases h <;> rfl

/-- `EXECUTE` of an entry records the error of a common check or has the effect of a command (41_queue R268). -/
theorem State.executeEntry_cases {s t : State} {e : Entry} (h : s.executeEntry e = .next t) :
    (∃ op code, t = (s.setExe { s.exe with ok := true }).raiseCmd op code 0) ∨
      CommandEffect (s.setExe { s.exe with ok := true }) t := by
  unfold State.executeEntry at h
  dsimp only at h
  split at h
  · injection h with h
    exact .inl ⟨_, _, h.symm⟩
  next hd => exact .inr (exec_commandEffect (port_of_decodeEntry hd) h)

/-- EXE's host-operation step records `BAD_HOSTOP` or has the effect of a host operation (41_queue R264). -/
theorem State.hostOpStep_effect {s t : State} {v : Word} (h : s.hostOpStep v = .next t) : HostOpEffect s t := by
  unfold State.hostOpStep at h
  split at h
  · injection h with h
    exact h ▸ .error _ _
  next hd => exact exec_hostOpEffect (port_of_decodeHostOp hd) h

end Sys2Proof.Machine
end

section
/-!
# What the instructions leave alone

Each class of steps has a projection that forgets what the class may change; a frame lemma says that the projection stays the
same, and a field that the projection keeps is read off it by `congrArg`.
-/

namespace Sys2Proof.Machine

/-! ### Fields that no pass changes -/

theorem active_of_fixed {s t : State} (h : t.fixed = s.fixed) : t.active = s.active := (congrArg State.active h :)
theorem alloc_of_fixed {s t : State} (h : t.fixed = s.fixed) : t.alloc = s.alloc := (congrArg State.alloc h :)
theorem paint_of_fixed {s t : State} (h : t.fixed = s.fixed) : t.paint = s.paint := (congrArg State.paint h :)
theorem queue_of_fixed {s t : State} (h : t.fixed = s.fixed) : t.queue = s.queue := (congrArg State.queue h :)
theorem exe_of_fixed {s t : State} (h : t.fixed = s.fixed) : t.exe = s.exe := (congrArg State.exe h :)
theorem rows_of_fixed {s t : State} (h : t.fixed = s.fixed) : t.rows = s.rows := (congrArg State.rows h :)
theorem seq_of_fixed {s t : State} (h : t.fixed = s.fixed) : t.seq = s.seq := (congrArg State.seq h :)

/-! ### Commands -/

/-- The part of a state that no command changes: all but memory, the paint state, the row tables, the cursor's saved fields, the
compositor's flags, the error record and the success flag (41_queue R268). -/
def State.uncommanded (s : State) : State :=
  { s.fixed with paint := State.reset.paint, rows := State.reset.rows, exe := { s.exe with ok := true } }

theorem uncommanded_of_fixed {s t : State} (h : t.fixed = s.fixed) : t.uncommanded = s.uncommanded := by
  show t.fixed.uncommanded = s.fixed.uncommanded
  rw [h]

@[simp] theorem fixed_hidden (s : State) : s.hidden.fixed = s.fixed := by
  unfold State.hidden
  split
  · exact fixed_hidePass s
  · rfl

theorem fixed_swapTables_of_fixed {s t : State} (h : t.fixed = s.fixed) : t.swapTables.fixed = s.swapTables.fixed := by
  show t.fixed.swapTables.fixed = s.fixed.swapTables.fixed
  rw [h]

/-- A swap exchanges the buffers; all else that it does is the work of passes. -/
theorem fixed_swapped (s : State) : s.swapped.fixed = s.swapTables.fixed := by
  have hswap : (s.hidden.swapTables.updatePrivs privUndrawn).fixed = s.swapTables.fixed :=
    (fixed_updatePrivs _ _).trans (fixed_swapTables_of_fixed (fixed_hidden s))
  unfold State.swapped
  dsimp only
  split
  · rw [fixed_refreshPass, hswap]
  · exact hswap

/-- A rotation writes one row table; the rest of what it does is in memory. -/
theorem fixed_rotateRows (s : State) (e : Rect) (m : Int) : (s.rotateRows e m).fixed =
    { s with rows := s.rows.setTable s.drawTbl (rotateTable (s.rows.table s.drawTbl) e m) }.fixed := by
  unfold State.rotateRows
  dsimp only
  split <;> rfl

theorem CommandEffect.uncommanded {s t : State} (h : CommandEffect s t) : t.uncommanded = s.uncommanded := by
  cases h with
  | same | store | storeMove | paint | fail | refresh => rfl
  | rotate e m => exact (uncommanded_of_fixed (fixed_rotateRows s e m)).trans rfl
  | swap hd => exact (uncommanded_of_fixed (fixed_swapped s)).trans rfl

theorem State.executeEntry_uncommanded {s t : State} {e : Entry} (h : s.executeEntry e = .next t) :
    t.uncommanded = s.uncommanded := by
  obtain ⟨op, code, rfl⟩ | heff := State.executeEntry_cases h
  · rfl
  · exact heff.uncommanded

@[simp] theorem Rows.visBuf_setTable (r : Rows) (b : Bool) (l : List Word) : (r.setTable b l).visBuf = r.visBuf := by
  unfold Rows.setTable
  split <;> rfl

/-- Only a swap changes which buffer is visible, and only with double buffering (44_blit R405). -/
theorem CommandEffect.visBuf {s t : State} (h : CommandEffect s t) (hs : s.alloc.dblActive = false) :
    t.rows.visBuf = s.rows.visBuf := by
  cases h with
  | same | store | storeMove | paint | fail | refresh => rfl
  | rotate e m =>
    rw [rows_of_fixed (fixed_rotateRows s e m)]
    exact Rows.visBuf_setTable _ _ _
  | swap hd => rw [hs] at hd; cases hd

/-! ### Host operations -/

/-- The part of a state that no host operation changes: the paint state, what HOST writes, the queued entries and the request that
HOST is held on (40_video R219, 41_queue R264). -/
def State.unoperated (s : State) : State :=
  { s.fixed with
    active := State.reset.active
    alloc := State.reset.alloc
    geom := State.reset.geom
    sprActive := State.reset.sprActive
    rows := State.reset.rows
    seq := State.reset.seq
    queue := { s.queue with partialCount := 0#2, partialLen := 0#2, suspend := 0#8 }
    exe := { s.exe with vsReq := false, ctx := .host, work := [] } }

@[simp] theorem fixed_requestRefresh (s : State) : s.requestRefresh.fixed = s.fixed := rfl

theorem fixed_startSeq_of_fixed {s t : State} (h : t.fixed = s.fixed) : t.startSeq.fixed = s.startSeq.fixed := by
  show t.fixed.startSeq.fixed = s.fixed.startSeq.fixed
  rw [h]

theorem fixed_commitSprites (s : State) : s.commitSprites.fixed = s.fixed := by
  have hhidden (u : State) : ({ u with cursor := { u.cursor with allowDraw := false } } : State).fixed = u.fixed := rfl
  unfold State.commitSprites
  dsimp only
  split
  · rw [fixed_requestRefresh, hhidden, foldl_fixed fixed_clearPriv]; rfl
  · rw [hhidden, foldl_fixed fixed_clearPriv]; rfl

/-- A commit is that of the registers, row tables and geometry, and the start of SEQ, as far as no pass reaches. -/
theorem fixed_commitPlan (s : State) (p : Plan) : (s.commitPlan p).fixed = (s.commitRegs p).startSeq.fixed :=
  (fixed_startSeq_of_fixed (fixed_commitSprites _)).trans rfl

/-- `SETSPRITES` copies the staged list; all else that it does is the work of a pass and in memory. -/
theorem fixed_spritesSet (s : State) : s.spritesSet.fixed = ({ s with sprActive := s.sprStaged } : State).fixed := by
  rw [State.spritesSet, fixed_requestRefresh, fixed_updatePrivs]
  show ({ s.hidden.fixed with sprActive := s.hidden.fixed.sprStaged } : State).fixed = _
  rw [fixed_hidden]
  rfl

theorem unoperated_of_fixed {s t : State} (h : t.fixed = s.fixed) : t.unoperated = s.unoperated := by
  show t.fixed.unoperated = s.fixed.unoperated
  rw [h]

theorem HostOpEffect.unoperated {s t : State} (h : HostOpEffect s t) : t.unoperated = s.unoperated := by
  cases h with
  | error | drain | suspend | resume | geometry | abort => rfl
  | commit p => exact (unoperated_of_fixed (fixed_commitPlan s p)).trans rfl
  | sprites => exact (unoperated_of_fixed (fixed_spritesSet s)).trans rfl

/-! ### The other steps of a job -/

/-- The part of a state that no step of a job changes, but for a command's and a host operation's: all but the queued entries,
the job itself and HOST's release (41_queue R262). -/
def State.unworked (s : State) : State :=
  { s.fixed with
    queue := { s.queue with entries := [] }
    exe := { s.exe with state := .idle, ctx := .host, ok := true, work := [] }
    held := .free }

theorem unworked_of_fixed {s t : State} (h : t.fixed = s.fixed) : t.unworked = s.unworked := by
  show t.fixed.unworked = s.fixed.unworked
  rw [h]

@[simp] theorem unworked_pushWork (s : State) (ms : List Micro) : (s.pushWork ms).unworked = s.unworked := rfl

/-- A step that executes no entry and performs no host operation. -/
def Micro.quiet (s : State) : Micro → Prop
  | .hostOp _ => False
  | .drainLoop d => s.queue.entries = [] ∨ d.left = some 0
  | .pushEntry _ => True
  | .drainBegin => True
  | .drainEnd _ => True
  | .hideCursor => True
  | .hideRecords _ => True
  | .refresh => True
  | .showBegin => True
  | .showRecords _ _ => True
  | .showCursor _ => True
  | .jobEnd => True

/-- A drain with nothing to execute goes on with its tail (41_queue R269). -/
theorem State.drainStep_tail {s : State} {d : Drain} (h : s.queue.entries = [] ∨ d.left = some 0) :
    s.drainStep d = .next (s.drainTail d) := by
  unfold State.drainStep
  split
  · rfl
  next e es he =>
    rw [if_pos]
    simpa [he] using h

/-- A drain with an entry to execute executes it and goes on (41_queue R268, R269). -/
theorem State.drainStep_entry {s : State} {d : Drain} {e : Entry} {es : List Entry} (he : s.queue.entries = e :: es)
    (hd : d.left ≠ some 0) : s.drainStep d = mapNext (State.drainNext d) (s.executeEntry e) := by
  unfold State.drainStep
  rw [he]
  exact if_neg hd

theorem mapNext_eq_next {f : State → State} {o : Host.Outcome State Fault Refusal} {t : State} (h : mapNext f o = .next t) :
    ∃ u, o = .next u ∧ t = f u := by
  cases o with
  | next u => injection h with h; exact ⟨u, rfl, h.symm⟩
  | fault r => cases h
  | refused r => cases h

/-- The tail of a drain only gives EXE more steps. -/
theorem State.drainTail_eq (s : State) (d : Drain) : s.drainTail d =
    s.pushWork (if d.hid || s.comp.refreshPending then [.refresh, .drainEnd d.ran] else [.drainEnd d.ran]) :=
  (apply_ite s.pushWork _ _ _).symm

theorem State.endJob_eq (s : State) : s.endJob = { s with
    exe := { s.exe with state := .idle }
    held := if s.exe.state = .vservice then s.held else .free } := by
  unfold State.endJob
  dsimp only
  split <;> rfl

theorem State.unworked_showRecordsStep (s : State) (k : Nat) (seen : Bool) :
    (s.showRecordsStep k seen).unworked = s.unworked := by
  unfold State.showRecordsStep
  split
  · exact (unworked_pushWork _ _).trans (unworked_of_fixed (fixed_showRecord s k))
  · rfl

theorem State.microStep_unworked {s t : State} {m : Micro} (hm : m.quiet s) (h : s.microStep m = .next t) :
    t.unworked = s.unworked := by
  cases m with
  | hostOp v => exact hm.elim
  | drainLoop d =>
    rw [State.microStep, State.drainStep_tail hm] at h
    injection h with h
    rw [← h, State.drainTail_eq, unworked_pushWork]
  | pushEntry | drainBegin | refresh | showBegin => injection h with h; exact h ▸ rfl
  | drainEnd ran =>
    injection h with h
    subst h
    unfold State.drainFinish
    split <;> rfl
  | hideCursor => injection h with h; exact h ▸ unworked_of_fixed (fixed_hideCursor s)
  | hideRecords k =>
    cases k with
    | zero => injection h with h; exact h ▸ rfl
    | succ k => injection h with h; exact h ▸ (unworked_pushWork _ _).trans (unworked_of_fixed (fixed_hideRecord s k))
  | showRecords k seen => injection h with h; exact h ▸ State.unworked_showRecordsStep s k seen
  | showCursor seen => injection h with h; exact h ▸ unworked_of_fixed (fixed_showFinish s seen)
  | jobEnd =>
    injection h with h
    rw [← h, State.endJob_eq]
    rfl

/-- What a step of a job can be: it executes the head of the queue, performs a host operation, or is quiet. -/
theorem State.microStep_cases {s t : State} {m : Micro} (h : s.microStep m = .next t) :
    (∃ d e es u, m = .drainLoop d ∧ d.left ≠ some 0 ∧ s.queue.entries = e :: es ∧ s.executeEntry e = .next u ∧
      t = u.drainNext d) ∨
    (∃ v, m = .hostOp v ∧ HostOpEffect s t) ∨ m.quiet s := by
  cases m with
  | hostOp v => exact .inr (.inl ⟨v, rfl, State.hostOpStep_effect h⟩)
  | drainLoop d =>
    by_cases hd : d.left = some 0
    · exact .inr (.inr (.inr hd))
    cases he : s.queue.entries with
    | nil => exact .inr (.inr (.inl he))
    | cons e es =>
      rw [State.microStep, State.drainStep_entry he hd] at h
      obtain ⟨u, hu, rfl⟩ := mapNext_eq_next h
      exact .inl ⟨d, e, es, u, rfl, hd, rfl, hu, rfl⟩
  | _ => exact .inr (.inr trivial)

/-- The steps that follow an entry in a drain (41_queue R269, R273). -/
def State.nextSteps (s : State) (d : Drain) : List Micro :=
  if s.exe.ok = false ∧ s.exe.ctx = .vsync then [.drainEnd true] else [.drainLoop ⟨d.left.map (fun n => n - 1), true, d.hid⟩]

/-- What follows an entry in a drain changes the queue, the job and the refresh request only (41_queue R268, R269, R273). -/
theorem State.drainNext_eq (s : State) (d : Drain) : s.drainNext d = { s with
    queue := { s.queue with entries := s.queue.entries.tail }
    comp := (s.drainNext d).comp
    exe := { s.exe with work := s.nextSteps d ++ s.exe.work } } := by
  by_cases h : s.exe.ok = false ∧ s.exe.ctx = .vsync
  · have hnext : s.drainNext d = (if d.hid then s.popEntry.requestRefresh else s.popEntry).pushWork [.drainEnd true] := if_pos h
    have hsteps : s.nextSteps d = [.drainEnd true] := if_pos h
    rw [hnext, hsteps]
    split <;> rfl
  · have hnext : s.drainNext d = s.popEntry.pushWork [.drainLoop ⟨d.left.map (fun n => n - 1), true, d.hid⟩] := if_neg h
    have hsteps : s.nextSteps d = [.drainLoop ⟨d.left.map (fun n => n - 1), true, d.hid⟩] := if_neg h
    rw [hnext, hsteps]
    rfl

theorem State.unworked_drainNext (s : State) (d : Drain) : (s.drainNext d).unworked = s.unworked :=
  (congrArg State.unworked (s.drainNext_eq d)).trans rfl

/-! ### EXE -/

theorem State.exeStep_cases {s t : State} (h : s.exeStep = .next t) :
    (s.exe.work = [] ∧ t = s.startNext) ∨ ∃ m ms, s.exe.work = m :: ms ∧ (s.setWork ms).microStep m = .next t := by
  unfold State.exeStep at h
  split at h
  next hw => injection h with h; exact .inl ⟨hw, h.symm⟩
  next m ms hw => exact .inr ⟨m, ms, hw, h⟩

/-- The start of a job changes the executor only (41_queue R261). -/
theorem State.startNext_eq (s : State) : s.startNext = { s with exe := s.startNext.exe } := by
  unfold State.startNext
  split
  · rfl
  · split <;> rfl

/-- A job starts with no new request for the vsync service (41_queue R272). -/
theorem State.startNext_vsReq {s : State} (h : s.exe.vsReq = false) : s.startNext.exe.vsReq = false := by
  unfold State.startNext
  rw [if_neg (by simp [h])]
  split <;> exact h

end Sys2Proof.Machine
end

section
/-!
# What HOST, SEQ and the outside do, and the step of the whole machine (10_state R30, 40_video R230 to R236, 00_scope R3)
-/

namespace Sys2Proof.Machine

/-! ### Register writes -/

/-- A register write of HOST is ignored, goes to the assembly port, requests a host operation, or writes a register. -/
theorem State.hostWrite_cases (s : State) (width off : Nat) (v : Word) :
    s.hostWrite width off v = s ∨ s.hostWrite width off v = s.cmdData v ∨
      s.hostWrite width off v = s.setHeld (.hostOp v) ∨ ∃ r : Reg, s.hostWrite width off v = r.write v s := by
  unfold State.hostWrite
  split
  · split
    · exact .inr (.inl rfl)
    · exact .inr (.inr (.inl rfl))
    next r _ _ _ => exact .inr (.inr (.inr ⟨r, rfl⟩))
    · exact .inl rfl
  · exact .inl rfl

/-- A push holds HOST or appends the entry (41_queue R266). -/
theorem State.push_cases (s : State) (e : Entry) :
    (∃ h, s.push e = s.setHeld h) ∨ (s.qcount < s.cfg.qdepth ∧ s.push e = s.append e) := by
  unfold State.push
  split
  · exact .inl ⟨_, rfl⟩
  · split
    next hroom => exact .inr ⟨hroom, rfl⟩
    · exact .inl ⟨_, rfl⟩

/-- A word of the assembly port pushes the assembled command or is kept with those before it (41_queue R265). -/
theorem State.cmdData_cases (s : State) (w : Word) : ∃ q : Queue, q.entries = s.queue.entries ∧ q.suspend = s.queue.suspend ∧
    (s.cmdData w = (s.setQueue q).push q.cb ∨ s.cmdData w = s.setQueue q) := by
  have hassemble : (s.queue.assemble w).entries = s.queue.entries ∧ (s.queue.assemble w).suspend = s.queue.suspend := by
    unfold Queue.assemble
    split <;> exact ⟨rfl, rfl⟩
  obtain ⟨hentries, hsuspend⟩ := hassemble
  unfold State.cmdData
  dsimp only
  split
  · exact ⟨{ s.queue.assemble w with partialCount := 0#2, partialLen := 0#2 }, hentries, hsuspend, .inl rfl⟩
  · exact ⟨{ s.queue.assemble w with partialCount := (s.queue.assemble w).partialCount + 1#2 }, hentries, hsuspend, .inr rfl⟩

/-- The part of a state that no register write changes: all but the registers that HOST writes, the refresh request, the
entries, the partial command and HOST itself (10_state R30). -/
def State.unwritten (s : State) : State :=
  { s with
    sys := State.reset.sys
    staged := State.reset.staged
    pools := []
    sprStaged := State.reset.sprStaged
    cursor := { State.reset.cursor with
      saved0 := s.cursor.saved0, saved1 := s.cursor.saved1, allowDraw := s.cursor.allowDraw }
    comp := { s.comp with refreshPending := false }
    queue := { State.reset.queue with suspend := s.queue.suspend }
    held := .free }

theorem Reg.unwritten_write (r : Reg) (v : Word) (s : State) : (r.write v s).unwritten = s.unwritten := by
  cases r with
  | err =>
    unfold Reg.write State.clearErr
    dsimp only
    split <;> rfl
  | _ => rfl

theorem State.unwritten_push (s : State) (e : Entry) : (s.push e).unwritten = s.unwritten := by
  obtain ⟨h, heq⟩ | ⟨-, heq⟩ := s.push_cases e <;> exact heq ▸ rfl

theorem State.unwritten_cmdData (s : State) (w : Word) : (s.cmdData w).unwritten = s.unwritten := by
  obtain ⟨q, -, hsuspend, heq⟩ := s.cmdData_cases w
  have hq : (s.setQueue q).unwritten = s.unwritten := by simp [State.unwritten, hsuspend]
  obtain heq | heq := heq
  · rw [heq, State.unwritten_push, hq]
  · rw [heq, hq]

theorem State.unwritten_hostWrite (s : State) (width off : Nat) (v : Word) :
    (s.hostWrite width off v).unwritten = s.unwritten := by
  obtain heq | heq | heq | ⟨r, heq⟩ := s.hostWrite_cases width off v
  · rw [heq]
  · rw [heq, State.unwritten_cmdData]
  · rw [heq]; rfl
  · rw [heq, Reg.unwritten_write]

/-! ### HOST -/

/-- What HOST's next access can do (log entry 10 for the memory accesses). -/
inductive HostEffect (s : State) : State → Prop where
  | environment (e : Env) : HostEffect s { s with env := e }
  | memory (m : Memory) : HostEffect s (s.setMem m)
  | hold (h : Held) : HostEffect s (s.setHeld h)
  | data (w : Word) : HostEffect s (s.cmdData w)
  | register (r : Reg) (v : Word) : HostEffect s (r.write v s)

theorem State.hostAccess_effect (s : State) (i : Input) : HostEffect s (s.hostAccess i) := by
  cases i with
  | regWrite width off v =>
    obtain heq | heq | heq | ⟨r, heq⟩ := s.hostWrite_cases width off v <;> rw [State.hostAccess, heq]
    · exact .environment s.env
    · exact .data v
    · exact .hold _
    · exact .register r v
  | regRead width off =>
    unfold State.hostAccess State.hostRead
    dsimp only
    split
    · exact .hold _
    · exact .environment _
  | memWrite a n v =>
    unfold State.hostAccess
    dsimp only
    split
    · exact .memory _
    · exact .environment _
  | memRead a n =>
    unfold State.hostAccess
    dsimp only
    split
    · exact .environment _
    · exact .environment _
  | memReadByte a k => exact .environment _
  | reset | resetMidStep | platform => exact .environment s.env

/-- HOST's step is its next access, or the completion of a full push or a `WAIT` read (41_queue R263, R266, R279). -/
theorem State.hostStep_cases (s : State) :
    (s.held = .free ∧ ∃ e : Env, HostEffect { s with env := e } s.hostStep) ∨
    (∃ e, s.held = .fullPush e ∧ s.hostStep = (s.setHeld .free).append e) ∨
    (s.held = .wait ∧ s.hostStep = (s.setHeld .free).setReadData 0#32) ∨ s.hostStep = s := by
  unfold State.hostStep
  split
  next hfree =>
    split
    · exact .inr (.inr (.inr rfl))
    · exact .inl ⟨hfree, _, State.hostAccess_effect s.dropInput _⟩
  next e he => exact .inr (.inl ⟨e, he, rfl⟩)
  next hw => exact .inr (.inr (.inl ⟨hw, rfl⟩))
  · exact .inr (.inr (.inr rfl))
  · exact .inr (.inr (.inr rfl))

/-- The part of a state that no step of HOST changes. -/
def State.unhosted (s : State) : State := { s.unwritten with mem := [], env := State.reset.env }

theorem unhosted_of_unwritten {s t : State} (h : t.unwritten = s.unwritten) : t.unhosted = s.unhosted := by
  unfold State.unhosted
  rw [h]

theorem HostEffect.unhosted {s t : State} (h : HostEffect s t) : t.unhosted = s.unhosted := by
  cases h with
  | environment | memory | hold => rfl
  | data w => exact unhosted_of_unwritten (s.unwritten_cmdData w)
  | register r v => exact unhosted_of_unwritten (r.unwritten_write v s)

theorem State.unhosted_hostStep (s : State) : s.hostStep.unhosted = s.unhosted := by
  obtain ⟨-, e, heff⟩ | ⟨e, -, heq⟩ | ⟨-, heq⟩ | heq := s.hostStep_cases
  · exact heff.unhosted.trans rfl
  · exact (congrArg State.unhosted heq).trans rfl
  · exact (congrArg State.unhosted heq).trans rfl
  · exact congrArg State.unhosted heq

/-! ### SEQ -/

/-- The part of a state that no step of SEQ changes: all but memory, the error record, the porches and the chain's length, the
pending geometry, the sequencer itself and the request for a vsync service (40_video R230 to R243). -/
def State.unsequenced (s : State) : State :=
  { s with
    mem := []
    sys := { s.sys with err := 0#32, errAddr := 0#32, irqStatus := 0#4 }
    active := { s.active with h0 := 0#32, h1 := 0#32, v0 := 0#32, v1 := 0#32 }
    alloc := { s.alloc with group := 0#32, chainLen := 0#32 }
    geom := State.reset.geom
    seq := State.reset.seq
    exe := { s.exe with vsReq := false } }

@[simp] theorem State.unsequenced_setSeq (s : State) (q : Seq) : (s.setSeq q).unsequenced = s.unsequenced := rfl

@[simp] theorem State.unsequenced_vsyncEvent (s : State) : s.vsyncEvent.unsequenced = s.unsequenced := by
  unfold State.vsyncEvent
  dsimp only
  split <;> rfl

@[simp] theorem State.unsequenced_frameBoundary (s : State) : s.frameBoundary.unsequenced = s.unsequenced := by
  unfold State.frameBoundary
  dsimp only
  split <;> rfl

@[simp] theorem State.unsequenced_seqAdvance (s : State) : s.seqAdvance.unsequenced = s.unsequenced := by
  unfold State.seqAdvance
  dsimp only
  split
  · rw [State.unsequenced_frameBoundary, State.unsequenced_setSeq]
  · rfl

/-- The state after a descriptor is latched and its vertical-sync event raised (40_video R231, R233). -/
def State.fetched (s : State) : State :=
  if s.seqLatch.latEof then (s.setSeq s.seqLatch).vsyncEvent else s.setSeq s.seqLatch

@[simp] theorem State.unsequenced_fetched (s : State) : s.fetched.unsequenced = s.unsequenced := by
  unfold State.fetched
  split <;> simp

/-- What a step of SEQ that is not stopped can do (40_video R231, R234, R236). -/
inductive SeqEffect (s : State) : State → Prop where
  | fault (fa : Nat) : SeqEffect s (s.seqFault fa)
  | fetch : SeqEffect s (s.fetched.setSeq { s.fetched.seq with phase := .emit })
  | skip : SeqEffect s s.fetched.seqAdvance
  | emit (q : Seq) (h : q.phase = s.seq.phase) : SeqEffect s (s.setSeq q)
  | last (q : Seq) : SeqEffect s (s.setSeq q).seqAdvance

theorem State.seqStep_stop {s : State} (h : s.seq.phase = .stop) : s.seqStep = s := by
  unfold State.seqStep
  rw [h]

theorem State.seqFetch_effect (s : State) : SeqEffect s s.seqFetch := by
  have hfetched (s : State) : SeqEffect s (if s.fetched.seq.latLen = 0#12 then s.fetched.seqAdvance
      else s.fetched.setSeq { s.fetched.seq with phase := .emit }) := by
    split
    · exact .skip
    · exact .fetch
  unfold State.seqFetch
  split
  · exact .fault _
  · exact hfetched s

theorem State.seqEmit_effect (s : State) : SeqEffect s s.seqEmit := by
  unfold State.seqEmit
  split
  · dsimp only
    split
    · exact .last _
    · exact .emit _ rfl
  · exact .fault _

theorem State.seqStep_effect {s : State} (h : s.seq.phase ≠ .stop) : SeqEffect s s.seqStep := by
  unfold State.seqStep
  split
  next hstop => exact absurd hstop h
  · exact s.seqFetch_effect
  · exact s.seqEmit_effect

theorem SeqEffect.unsequenced {s t : State} (h : SeqEffect s t) : t.unsequenced = s.unsequenced := by
  cases h with
  | fault => rfl
  | fetch | skip | emit | last => simp

theorem State.unsequenced_seqStep (s : State) : s.seqStep.unsequenced = s.unsequenced := by
  by_cases h : s.seq.phase = .stop
  · rw [State.seqStep_stop h]
  · exact (State.seqStep_effect h).unsequenced

/-! ### The outside -/

/-- The outside does nothing, resets the block, cuts a step in two by a reset, or changes `MEM_OK` (70_reset R510, 60_exceptions
R478). -/
theorem State.outsideStep_cases (s : State) :
    s.outsideStep = s ∨
    (∃ is, s.env.inputs = .reset :: is ∧ s.outsideStep = s.dropInput.doReset) ∨
    (∃ is, s.env.inputs = .resetMidStep :: is ∧ s.outsideStep = s.dropInput.cutReset) ∨
    ∃ rs, s.outsideStep = s.dropInput.setMemMap rs := by
  unfold State.outsideStep
  split
  · exact .inl rfl
  next is h => exact .inr (.inl ⟨is, h, rfl⟩)
  next is h => exact .inr (.inr (.inl ⟨is, h, rfl⟩))
  next rs is h => exact .inr (.inr (.inr ⟨rs, rfl⟩))
  all_goals exact .inl rfl

/-! ### The whole machine -/

theorem State.enabled_pick {s u : State} {a : Agent} (h : s.pick = some (a, u)) : u.enabled a = true := by
  have hs : s.enabled a = true := State.enabled_of_pick h
  rw [State.pick_frame h]
  cases a <;> exact hs

/-- A step is that of some enabled agent, in a state that differs in the model's own fields, or nothing happens. -/
theorem step_cases {s t : State} (h : step s = .next t) :
    t = s ∨ ∃ (a : Agent) (e : Env), s.pick = some (a, { s with env := e }) ∧ State.enabled { s with env := e } a = true ∧
      State.agentStep { s with env := e } a = .next t := by
  unfold step State.systemStep at h
  split at h
  next a u hp =>
    have hu := State.pick_frame hp
    have hen := State.enabled_pick hp
    rw [hu] at h hp hen
    exact .inr ⟨a, _, hp, hen, h⟩
  · split at h
    · injection h with h
      exact .inl h.symm
    · cases h

/-- A property of states that the model's own fields and `MEM_OK` have no part in, that holds after a reset, and that every step
of HOST, SEQ and EXE keeps, is kept by every step. -/
theorem step_keeps {P : State → Prop} (henv : ∀ (s : State) (e : Env), P s → P { s with env := e })
    (hhost : ∀ s, P s → P s.hostStep) (hseq : ∀ s, P s → P s.seqStep) (hexe : ∀ s t, P s → s.exeStep = .next t → P t)
    (hreset : ∀ s : State, P s.doReset ∧ P s.cutReset) (hmap : ∀ (s : State) rs, P s → P (s.setMemMap rs)) :
    ∀ s t, P s → step s = .next t → P t := by
  intro s t hs h
  obtain rfl | ⟨a, e, -, -, ha⟩ := step_cases h
  · exact hs
  have hu := henv s e hs
  cases a with
  | host => injection ha with ha; exact ha ▸ hhost _ hu
  | seq => injection ha with ha; exact ha ▸ hseq _ hu
  | exe => exact hexe _ _ hu ha
  | outside =>
    injection ha with ha
    rw [← ha]
    obtain heq | ⟨is, -, heq⟩ | ⟨is, -, heq⟩ | ⟨rs, heq⟩ := State.outsideStep_cases { s with env := e } <;> rw [heq]
    · exact hu
    · exact (hreset _).1
    · exact (hreset _).2
    · exact hmap _ rs (henv _ _ hu)

end Sys2Proof.Machine
end

section
/-!
# The paint state (10_state R53 to R61)
-/

namespace Sys2Proof.Machine

/-! ### Who changes it -/

theorem State.paint_hostStep (s : State) : s.hostStep.paint = s.paint := (congrArg State.paint s.unhosted_hostStep :)

theorem State.paint_seqStep (s : State) : s.seqStep.paint = s.paint := (congrArg State.paint s.unsequenced_seqStep :)

theorem State.paint_startNext (s : State) : s.startNext.paint = s.paint := (congrArg State.paint s.startNext_eq :)

/-- A step of a job that executes no entry leaves the paint state alone. -/
theorem State.paint_microStep {s t : State} {m : Micro}
    (hm : ∀ d, m = .drainLoop d → s.queue.entries = [] ∨ d.left = some 0) (h : s.microStep m = .next t) :
    t.paint = s.paint := by
  obtain ⟨d, e, es, u, rfl, hd, he, -, -⟩ | ⟨v, -, heff⟩ | hq := State.microStep_cases h
  · obtain hnil | hzero := hm d rfl
    · rw [he] at hnil; cases hnil
    · exact absurd hzero hd
  · exact (congrArg State.paint heff.unoperated :)
  · exact (congrArg State.paint (State.microStep_unworked hq h) :)

/-- The outside changes the paint state only by a reset. -/
theorem State.paint_outsideStep (s : State) : s.outsideStep.paint = s.paint ∨
    ∃ is, s.env.inputs = .reset :: is ∨ s.env.inputs = .resetMidStep :: is := by
  obtain heq | ⟨is, hin, -⟩ | ⟨is, hin, -⟩ | ⟨rs, heq⟩ := s.outsideStep_cases
  · exact .inl (congrArg State.paint heq :)
  · exact .inr ⟨is, .inl hin⟩
  · exact .inr ⟨is, .inr hin⟩
  · exact .inl (congrArg State.paint heq :)

/-- EXE's step changes the paint state only by executing an entry. -/
theorem State.paint_exeStep {s t : State} (h : s.exeStep = .next t) :
    t.paint = s.paint ∨
      ∃ d ms e es, s.exe.work = .drainLoop d :: ms ∧ d.left ≠ some 0 ∧ s.queue.entries = e :: es := by
  obtain ⟨-, rfl⟩ | ⟨m, ms, hw, hm⟩ := State.exeStep_cases h
  · exact .inl s.paint_startNext
  obtain ⟨d, e, es, u, rfl, hd, he, -, -⟩ | ⟨v, -, heff⟩ | hq := State.microStep_cases hm
  · exact .inr ⟨d, ms, e, es, hw, hd, he⟩
  · exact .inl ((congrArg State.paint heff.unoperated :))
  · exact .inl ((congrArg State.paint (State.microStep_unworked hq hm) :))

/-- Settles O12: each agent's frame keeps the paint state, and what is left is EXE with an entry to execute, and a reset. -/
theorem onlyCommandsChangePaint : Obligations.OnlyCommandsChangePaint := by
  refine ⟨fun s => ⟨s.paint_hostStep, s.paint_seqStep, s.paint_startNext⟩,
    fun s t m hm h => State.paint_microStep (fun d hd => absurd hd (hm d)) h, ?_, ?_, ?_⟩
  · intro s d hd
    refine ⟨s.drainTail d, State.drainStep_tail hd, ?_, ?_⟩
    · rw [s.drainTail_eq]; rfl
    · rw [s.drainTail_eq]; rfl
  · intro s hr hc
    refine s.paint_outsideStep.resolve_right ?_
    rintro ⟨is, hin | hin⟩
    · exact hr is hin
    · exact hc is hin
  · intro s t h
    obtain rfl | ⟨a, e, hp, -, ha⟩ := step_cases h
    · exact .inl rfl
    have hwho : s.pick.map (fun p => p.1) = some a := by rw [hp]; rfl
    cases a with
    | host => injection ha with ha; exact .inl (ha ▸ State.paint_hostStep _)
    | seq => injection ha with ha; exact .inl (ha ▸ State.paint_seqStep _)
    | exe => exact (State.paint_exeStep ha).imp_right fun hentry => .inl ⟨hwho, hentry⟩
    | outside =>
      injection ha with ha
      subst ha
      -- The inputs are a part of the model's own fields, which picking an agent leaves as they are.
      have hin : e.inputs = s.env.inputs := congrArg (fun u => u.env.inputs) (State.pick_frame hp)
      refine (State.paint_outsideStep { s with env := e }).imp_right fun ⟨is, hr⟩ => .inr ⟨hwho, is, ?_⟩
      rw [← hin]
      exact hr

/-! ### The clip and the scrolling region (10_state R57 to R59) -/

/-- Normalizing two corners orders the edges. -/
theorem norm16_ordered (x1 y1 x2 y2 : Half) :
    (norm16 x1 y1 x2 y2).x1.toInt ≤ (norm16 x1 y1 x2 y2).x2.toInt ∧
      (norm16 x1 y1 x2 y2).y1.toInt ≤ (norm16 x1 y1 x2 y2).y2.toInt := by
  unfold norm16
  dsimp only
  constructor
  · split <;> omega
  · split <;> omega

theorem paintOk_of_paint {s t : State} (h : t.paint = s.paint) (hs : s.paintOk) : t.paintOk := by
  unfold State.paintOk
  rw [h]
  exact hs

/-- Each paint command recomputes what it has to: the absolute clip with the origin or the clip, and normalized rectangles. -/
theorem PaintUpdate.paintOk {s : State} {p : Paint} (h : PaintUpdate s.paint p) (hs : s.paintOk) : (s.setPaint p).paintOk := by
  obtain ⟨hsum, hclip, hscroll⟩ := hs
  cases h with
  | pen | brush | move | glyphOpt | swap => exact ⟨hsum, hclip, hscroll⟩
  | scroll => exact ⟨hsum, hclip, norm16_ordered _ _ _ _⟩
  | origin => exact ⟨rfl, hclip, hscroll⟩
  | clip => exact ⟨rfl, norm16_ordered _ _ _ _, hscroll⟩

theorem CommandEffect.paintOk {s t : State} (h : CommandEffect s t) (hs : s.paintOk) : t.paintOk := by
  cases h with
  | same | store | fail | refresh => exact hs
  | storeMove cs q => exact (PaintUpdate.move q).paintOk (s := s.writeCells cs) hs
  | paint p hp => exact hp.paintOk hs
  | rotate e m => exact paintOk_of_paint (paint_of_fixed (fixed_rotateRows s e m)) hs
  | swap => exact paintOk_of_paint (paint_of_fixed (fixed_swapped s)) hs

theorem State.paintOk_executeEntry {s t : State} {e : Entry} (h : s.executeEntry e = .next t) (hs : s.paintOk) :
    t.paintOk := by
  obtain ⟨op, code, rfl⟩ | heff := State.executeEntry_cases h
  · exact hs
  · exact heff.paintOk hs

theorem State.paintOk_exeStep {s t : State} (hs : s.paintOk) (h : s.exeStep = .next t) : t.paintOk := by
  obtain ⟨-, rfl⟩ | ⟨m, ms, -, hm⟩ := State.exeStep_cases h
  · exact paintOk_of_paint s.paint_startNext hs
  obtain ⟨d, e, es, u, -, -, -, hu, rfl⟩ | ⟨v, -, heff⟩ | hq := State.microStep_cases hm
  · exact paintOk_of_paint (s := u) (congrArg State.paint (u.unworked_drainNext d) :) (State.paintOk_executeEntry hu hs)
  · exact paintOk_of_paint (s := s) (congrArg State.paint heff.unoperated :) hs
  · exact paintOk_of_paint (s := s) (congrArg State.paint (State.microStep_unworked hq hm) :) hs

theorem paintOk_reset : State.reset.paintOk := by
  unfold State.paintOk
  decide

/-- Settles O19: an inductive invariant; only the paint commands have to restore it, every other step keeps the paint state or
resets it. -/
theorem stepKeepsClipSum : Obligations.StepKeepsClipSum :=
  step_keeps (P := State.paintOk) (fun _ _ hs => hs) (fun s hs => paintOk_of_paint s.paint_hostStep hs)
    (fun s hs => paintOk_of_paint s.paint_seqStep hs) (fun _ _ => State.paintOk_exeStep)
    (fun _ => ⟨paintOk_reset, paintOk_reset⟩) (fun _ _ hs => hs)

end Sys2Proof.Machine
end

section
/-!
# The error record (10_state R47, R48, 60_exceptions R473)
-/

namespace Sys2Proof.Machine

/-! ### The record's fields -/

theorem toNat_append_eq_add {m n : Nat} (a : BitVec m) (b : BitVec n) : (a ++ b).toNat = a.toNat * 2 ^ n + b.toNat := by
  rw [BitVec.toNat_append, ← Nat.shiftLeft_add_eq_or_of_lt b.isLt, Nat.shiftLeft_eq]

theorem toNat_errRecord (ctx : ErrCtx) (op : Byte) (code : ErrCode) :
    (errRecord ctx op code).toNat = 2 ^ 31 + ctx.toBits.toNat * 2 ^ 24 + op.toNat * 2 ^ 8 + code.toByte.toNat := by
  simp only [errRecord, toNat_append_eq_add, BitVec.toNat_ofNat]
  omega

/-- `ERR.VALID` is the top bit. -/
theorem errValid_eq_decide (err : Word) : errValid err = decide (2 ^ 31 ≤ err.toNat) := by
  unfold errValid
  rw [← BitVec.msb_eq_getLsbD_last err, BitVec.msb_eq_decide]

theorem errValid_errRecord (ctx : ErrCtx) (op : Byte) (code : ErrCode) : errValid (errRecord ctx op code) = true := by
  rw [errValid_eq_decide, toNat_errRecord]
  simp [Nat.add_assoc]

/-- A record's reserved bits, 29 to 26 and 23 to 16, are 0: none of its fields covers them. -/
theorem errRecord_and_reserved (ctx : ErrCtx) (op : Byte) (code : ErrCode) :
    errRecord ctx op code &&& 0x3CFF0000#32 = 0#32 := by
  have hmask : (0x3CFF0000#32 : Word) =
      0b001111#6 ++ (0#2 ++ (0xFF#8 ++ (0#8 ++ 0#8 : BitVec 16) : BitVec 24) : BitVec 26) := rfl
  unfold errRecord
  rw [hmask, BitVec.and_append, BitVec.and_append, BitVec.and_append, BitVec.and_append, BitVec.and_zero, BitVec.and_zero,
    BitVec.and_zero, BitVec.zero_and]
  rfl

/-! ### Registers at fixed offsets -/

/-- An offset below the pools names the same register whatever the parameters are (10_state R79). -/
theorem Reg.ofOffset_low (c : Config) {off : Nat} (h : off < 0x100) : Reg.ofOffset c off = Reg.ofOffset .suggested off := by
  have hbelow (n b : Nat) (hb : 0x100 ≤ b) : ¬ (b ≤ off ∧ off < n) := by omega
  unfold Reg.ofOffset
  simp only [if_neg (hbelow _ 0x100 (by decide)), if_neg (hbelow _ 0x1000 (by decide)), if_neg (hbelow _ 0x5000 (by decide))]

theorem State.hostWrite_err (s : State) (v : Word) : s.hostWrite 4 0x024 v = s.clearErr v := by
  unfold State.hostWrite
  rw [Reg.ofOffset_low s.cfg (by decide)]
  rfl

theorem State.hostWrite_irqStatus (s : State) (v : Word) : s.hostWrite 4 0x02C v = s.clearIrq v := by
  unfold State.hostWrite
  rw [Reg.ofOffset_low s.cfg (by decide)]
  rfl

theorem ErrCode.isBus_iff (code : ErrCode) : code.isBus = true ↔ code = .busExe ∨ code = .busSeq := by
  cases code <;> decide

/-- The first error is kept with its fields; `raise` touches nothing else. -/
theorem State.raise_first {s : State} (h : errValid s.sys.err = false) (ctx : ErrCtx) (op : Byte) (code : ErrCode) (fa : Word) :
    s.raise ctx op code fa = { s with sys := { s.sys with
      err := errRecord ctx op code
      errAddr := if code.isBus then fa else 0#32
      irqStatus := s.sys.irqStatus ||| 0x8#4 } } := by
  unfold State.raise
  simp only [h, Bool.false_eq_true, if_false]

/-- A later error only sets `OVERFLOW` and the interrupt bit. -/
theorem State.raise_later {s : State} (h : errValid s.sys.err = true) (ctx : ErrCtx) (op : Byte) (code : ErrCode) (fa : Word) :
    s.raise ctx op code fa = { s with sys := { s.sys with
      err := s.sys.err ||| 0x40000000#32
      irqStatus := s.sys.irqStatus ||| 0x8#4 } } := by
  unfold State.raise
  simp only [h, if_true]

/-- Settles O24: the first error's fields are the record's, a later one is `raise_later`, and HOST's two writes are `clearErr` and
`clearIrq`. -/
theorem errorCaptureAndReturn : Obligations.ErrorCaptureAndReturn := by
  refine ⟨fun s ctx op code fa => ⟨fun h => ?_, fun h => ?_, rfl, rfl⟩, fun s v => ⟨?_, ?_⟩⟩
  · rw [State.raise_first h]
    refine ⟨toNat_errRecord ctx op code, ?_⟩
    simp only [ErrCode.isBus_iff]
  · rw [State.raise_later h]
    exact ⟨rfl, rfl⟩
  · exact s.hostWrite_err v
  · exact s.hostWrite_irqStatus v

/-! ### Reserved bits of the record -/

/-- The record's reserved bits are 0, and a record that is not valid is all 0 (10_state R47, R48). -/
def State.errOk (s : State) : Prop :=
  s.sys.err &&& 0x3CFF0000#32 = 0#32 ∧ (errValid s.sys.err = false → s.sys.err = 0#32 ∧ s.sys.errAddr = 0#32)

theorem errOk_of_sys {s t : State} (h : t.sys = s.sys) (hs : s.errOk) : t.errOk := by
  unfold State.errOk
  rw [h]
  exact hs

theorem errOk_raise {s : State} (hs : s.errOk) (ctx : ErrCtx) (op : Byte) (code : ErrCode) (fa : Word) :
    (s.raise ctx op code fa).errOk := by
  unfold State.errOk
  cases h : errValid s.sys.err with
  | false =>
    rw [State.raise_first h]
    exact ⟨errRecord_and_reserved _ _ _, fun hv => absurd hv (by simp [errValid_errRecord])⟩
  | true =>
    -- `OVERFLOW` is bit 30: it is not reserved, and it leaves `VALID` alone.
    have hvalid : errValid (s.sys.err ||| 0x40000000#32) = true := by
      unfold errValid at h ⊢
      rw [BitVec.getLsbD_or, h, Bool.true_or]
    rw [State.raise_later h]
    refine ⟨?_, fun hv => absurd hv (by simp [hvalid])⟩
    calc (s.sys.err ||| 0x40000000#32) &&& 0x3CFF0000#32
        = (s.sys.err &&& 0x3CFF0000#32) ||| (0x40000000#32 &&& 0x3CFF0000#32) := BitVec.and_or_distrib_right
      _ = 0#32 := by rw [hs.1]; rfl

/-! Passes: every one of them records a fault or leaves the record alone. -/

theorem errOk_raisePass {s : State} (hs : s.errOk) (fa : Nat) : (s.raisePass fa).errOk := errOk_raise hs _ _ _ _

theorem errOk_restoreArea {s : State} (hs : s.errOk) (sx sy : Int) (sw sh sb : Nat) : (s.restoreArea sx sy sw sh sb).errOk := by
  unfold State.restoreArea
  split
  · exact errOk_raisePass hs _
  · exact hs

theorem errOk_hideCursor {s : State} (hs : s.errOk) : s.hideCursor.errOk := by
  unfold State.hideCursor
  split
  · exact errOk_restoreArea hs _ _ _ _ _
  · exact hs

theorem errOk_dropAllowDraw {s : State} (hs : s.errOk) (k : Nat) : (s.dropAllowDraw k).errOk := by
  unfold State.dropAllowDraw
  split <;> exact hs

theorem errOk_hideRecord {s : State} (hs : s.errOk) (k : Nat) : (s.hideRecord k).errOk := by
  unfold State.hideRecord
  split
  · exact errOk_dropAllowDraw (errOk_raisePass hs _) k
  · split
    · exact errOk_of_sys (State.setRecordPriv_sys _ _ _) (errOk_restoreArea hs _ _ _ _ _)
    · exact hs

/-- What each step of a fold keeps, the fold keeps. -/
theorem foldl_errOk {α : Type} {f : State → α → State} (hf : ∀ s x, s.errOk → (f s x).errOk) {s : State} (hs : s.errOk)
    (l : List α) : (l.foldl f s).errOk :=
  List.foldlRecOn l f hs (fun t ht x _ => hf t x ht)

theorem errOk_hidden {s : State} (hs : s.errOk) : s.hidden.errOk := by
  unfold State.hidden
  split
  · exact foldl_errOk (fun _ k h => errOk_hideRecord h k) (errOk_hideCursor hs) _
  · exact hs

theorem errOk_drawRecord {s : State} (hs : s.errOk) (k hdr : Nat) : (s.drawRecord k hdr).errOk := by
  unfold State.drawRecord
  dsimp only
  split
  · exact errOk_raisePass hs _
  · exact errOk_of_sys (by simp) hs

theorem errOk_showRecord {s : State} (hs : s.errOk) (k : Nat) : (s.showRecord k).errOk := by
  unfold State.showRecord
  split
  · exact errOk_raisePass hs _
  dsimp only
  split
  · exact hs
  split
  · exact hs
  split
  · exact hs
  · exact errOk_raisePass hs _
  · exact errOk_drawRecord hs k _

theorem errOk_drawCursor {s : State} (hs : s.errOk) : s.drawCursor.errOk := by
  unfold State.drawCursor
  split
  · exact errOk_raisePass hs _
  dsimp only
  split
  · exact errOk_raisePass hs _
  · exact hs

theorem errOk_showFinish {s : State} (hs : s.errOk) (seen : Bool) : (s.showFinish seen).errOk := by
  unfold State.showFinish
  dsimp only
  split
  · exact errOk_drawCursor hs
  · exact hs

theorem errOk_showPass {s : State} (hs : s.errOk) : s.showPass.errOk :=
  errOk_showFinish (List.foldlRecOn (motive := fun p : State × Bool => p.1.errOk) _ showStep hs
    (fun _ h k _ => errOk_showRecord h k)) _

theorem errOk_refreshPass {s : State} (hs : s.errOk) : s.refreshPass.errOk := errOk_showPass (errOk_hidden hs)

theorem errOk_updatePrivs {s : State} (hs : s.errOk) (f : Byte → Byte) : (s.updatePrivs f).errOk := by
  refine foldl_errOk (fun t k ht => ?_) hs _
  unfold State.updatePriv
  split
  · exact errOk_raisePass ht _
  · exact ht

theorem errOk_swapped {s : State} (hs : s.errOk) : s.swapped.errOk := by
  have hswap : (s.hidden.swapTables.updatePrivs privUndrawn).errOk :=
    errOk_updatePrivs (s := s.hidden.swapTables) (errOk_hidden hs) _
  unfold State.swapped
  dsimp only
  split
  · exact errOk_refreshPass hswap
  · exact hswap

/-- A commit records nothing (60_exceptions R481). -/
theorem State.sys_commitPlan (s : State) (p : Plan) : (s.commitPlan p).sys = s.sys := by
  have hfold (t : State) (l : List Nat) : (l.foldl State.clearPriv t).sys = t.sys := by
    refine List.foldlRecOn l _ (motive := fun u : State => u.sys = t.sys) rfl (fun u hu k _ => ?_)
    unfold State.clearPriv
    split <;> exact hu
  have hhidden (u : State) : ({ u with cursor := { u.cursor with allowDraw := false } } : State).sys = u.sys := rfl
  have hsprites (t : State) : t.commitSprites.sys = t.sys := by
    unfold State.commitSprites
    dsimp only
    split
    · rw [State.requestRefresh_sys, hhidden, hfold]
    · rw [hhidden, hfold]
  rw [State.commitPlan, State.startSeq_sys, hsprites, State.build_sys, State.setMem_sys, State.commitRegs_sys]

/-! Instructions, and the steps of EXE and SEQ. -/

theorem CommandEffect.errOk {s t : State} (h : CommandEffect s t) (hs : s.errOk) : t.errOk := by
  cases h with
  | same | store | storeMove | paint | refresh => exact hs
  | fail op fa => exact errOk_raise hs _ _ _ _
  | rotate e m =>
    unfold State.rotateRows
    dsimp only
    split <;> exact hs
  | swap => exact errOk_swapped hs

theorem HostOpEffect.errOk {s t : State} (h : HostOpEffect s t) (hs : s.errOk) : t.errOk := by
  cases h with
  | error op code => exact errOk_raise hs _ _ _ _
  | commit p => exact errOk_of_sys (s.sys_commitPlan p) hs
  | drain | suspend | resume | geometry | abort => exact hs
  | sprites => exact errOk_updatePrivs (s := { s.hidden with sprActive := s.hidden.sprStaged }) (errOk_hidden hs) _

theorem errOk_executeEntry {s t : State} {e : Entry} (h : s.executeEntry e = .next t) (hs : s.errOk) : t.errOk := by
  obtain ⟨op, code, rfl⟩ | heff := State.executeEntry_cases h
  · exact errOk_raise (s := s.setExe _) hs _ _ _ _
  · exact heff.errOk hs

theorem errOk_drainNext {s : State} (hs : s.errOk) (d : Drain) : (s.drainNext d).errOk :=
  errOk_of_sys (congrArg State.sys (s.drainNext_eq d) :) hs

theorem errOk_quiet {s t : State} {m : Micro} (hm : m.quiet s) (h : s.microStep m = .next t) (hs : s.errOk) : t.errOk := by
  cases m with
  | hostOp v => exact hm.elim
  | drainLoop d =>
    rw [State.microStep, State.drainStep_tail hm, State.drainTail_eq] at h
    injection h with h
    exact h ▸ hs
  | pushEntry | drainBegin | refresh | showBegin => injection h with h; exact h ▸ hs
  | drainEnd ran =>
    injection h with h
    subst h
    unfold State.drainFinish
    split <;> exact hs
  | hideCursor => injection h with h; exact h ▸ errOk_hideCursor hs
  | hideRecords k =>
    cases k with
    | zero => injection h with h; exact h ▸ hs
    | succ k =>
      injection h with h
      subst h
      exact errOk_hideRecord hs k
  | showRecords k seen =>
    injection h with h
    subst h
    unfold State.showRecordsStep
    split
    · exact errOk_showRecord hs k
    · exact hs
  | showCursor seen => injection h with h; exact h ▸ errOk_showFinish hs seen
  | jobEnd =>
    injection h with h
    rw [← h, State.endJob_eq]
    exact hs

theorem errOk_exeStep {s t : State} (hs : s.errOk) (h : s.exeStep = .next t) : t.errOk := by
  obtain ⟨-, rfl⟩ | ⟨m, ms, -, hm⟩ := State.exeStep_cases h
  · exact errOk_of_sys (congrArg State.sys s.startNext_eq :) hs
  obtain ⟨d, e, es, u, -, -, -, hu, rfl⟩ | ⟨v, -, heff⟩ | hq := State.microStep_cases hm
  · exact errOk_drainNext (errOk_executeEntry hu hs) d
  · exact heff.errOk hs
  · exact errOk_quiet hq hm hs

theorem errOk_vsyncEvent {s : State} (hs : s.errOk) : s.vsyncEvent.errOk := by
  unfold State.vsyncEvent
  dsimp only
  split <;> exact hs

theorem errOk_seqAdvance {s : State} (hs : s.errOk) : s.seqAdvance.errOk := by
  unfold State.seqAdvance State.frameBoundary
  dsimp only
  split
  · split <;> exact hs
  · exact hs

theorem errOk_fetched {s : State} (hs : s.errOk) : s.fetched.errOk := by
  unfold State.fetched
  split
  · exact errOk_vsyncEvent (s := s.setSeq _) hs
  · exact hs

theorem SeqEffect.errOk {s t : State} (h : SeqEffect s t) (hs : s.errOk) : t.errOk := by
  cases h with
  | fault fa => exact errOk_raise hs _ _ _ _
  | fetch => exact errOk_fetched hs
  | skip => exact errOk_seqAdvance (errOk_fetched hs)
  | emit => exact hs
  | last q => exact errOk_seqAdvance (s := s.setSeq q) hs

theorem errOk_seqStep {s : State} (hs : s.errOk) : s.seqStep.errOk := by
  by_cases h : s.seq.phase = .stop
  · rw [State.seqStep_stop h]; exact hs
  · exact (State.seqStep_effect h).errOk hs

/-! ### Reserved bits of the mode registers -/

/-- The reserved bits of a timing's mode and viewport configuration are 0 (10_state R40, R42). -/
def Timings.reservedOk (t : Timings) : Prop := t.mode &&& ~~~modeMask = 0#32 ∧ t.vpCfg &&& ~~~vpCfgMask = 0#32

theorem State.reservedOk_iff {s : State} : s.reservedOk ↔ s.staged.reservedOk ∧ s.active.reservedOk ∧ s.errOk := Iff.rfl

/-- A masked value has no bit outside the mask. -/
theorem and_and_not_self (v mask : Word) : v &&& mask &&& ~~~mask = 0#32 := by
  rw [BitVec.and_assoc, BitVec.and_not_self]
  exact BitVec.and_zero

theorem Reg.reservedOk_write (r : Reg) (v : Word) {s : State} (hs : s.reservedOk) : (r.write v s).reservedOk := by
  obtain ⟨⟨hmode, hvp⟩, hactive, herr⟩ := State.reservedOk_iff.1 hs
  cases r with
  | tMode => exact ⟨⟨and_and_not_self v _, hvp⟩, hactive, herr⟩
  | tVpCfg => exact ⟨⟨hmode, and_and_not_self v _⟩, hactive, herr⟩
  | err =>
    unfold Reg.write State.clearErr
    dsimp only
    split
    · exact ⟨⟨hmode, hvp⟩, hactive, BitVec.zero_and, fun _ => ⟨rfl, rfl⟩⟩
    · exact hs
  | _ => exact hs

theorem State.reservedOk_push {s : State} (hs : s.reservedOk) (e : Entry) : (s.push e).reservedOk := by
  obtain ⟨h, heq⟩ | ⟨-, heq⟩ := s.push_cases e <;> exact heq ▸ hs

theorem HostEffect.reservedOk {s t : State} (h : HostEffect s t) (hs : s.reservedOk) : t.reservedOk := by
  cases h with
  | environment | memory | hold => exact hs
  | data w =>
    obtain ⟨q, -, -, heq | heq⟩ := s.cmdData_cases w
    · exact heq ▸ State.reservedOk_push (s := s.setQueue q) hs _
    · exact heq ▸ hs
  | register r v => exact r.reservedOk_write v hs

theorem State.reservedOk_hostStep {s : State} (hs : s.reservedOk) : s.hostStep.reservedOk := by
  obtain ⟨-, e, heff⟩ | ⟨e, -, heq⟩ | ⟨-, heq⟩ | heq := s.hostStep_cases
  · exact heff.reservedOk hs
  · rw [heq]; exact hs
  · rw [heq]; exact hs
  · rw [heq]; exact hs

theorem State.reservedOk_seqStep {s : State} (hs : s.reservedOk) : s.seqStep.reservedOk := by
  obtain ⟨hstaged, ⟨hmode, hvp⟩, herr⟩ := State.reservedOk_iff.1 hs
  have hst : s.seqStep.staged = s.staged := (congrArg State.staged s.unsequenced_seqStep :)
  have hm : s.seqStep.active.mode = s.active.mode := (congrArg (fun u => u.active.mode) s.unsequenced_seqStep :)
  have hv : s.seqStep.active.vpCfg = s.active.vpCfg := (congrArg (fun u => u.active.vpCfg) s.unsequenced_seqStep :)
  exact State.reservedOk_iff.2 ⟨hst ▸ hstaged, ⟨hm ▸ hmode, hv ▸ hvp⟩, errOk_seqStep herr⟩

/-- A host operation leaves the timings alone, or commits the staged one (40_video R219). -/
theorem HostOpEffect.timings {s t : State} (h : HostOpEffect s t) : t.staged = s.staged ∧
    (t.active = s.active ∨ ∃ w, t.active = { s.staged with vpSize := w }) := by
  refine ⟨(congrArg State.staged h.unoperated :), ?_⟩
  cases h with
  | error | drain | suspend | resume | geometry | abort => exact .inl rfl
  | commit p => exact .inr ⟨_, active_of_fixed (fixed_commitPlan s p)⟩
  | sprites => exact .inl ((active_of_fixed (fixed_spritesSet s)).trans rfl)

/-- EXE's step leaves the staged timing alone, and the active one too but for a commit of the staged one. -/
theorem State.timings_exeStep {s t : State} (h : s.exeStep = .next t) : t.staged = s.staged ∧
    (t.active = s.active ∨ ∃ w, t.active = { s.staged with vpSize := w }) := by
  obtain ⟨-, rfl⟩ | ⟨m, ms, -, hm⟩ := State.exeStep_cases h
  · exact ⟨(congrArg State.staged s.startNext_eq :), .inl (congrArg State.active s.startNext_eq :)⟩
  obtain ⟨d, e, es, u, -, -, -, hu, rfl⟩ | ⟨v, -, heff⟩ | hq := State.microStep_cases hm
  · have hn := u.unworked_drainNext d
    have hx := State.executeEntry_uncommanded hu
    exact ⟨(congrArg State.staged hn :).trans (congrArg State.staged hx :),
      .inl ((congrArg State.active hn :).trans (congrArg State.active hx :))⟩
  · exact heff.timings
  · have hw := State.microStep_unworked hq hm
    exact ⟨(congrArg State.staged hw :), .inl (congrArg State.active hw :)⟩

theorem State.reservedOk_exeStep {s t : State} (hs : s.reservedOk) (h : s.exeStep = .next t) : t.reservedOk := by
  obtain ⟨hstaged, hactive, herr⟩ := State.reservedOk_iff.1 hs
  obtain ⟨hst, hact⟩ := State.timings_exeStep h
  refine State.reservedOk_iff.2 ⟨hst ▸ hstaged, ?_, errOk_exeStep herr h⟩
  obtain hact | ⟨w, hact⟩ := hact
  · exact hact ▸ hactive
  · rw [hact]; exact hstaged

theorem reservedOk_reset : State.reset.reservedOk := by
  unfold State.reservedOk
  decide

/-- Settles O21: an inductive invariant; HOST's writes are masked, a commit copies the staged registers, and every error goes
through `raise`. -/
theorem stepKeepsReservedBits : Obligations.StepKeepsReservedBits :=
  step_keeps (P := State.reservedOk) (fun _ _ hs => hs) (fun _ => State.reservedOk_hostStep) (fun _ => State.reservedOk_seqStep)
    (fun _ _ => State.reservedOk_exeStep) (fun _ => ⟨reservedOk_reset, reservedOk_reset⟩) (fun _ _ hs => hs)

end Sys2Proof.Machine
end

section
/-!
# The output while nothing is streamed (10_state R69, R72, R74)
-/

namespace Sys2Proof.Machine

/-- A step that leaves the sequencer, the active configuration and the allocation alone, makes no request for a vsync service,
and does not turn a single buffer over, keeps the output quiet. -/
theorem outputOk_of_frame {s t : State} (hs : s.outputOk) (hseq : t.seq = s.seq) (halloc : t.alloc = s.alloc)
    (hvp : t.active.vpSize = s.active.vpSize) (hvs : s.exe.vsReq = false → t.exe.vsReq = false)
    (hvis : s.alloc.dblActive = false → t.rows.visBuf = s.rows.visBuf) : t.outputOk := by
  obtain ⟨hstop, hconf, hbuf⟩ := hs
  unfold State.outputOk
  rw [hseq, halloc, hvp]
  refine ⟨hstop, fun hc => ?_, fun hd => (hvis hd).trans (hbuf hd)⟩
  obtain ⟨hphase, hreq, hsize, hdbl⟩ := hconf hc
  exact ⟨hphase, hvs hreq, hsize, hdbl⟩

theorem State.outputOk_hostStep {s : State} (hs : s.outputOk) : s.hostStep.outputOk := by
  have h := s.unhosted_hostStep
  exact outputOk_of_frame hs (congrArg State.seq h :) (congrArg State.alloc h :) (congrArg (fun u => u.active.vpSize) h :)
    (congrArg (fun u => u.exe.vsReq) h :).trans (fun _ => (congrArg (fun u => u.rows.visBuf) h :))

/-! ### SEQ -/

/-- SEQ fetches after it has advanced (40_video R234). -/
theorem State.phase_seqAdvance (s : State) : s.seqAdvance.seq.phase = .fetch := by
  unfold State.seqAdvance State.frameBoundary
  dsimp only
  split
  · split <;> rfl
  · rfl

/-- A sequencer that was running and has stopped outputs 0: only a bus error stops it (60_exceptions R479). -/
theorem SeqEffect.pixOut {s t : State} (h : SeqEffect s t) (hs : s.seq.phase ≠ .stop) (ht : t.seq.phase = .stop) :
    t.seq.pixOut = 0x00#8 := by
  cases h with
  | fault => rfl
  | fetch => cases ht
  | skip => rw [State.phase_seqAdvance] at ht; cases ht
  | emit q hq => exact absurd (hq.symm.trans ht) hs
  | last q => rw [State.phase_seqAdvance] at ht; cases ht

theorem State.outputOk_seqStep {s : State} (hs : s.outputOk) : s.seqStep.outputOk := by
  by_cases hstop : s.seq.phase = .stop
  · rw [State.seqStep_stop hstop]; exact hs
  obtain ⟨-, hconf, hbuf⟩ := hs
  have h := s.unsequenced_seqStep
  have hc : s.seqStep.alloc.configured = s.alloc.configured := (congrArg (fun u => u.alloc.configured) h :)
  have hd : s.seqStep.alloc.dblActive = s.alloc.dblActive := (congrArg (fun u => u.alloc.dblActive) h :)
  have hr : s.seqStep.rows = s.rows := (congrArg State.rows h :)
  refine ⟨(State.seqStep_effect hstop).pixOut hstop, fun hc' => ?_, fun hd' => ?_⟩
  · exact absurd (hconf (hc.symm.trans hc')).1 hstop
  · rw [hr]; exact hbuf (hd.symm.trans hd')

/-! ### EXE -/

theorem State.outputOk_executeEntry {s t : State} {e : Entry} (h : s.executeEntry e = .next t) (hs : s.outputOk) :
    t.outputOk := by
  have hx := State.executeEntry_uncommanded h
  refine outputOk_of_frame hs (congrArg State.seq hx :) (congrArg State.alloc hx :)
    (congrArg (fun u => u.active.vpSize) hx :) (congrArg (fun u => u.exe.vsReq) hx :).trans fun hd => ?_
  obtain ⟨op, code, rfl⟩ | heff := State.executeEntry_cases h
  · rfl
  · exact heff.visBuf hd

/-- A commit starts SEQ, withdraws the request for a service, and shows buffer 0 (40_video R219). -/
theorem State.outputOk_commitPlan (s : State) (p : Plan) : (s.commitPlan p).outputOk := by
  have h := fixed_commitPlan s p
  have hphase : (s.commitPlan p).seq.phase = .fetch := by rw [seq_of_fixed h]; rfl
  have hconf : (s.commitPlan p).alloc.configured = true := by rw [alloc_of_fixed h]; rfl
  have hvis : (s.commitPlan p).rows.visBuf = false := by rw [rows_of_fixed h]; rfl
  refine ⟨fun hp => ?_, fun hc => ?_, fun _ => hvis⟩
  · rw [hphase] at hp; cases hp
  · rw [hconf] at hc; cases hc

theorem outputOk_of_fixed {s t : State} (h : t.fixed = s.fixed) (hs : s.outputOk) : t.outputOk := by
  have hx := eq_of_fixed h
  rw [hx]
  exact hs

theorem HostOpEffect.outputOk {s t : State} (h : HostOpEffect s t) (hs : s.outputOk) : t.outputOk := by
  cases h with
  | error | drain | suspend | resume | geometry | abort => exact hs
  | commit p => exact s.outputOk_commitPlan p
  | sprites => exact outputOk_of_fixed (s := { s with sprActive := s.sprStaged }) (fixed_spritesSet s) hs

theorem outputOk_of_unworked {s t : State} (h : t.unworked = s.unworked) (hs : s.outputOk) : t.outputOk :=
  outputOk_of_frame hs (congrArg State.seq h :) (congrArg State.alloc h :) (congrArg (fun u => u.active.vpSize) h :)
    (congrArg (fun u => u.exe.vsReq) h :).trans (fun _ => (congrArg (fun u => u.rows.visBuf) h :))

theorem State.outputOk_exeStep {s t : State} (hs : s.outputOk) (h : s.exeStep = .next t) : t.outputOk := by
  obtain ⟨-, rfl⟩ | ⟨m, ms, -, hm⟩ := State.exeStep_cases h
  · have hx := s.startNext_eq
    exact outputOk_of_frame hs (congrArg State.seq hx :) (congrArg State.alloc hx :)
      (congrArg (fun u => u.active.vpSize) hx :) State.startNext_vsReq (fun _ => (congrArg (fun u => u.rows.visBuf) hx :))
  obtain ⟨d, e, es, u, -, -, -, hu, rfl⟩ | ⟨v, -, heff⟩ | hq := State.microStep_cases hm
  · exact outputOk_of_unworked (u.unworked_drainNext d) (State.outputOk_executeEntry hu hs)
  · exact heff.outputOk hs
  · exact outputOk_of_unworked (State.microStep_unworked hq hm) hs

theorem outputOk_reset : State.reset.outputOk := by
  unfold State.outputOk
  decide

/-- Settles O20: an inductive invariant; SEQ stops on a bus error alone, before a commit it does not run, and a commit starts it
again. -/
theorem stepKeepsOutputQuiet : Obligations.StepKeepsOutputQuiet :=
  step_keeps (P := State.outputOk) (fun _ _ hs => hs) (fun _ => State.outputOk_hostStep) (fun _ => State.outputOk_seqStep)
    (fun _ _ => State.outputOk_exeStep) (fun _ => ⟨outputOk_reset, outputOk_reset⟩) (fun _ _ hs => hs)

end Sys2Proof.Machine
end

section
/-!
# The queue and the job in progress (10_state R34, R62, 41_queue R260 to R273)
-/

namespace Sys2Proof.Machine

/-! ### What a step of a job makes of the job -/

/-- A step that a step of a job can put before the rest of the job: none appends an entry, ends the job or performs a host
operation. -/
def Micro.inner : Micro → Prop
  | .hostOp _ => False
  | .pushEntry _ => False
  | .jobEnd => False
  | .drainBegin => True
  | .drainLoop _ => True
  | .drainEnd _ => True
  | .hideCursor => True
  | .hideRecords _ => True
  | .refresh => True
  | .showBegin => True
  | .showRecords _ _ => True
  | .showCursor _ => True

/-- What a step `m` of a job that neither appends an entry nor ends the job does to the job, when it puts the steps `new` before the
rest: the queue does not grow, and a step that drains to empty leaves the queue empty or another such step behind it. -/
structure JobStep (m : Micro) (new : List Micro) (s t : State) : Prop where
  cfg : t.cfg = s.cfg
  qcount : t.qcount ≤ s.qcount
  held : t.held = s.held
  state : t.exe.state = s.exe.state
  ctx : s.exe.ctx = .sync → t.exe.ctx = .sync
  work : t.exe.work = new ++ s.exe.work
  inner : ∀ m' ∈ new, m'.inner
  drains : m.drainsAll → s.exe.ctx = .sync → t.queue.entries = [] ∨ ∃ m' ∈ new, m'.drainsAll

/-- A step that only puts steps before the rest, as far as no pass reaches. -/
theorem JobStep.of_fixed {m : Micro} {new : List Micro} {s t : State} (h : t.fixed = (s.pushWork new).fixed)
    (hinner : ∀ m' ∈ new, m'.inner) (hdrains : m.drainsAll → s.queue.entries = []) : JobStep m new s t := by
  have hqueue : t.queue = s.queue := (congrArg State.queue h :)
  have hexe : t.exe = (s.pushWork new).exe := (congrArg State.exe h :)
  exact {
    cfg := (congrArg State.cfg h :)
    qcount := by unfold State.qcount; rw [hqueue]
    held := (congrArg State.held h :)
    state := by rw [hexe]; rfl
    ctx := fun hc => by rw [hexe]; exact hc
    work := by rw [hexe]; rfl
    inner := hinner
    drains := fun hm _ => .inl (by rw [hqueue]; exact hdrains hm) }

theorem fixed_pushWork_of_fixed {s t : State} (h : t.fixed = s.fixed) (ms : List Micro) :
    (t.pushWork ms).fixed = (s.pushWork ms).fixed := by
  show (t.fixed.pushWork ms).fixed = (s.fixed.pushWork ms).fixed
  rw [h]

theorem inner_hideSteps (s : State) : ∀ m ∈ s.hideSteps, m.inner := by
  unfold State.hideSteps
  simp [Micro.inner]

theorem inner_refreshSteps (s : State) : ∀ m ∈ s.refreshSteps, m.inner := by
  unfold State.refreshSteps State.hideSteps
  split <;> simp [Micro.inner]

/-- The steps that the start of a drain puts before the rest of a job. -/
def State.drainSteps (s : State) (limit : Option Nat) : List Micro :=
  (if s.drainHides limit then s.hideSteps else []) ++ [.drainLoop ⟨limit, false, s.drainHides limit⟩]

theorem inner_drainSteps (s : State) (limit : Option Nat) : ∀ m ∈ s.drainSteps limit, m.inner := by
  intro m hm
  unfold State.drainSteps at hm
  rcases List.mem_append.1 hm with hm | hm
  · split at hm
    · exact inner_hideSteps s m hm
    · cases hm
  · rw [List.mem_singleton.1 hm]; trivial

theorem JobStep.beginDrain (m : Micro) (s : State) : JobStep m (s.drainSteps none) s (s.beginDrain .sync none) where
  cfg := rfl
  qcount := Nat.le_refl _
  held := rfl
  state := rfl
  ctx := fun _ => rfl
  work := by rw [State.beginDrain_exe]; rfl
  inner := inner_drainSteps s none
  drains := fun _ _ => .inr ⟨_, List.mem_append_right _ List.mem_cons_self, rfl⟩

/-- A host operation leaves the job as it is, or begins a synchronous drain before the rest of it. -/
theorem HostOpEffect.work {s t : State} (h : HostOpEffect s t) : ∃ new, t.exe.work = new ++ s.exe.work ∧
    (∀ m ∈ new, m.inner) ∧ (s.exe.ctx = .sync → t.exe.ctx = .sync) := by
  have hnone : ∀ m ∈ ([] : List Micro), m.inner := fun _ hm => nomatch hm
  cases h with
  | error | geometry | suspend | abort => exact ⟨[], rfl, hnone, id⟩
  | commit p =>
    have hx := exe_of_fixed (fixed_commitPlan s p)
    exact ⟨[], (congrArg Exe.work hx :), hnone, (congrArg Exe.ctx hx).trans⟩
  | drain => exact ⟨s.drainSteps none, (JobStep.beginDrain .drainBegin s).work, inner_drainSteps s none, fun _ => rfl⟩
  | resume v =>
    have hstep := JobStep.beginDrain .drainBegin (s.setSuspend v)
    exact ⟨(s.setSuspend v).drainSteps none, hstep.work, hstep.inner, fun _ => rfl⟩
  | sprites =>
    have hx := exe_of_fixed (fixed_spritesSet s)
    exact ⟨[], (congrArg Exe.work hx :), hnone, (congrArg Exe.ctx hx).trans⟩

theorem HostOpEffect.jobStep {s t : State} (h : HostOpEffect s t) (v : Word) : ∃ new, JobStep (.hostOp v) new s t := by
  obtain ⟨new, hwork, hinner, hctx⟩ := h.work
  have hx := h.unoperated
  have hentries : t.queue.entries = s.queue.entries := (congrArg (fun u => u.queue.entries) hx :)
  exact ⟨new, {
    cfg := (congrArg State.cfg hx :)
    qcount := by unfold State.qcount; rw [hentries]
    held := (congrArg State.held hx :)
    state := (congrArg (fun u => u.exe.state) hx :)
    ctx := hctx
    work := hwork
    inner := hinner
    drains := False.elim }⟩

/-- Executing an entry of a drain pops it and goes on with the drain. -/
theorem JobStep.entry {s u : State} {d : Drain} {e : Entry} (hu : s.executeEntry e = .next u) :
    JobStep (.drainLoop d) (u.nextSteps d) s (u.drainNext d) := by
  have hx := State.executeEntry_uncommanded hu
  have hn := u.drainNext_eq d
  have hexe : (u.drainNext d).exe = { u.exe with work := u.nextSteps d ++ u.exe.work } := (congrArg State.exe hn :)
  have hctx : u.exe.ctx = s.exe.ctx := (congrArg (fun v => v.exe.ctx) hx :)
  exact {
    cfg := (congrArg State.cfg hn :).trans (congrArg State.cfg hx :)
    qcount := by
      have hlen : (u.drainNext d).qcount = u.qcount - 1 := (congrArg State.qcount hn).trans List.length_tail
      have hqueue : u.qcount = s.qcount := (congrArg State.qcount hx :)
      omega
    held := (congrArg State.held hn :).trans (congrArg State.held hx :)
    state := (congrArg Exe.state hexe :).trans (congrArg (fun v => v.exe.state) hx :)
    ctx := fun hc => (congrArg Exe.ctx hexe :).trans (hctx.trans hc)
    work := (congrArg Exe.work hexe :).trans (congrArg (fun v => u.nextSteps d ++ v.exe.work) hx :)
    inner := by unfold State.nextSteps; split <;> simp [Micro.inner]
    drains := fun hd hc => by
      -- Only the vsync service gives up after an error.
      have hgo : ¬ (u.exe.ok = false ∧ u.exe.ctx = .vsync) := fun hv => by rw [hctx, hc] at hv; cases hv.2
      unfold State.nextSteps
      rw [if_neg hgo]
      refine .inr ⟨_, List.mem_singleton_self _, ?_⟩
      rw [Micro.drainsAll] at hd ⊢
      rw [hd]; rfl }

theorem State.showRecordsStep_fixed (s : State) (k : Nat) (seen : Bool) : ∃ new, (∀ m ∈ new, Micro.inner m) ∧
    (s.showRecordsStep k seen).fixed = (s.pushWork new).fixed := by
  unfold State.showRecordsStep
  split
  · refine ⟨[.showRecords (k + 1) (seen || (s.showRecord k).recordShown k)], by simp [Micro.inner], ?_⟩
    exact fixed_pushWork_of_fixed (fixed_showRecord s k) _
  · exact ⟨[.showCursor seen], by simp [Micro.inner], rfl⟩

/-- Every step of a job but the append of an entry and the job's end is a `JobStep`. -/
theorem State.microStep_jobStep {s t : State} {m : Micro} (hpush : ∀ e, m ≠ .pushEntry e) (hend : m ≠ .jobEnd)
    (h : s.microStep m = .next t) : ∃ new, JobStep m new s t := by
  obtain ⟨d, e, es, u, rfl, -, -, hu, rfl⟩ | ⟨v, rfl, heff⟩ | hq := State.microStep_cases h
  · exact ⟨_, .entry hu⟩
  · exact heff.jobStep v
  have hnone : ∀ m ∈ ([] : List Micro), m.inner := fun _ hm => nomatch hm
  cases m with
  | hostOp v => exact hq.elim
  | pushEntry e => exact absurd rfl (hpush e)
  | jobEnd => exact absurd rfl hend
  | drainBegin => injection h with h; exact ⟨_, h ▸ JobStep.beginDrain _ s⟩
  | drainLoop d =>
    rw [State.microStep, State.drainStep_tail hq, State.drainTail_eq] at h
    injection h with h
    refine ⟨_, .of_fixed (congrArg State.fixed h.symm) ?_ fun hd => hq.resolve_right ?_⟩
    · split <;> simp [Micro.inner]
    · rw [Micro.drainsAll] at hd
      rw [hd]; nofun
  | drainEnd ran =>
    injection h with h
    subst h
    refine ⟨[], .of_fixed ?_ hnone False.elim⟩
    unfold State.drainFinish
    split <;> rfl
  | hideCursor => injection h with h; exact ⟨[], .of_fixed (h ▸ fixed_hideCursor s) hnone False.elim⟩
  | hideRecords k =>
    cases k with
    | zero => injection h with h; exact ⟨[], .of_fixed (h ▸ rfl) hnone False.elim⟩
    | succ k =>
      injection h with h
      exact ⟨[.hideRecords k], .of_fixed (h ▸ fixed_pushWork_of_fixed (fixed_hideRecord s k) _) (by simp [Micro.inner])
        False.elim⟩
  | refresh => injection h with h; exact ⟨_, .of_fixed (h ▸ rfl) (inner_refreshSteps s) False.elim⟩
  | showBegin =>
    injection h with h
    exact ⟨[.showRecords 0 false], .of_fixed (h ▸ rfl) (by simp [Micro.inner]) False.elim⟩
  | showRecords k seen =>
    injection h with h
    obtain ⟨new, hinner, hfixed⟩ := s.showRecordsStep_fixed k seen
    exact ⟨new, .of_fixed (h ▸ hfixed) hinner False.elim⟩
  | showCursor seen => injection h with h; exact ⟨[], .of_fixed (h ▸ fixed_showFinish s seen) hnone False.elim⟩

/-! ### Room in the queue -/

/-- Where no entry is still to be appended, the queue's own bound is all. -/
theorem roomOk_of_noPush {s : State} (hdepth : 1 ≤ s.cfg.qdepth) (hbound : s.qcount ≤ s.cfg.qdepth)
    (hno : ∀ e, Micro.pushEntry e ∉ s.exe.work) : s.roomOk := by
  refine ⟨hdepth, hbound, fun pre e post hw => absurd ?_ (hno e)⟩
  rw [hw]
  exact List.mem_append_right _ List.mem_cons_self

/-- A job that is not a synchronous push's appends no entry. -/
theorem State.noPush_of_state {s : State} (hs : s.roomOk) (hstate : s.exe.state ≠ .sdrain) (e : Entry) :
    Micro.pushEntry e ∉ s.exe.work := by
  intro hmem
  obtain ⟨pre, post, hw⟩ := List.append_of_mem hmem
  obtain ⟨-, hsdrain, -⟩ := hs.2.2 pre e post hw
  exact hstate hsdrain

/-- An entry still to be appended after some new steps of a job stands in the rest of the job. -/
theorem pushEntry_in_rest {new ms pre post : List Micro} {e : Entry} (hinner : ∀ m ∈ new, m.inner)
    (h : new ++ ms = pre ++ .pushEntry e :: post) : ∃ mid, pre = new ++ mid ∧ ms = mid ++ .pushEntry e :: post := by
  obtain ⟨mid, hpre, hms⟩ | ⟨mid, hnew, hrest⟩ := List.append_eq_append_iff.1 h
  · exact ⟨mid, hpre, hms⟩
  cases mid with
  | nil => exact ⟨[], by simpa using hnew.symm, hrest.symm⟩
  | cons m mid =>
    injection hrest with hm _
    subst hm
    exact (hinner (.pushEntry e) (hnew ▸ List.mem_append_right _ List.mem_cons_self) : False).elim

/-- A step of a job keeps room for the entry still to be appended. -/
theorem JobStep.roomOk {m : Micro} {new ms : List Micro} {s t : State} (h : JobStep m new (s.setWork ms) t) (hs : s.roomOk)
    (hw : s.exe.work = m :: ms) : t.roomOk := by
  obtain ⟨hdepth, hbound, hroom⟩ := hs
  have hcfg : t.cfg = s.cfg := h.cfg
  have hcount : t.qcount ≤ s.qcount := h.qcount
  refine ⟨hcfg ▸ hdepth, hcfg ▸ hcount.trans hbound, fun pre e post hwork => ?_⟩
  obtain ⟨mid, rfl, hms⟩ := pushEntry_in_rest h.inner (h.work.symm.trans hwork)
  rw [State.setWork_exe] at hms
  obtain ⟨hctx, hstate, honce, hfree⟩ := hroom (m :: mid) e post (by rw [hw, show ms = _ from hms]; rfl)
  refine ⟨h.ctx hctx, h.state.trans hstate, fun e' hmem => ?_, ?_⟩
  · rw [List.append_assoc] at hmem
    rcases List.mem_append.1 hmem with hnew | hrest
    · exact h.inner _ hnew
    · exact honce e' (List.mem_cons_of_mem _ hrest)
  · rcases hfree with hlt | ⟨m', hm', hall⟩
    · exact .inl (hcfg ▸ hcount.trans_lt hlt)
    rcases List.mem_cons.1 hm' with rfl | hmid
    · rcases h.drains hall hctx with hempty | ⟨m', hnew, hall'⟩
      · left
        rw [hcfg, State.qcount, hempty]
        exact hdepth
      · exact .inr ⟨m', List.mem_append_left _ hnew, hall'⟩
    · exact .inr ⟨m', List.mem_append_right _ hmid, hall⟩

/-- The append of a synchronous push finds room, and nothing else is to be appended after it (41_queue R266). -/
theorem State.roomOk_append {s : State} {e : Entry} {ms : List Micro} (hs : s.roomOk) (hw : s.exe.work = .pushEntry e :: ms) :
    ((s.setWork ms).append e).roomOk := by
  obtain ⟨hdepth, -, hroom⟩ := hs
  obtain ⟨-, -, honce, hlt | ⟨m, hm, -⟩⟩ := hroom [] e ms hw
  · refine roomOk_of_noPush hdepth ?_ honce
    show (s.queue.entries ++ [e]).length ≤ s.cfg.qdepth
    rw [List.length_append]
    exact hlt
  · cases hm

/-- The job's end is the last step of a job. -/
theorem State.rest_of_jobEnd {s : State} {ms : List Micro} (hj : s.jobOk) (hw : s.exe.work = .jobEnd :: ms) : ms = [] := by
  obtain ⟨⟨-, hnil⟩ | ⟨-, ms', hms', hnot⟩, -, -⟩ := hj
  · rw [hw] at hnil; cases hnil
  cases ms' with
  | nil => rw [hw] at hms'; exact (List.cons.inj hms').2
  | cons m ms' =>
    rw [hw] at hms'
    obtain ⟨rfl, -⟩ := List.cons.inj hms'
    exact absurd List.mem_cons_self hnot

/-- The start of a synchronous push's job makes room first, if the queue is full (41_queue R266). -/
theorem State.roomOk_startPush {s : State} (hs : s.roomOk) (e : Entry) :
    (s.startJob .sdrain .sync (s.syncPushSteps e)).roomOk := by
  obtain ⟨hdepth, hbound, -⟩ := hs
  refine ⟨hdepth, hbound, fun pre e' post hw => ?_⟩
  have hw : s.syncPushSteps e = pre ++ .pushEntry e' :: post := hw
  unfold State.syncPushSteps at hw
  obtain ⟨mid, rfl, hmid⟩ := pushEntry_in_rest (by split <;> simp [Micro.inner]) hw
  cases mid with
  | cons m mid =>
    simp only [List.cons_append, List.cons.injEq] at hmid
    cases mid with
    | nil => simp at hmid
    | cons m mid => cases mid <;> simp at hmid
  | nil =>
    simp only [List.nil_append, List.cons.injEq] at hmid
    obtain ⟨-, rfl⟩ := hmid
    refine ⟨rfl, rfl, fun e'' => by split <;> simp, ?_⟩
    by_cases hfull : s.qcount = s.cfg.qdepth
    · exact .inr ⟨.drainBegin, by simp [hfull], trivial⟩
    · exact .inl (Nat.lt_of_le_of_ne hbound hfull)

theorem State.noPush_startVsync (s : State) (e : Entry) : Micro.pushEntry e ∉ s.startVsync.exe.work := by
  -- The service's work is the start of a drain before the job's end.
  have hw : ∃ u : State, s.startVsync.exe.work = u.drainSteps (some s.qcount) ++ [.jobEnd] := ⟨_, rfl⟩
  obtain ⟨u, hw⟩ := hw
  intro hmem
  rw [hw] at hmem
  rcases List.mem_append.1 hmem with hmem | hmem
  · exact inner_drainSteps u _ _ hmem
  · cases List.mem_singleton.1 hmem

theorem State.noPush_hostOpSteps (s : State) (v : Word) (e : Entry) : Micro.pushEntry e ∉ s.hostOpSteps v := by
  unfold State.hostOpSteps State.hideSteps
  split <;> simp

theorem State.roomOk_startNext {s : State} (hs : s.roomOk) : s.startNext.roomOk := by
  unfold State.startNext
  split
  · exact roomOk_of_noPush hs.1 hs.2.1 s.noPush_startVsync
  · split
    · exact s.roomOk_startPush hs _
    · exact roomOk_of_noPush (s := s.startJob _ _ _) hs.1 hs.2.1 (s.noPush_hostOpSteps _)
    all_goals exact hs

theorem State.roomOk_exeStep {s t : State} (hj : s.jobOk) (hs : s.roomOk) (h : s.exeStep = .next t) : t.roomOk := by
  obtain ⟨-, rfl⟩ | ⟨m, ms, hw, hm⟩ := State.exeStep_cases h
  · exact State.roomOk_startNext hs
  by_cases hpush : ∃ e, m = .pushEntry e
  · obtain ⟨e, rfl⟩ := hpush
    injection hm with hm
    exact hm ▸ State.roomOk_append hs hw
  by_cases hend : m = .jobEnd
  · subst hend
    obtain rfl := State.rest_of_jobEnd hj hw
    injection hm with hm
    rw [← hm, State.endJob_eq]
    exact roomOk_of_noPush hs.1 hs.2.1 (fun e he => nomatch he)
  obtain ⟨new, hstep⟩ := State.microStep_jobStep (fun e he => hpush ⟨e, he⟩) hend hm
  exact hstep.roomOk hs hw

/-! ### HOST's pushes -/

theorem Reg.queue_write (r : Reg) (v : Word) (s : State) : (r.write v s).queue = s.queue := by
  cases r with
  | err =>
    unfold Reg.write State.clearErr
    dsimp only
    split <;> rfl
  | _ => rfl

/-- HOST appends an entry only where there is room (41_queue R266). -/
theorem HostEffect.qcount {s t : State} (h : HostEffect s t) (hs : s.qcount ≤ s.cfg.qdepth) : t.qcount ≤ s.cfg.qdepth := by
  cases h with
  | environment | memory | hold => exact hs
  | register r v => unfold State.qcount; rw [r.queue_write]; exact hs
  | data w =>
    obtain ⟨q, hentries, -, heq | heq⟩ := s.cmdData_cases w
    · have hq : (s.setQueue q).qcount = s.qcount := congrArg List.length hentries
      obtain ⟨k, hpush⟩ | ⟨hroom, hpush⟩ := (s.setQueue q).push_cases q.cb
      · rw [heq, hpush]
        exact hq.trans_le hs
      · rw [heq, hpush]
        exact List.length_append.trans_le hroom
    · rw [heq]
      exact (congrArg List.length hentries).trans_le hs

/-- A step of HOST keeps the bound: while an entry is still to be appended by EXE, HOST is held on it and has no step. -/
theorem State.roomOk_hostStep {s : State} (hj : s.jobOk) (hs : s.roomOk) (hen : s.hostEnabled = true) : s.hostStep.roomOk := by
  have hx := s.unhosted_hostStep
  have hcfg : s.hostStep.cfg = s.cfg := (congrArg State.cfg hx :)
  have hexe : s.hostStep.exe = s.exe := (congrArg State.exe hx :)
  have hstate : s.exe.state ≠ .sdrain := by
    intro hsdrain
    obtain ⟨e, he⟩ := hj.2.1 hsdrain
    simp [State.hostEnabled, he, State.canRelease] at hen
  have hbound : s.hostStep.qcount ≤ s.cfg.qdepth := by
    obtain ⟨-, e, heff⟩ | ⟨e, he, heq⟩ | ⟨-, heq⟩ | heq := s.hostStep_cases
    · exact heff.qcount hs.2.1
    · have hroom : s.qcount < s.cfg.qdepth := by simpa [State.hostEnabled, he, State.canRelease] using hen
      rw [heq]
      exact List.length_append.trans_le hroom
    · rw [heq]; exact hs.2.1
    · rw [heq]; exact hs.2.1
  exact roomOk_of_noPush (hcfg ▸ hs.1) (hcfg ▸ hbound) (fun e => hexe ▸ State.noPush_of_state hs hstate e)

/-! ### The partial command -/

theorem partialOk_of_queue {s t : State} (hc : t.queue.partialCount = s.queue.partialCount)
    (hl : t.queue.partialLen = s.queue.partialLen) (hs : s.partialOk) : t.partialOk := by
  unfold State.partialOk
  rw [hc, hl]
  exact hs

theorem State.partialOk_push {s : State} (hs : s.partialOk) (e : Entry) : (s.push e).partialOk := by
  obtain ⟨h, heq⟩ | ⟨-, heq⟩ := s.push_cases e <;> exact heq ▸ hs

/-- The next word's place is inside the command (41_queue R265). -/
theorem Queue.assemble_le {s : State} (hs : s.partialOk) (w : Word) :
    (s.queue.assemble w).partialCount ≤ (s.queue.assemble w).partialLen := by
  unfold Queue.assemble
  split
  next h => rw [h]; exact Nat.zero_le _
  · exact hs.1

theorem State.partialOk_cmdData {s : State} (hs : s.partialOk) (w : Word) : (s.cmdData w).partialOk := by
  have hle := Queue.assemble_le hs w
  unfold State.cmdData
  dsimp only
  split
  · exact State.partialOk_push (s := s.setQueue _) ⟨BitVec.le_refl _, fun _ => rfl⟩ _
  next hne =>
    -- A word short of the command's length is not its last: the count does not wrap around.
    have hnext : ∀ c l : BitVec 2, c ≤ l → c ≠ l → c + 1#2 ≤ l ∧ (c + 1#2 = 0#2 → l = 0#2) := by decide
    exact hnext _ _ hle hne

theorem HostEffect.partialOk {s t : State} (h : HostEffect s t) (hs : s.partialOk) : t.partialOk := by
  cases h with
  | environment | memory | hold => exact hs
  | data w => exact State.partialOk_cmdData hs w
  | register r v => exact partialOk_of_queue (by rw [r.queue_write]) (by rw [r.queue_write]) hs

theorem State.partialOk_hostStep {s : State} (hs : s.partialOk) : s.hostStep.partialOk := by
  obtain ⟨-, e, heff⟩ | ⟨e, -, heq⟩ | ⟨-, heq⟩ | heq := s.hostStep_cases
  · exact heff.partialOk hs
  · rw [heq]; exact hs
  · rw [heq]; exact hs
  · rw [heq]; exact hs

theorem HostOpEffect.partialOk {s t : State} (h : HostOpEffect s t) (hs : s.partialOk) : t.partialOk := by
  cases h with
  | error | drain | suspend | resume | geometry => exact partialOk_of_queue rfl rfl hs
  | commit p =>
    have hq := queue_of_fixed (fixed_commitPlan s p)
    exact partialOk_of_queue (congrArg Queue.partialCount hq) (congrArg Queue.partialLen hq) hs
  | sprites =>
    have hq := queue_of_fixed (fixed_spritesSet s)
    exact partialOk_of_queue (congrArg Queue.partialCount hq) (congrArg Queue.partialLen hq) hs
  | abort => exact ⟨BitVec.le_refl _, fun _ => rfl⟩

theorem State.partialOk_exeStep {s t : State} (hs : s.partialOk) (h : s.exeStep = .next t) : t.partialOk := by
  obtain ⟨-, rfl⟩ | ⟨m, ms, -, hm⟩ := State.exeStep_cases h
  · have hx := s.startNext_eq
    exact partialOk_of_queue (congrArg (fun u => u.queue.partialCount) hx :) (congrArg (fun u => u.queue.partialLen) hx :) hs
  obtain ⟨d, e, es, u, -, -, -, hu, rfl⟩ | ⟨v, -, heff⟩ | hq := State.microStep_cases hm
  · have hn := u.unworked_drainNext d
    have hx := State.executeEntry_uncommanded hu
    exact partialOk_of_queue
      ((congrArg (fun u => u.queue.partialCount) hn :).trans (congrArg (fun u => u.queue.partialCount) hx :))
      ((congrArg (fun u => u.queue.partialLen) hn :).trans (congrArg (fun u => u.queue.partialLen) hx :)) hs
  · exact heff.partialOk hs
  · have hx := State.microStep_unworked hq hm
    exact partialOk_of_queue (congrArg (fun u => u.queue.partialCount) hx :) (congrArg (fun u => u.queue.partialLen) hx :) hs

/-! ### The whole machine -/

/-- A reset leaves an empty queue, no job and no partial command, and `QDEPTH` as it is (70_reset R511). -/
theorem State.roomOk_doReset {s : State} (hs : 1 ≤ s.cfg.qdepth) : s.doReset.roomOk ∧ s.doReset.partialOk :=
  ⟨roomOk_of_noPush hs (Nat.zero_le _) (fun _ h => nomatch h), BitVec.le_refl _, fun _ => rfl⟩

theorem State.roomOk_outsideStep {s : State} (hs : s.roomOk) (hp : s.partialOk) :
    s.outsideStep.roomOk ∧ s.outsideStep.partialOk := by
  obtain heq | ⟨is, -, heq⟩ | ⟨is, -, heq⟩ | ⟨rs, heq⟩ := s.outsideStep_cases <;> rw [heq]
  · exact ⟨hs, hp⟩
  · exact State.roomOk_doReset (s := s.dropInput) hs.1
  · exact State.roomOk_doReset (s := s.dropInput) hs.1
  · exact ⟨hs, hp⟩

theorem State.roomOk_seqStep {s : State} (hs : s.roomOk) (hp : s.partialOk) : s.seqStep.roomOk ∧ s.seqStep.partialOk := by
  have hx := s.unsequenced_seqStep
  have hcfg : s.seqStep.cfg = s.cfg := (congrArg State.cfg hx :)
  have hqueue : s.seqStep.queue = s.queue := (congrArg State.queue hx :)
  have hwork : s.seqStep.exe.work = s.exe.work := (congrArg (fun u => u.exe.work) hx :)
  have hctx : s.seqStep.exe.ctx = s.exe.ctx := (congrArg (fun u => u.exe.ctx) hx :)
  have hstate : s.seqStep.exe.state = s.exe.state := (congrArg (fun u => u.exe.state) hx :)
  unfold State.roomOk State.partialOk State.qcount
  rw [hcfg, hqueue, hwork, hctx, hstate]
  exact ⟨hs, hp⟩

/-- Settles O23: an inductive invariant over well-formed jobs; HOST is held while a synchronous push's entry is on its way, and the
steps of the push's job make room for it and keep that room. -/
theorem stepKeepsQueueBound : Obligations.StepKeepsQueueBound := by
  intro s t hj hs hp h
  obtain rfl | ⟨a, e, -, hen, ha⟩ := step_cases h
  · exact ⟨hs, hp⟩
  cases a with
  | host =>
    injection ha with ha
    exact ha ▸ ⟨State.roomOk_hostStep hj hs hen, State.partialOk_hostStep hp⟩
  | seq => injection ha with ha; exact ha ▸ State.roomOk_seqStep hs hp
  | exe =>
    exact ⟨State.roomOk_exeStep (s := { s with env := e }) hj hs ha, State.partialOk_exeStep (s := { s with env := e }) hp ha⟩
  | outside => injection ha with ha; exact ha ▸ State.roomOk_outsideStep hs hp

end Sys2Proof.Machine
end

section
/-!
# The registers (10_state R30 to R79)
-/

namespace Sys2Proof.Machine

/-! ### Offsets -/

/-- Between the pools and the row tables, too, an offset names the same register whatever legal parameters the block has. -/
theorem Reg.ofOffset_fixed {c : Config} (hc : c.valid) {off : Nat} (h : off < 0x100 ∨ (0x180 ≤ off ∧ off < 0x1000)) :
    Reg.ofOffset c off = Reg.ofOffset .suggested off := by
  rcases h with h | ⟨hlo, hhi⟩
  · exact Reg.ofOffset_low c h
  have hpool (n : Nat) (hn : n ≤ 16) : ¬ (0x100 ≤ off ∧ off < 0x100 + 8 * n) := by omega
  have hbelow (n b : Nat) (hb : 0x1000 ≤ b) : ¬ (b ≤ off ∧ off < n) := by omega
  unfold Reg.ofOffset
  simp only [if_neg (hpool c.npool hc.2.1.2), if_neg (hpool Config.suggested.npool (by decide)),
    if_neg (hbelow _ 0x1000 (by decide)), if_neg (hbelow _ 0x5000 (by decide))]

theorem Reg.ofOffset_poolBase {c : Config} {i : Nat} (hi : i < c.npool) :
    Reg.ofOffset c (0x100 + 8 * i) = some (.poolBase i) := by
  unfold Reg.ofOffset
  rw [if_neg (by omega), if_neg (by omega), if_neg (by omega), if_pos (by omega), if_pos (by omega)]
  rw [show (0x100 + 8 * i - 0x100) / 8 = i by omega]

theorem Reg.ofOffset_poolSize {c : Config} {i : Nat} (hi : i < c.npool) :
    Reg.ofOffset c (0x104 + 8 * i) = some (.poolSize i) := by
  unfold Reg.ofOffset
  rw [if_neg (by omega), if_neg (by omega), if_neg (by omega), if_pos (by omega), if_neg (by omega)]
  rw [show (0x104 + 8 * i - 0x100) / 8 = i by omega]

/-- The row tables of a block with legal parameters do not meet the pools or each other. -/
theorem Reg.ofOffset_rt0 {c : Config} (hc : c.valid) {r : Nat} (hr : r < c.maxRows) :
    Reg.ofOffset c (0x1000 + 4 * r) = some (.rt false r) := by
  obtain ⟨-, ⟨-, hpool⟩, -⟩ := hc
  unfold Reg.ofOffset
  rw [if_neg (by omega), if_neg (by omega), if_neg (by omega), if_neg (by omega), if_pos (by omega)]
  rw [show (0x1000 + 4 * r - 0x1000) / 4 = r by omega]

theorem Reg.ofOffset_rt1 {c : Config} (hc : c.valid) {r : Nat} (hr : r < c.maxRows) :
    Reg.ofOffset c (0x5000 + 4 * r) = some (.rt true r) := by
  obtain ⟨-, ⟨-, hpool⟩, ⟨-, hrows⟩, -⟩ := hc
  unfold Reg.ofOffset
  rw [if_neg (by omega), if_neg (by omega), if_neg (by omega), if_neg (by omega), if_neg (by omega), if_pos (by omega)]
  rw [show (0x5000 + 4 * r - 0x5000) / 4 = r by omega]

/-! ### Reads and writes at an offset -/

theorem State.regRead_of_reg {s : State} {off : Nat} {r : Reg} (h : Reg.ofOffset s.cfg off = some r) :
    s.regRead 4 off = r.read s := by
  unfold State.regRead
  rw [h]
  rfl

/-- A register that is neither `CMD_DATA` nor `HOSTOP` takes what HOST writes at its offset. -/
theorem State.hostWrite_of_reg {s : State} {off : Nat} {r : Reg} (h : Reg.ofOffset s.cfg off = some r) (hdata : r ≠ .cmdData)
    (hop : r ≠ .hostop) (v : Word) : s.hostWrite 4 off v = r.write v s := by
  unfold State.hostWrite
  rw [h]
  cases r with
  | cmdData => exact absurd rfl hdata
  | hostop => exact absurd rfl hop
  | _ => rfl

/-- What a register reads back after HOST has written it. -/
theorem State.regRead_hostWrite {s : State} {off : Nat} {r : Reg} (h : Reg.ofOffset s.cfg off = some r) (hdata : r ≠ .cmdData)
    (hop : r ≠ .hostop) (v : Word) : (s.hostWrite 4 off v).regRead 4 off = r.read (r.write v s) := by
  rw [State.hostWrite_of_reg h hdata hop]
  have hcfg : (r.write v s).cfg = s.cfg := (congrArg State.cfg (r.unwritten_write v s) :)
  exact State.regRead_of_reg (hcfg ▸ h)

/-- An access of another width, or at an offset that names no register, is ignored (10_state R30). -/
theorem State.access_ignored {s : State} {width off : Nat} (h : width ≠ 4 ∨ off % 4 ≠ 0 ∨ Reg.ofOffset s.cfg off = none)
    (v : Word) : s.hostWrite width off v = s ∧ s.regRead width off = 0#32 := by
  unfold State.hostWrite State.regRead
  by_cases hw : width = 4
  · have hnone : Reg.ofOffset s.cfg off = none := by
      rcases h with h | h | h
      · exact absurd hw h
      · exact if_pos h
      · exact h
    rw [if_pos hw, if_pos hw, hnone]
    exact ⟨rfl, rfl⟩
  · rw [if_neg hw, if_neg hw]
    exact ⟨rfl, rfl⟩

/-- A push puts an entry behind those already queued. -/
theorem State.entries_push (s : State) (e : Entry) : s.queue.entries <+: (s.push e).queue.entries := by
  obtain ⟨h, heq⟩ | ⟨-, heq⟩ := s.push_cases e <;> rw [heq]
  · exact List.prefix_rfl
  · exact List.prefix_append _ _

/-- No register write changes an entry that is already queued (10_state R63). -/
theorem State.entries_hostWrite (s : State) (width off : Nat) (v : Word) :
    s.queue.entries <+: (s.hostWrite width off v).queue.entries := by
  obtain heq | heq | heq | ⟨r, heq⟩ := s.hostWrite_cases width off v <;> rw [heq]
  · obtain ⟨q, hentries, -, heq | heq⟩ := s.cmdData_cases v <;> rw [heq, ← hentries]
    · exact State.entries_push (s.setQueue q) q.cb
    · exact List.prefix_rfl
  · exact List.prefix_rfl
  · rw [r.queue_write]

/-! ### One bit of a word -/

theorem getLsbD_bitAt (b : Bool) {j : Nat} (hj : j < 32) (k : Nat) : (bitAt b j).getLsbD k = (b && decide (k = j)) := by
  unfold bitAt
  cases b with
  | false => simp
  | true =>
    simp only [if_true, BitVec.getLsbD_shiftLeft, BitVec.getLsbD_one, Bool.true_and]
    by_cases hk : k = j
    · subst hk; simp [hj]
    · simp [hk]; omega

/-! ### What HOST's own registers read back -/

/-- The bits that a register keeps of what HOST writes to it, for those that read back what was written (10_state R32, R37 to R42,
R46, R50 to R52). -/
def Reg.writeMask : Reg → Option Word
  | .ctrl => some 0x00000001#32
  | .hostArg => some 0xFFFFFFFF#32
  | .irqEnable => some 0x0000000F#32
  | .tFreq | .tH0 | .tH1 | .tV0 | .tV1 | .tVpSize => some 0xFFFFFFFF#32
  | .tMode => some modeMask
  | .tVpCfg => some vpCfgMask
  | .tLabel _ => some 0xFFFFFFFF#32
  | .sprBase | .sprCount | .sprStride => some 0xFFFFFFFF#32
  | .curPos | .curHot | .curBmp | .curBg => some 0xFFFFFFFF#32
  | .curCtrl => some 0x00000001#32
  | _ => none

theorem boolWord_getLsbD_zero (v : Word) : boolWord (v.getLsbD 0) = v &&& 1#32 := by
  rw [BitVec.and_one_eq_setWidth_ofBool_getLsbD]
  cases v.getLsbD 0 <;> rfl

theorem setWidth_setWidth_four (v : Word) : (v.setWidth 4).setWidth 32 = v &&& 0xF#32 := by
  apply BitVec.eq_of_toNat_eq
  simp only [BitVec.toNat_setWidth, BitVec.toNat_and, BitVec.toNat_ofNat]
  rw [show (0xF % 2 ^ 32 : Nat) = 2 ^ 4 - 1 by decide, Nat.and_two_pow_sub_one_eq_mod]
  omega

/-- A register that HOST can write reads back what was written, its reserved bits 0. -/
theorem Reg.read_write {r : Reg} {mask : Word} (h : r.writeMask = some mask) (v : Word) (s : State) :
    r.read (r.write v s) = v &&& mask := by
  have hall : v = v &&& 0xFFFFFFFF#32 := (BitVec.and_allOnes (x := v)).symm
  cases r with
  | ctrl | curCtrl => injection h with h; exact h ▸ boolWord_getLsbD_zero v
  | irqEnable => injection h with h; exact h ▸ setWidth_setWidth_four v
  | tMode | tVpCfg => injection h with h; exact h ▸ rfl
  | tLabel k =>
    injection h with h
    have hget : (s.staged.label.set k v).get k = v := Vector.getElem_set_self k.isLt
    exact h ▸ hget.trans hall
  | hostArg | tFreq | tH0 | tH1 | tV0 | tV1 | tVpSize | sprBase | sprCount | sprStride | curPos | curHot | curBmp | curBg =>
    injection h with h; exact h ▸ hall
  | _ => cases h

theorem State.regRead_hostWrite_masked {s : State} {off : Nat} {mask : Word}
    (h : (Reg.ofOffset s.cfg off).bind Reg.writeMask = some mask) (v : Word) :
    (s.hostWrite 4 off v).regRead 4 off = v &&& mask := by
  obtain ⟨r, hr, hmask⟩ := Option.bind_eq_some_iff.1 h
  rw [State.regRead_hostWrite hr (by rintro rfl; cases hmask) (by rintro rfl; cases hmask), Reg.read_write hmask]

theorem State.pools_read_write {s : State} {i : Nat} (hi : i < s.pools.length) (f : Pool → Pool) :
    (s.setPool i f).pools.getD i ⟨0#32, 0#32⟩ = f (s.pools.getD i ⟨0#32, 0#32⟩) := by
  simp [State.setPool, List.getD_eq_getElem?_getD, hi]

/-! ### What the other registers read -/

theorem State.regRead_fixed {s : State} (hc : s.cfg.valid) {off : Nat} (h : off < 0x100 ∨ (0x180 ≤ off ∧ off < 0x1000)) :
    s.regRead 4 off = ((Reg.ofOffset .suggested off).map (fun r => r.read s)).getD 0#32 := by
  unfold State.regRead
  rw [Reg.ofOffset_fixed hc h]
  cases Reg.ofOffset .suggested off <;> rfl

theorem Queue.partialWord_eq (q : Queue) :
    q.partialWord = BitVec.ofNat 32 (q.partialCount.toNat + 256 * q.partialLen.toNat) := by
  have hall : ∀ c l : BitVec 2, (c.setWidth 32 ||| (l.setWidth 32 <<< 8) : Word) =
      BitVec.ofNat 32 (c.toNat + 256 * l.toNat) := by decide
  exact hall _ _

theorem State.qcountWord_eq (s : State) : (BitVec.ofNat 16 s.qcount).setWidth 32 = BitVec.ofNat 32 (s.qcount % 65536) := by
  apply BitVec.eq_of_toNat_eq
  simp only [BitVec.toNat_setWidth, BitVec.toNat_ofNat]

/-! ### `STATUS` and the level `IRQ` -/

/-- Each flag of `STATUS` is one bit, and `SUSPEND` stands from bit 16 on (10_state R33). -/
theorem State.getLsbD_status (s : State) {k : Nat} (hk : k < 32) : s.status.getLsbD k =
    (s.alloc.configured && decide (k = 0) || decide (s.seq.phase ≠ .stop) && decide (k = 1) ||
      decide (s.exe.state ≠ .idle) && decide (k = 2) || decide (s.queue.entries = []) && decide (k = 3) ||
      decide (s.qcount = s.cfg.qdepth) && decide (k = 4) || s.comp.refreshPending && decide (k = 5) ||
      s.comp.shown && decide (k = 6) || s.alloc.dblActive && decide (k = 7) || s.rows.visBuf && decide (k = 8) ||
      s.geom.pending && decide (k = 9) || s.exe.vsReq && decide (k = 10) ||
      decide (16 ≤ k) && s.queue.suspend.getLsbD (k - 16)) := by
  have hempty : decide (s.qcount = 0) = decide (s.queue.entries = []) := by
    simp only [State.qcount, List.length_eq_zero_iff]
  have hsuspend : (s.queue.suspend.setWidth 32 <<< 16 : Word).getLsbD k =
      (decide (16 ≤ k) && s.queue.suspend.getLsbD (k - 16)) := by
    have hlt : k - 16 < 32 := by omega
    simp only [BitVec.getLsbD_shiftLeft, BitVec.getLsbD_setWidth, hk, hlt, decide_true, Bool.true_and, ← Nat.not_lt, decide_not]
  simp (disch := decide) only [State.status, BitVec.getLsbD_or, getLsbD_bitAt, hempty, hsuspend]

theorem State.irqLevel_iff (s : State) :
    s.irqLevel = true ↔ ∃ k < 4, s.sys.irqStatus.getLsbD k = true ∧ s.sys.irqEnable.getLsbD k = true := by
  unfold State.irqLevel
  rw [decide_eq_true_iff]
  constructor
  · intro h
    by_contra hno
    refine h (BitVec.eq_of_getLsbD_eq fun k hk => ?_)
    rw [BitVec.getLsbD_and, BitVec.getLsbD_zero]
    exact Bool.eq_false_iff.2 fun hb => hno ⟨k, hk, by simpa using hb⟩
  · rintro ⟨k, -, hs, he⟩ h
    have hbit : (s.sys.irqStatus &&& s.sys.irqEnable).getLsbD k = true := by rw [BitVec.getLsbD_and, hs, he]; rfl
    rw [h, BitVec.getLsbD_zero] at hbit
    cases hbit

/-! ### The statements about accesses and reset -/

/-- Settles O25: the map of R79 at each offset, what a register reads after a write, and the frame of a register write. -/
theorem registerAccessRules : Obligations.RegisterAccessRules := by
  refine ⟨fun s width off v h => State.access_ignored h v, fun s width off v => ?_, fun s v hc => ⟨fun p hp => ?_, ?_⟩,
    fun s hc => ⟨?_, ?_, ?_, ?_⟩, fun s => ?_, State.irqLevel_iff⟩
  · have hx := s.unwritten_hostWrite width off v
    exact ⟨(congrArg State.active hx :), (congrArg State.alloc hx :), (congrArg State.geom hx :), (congrArg State.paint hx :),
      (congrArg State.sprActive hx :), (congrArg State.rows hx :), (congrArg State.seq hx :), (congrArg State.mem hx :),
      (congrArg State.exe hx :), (congrArg State.cfg hx :), (congrArg (fun u => u.cursor.saved0) hx :),
      (congrArg (fun u => u.cursor.saved1) hx :), (congrArg (fun u => u.cursor.allowDraw) hx :),
      (congrArg (fun u => u.queue.suspend) hx :), s.entries_hostWrite width off v⟩
  · refine State.regRead_hostWrite_masked ?_ v
    have hmap : (p.1 < 0x100 ∨ (0x180 ≤ p.1 ∧ p.1 < 0x1000)) ∧
        (Reg.ofOffset .suggested p.1).bind Reg.writeMask = some p.2 := by
      revert p
      decide
    rw [Reg.ofOffset_fixed hc hmap.1]
    exact hmap.2
  · intro i hi hlen
    rw [State.regRead_hostWrite (Reg.ofOffset_poolBase hi) nofun nofun,
      State.regRead_hostWrite (Reg.ofOffset_poolSize hi) nofun nofun]
    exact ⟨congrArg Pool.base (State.pools_read_write (hlen ▸ hi) (fun p => { p with base := v })),
      congrArg Pool.size (State.pools_read_write (hlen ▸ hi) (fun p => { p with size := v }))⟩
  · simp (disch := decide) only [List.forall_mem_cons, List.not_mem_nil, false_imp_iff, implies_true, and_true,
      State.regRead_fixed hc]
    refine ⟨rfl, s.qcountWord_eq, s.queue.partialWord_eq, ?_⟩
    and_intros <;> rfl
  · simp (disch := decide) only [List.forall_mem_cons, List.not_mem_nil, false_imp_iff, implies_true, and_true,
      State.regRead_fixed hc]
    and_intros <;> rfl
  · intro k
    have hk : 0x0A0 + 4 * (k : Nat) < 0x100 := by omega
    rw [State.regRead_fixed hc (.inl hk)]
    fin_cases k <;> rfl
  · intro r hr
    exact ⟨State.regRead_of_reg (Reg.ofOffset_rt0 hc hr), State.regRead_of_reg (Reg.ofOffset_rt1 hc hr)⟩
  · intro w k hk
    have hread : w = s.status :=
      State.regRead_of_reg ((Reg.ofOffset_low s.cfg (by decide)).trans (by decide : Reg.ofOffset .suggested 0x008 = some .status))
    rw [hread, s.getLsbD_status hk]
    interval_cases k <;> simp

/-- Settles O26: the fixed map by evaluation, the label, pool and row-table registers by their offsets. -/
theorem resetRegisterValues : Obligations.ResetRegisterValues := by
  have hc : State.reset.cfg.valid := by decide
  refine ⟨by decide, by decide, by decide, by decide, fun r hr => ⟨?_, ?_⟩, rfl, rfl, rfl, rfl, rfl⟩
  · rw [State.regRead_of_reg (Reg.ofOffset_rt0 hc hr)]
    rfl
  · rw [State.regRead_of_reg (Reg.ofOffset_rt1 hc hr)]
    rfl

/-- Settles O17: each invariant in its own terms, most of them by evaluation. -/
theorem resetInvariants : Obligations.ResetInvariants := by
  refine ⟨rfl, paintOk_reset, outputOk_reset, reservedOk_reset, ?_, ⟨BitVec.le_refl _, fun _ => rfl⟩, ?_, ?_⟩
  · exact ⟨.inl ⟨rfl, rfl⟩, nofun, nofun⟩
  · exact roomOk_of_noPush (by decide) (Nat.zero_le _) (fun _ h => nomatch h)
  · exact ⟨by decide, fun _ => ⟨rfl, rfl⟩, nofun⟩

end Sys2Proof.Machine
end

section
/-!
# The accesses that hold HOST (41_queue R263 to R266, R279)
-/

namespace Sys2Proof.Machine

/-! ### Pushes -/

theorem State.pushSync_iff (s : State) : s.pushSync = true ↔ s.queue.suspend = 0#8 ∧ s.sys.bgexec = false := by
  simp [State.pushSync]

theorem State.push_of_sync {s : State} (h : s.queue.suspend = 0#8 ∧ s.sys.bgexec = false) (e : Entry) :
    s.push e = s.setHeld (.syncPush e) :=
  if_pos (s.pushSync_iff.2 h)

theorem State.push_of_room {s : State} (h : ¬ (s.queue.suspend = 0#8 ∧ s.sys.bgexec = false)) (hroom : s.qcount < s.cfg.qdepth)
    (e : Entry) : s.push e = s.append e :=
  (if_neg (mt s.pushSync_iff.1 h)).trans (if_pos hroom)

theorem State.push_of_full {s : State} (h : ¬ (s.queue.suspend = 0#8 ∧ s.sys.bgexec = false))
    (hfull : ¬ s.qcount < s.cfg.qdepth) (e : Entry) : s.push e = s.setHeld (.fullPush e) :=
  (if_neg (mt s.pushSync_iff.1 h)).trans (if_neg hfull)

/-! ### HOST's step while it is held, and while it is not -/

/-- HOST that is held has a step exactly when its request can be released by it. -/
theorem State.hostEnabled_of_held {s : State} {h : Held} (hs : s.held = h) (hne : h ≠ .free) :
    s.hostEnabled = s.canRelease h := by
  subst hs
  exact if_neg hne

/-- HOST that is not held takes its next access. -/
theorem State.hostStep_of_free {s : State} {i : Input} {is : List Input} (hs : s.held = .free) (hin : s.env.inputs = i :: is)
    (hi : i.isHost = true) :
    s.hostEnabled = true ∧ s.hostStep = State.hostAccess { s with env := { s.env with inputs := is } } i := by
  have hdrop : s.dropInput = { s with env := { s.env with inputs := is } } := by
    unfold State.dropInput
    rw [hin]
    rfl
  constructor
  · unfold State.hostEnabled
    rw [if_pos hs, hin]
    exact hi
  · have hstep : s.hostStep = s.dropInput.hostAccess i := by
      unfold State.hostStep
      rw [hs, hin]
    rw [hstep, hdrop]

/-! ### Offsets of the ports -/

/-- `WAIT` stands at one offset only. -/
theorem Reg.off_of_wait {c : Config} {off : Nat} (h : Reg.ofOffset c off = some .wait) : off = 0x018 := by
  have honly : ∀ p ∈ fixedRegs, p.2 = .wait → p.1 = 0x018 := by decide
  unfold Reg.ofOffset at h
  split_ifs at h
  -- The labels, the pools and the row tables are other registers; what is left is the fixed map.
  iterate 6 · cases h
  · obtain ⟨l, l', hmap, -⟩ := List.lookup_eq_some_iff.1 h
    exact honly (off, .wait) (hmap ▸ List.mem_append_right _ List.mem_cons_self) rfl

/-- Every read but that of `WAIT` returns at once (10_state R30, R36). -/
theorem State.hostRead_of_ne_wait {s : State} {width off : Nat} (h : ¬ (width = 4 ∧ off = 0x018)) :
    s.hostRead width off = s.setReadData (s.regRead width off) :=
  if_neg fun hw => h ⟨hw.1, Reg.off_of_wait hw.2⟩

theorem State.hostRead_wait (s : State) : s.hostRead 4 0x018 = s.setHeld .wait :=
  if_pos ⟨rfl, (Reg.ofOffset_low s.cfg (by decide)).trans (by decide)⟩

theorem State.hostWrite_hostop (s : State) (v : Word) : s.hostWrite 4 0x01C v = s.setHeld (.hostOp v) := by
  unfold State.hostWrite
  rw [Reg.ofOffset_low s.cfg (by decide)]
  rfl

theorem State.hostWrite_cmdData (s : State) (v : Word) : s.hostWrite 4 0x010 v = s.cmdData v := by
  unfold State.hostWrite
  rw [Reg.ofOffset_low s.cfg (by decide)]
  rfl

/-! ### The assembly port -/

/-- The assembly buffer after a word: a header with empty arguments, or the next argument (41_queue R265). -/
def Queue.nextCb (q : Queue) (w : Word) : Entry :=
  if q.partialCount = 0#2 then ⟨w, 0#32, 0#32, 0#32⟩ else setEntryWord q.cb q.partialCount w

/-- The length of the command that a word belongs to. -/
def Queue.nextLen (q : Queue) (w : Word) : BitVec 2 := if q.partialCount = 0#2 then hdrLen w else q.partialLen

theorem Queue.assemble_eq (q : Queue) (w : Word) : q.assemble w = { q with cb := q.nextCb w, partialLen := q.nextLen w } := by
  unfold Queue.assemble Queue.nextCb Queue.nextLen
  split <;> rfl

theorem State.cmdData_eq (s : State) (w : Word) : s.cmdData w =
    if s.queue.partialCount = s.queue.nextLen w then
      (s.setQueue { s.queue with cb := s.queue.nextCb w, partialCount := 0#2, partialLen := 0#2 }).push (s.queue.nextCb w)
    else s.setQueue
      { s.queue with cb := s.queue.nextCb w, partialCount := s.queue.partialCount + 1#2, partialLen := s.queue.nextLen w } := by
  unfold State.cmdData
  rw [Queue.assemble_eq]

/-- Settles O28: the three kinds of push, the held accesses' own steps, the ports at their offsets, and the assembly of a
command. -/
theorem heldAccesses : Obligations.HeldAccesses := by
  refine ⟨fun s e => ⟨fun h => State.push_of_sync h e, fun h => State.push_of_room h.1 h.2 e,
      fun h => State.push_of_full h.1 h.2 e, fun h => ⟨?_, ?_⟩, fun h => State.hostEnabled_of_held h nofun⟩,
    fun s h => ⟨?_, ?_⟩,
    fun s v => ⟨s.hostRead_wait, s.hostWrite_hostop v, fun h => State.hostEnabled_of_held h nofun, s.hostWrite_cmdData v⟩,
    fun s width off h => State.hostRead_of_ne_wait h, fun s w => ?_,
    fun s is width off v hs => ⟨fun hin => State.hostStep_of_free hs hin rfl, fun hin => State.hostStep_of_free hs hin rfl⟩⟩
  · rw [State.hostEnabled_of_held h nofun]
    exact decide_eq_true_iff
  · unfold State.hostStep
    rw [h]
    rfl
  · rw [State.hostEnabled_of_held h nofun]
    simp [State.canRelease]
  · unfold State.hostStep
    rw [h]
    rfl
  · intro n len cb
    have hcb : cb = s.queue.nextCb w := by
      simp only [cb, n, Queue.nextCb]
      generalize s.queue.partialCount = c
      obtain ⟨k, hk⟩ := c
      interval_cases k <;> rfl
    rw [hcb, State.cmdData_eq]
    rfl

end Sys2Proof.Machine
end

section
/-!
# What SEQ does to memory (20_memory R127, 40_video R243)
-/

namespace Sys2Proof.Machine

/-- A step that leaves memory alone, or commits a pending geometry in a state with the same memory and allocation. -/
def State.keepsMemOrCommits (s t : State) : Prop :=
  t.mem = s.mem ∨ s.geom.pending = true ∧ ∃ u : State, u.mem = s.mem ∧ u.alloc = s.alloc ∧ t = u.geometryCommit

theorem State.seqAdvance_keepsMemOrCommits (s : State) : s.keepsMemOrCommits s.seqAdvance := by
  unfold State.seqAdvance State.frameBoundary
  dsimp only
  split
  · split
    next hp => refine .inr ⟨hp, _, ?_, ?_, rfl⟩ <;> rfl
    · exact .inl rfl
  · exact .inl rfl

/-- Latching a descriptor changes neither memory nor what a geometry commit goes by. -/
theorem State.fetched_frame (s : State) :
    s.fetched.mem = s.mem ∧ s.fetched.alloc = s.alloc ∧ s.fetched.geom = s.geom := by
  unfold State.fetched State.vsyncEvent
  dsimp only
  split
  · split <;> exact ⟨rfl, rfl, rfl⟩
  · exact ⟨rfl, rfl, rfl⟩

theorem SeqEffect.keepsMemOrCommits {s t : State} (h : SeqEffect s t) : s.keepsMemOrCommits t := by
  obtain ⟨hmem, halloc, hgeom⟩ := s.fetched_frame
  cases h with
  | fault | emit => exact .inl rfl
  | fetch => exact .inl hmem
  | skip =>
    have h := s.fetched.seqAdvance_keepsMemOrCommits
    rwa [State.keepsMemOrCommits, hmem, halloc, hgeom] at h
  | last q => exact (s.setSeq q).seqAdvance_keepsMemOrCommits

theorem State.seqStep_keepsMemOrCommits (s : State) : s.keepsMemOrCommits s.seqStep := by
  by_cases h : s.seq.phase = .stop
  · rw [State.seqStep_stop h]; exact .inl rfl
  · exact (State.seqStep_effect h).keepsMemOrCommits

@[simp] theorem State.length_descBytes (s : State) (d line : Nat) (p : Piece) : (s.descBytes d line p).length = 12 := by
  simp [State.descBytes]

/-- The chain has twelve bytes for each piece of each line (20_memory R115). -/
theorem State.length_chainBytes (s : State) : s.chainBytes.length = 12 * (s.pieces.length * s.active.vt) := by
  have hline : ∀ line, (s.pieces.zipIdx.flatMap fun p => s.descBytes (line * s.alloc.group.toNat + p.2) line p.1).length =
      12 * s.pieces.length := by
    intro line
    simp [List.length_flatMap, Nat.mul_comm]
  simp only [State.chainBytes, List.length_flatMap, hline, List.map_const', List.sum_replicate, List.length_range, smul_eq_mul]
  ring

/-- `BUILD` stores the bytes of the chain and no other (40_video R226). -/
theorem State.build_storesOnly (s : State) :
    storesOnly (inRun s.alloc.chainBase.toNat (12 * (s.pieces.length * s.active.vt))) s s.build := by
  intro a ha
  refine memByte_memStoreBlock_of_notMem _ _ _ _ fun k hk he => ha ⟨k, ?_, he⟩
  rwa [State.length_chainBytes] at hk

/-- A geometry commit is the `BUILD` of a state that differs in its registers only, with the same chain base (40_video R243). -/
theorem State.geometryCommit_eq_build (s : State) :
    ∃ u : State, s.geometryCommit = u.build ∧ u.mem = s.mem ∧ u.alloc.chainBase = s.alloc.chainBase :=
  ⟨_, rfl, rfl, rfl⟩

/-- A geometry commit stores the bytes of the chain of the new timing and no other (40_video R243). -/
theorem State.geometryCommit_storesOnly (s : State) :
    storesOnly (inRun s.alloc.chainBase.toNat (12 * (s.geometryCommit.pieces.length * s.geometryCommit.active.vt))) s
      s.geometryCommit := by
  obtain ⟨u, hbuild, hmem, hbase⟩ := s.geometryCommit_eq_build
  intro a ha
  rw [hbuild, ← hbase] at ha
  rw [hbuild, ← hmem]
  exact u.build_storesOnly a ha

/-- Settles O16: SEQ's one way to memory is the commit of a pending geometry, which builds the chain that the state after it
describes. -/
theorem sequencerWritesNoMemory : Obligations.SequencerWritesNoMemory := by
  intro s
  obtain hmem | ⟨hpending, u, hmem, halloc, hstep⟩ := s.seqStep_keepsMemOrCommits
  · exact ⟨fun _ => hmem, fun a _ => by rw [hmem]⟩
  · refine ⟨fun hnone => absurd hpending (by simp [hnone]), fun a ha => ?_⟩
    rw [hstep, ← halloc] at ha
    rw [hstep, ← hmem]
    exact u.geometryCommit_storesOnly a ha

end Sys2Proof.Machine
end

section
/-!
# The canonical form of memory (20_memory R100)

Memory changes by stores of a byte, a block or a write set, and by a reset that cuts a step in two; all of them keep the canonical
form (`wf_memStore`, `wf_memStoreBlock`, `wf_memStoreAll`, `wf_memCut`), so each operation of the block does.
-/

namespace Sys2Proof.Machine

theorem memoryOk_of_mem {s t : State} (h : t.mem = s.mem) (hs : s.memoryOk) : t.memoryOk := by
  unfold State.memoryOk
  rw [h]
  exact hs

theorem memoryOk_writeCells {s : State} (hs : s.memoryOk) (cs : List (Nat × Byte)) : (s.writeCells cs).memoryOk :=
  wf_memStoreAll hs cs

theorem memoryOk_setRecordPriv {s : State} (hs : s.memoryOk) (k : Nat) (v : Byte) : (s.setRecordPriv k v).memoryOk :=
  wf_memStore hs _ v

theorem memoryOk_build {s : State} (hs : s.memoryOk) : s.build.memoryOk := wf_memStoreBlock hs _ _

theorem memoryOk_retarget {s : State} (hs : s.memoryOk) (b : Bool) : (s.retarget b).memoryOk :=
  wf_foldl (fun _ _ hm => wf_memWriteLe hm _ _ _) _ hs

theorem memoryOk_geometryCommit {s : State} (hs : s.memoryOk) : s.geometryCommit.memoryOk := by
  obtain ⟨u, hbuild, hmem, -⟩ := s.geometryCommit_eq_build
  rw [hbuild]
  exact memoryOk_build (memoryOk_of_mem hmem hs)

/-! ### Hide pass -/

theorem wf_restorePixel {m : Memory} (hm : m.wf = true) (s : State) (sx sy : Int) (sw sb : Nat) (q : Nat × Nat) :
    (s.restorePixel sx sy sw sb m q).wf = true := by
  unfold State.restorePixel
  split
  · exact wf_memStore hm _ _
  · exact hm

theorem memoryOk_restoreArea {s : State} (hs : s.memoryOk) (sx sy : Int) (sw sh sb : Nat) :
    (s.restoreArea sx sy sw sh sb).memoryOk := by
  unfold State.restoreArea
  split
  · exact hs
  · exact wf_foldl (fun _ q hm => wf_restorePixel hm s sx sy sw sb q) _ hs

theorem memoryOk_hideCursor {s : State} (hs : s.memoryOk) : s.hideCursor.memoryOk := by
  unfold State.hideCursor
  split
  · exact memoryOk_restoreArea hs _ _ _ _ _
  · exact hs

theorem memoryOk_dropAllowDraw {s : State} (hs : s.memoryOk) (k : Nat) : (s.dropAllowDraw k).memoryOk := by
  unfold State.dropAllowDraw
  split
  · exact memoryOk_setRecordPriv hs k _
  · exact hs

theorem memoryOk_hideRecord {s : State} (hs : s.memoryOk) (k : Nat) : (s.hideRecord k).memoryOk := by
  unfold State.hideRecord
  split
  · exact memoryOk_dropAllowDraw (s := s.raisePass _) hs k
  · split
    · exact memoryOk_setRecordPriv (memoryOk_restoreArea hs _ _ _ _ _) k _
    · exact hs

theorem memoryOk_hidden {s : State} (hs : s.memoryOk) : s.hidden.memoryOk := by
  unfold State.hidden
  split
  · exact List.foldlRecOn (motive := State.memoryOk) _ _ (memoryOk_hideCursor hs) (fun _ h k _ => memoryOk_hideRecord h k)
  · exact hs

/-! ### Show pass -/

theorem wf_drawPixel {m : Memory} (hm : m.wf = true) (s : State) (sx sy : Int) (b : Bitmap) (r : SavedArea) (q : Nat × Nat) :
    (s.drawPixel sx sy b r m q).wf = true := by
  unfold State.drawPixel
  split
  · exact wf_memStore hm _ _
  · exact hm

/-- `DRAWSPRITE` saves the background byte by byte, and then draws the pixels (45_sprites R432). -/
theorem memoryOk_composite {s : State} (hs : s.memoryOk) (sx sy : Int) (b : Bitmap) (sb : Nat) :
    (s.composite sx sy b sb).memoryOk := by
  have hsaved : (s.saveBackground s.mem (s.spriteArea sx sy b) sb).wf = true := wf_foldl (fun _ _ hm => wf_memStore hm _ _) _ hs
  exact wf_foldl (fun _ q hm => wf_drawPixel hm s sx sy b _ q) _ hsaved

theorem memoryOk_drawRecord {s : State} (hs : s.memoryOk) (k hdr : Nat) : (s.drawRecord k hdr).memoryOk := by
  unfold State.drawRecord
  dsimp only
  split
  · exact hs
  · exact memoryOk_setRecordPriv (memoryOk_composite (s := s.setMem _) (wf_memStoreBlock hs _ _) _ _ _ _) k _

theorem memoryOk_showRecord {s : State} (hs : s.memoryOk) (k : Nat) : (s.showRecord k).memoryOk := by
  unfold State.showRecord
  split
  · exact hs
  dsimp only
  split
  · exact hs
  split
  · exact hs
  split
  · exact hs
  · exact hs
  · exact memoryOk_drawRecord hs k _

theorem memoryOk_drawCursor {s : State} (hs : s.memoryOk) : s.drawCursor.memoryOk := by
  unfold State.drawCursor
  split
  · exact hs
  dsimp only
  split
  · exact hs
  · exact memoryOk_composite hs _ _ _ _

theorem memoryOk_showFinish {s : State} (hs : s.memoryOk) (seen : Bool) : (s.showFinish seen).memoryOk := by
  unfold State.showFinish
  dsimp only
  split
  · exact memoryOk_drawCursor hs
  · exact hs

theorem memoryOk_showPass {s : State} (hs : s.memoryOk) : s.showPass.memoryOk :=
  memoryOk_showFinish (List.foldlRecOn (motive := fun p : State × Bool => p.1.memoryOk) _ showStep hs
    (fun _ h k _ => memoryOk_showRecord h k)) _

theorem memoryOk_refreshPass {s : State} (hs : s.memoryOk) : s.refreshPass.memoryOk := memoryOk_showPass (memoryOk_hidden hs)

/-! ### Instructions -/

theorem memoryOk_updatePrivs {s : State} (hs : s.memoryOk) (f : Byte → Byte) : (s.updatePrivs f).memoryOk := by
  refine List.foldlRecOn (motive := State.memoryOk) _ _ hs (fun t ht k _ => ?_)
  unfold State.updatePriv
  split
  · exact ht
  · exact memoryOk_setRecordPriv ht k _

theorem memoryOk_setRows {s : State} (hs : s.memoryOk) (r : Rows) : ({ s with rows := r } : State).memoryOk := hs

theorem memoryOk_swapTables {s : State} (hs : s.memoryOk) : s.swapTables.memoryOk :=
  memoryOk_retarget (memoryOk_setRows hs _) _

theorem memoryOk_rotateRows {s : State} (hs : s.memoryOk) (e : Rect) (m : Int) : (s.rotateRows e m).memoryOk := by
  have hrows := memoryOk_setRows hs (s.rows.setTable s.drawTbl (rotateTable (s.rows.table s.drawTbl) e m))
  unfold State.rotateRows
  dsimp only
  split
  · exact hrows
  · exact memoryOk_retarget hrows false

theorem memoryOk_swapped {s : State} (hs : s.memoryOk) : s.swapped.memoryOk := by
  have hswap : (s.hidden.swapTables.updatePrivs privUndrawn).memoryOk :=
    memoryOk_updatePrivs (memoryOk_swapTables (memoryOk_hidden hs)) _
  unfold State.swapped
  dsimp only
  split
  · exact memoryOk_refreshPass hswap
  · exact hswap

theorem CommandEffect.memoryOk {s t : State} (h : CommandEffect s t) (hs : s.memoryOk) : t.memoryOk := by
  cases h with
  | same | paint | fail | refresh => exact hs
  | store cs | storeMove cs q => exact memoryOk_writeCells hs cs
  | rotate e m => exact memoryOk_rotateRows hs e m
  | swap => exact memoryOk_swapped hs

theorem memoryOk_executeEntry {s t : State} {e : Entry} (h : s.executeEntry e = .next t) (hs : s.memoryOk) : t.memoryOk := by
  obtain ⟨op, code, rfl⟩ | heff := State.executeEntry_cases h
  · exact hs
  · exact heff.memoryOk hs

/-- A commit fills the constant buffers and blanks the rows, block by block (40_video R218). -/
theorem wf_commitMem {m : Memory} (hm : m.wf = true) (t : Timings) (p : Plan) : (commitMem m t p).wf = true :=
  wf_foldl (fun _ _ h => wf_memStoreBlock h _ _) _ (wf_foldl (fun _ _ h => wf_memStoreBlock h _ _) _ hm)

theorem memoryOk_commitSprites {s : State} (hs : s.memoryOk) : s.commitSprites.memoryOk := by
  have hclear (t : State) (l : List Nat) (ht : t.memoryOk) : (l.foldl State.clearPriv t).memoryOk := by
    refine List.foldlRecOn (motive := State.memoryOk) l _ ht (fun u hu k _ => ?_)
    unfold State.clearPriv
    split
    · exact memoryOk_setRecordPriv hu k _
    · exact hu
  unfold State.commitSprites
  dsimp only
  split <;> exact hclear { s with comp := _ } _ hs

theorem memoryOk_commitPlan {s : State} (hs : s.memoryOk) (p : Plan) : (s.commitPlan p).memoryOk := by
  have hmem : ((s.commitRegs p).setMem (commitMem s.mem s.staged p)).memoryOk := wf_commitMem hs s.staged p
  exact memoryOk_of_mem (State.startSeq_mem _) (memoryOk_commitSprites (memoryOk_build hmem))

theorem HostOpEffect.memoryOk {s t : State} (h : HostOpEffect s t) (hs : s.memoryOk) : t.memoryOk := by
  cases h with
  | error | drain | suspend | resume | geometry | abort => exact hs
  | commit p => exact memoryOk_commitPlan hs p
  | sprites => exact memoryOk_updatePrivs (s := { s.hidden with sprActive := s.hidden.sprStaged }) (memoryOk_hidden hs) _

/-! ### The agents -/

theorem memoryOk_quiet {s t : State} {m : Micro} (hm : m.quiet s) (h : s.microStep m = .next t) (hs : s.memoryOk) :
    t.memoryOk := by
  cases m with
  | hostOp v => exact hm.elim
  | drainLoop d =>
    rw [State.microStep, State.drainStep_tail hm, State.drainTail_eq] at h
    injection h with h
    exact h ▸ hs
  | pushEntry | drainBegin | refresh | showBegin => injection h with h; exact h ▸ hs
  | drainEnd ran =>
    injection h with h
    subst h
    unfold State.drainFinish
    split <;> exact hs
  | hideCursor => injection h with h; exact h ▸ memoryOk_hideCursor hs
  | hideRecords k =>
    cases k with
    | zero => injection h with h; exact h ▸ hs
    | succ k =>
      injection h with h
      subst h
      exact memoryOk_hideRecord hs k
  | showRecords k seen =>
    injection h with h
    subst h
    unfold State.showRecordsStep
    split
    · exact memoryOk_showRecord hs k
    · exact hs
  | showCursor seen => injection h with h; exact h ▸ memoryOk_showFinish hs seen
  | jobEnd =>
    injection h with h
    rw [← h, State.endJob_eq]
    exact hs

theorem memoryOk_exeStep {s t : State} (hs : s.memoryOk) (h : s.exeStep = .next t) : t.memoryOk := by
  obtain ⟨-, rfl⟩ | ⟨m, ms, -, hm⟩ := State.exeStep_cases h
  · exact memoryOk_of_mem (congrArg State.mem s.startNext_eq :) hs
  obtain ⟨d, e, es, u, -, -, -, hu, rfl⟩ | ⟨v, -, heff⟩ | hq := State.microStep_cases hm
  · exact memoryOk_of_mem (s := u) (congrArg State.mem (u.drainNext_eq d) :) (memoryOk_executeEntry hu hs)
  · exact heff.memoryOk hs
  · exact memoryOk_quiet hq hm hs

theorem memoryOk_seqStep {s : State} (hs : s.memoryOk) : s.seqStep.memoryOk := by
  obtain hmem | ⟨-, u, hmem, -, heq⟩ := s.seqStep_keepsMemOrCommits
  · exact memoryOk_of_mem hmem hs
  · rw [heq]; exact memoryOk_geometryCommit (memoryOk_of_mem hmem hs)

/-- HOST's one way to memory is a store. -/
theorem memoryOk_hostAccess {s : State} (hs : s.memoryOk) (i : Input) : (s.hostAccess i).memoryOk := by
  cases i with
  | memWrite a n v =>
    unfold State.hostAccess
    dsimp only
    split
    · exact wf_memWriteLe hs _ _ _
    · exact hs
  | regWrite width off v => exact memoryOk_of_mem (congrArg State.mem (s.unwritten_hostWrite width off v) :) hs
  | regRead width off =>
    unfold State.hostAccess State.hostRead
    dsimp only
    split <;> exact hs
  | memRead a n =>
    unfold State.hostAccess
    dsimp only
    split <;> exact hs
  | memReadByte | reset | resetMidStep | platform => exact hs

theorem memoryOk_hostStep {s : State} (hs : s.memoryOk) : s.hostStep.memoryOk := by
  unfold State.hostStep
  split
  · split
    · exact hs
    · exact memoryOk_hostAccess (s := s.dropInput) hs _
  all_goals exact hs

theorem wf_exeNextMem {s : State} (hs : s.memoryOk) : s.exeNextMem.wf = true := by
  unfold State.exeNextMem
  split
  · split
    next ht => exact memoryOk_exeStep hs ht
    all_goals exact hs
  · exact hs

/-- A reset keeps memory, or what has landed of the step that it cuts in two (93 U23). -/
theorem memoryOk_outsideStep {s : State} (hs : s.memoryOk) : s.outsideStep.memoryOk := by
  obtain heq | ⟨is, -, heq⟩ | ⟨is, -, heq⟩ | ⟨rs, heq⟩ := s.outsideStep_cases <;> rw [heq]
  · exact hs
  · exact hs
  · exact wf_memCut _ _ (wf_exeNextMem (s := s.dropInput) hs)
  · exact hs

/-- Settles O18: an inductive invariant; each agent changes memory by stores only, and a reset by leaving some of them out. -/
theorem stepKeepsMemoryForm : Obligations.StepKeepsMemoryForm := by
  intro s t hs h
  obtain rfl | ⟨a, e, -, -, ha⟩ := step_cases h
  · exact hs
  have hu : ({ s with env := e } : State).memoryOk := hs
  cases a with
  | host => injection ha with ha; exact ha ▸ memoryOk_hostStep hu
  | seq => injection ha with ha; exact ha ▸ memoryOk_seqStep hu
  | exe => exact memoryOk_exeStep hu ha
  | outside => injection ha with ha; exact ha ▸ memoryOk_outsideStep hu

end Sys2Proof.Machine
end

section
/-!
# The pieces of a line (40_video R202, R204, R207)

A line is compared by what each of its bytes emits: merging blanks, dropping empty segments and cutting segments into pieces all
keep that list. How a piece follows the one before it is a relation on neighbours (`List.IsChain`).
-/

namespace Sys2Proof.Machine

/-- What each byte of a segment emits. -/
def Seg.bytes (x : Seg) : List SegKind := List.replicate x.len x.kind

/-- What each byte of a piece emits. -/
def Piece.bytes (p : Piece) : List SegKind := List.replicate p.len p.kind

/-! ### Segments -/

/-- A blank put before a blank is merged with it; any other segment is put before the list (40_video R204). -/
theorem consSegment_cases (x : Seg) (xs : List Seg) :
    (∃ n rest, x.kind = .blank ∧ xs = ⟨.blank, n⟩ :: rest ∧ consSegment x xs = ⟨.blank, x.len + n⟩ :: rest) ∨
    ((∀ y ∈ xs.head?, x.kind = .blank → y.kind ≠ .blank) ∧ consSegment x xs = x :: xs) := by
  unfold consSegment
  split
  next n rest hx => exact .inl ⟨n, rest, hx, rfl, rfl⟩
  next hne =>
    refine .inr ⟨fun y hy hx hyk => ?_, rfl⟩
    obtain ⟨rest, rfl⟩ := List.head?_eq_some_iff.1 hy
    exact hne y.len rest hx (by rw [← hyk])

theorem bytes_consSegment (x : Seg) (xs : List Seg) :
    (consSegment x xs).flatMap Seg.bytes = x.bytes ++ xs.flatMap Seg.bytes := by
  obtain ⟨n, rest, hx, rfl, heq⟩ | ⟨-, heq⟩ := consSegment_cases x xs
  · rw [heq]
    simp only [List.flatMap_cons, Seg.bytes, hx, List.replicate_add, List.append_assoc]
  · rw [heq, List.flatMap_cons]

theorem bytes_foldr_consSegment (xs : List Seg) :
    (xs.foldr consSegment []).flatMap Seg.bytes = xs.flatMap Seg.bytes := by
  induction xs with
  | nil => rfl
  | cons x xs ih => rw [List.foldr_cons, bytes_consSegment, ih, List.flatMap_cons]

theorem bytes_filter_nonempty (xs : List Seg) :
    (xs.filter (fun x => decide (x.len ≠ 0))).flatMap Seg.bytes = xs.flatMap Seg.bytes := by
  induction xs with
  | nil => rfl
  | cons x xs ih =>
    rw [List.filter_cons, List.flatMap_cons]
    split
    · rw [List.flatMap_cons, ih]
    next hx =>
      have hempty : x.bytes = [] := by simpa [Seg.bytes] using hx
      rw [ih, hempty, List.nil_append]

theorem bytes_lineSegments (t : Timings) (vpcol vpw : Nat) :
    (lineSegments t vpcol vpw).flatMap Seg.bytes = (rawSegments t vpcol vpw).flatMap Seg.bytes := by
  rw [lineSegments, bytes_foldr_consSegment, bytes_filter_nonempty]

/-- The four blocks have `HT` bytes, whatever block the line starts with. -/
theorem length_rawSegments_bytes (t : Timings) {vpcol vpw : Nat} (h : vpcol + vpw ≤ t.hvis) :
    ((rawSegments t vpcol vpw).flatMap Seg.bytes).length = t.ht := by
  unfold rawSegments Timings.ht
  dsimp only
  split <;> simp [Seg.bytes] <;> omega

/-- A line has one sync segment and one row segment: two segments of one kind are blanks (40_video R204). -/
theorem rawSegments_pairwise (t : Timings) (vpcol vpw : Nat) :
    (rawSegments t vpcol vpw).Pairwise (fun x y => x.kind = y.kind → x.kind = .blank) := by
  unfold rawSegments
  dsimp only
  split <;> simp

/-- Merging the blanks of segments that are not empty, and of which no two but blanks are of one kind, leaves no empty one and no
neighbours of one kind, and brings in no new kind. -/
theorem foldr_consSegment_facts {xs : List Seg} (hlen : ∀ x ∈ xs, x.len ≠ 0)
    (hkind : xs.Pairwise (fun x y => x.kind = y.kind → x.kind = .blank)) :
    (xs.foldr consSegment []).IsChain (fun x y => y.kind ≠ x.kind) ∧
    ∀ y ∈ xs.foldr consSegment [], y.len ≠ 0 ∧ ∃ z ∈ xs, z.kind = y.kind := by
  induction xs with
  | nil => simp
  | cons x xs ih =>
    obtain ⟨hx, hxs⟩ := List.forall_mem_cons.1 hlen
    obtain ⟨hxk, hxsk⟩ := List.pairwise_cons.1 hkind
    obtain ⟨hchain, hmem⟩ := ih hxs hxsk
    rw [List.foldr_cons]
    obtain ⟨n, rest, hblank, hfold, heq⟩ | ⟨hnot, heq⟩ := consSegment_cases x (xs.foldr consSegment [])
    · rw [heq]
      rw [hfold] at hchain hmem
      have hmerged : x.len + n ≠ 0 := by omega
      refine ⟨List.isChain_cons.2 (List.isChain_cons.1 hchain),
        List.forall_mem_cons.2 ⟨⟨hmerged, x, by simp, hblank⟩, fun y hy => ?_⟩⟩
      obtain ⟨hy0, z, hz, hzk⟩ := hmem y (by simp [hy])
      exact ⟨hy0, z, by simp [hz], hzk⟩
    · rw [heq]
      refine ⟨List.isChain_cons.2 ⟨fun y hy hyx => ?_, hchain⟩,
        List.forall_mem_cons.2 ⟨⟨hx, x, by simp, rfl⟩, fun y hy => ?_⟩⟩
      · obtain ⟨-, z, hz, hzk⟩ := hmem y (List.mem_of_mem_head? hy)
        have hb : x.kind = .blank := hxk z hz (hyx.symm.trans hzk.symm)
        exact hnot y hy hb (hyx.trans hb)
      · obtain ⟨hy0, z, hz, hzk⟩ := hmem y hy
        exact ⟨hy0, z, by simp [hz], hzk⟩

/-- The segments of a line are not empty, and neighbours are of different kinds (40_video R204). -/
theorem lineSegments_facts (t : Timings) (vpcol vpw : Nat) :
    (lineSegments t vpcol vpw).IsChain (fun x y => y.kind ≠ x.kind) ∧ ∀ x ∈ lineSegments t vpcol vpw, x.len ≠ 0 := by
  obtain ⟨hchain, hmem⟩ := foldr_consSegment_facts (xs := (rawSegments t vpcol vpw).filter (fun x => decide (x.len ≠ 0)))
    (fun x hx => by simpa using List.of_mem_filter hx) ((rawSegments_pairwise t vpcol vpw).sublist List.filter_sublist)
  exact ⟨hchain, fun x hx => (hmem x hx).1⟩

/-! ### The pieces of a segment -/

/-- The number of a segment's pieces: enough to cover it, and none of them starts at its end. -/
theorem pieceCount_iff {clen : Nat} (hc : 0 < clen) (len k : Nat) : k < (len + clen - 1) / clen ↔ k * clen < len := by
  rw [Nat.lt_iff_add_one_le, Nat.le_div_iff_mul_le hc, Nat.add_one_mul]
  omega

theorem mem_segPieces {clen : Nat} (hc : 0 < clen) {x : Seg} {p : Piece} :
    p ∈ segPieces clen x ↔ ∃ k, k * clen < x.len ∧ p = ⟨x.kind, min clen (x.len - k * clen), k * clen⟩ := by
  simp only [segPieces, List.mem_map, List.mem_range, pieceCount_iff hc, eq_comm]

/-- The first `m` pieces of a segment cover its first `m * clen` bytes. -/
theorem bytes_range_pieces (clen len : Nat) (kind : SegKind) (m : Nat) :
    (List.range m).flatMap (fun k => List.replicate (min clen (len - k * clen)) kind) =
      List.replicate (min len (m * clen)) kind := by
  induction m with
  | zero => simp
  | succ m ih =>
    have hsum : min len (m * clen) + min clen (len - m * clen) = min len ((m + 1) * clen) := by
      rw [Nat.add_one_mul]
      omega
    rw [List.range_succ, List.flatMap_append, ih, List.flatMap_singleton, List.replicate_append_replicate, hsum]

theorem bytes_segPieces {clen : Nat} (hc : 0 < clen) (x : Seg) : (segPieces clen x).flatMap Piece.bytes = x.bytes := by
  have hcover : ¬ (x.len + clen - 1) / clen * clen < x.len := fun h => absurd ((pieceCount_iff hc _ _).2 h) (Nat.lt_irrefl _)
  rw [segPieces, List.flatMap_map]
  show (List.range _).flatMap (fun k => List.replicate (min clen (x.len - k * clen)) x.kind) = _
  rw [bytes_range_pieces, Nat.min_eq_left (Nat.le_of_not_lt hcover)]
  rfl

/-- How a piece follows the one before it: at the offset after it in the same segment, where that one is full, and at offset 0
after a piece of another kind (40_video R207). -/
def Piece.follows (clen : Nat) (p q : Piece) : Prop :=
  (q.kind = p.kind → p.len = clen ∧ q.off = p.off + p.len) ∧ (q.kind ≠ p.kind → q.off = 0)

theorem segPieces_isChain {clen : Nat} (hc : 0 < clen) (x : Seg) : (segPieces clen x).IsChain (Piece.follows clen) := by
  rw [segPieces, List.isChain_map, List.isChain_range]
  intro k hk
  have hnext : (k + 1) * clen < x.len := (pieceCount_iff hc _ _).1 (by omega)
  rw [Nat.add_one_mul] at hnext
  refine ⟨fun _ => ?_, fun hne => absurd rfl hne⟩
  simp only [Nat.succ_eq_add_one, Nat.add_one_mul]
  omega

/-- A segment that is not empty has a first piece, at offset 0. -/
theorem head?_segPieces {clen : Nat} (hc : 0 < clen) {x : Seg} (hx : x.len ≠ 0) :
    (segPieces clen x).head? = some ⟨x.kind, min clen x.len, 0⟩ := by
  have hcount : 0 < (x.len + clen - 1) / clen := (pieceCount_iff hc _ _).2 (by omega)
  simp [segPieces, List.head?_range, Nat.ne_of_gt hcount]

/-! ### The pieces of a line -/

theorem bytes_linePieces (t : Timings) (vpcol vpw : Nat) {clen : Nat} (hc : 0 < clen) :
    (linePieces t vpcol vpw clen).flatMap Piece.bytes = (rawSegments t vpcol vpw).flatMap Seg.bytes := by
  rw [← bytes_lineSegments, linePieces, List.flatMap_assoc]
  exact List.flatMap_congr fun x _ => bytes_segPieces hc x

theorem sum_len_linePieces (t : Timings) {vpcol vpw clen : Nat} (hc : 0 < clen) (h : vpcol + vpw ≤ t.hvis) :
    ((linePieces t vpcol vpw clen).map (fun p => p.len)).sum = t.ht := by
  rw [← length_rawSegments_bytes t h, ← bytes_linePieces t vpcol vpw hc, List.length_flatMap]
  simp [Piece.bytes]

theorem len_of_mem_linePieces {t : Timings} {vpcol vpw clen : Nat} (hc : 0 < clen) {p : Piece}
    (hp : p ∈ linePieces t vpcol vpw clen) : 1 ≤ p.len ∧ p.len ≤ clen := by
  obtain ⟨x, -, hpx⟩ := List.mem_flatMap.1 hp
  obtain ⟨k, hk, rfl⟩ := (mem_segPieces hc).1 hpx
  dsimp only
  omega

theorem head?_linePieces_off {t : Timings} {vpcol vpw clen : Nat} (hc : 0 < clen) {p : Piece}
    (hp : (linePieces t vpcol vpw clen).head? = some p) : p.off = 0 := by
  obtain ⟨-, hlen⟩ := lineSegments_facts t vpcol vpw
  unfold linePieces at hp
  cases hsegs : lineSegments t vpcol vpw with
  | nil => simp [hsegs] at hp
  | cons x xs =>
    have hx : x.len ≠ 0 := hlen x (by simp [hsegs])
    rw [hsegs, List.flatMap_cons, List.head?_append, head?_segPieces hc hx] at hp
    cases hp
    rfl

/-- The last piece of a segment and the first of the next are of different kinds, and the latter is at offset 0. -/
theorem linePieces_isChain (t : Timings) (vpcol vpw : Nat) {clen : Nat} (hc : 0 < clen) :
    (linePieces t vpcol vpw clen).IsChain (Piece.follows clen) := by
  obtain ⟨hchain, hlen⟩ := lineSegments_facts t vpcol vpw
  have hne : [] ∉ (lineSegments t vpcol vpw).map (segPieces clen) := by
    intro hmem
    obtain ⟨x, hx, hnil⟩ := List.mem_map.1 hmem
    have hhead := head?_segPieces hc (hlen x hx)
    rw [hnil] at hhead
    cases hhead
  rw [linePieces, List.flatMap_def, List.isChain_flatten hne]
  refine ⟨fun l hl => ?_, ?_⟩
  · obtain ⟨x, -, rfl⟩ := List.mem_map.1 hl
    exact segPieces_isChain hc x
  · rw [List.isChain_map]
    refine hchain.imp fun x y hxy p hp q hq => ?_
    obtain ⟨i, hi, rfl⟩ := (mem_segPieces hc).1 (List.mem_of_getLast? hp)
    obtain ⟨j, hj, rfl⟩ := (mem_segPieces hc).1 (List.mem_of_mem_head? hq)
    refine ⟨fun h => absurd h hxy, fun _ => ?_⟩
    have hy : y.len ≠ 0 := by omega
    rw [head?_segPieces hc hy] at hq
    exact (congrArg Piece.off (Option.some.inj hq)).symm

end Sys2Proof.Machine
end

section
/-!
# The descriptors that `BUILD` writes (20_memory R115, 40_video R205, R221 to R226)
-/

namespace Sys2Proof.Machine

/-! ### Words in memory -/

/-- A run that holds the low bytes of a number reads as that number, modulo its width (20_memory R101). -/
theorem memReadLe_of_bytes {m : Memory} {a v n : Nat} (h : ∀ j < n, memByte m (a + j) = BitVec.ofNat 8 (v >>> (8 * j))) :
    memReadLe m a n = v % 2 ^ (8 * n) := by
  induction n generalizing a v with
  | zero => simp [memReadLe, Nat.mod_one]
  | succ n ih =>
    have hlow : (memByte m a).toNat = v % 256 := by
      have h0 := h 0 (by omega)
      rw [Nat.add_zero] at h0
      simp [h0]
    have hhigh : memReadLe m (a + 1) n = v / 256 % 2 ^ (8 * n) := by
      refine ih fun j hj => ?_
      have hstep := h (j + 1) (by omega)
      rw [Nat.mul_add, Nat.add_comm (8 * j), Nat.shiftRight_add,
        Nat.shiftRight_eq_div_pow v (8 * 1)] at hstep
      rw [Nat.add_assoc, Nat.add_comm 1]
      exact hstep
    have hpow : 2 ^ (8 * (n + 1)) = 256 * 2 ^ (8 * n) := by rw [Nat.mul_add, pow_add]; ring
    rw [memReadLe, hlow, hhigh, hpow, Nat.mod_mul]

theorem memWord_of_bytes {m : Memory} {a v : Nat} (h : ∀ j < 4, memByte m (a + j) = BitVec.ofNat 8 (v >>> (8 * j))) :
    memWord m a = BitVec.ofNat 32 v := by
  apply BitVec.eq_of_toNat_eq
  rw [memWord, memReadLe_of_bytes h, BitVec.toNat_ofNat, BitVec.toNat_ofNat]
  exact Nat.mod_mod _ _

/-! ### The control word (20_memory R115) -/

theorem toNat_descWord0 (len : Nat) (eof : Bool) :
    (descWord0 len eof).toNat = 2 ^ 31 + eof.toNat * 2 ^ 30 + len % 4096 * 2 ^ 12 + roundUp4 len % 4096 := by
  simp only [descWord0, toNat_append_eq_add, BitVec.toNat_ofNat, BitVec.toNat_ofBool]
  omega

theorem roundUp4_facts (n : Nat) : roundUp4 n % 4 = 0 ∧ n ≤ roundUp4 n ∧ roundUp4 n < n + 4 := by
  unfold roundUp4
  omega

theorem descWord0_length (len : Nat) (eof : Bool) : ((descWord0 len eof).extractLsb' 12 12).toNat = len % 4096 := by
  have heof := eof.toNat_le
  rw [BitVec.extractLsb'_toNat, toNat_descWord0, Nat.shiftRight_eq_div_pow]
  omega

theorem descWord0_size (len : Nat) (eof : Bool) : ((descWord0 len eof).extractLsb' 0 12).toNat = roundUp4 len % 4096 := by
  rw [BitVec.extractLsb'_toNat, toNat_descWord0, Nat.shiftRight_eq_div_pow]
  omega

/-- `SOSF` and `OFFSET`. -/
theorem descWord0_offset (len : Nat) (eof : Bool) : (descWord0 len eof).extractLsb' 24 6 = 0#6 := by
  apply BitVec.eq_of_toNat_eq
  rw [BitVec.extractLsb'_toNat, toNat_descWord0, Nat.shiftRight_eq_div_pow, BitVec.toNat_ofNat]
  omega

theorem descWord0_owner (len : Nat) (eof : Bool) : (descWord0 len eof).getLsbD 31 = true := by
  have heof := eof.toNat_le
  rw [BitVec.getLsbD, Nat.testBit_eq_decide_div_mod_eq, toNat_descWord0, decide_eq_true_iff]
  omega

theorem descWord0_eof (len : Nat) (eof : Bool) : (descWord0 len eof).getLsbD 30 = eof := by
  have hbit : (2 ^ 31 + eof.toNat * 2 ^ 30 + len % 4096 * 2 ^ 12 + roundUp4 len % 4096) / 2 ^ 30 % 2 = eof.toNat := by
    have heof := eof.toNat_le
    omega
  rw [BitVec.getLsbD, Nat.testBit_eq_decide_div_mod_eq, toNat_descWord0, hbit]
  cases eof <;> rfl

/-! ### A descriptor in the chain -/

/-- In a list that is put together from parts of one length `c`, part `i` starts at `i * c`. -/
theorem getElem?_flatMap_of_length {α β : Type} {f : α → List β} {c : Nat} {l : List α} (h : ∀ x ∈ l, (f x).length = c)
    {i : Nat} {x : α} (hx : l[i]? = some x) {j : Nat} (hj : j < c) : (l.flatMap f)[i * c + j]? = (f x)[j]? := by
  induction l generalizing i with
  | nil => simp at hx
  | cons y l ih =>
    obtain ⟨hy, hl⟩ := List.forall_mem_cons.1 h
    rw [List.flatMap_cons]
    cases i with
    | zero =>
      cases hx
      rw [Nat.zero_mul, Nat.zero_add, List.getElem?_append_left (by omega)]
    | succ i =>
      rw [Nat.add_one_mul, List.getElem?_append_right (by omega), hy, ← ih hl hx]
      congr 1
      omega

/-- Byte `j` of descriptor `k` of a line is at `12 * (line * G + k) + j` of the chain (40_video R221). -/
theorem State.getElem?_chainBytes {s : State} (hg : s.alloc.group.toNat = s.pieces.length) {line k : Nat} {p : Piece}
    (hline : line < s.active.vt) (hp : s.pieces[k]? = some p) {j : Nat} (hj : j < 12) :
    s.chainBytes[12 * (line * s.alloc.group.toNat + k) + j]? = (s.descBytes (line * s.alloc.group.toNat + k) line p)[j]? := by
  have hk : k < s.pieces.length := (List.getElem?_eq_some_iff.1 hp).1
  have hin : k * 12 + j < 12 * s.alloc.group.toNat := by omega
  have hpos : 12 * (line * s.alloc.group.toNat + k) + j = line * (12 * s.alloc.group.toNat) + (k * 12 + j) := by ring
  have hlines : ∀ l ∈ List.range s.active.vt,
      (s.pieces.zipIdx.flatMap fun q => s.descBytes (l * s.alloc.group.toNat + q.2) l q.1).length =
        12 * s.alloc.group.toNat := by
    intro l _
    simp [List.length_flatMap, hg, Nat.mul_comm]
  rw [hpos, State.chainBytes, getElem?_flatMap_of_length hlines (List.getElem?_range hline) hin,
    getElem?_flatMap_of_length (fun q _ => s.length_descBytes _ _ _) (x := (p, k)) (by simp [hp]) hj]

section
variable {s : State} {line k : Nat} {p : Piece} (hg : s.alloc.group.toNat = s.pieces.length)
  (hn : s.alloc.chainLen.toNat = s.pieces.length * s.active.vt)
  (hfit : s.alloc.chainBase.toNat + 12 * s.alloc.chainLen.toNat ≤ 2 ^ 32) (hline : line < s.active.vt)
  (hp : s.pieces[k]? = some p)
include hg hn hfit hline hp

/-- After `BUILD` every byte of the chain is that of its descriptor (40_video R226). -/
theorem State.memByte_build {j : Nat} {v : Byte} (hj : j < 12)
    (hv : (s.descBytes (line * s.alloc.group.toNat + k) line p)[j]? = some v) :
    memByte s.build.mem (s.descAddr (line * s.alloc.group.toNat + k) + j) = v := by
  rw [← State.getElem?_chainBytes hg hline hp hj] at hv
  have hlen : s.chainBytes.length ≤ addrSpace := by
    rw [State.length_chainBytes, ← hn]
    unfold addrSpace
    omega
  refine memByte_memStoreBlock_of_mem _ _ _ _ _ v hlen hv ?_
  rw [State.descAddr, Nat.add_assoc]

/-- After `BUILD` a word of a descriptor reads the number whose low bytes stand in the descriptor there. -/
theorem State.memWord_build {off v : Nat} (hoff : off + 4 ≤ 12)
    (hv : ∀ j < 4, (s.descBytes (line * s.alloc.group.toNat + k) line p)[off + j]? = (bytesLe v 4)[j]?) :
    memWord s.build.mem (s.descAddr (line * s.alloc.group.toNat + k) + off) = BitVec.ofNat 32 v := by
  refine memWord_of_bytes fun j hj => ?_
  rw [Nat.add_assoc]
  refine State.memByte_build hg hn hfit hline hp (by omega) ?_
  rw [hv j hj, bytesLe_getElem? v 4 j hj]

/-- The three words of a descriptor after `BUILD` (20_memory R115, 40_video R221). -/
theorem State.descriptor_build :
    let d := line * s.alloc.group.toNat + k
    memWord s.build.mem (s.descAddr d) =
      descWord0 p.len (decide (d = (s.active.vvis * s.alloc.group.toNat) % s.alloc.chainLen.toNat)) ∧
    memWord s.build.mem (s.descAddr d + 4) = BitVec.ofNat 32 (s.pieceTarget line p s.visTbl) ∧
    memWord s.build.mem (s.descAddr d + 8) = BitVec.ofNat 32 (s.descAddr ((d + 1) % s.alloc.chainLen.toNat)) := by
  intro d
  have hctl := State.memWord_build hg hn hfit hline hp (off := 0)
    (v := (descWord0 p.len (decide (d = (s.active.vvis * s.alloc.group.toNat) % s.alloc.chainLen.toNat))).toNat) (by omega)
    fun j hj => by
      rw [Nat.zero_add, State.descBytes, List.append_assoc, List.getElem?_append_left (by simpa using hj)]
  have hbuf := State.memWord_build hg hn hfit hline hp (off := 4) (v := s.pieceTarget line p s.visTbl) (by omega)
    fun j hj => by
      rw [State.descBytes, List.append_assoc, List.getElem?_append_right (by simp), length_bytesLe, Nat.add_sub_cancel_left,
        List.getElem?_append_left (by simpa using hj)]
  have hnext := State.memWord_build hg hn hfit hline hp (off := 8)
    (v := s.descAddr ((d + 1) % s.alloc.chainLen.toNat)) (by omega)
    fun j hj => by
      rw [State.descBytes, List.getElem?_append_right (by simp), List.length_append, length_bytesLe, length_bytesLe,
        Nat.add_sub_cancel_left]
  rw [BitVec.ofNat_toNat, BitVec.setWidth_eq] at hctl
  exact ⟨hctl, hbuf, hnext⟩

end

/-! ### Targets (40_video R205, R222, R223) -/

theorem State.pieceTarget_blank (s : State) (line len off : Nat) (t : Bool) :
    s.pieceTarget line ⟨.blank, len, off⟩ t = s.alloc.constBase.toNat + 2 * s.alloc.clen.toNat *
      (if s.active.vvis + s.active.vfp ≤ line ∧ line < s.active.vvis + s.active.vfp + s.active.vsync then 1 else 0) := by
  simp only [State.pieceTarget, State.constBuf, Timings.vsyncLine, decide_eq_true_eq]
  split <;> ring

theorem State.pieceTarget_sync (s : State) (line len off : Nat) (t : Bool) :
    s.pieceTarget line ⟨.sync, len, off⟩ t = s.alloc.constBase.toNat + s.alloc.clen.toNat + 2 * s.alloc.clen.toNat *
      (if s.active.vvis + s.active.vfp ≤ line ∧ line < s.active.vvis + s.active.vfp + s.active.vsync then 1 else 0) := by
  simp only [State.pieceTarget, State.constBuf, Timings.vsyncLine, decide_eq_true_eq]
  split <;> ring

/-- A visible line is no line of the vertical sync, so its blank is the first constant buffer. -/
theorem State.pieceTarget_blank_of_visible {s : State} {line : Nat} (h : line < s.active.vvis) (len off : Nat) (t : Bool) :
    s.pieceTarget line ⟨.blank, len, off⟩ t = s.constBuf 0 := by
  refine if_neg (mt of_decide_eq_true fun hsync => ?_)
  omega

/-- `TGT(L, off, t)`: a byte of the row that the line shows, or the blank of the line (40_video R223). -/
theorem State.rowTarget_eq (s : State) (line off : Nat) (t : Bool) :
    s.rowTarget line off t =
      let r : Int := ((line / s.active.scan : Nat) : Int) - (s.vprow : Int)
      if line < s.active.vvis ∧ 0 ≤ r ∧ r < (s.vph : Int) ∧ (line % s.active.scan = 0 ∨ s.active.msblack = false) then
        (s.rows.entry t r.toNat).toNat + off
      else s.pieceTarget line ⟨.blank, 0, 0⟩ t := by
  unfold State.rowTarget
  dsimp only
  by_cases hvis : line < s.active.vvis
  · simp only [hvis, if_true, true_and, State.pieceTarget_blank_of_visible hvis]
  · rw [if_neg hvis]
    exact (if_neg fun h => hvis h.1).symm

/-- Settles O33: the words of a descriptor are `State.descriptor_build`, the targets are one choice by the line, and the pieces of
a line emit the bytes of its blocks in order. -/
theorem builtChainIsCircular : Obligations.BuiltChainIsCircular := by
  refine ⟨fun s line k p hg hn hfit hline hp hlen => ?_, fun s line len off t => ?_, fun t vpcol vpw clen hc hvis => ?_⟩
  · obtain ⟨hctl, hbuf, hnext⟩ := State.descriptor_build hg hn hfit hline hp
    dsimp only
    rw [hctl]
    refine ⟨hnext, hbuf, ?_, fun hmax => ?_, descWord0_offset _ _, descWord0_owner _ _, descWord0_eof _ _⟩
    · rw [descWord0_length, Nat.mod_eq_of_lt hlen]
    · obtain ⟨hmod, hle, hlt⟩ := roundUp4_facts p.len
      rw [descWord0_size]
      omega
  · refine ⟨s.pieceTarget_blank line len off t, s.pieceTarget_sync line len off t, rfl, ?_⟩
    rw [s.rowTarget_eq line off t, s.pieceTarget_blank]
    rfl
  · intro ps bytes fp sync bp vis
    have hpieces : bytes (ps.map (fun p => (p.kind, p.len))) = ps.flatMap Piece.bytes := by
      simp only [bytes, List.flatMap_map]
      rfl
    have hblocks : ∀ xs : List (SegKind × Nat), bytes xs = (xs.map (fun x => Seg.mk x.1 x.2)).flatMap Seg.bytes := by
      intro xs
      simp only [bytes, List.flatMap_map]
      rfl
    refine ⟨?_, sum_len_linePieces t hc hvis, fun p hp => len_of_mem_linePieces hc hp, fun p hp => ?_, fun k p q hp hq => ?_⟩
    · rw [hpieces, bytes_linePieces t vpcol vpw hc, hblocks]
      unfold rawSegments Timings.sb
      dsimp only
      generalize (t.mode.extractLsb' 4 2).toNat = n
      match n with
      | 0 | 1 | 2 | _ + 3 => rfl
    · exact head?_linePieces_off hc (List.head?_eq_getElem?.trans hp)
    · obtain ⟨hk, rfl⟩ := List.getElem?_eq_some_iff.1 hp
      obtain ⟨hk1, rfl⟩ := List.getElem?_eq_some_iff.1 hq
      exact List.isChain_iff_getElem.1 (linePieces_isChain t vpcol vpw hc) k hk1

end Sys2Proof.Machine
end

section
/-!
# Decoding and encoding (30_encoding R150 to R168)

Each command is written as the header of its opcode and as many argument words as its format has. The decoder's checks
accept exactly the headers the encoder writes, so the two are inverse to each other.
-/

namespace Sys2Proof

/-! ### Opcodes (30_encoding R153, R157) -/

theorem Opcode.ofByte_eq_none_iff (b : Byte) : Opcode.ofByte b = none ↔ b.toNat = 0 ∨ 0x1C < b.toNat := by
  revert b
  decide

theorem Opcode.exists_toByte_eq {b : Byte} (hpos : 1 ≤ b.toNat) (hle : b.toNat ≤ 0x1C) :
    ∃ op : Opcode, op.toByte = b := by
  have hsome : Opcode.ofByte b ≠ none := fun hnone => by
    have := (Opcode.ofByte_eq_none_iff b).1 hnone
    omega
  obtain ⟨op, hop⟩ := Option.ne_none_iff_exists'.1 hsome
  exact ⟨op, Opcode.toByte_of_ofByte b op hop⟩

/-! ### Reserved immediate bits (30_encoding R153, R154) -/

theorem and_allSet_eq_zero_iff (x : Half) : x &&& 0xFFFF#16 = 0#16 ↔ x = 0#16 := by
  rw [show 0xFFFF#16 = BitVec.allOnes 16 from rfl, BitVec.and_allOnes]

/-- A half has no bit of the mask of the bits from `k` on exactly when it is below `2 ^ k`. -/
theorem and_upperMask_eq_zero_iff {mask : Half} {k : Nat} (hmask : ∀ j < 16, mask.getLsbD j = decide (k ≤ j)) (x : Half) :
    x &&& mask = 0#16 ↔ x.toNat < 2 ^ k := by
  constructor
  · intro h
    refine Nat.lt_pow_two_of_testBit _ fun j hkj => ?_
    rw [BitVec.testBit_toNat]
    by_cases hj : j < 16
    · have hbit : (x &&& mask).getLsbD j = false := by rw [h, BitVec.getLsbD_zero]
      simpa [hmask j hj, hkj] using hbit
    · exact BitVec.getLsbD_of_ge x j (by omega)
  · intro h
    refine BitVec.eq_of_getLsbD_eq fun j hj => ?_
    rw [BitVec.getLsbD_and, hmask j hj, BitVec.getLsbD_zero]
    by_cases hkj : k ≤ j
    · have hbit : x.getLsbD j = false := Nat.testBit_lt_two_pow (h.trans_le (Nat.pow_le_pow_right (by omega) hkj))
      simp [hbit]
    · simp [hkj]

theorem and_colourReserved_eq_zero_iff (x : Half) : x &&& 0xFFC0#16 = 0#16 ↔ x.toNat < 64 :=
  and_upperMask_eq_zero_iff (k := 6) (by decide) x

theorem and_optionsReserved_eq_zero_iff (x : Half) : x &&& 0xFFFE#16 = 0#16 ↔ x.toNat < 2 :=
  and_upperMask_eq_zero_iff (k := 1) (by decide) x

/-! ### The common checks (30_encoding R166) -/

theorem decodeEntry_of_toByte {e : Entry} {op : Opcode} (hop : op.toByte = hdrOp e.e0) :
    decodeEntry e =
      if hdrLen e.e0 ≠ op.format.len then .error .badLength
      else if hdrRsv e.e0 ≠ 0#6 ∨ hdrImm e.e0 &&& op.reservedImm ≠ 0#16 then .error .reservedBits
      else .ok (op.build e) := by
  rw [decodeEntry, ← hop, Opcode.ofByte_toByte]

theorem decodeEntry_of_ofByte_eq_none {e : Entry} (h : Opcode.ofByte (hdrOp e.e0) = none) :
    decodeEntry e = .error .illegalOpcode := by
  rw [decodeEntry, h]

/-- An entry that decodes has the header of an opcode with no reserved bit set, and is the instruction built from it. -/
theorem exists_header_of_decodeEntry {e : Entry} {i : Instr} (h : decodeEntry e = .ok i) :
    ∃ op : Opcode, e.e0 = op.header (hdrImm e.e0) ∧ hdrImm e.e0 &&& op.reservedImm = 0#16 ∧ op.build e = i := by
  cases hop : Opcode.ofByte (hdrOp e.e0) with
  | none => rw [decodeEntry_of_ofByte_eq_none hop] at h; cases h
  | some op =>
    have hbyte := Opcode.toByte_of_ofByte _ _ hop
    rw [decodeEntry_of_toByte hbyte] at h
    split_ifs at h with hlen hrsv
    obtain ⟨hrsv, himm⟩ := not_or.1 hrsv
    refine ⟨op, ?_, of_not_not himm, Except.ok.inj h⟩
    rw [Opcode.header, hbyte, ← of_not_not hlen, header_ext _ (of_not_not hrsv)]

/-! ### The instruction of an entry, and the words of an instruction -/

theorem wellFormed_build {op : Opcode} {e : Entry} (himm : hdrImm e.e0 &&& op.reservedImm = 0#16) :
    (op.build e).wellFormed = true := by
  cases op with
  | setPenColor | setBrushColor => exact decide_eq_true ((and_colourReserved_eq_zero_iff _).1 himm)
  | setPaintOptions => exact decide_eq_true ((and_optionsReserved_eq_zero_iff _).1 himm)
  | _ => rfl

/-- The words of a built instruction: its header, and the argument words that its format has (30_encoding R150, R152). -/
theorem encode_build {op : Opcode} {e : Entry} (himm : hdrImm e.e0 &&& op.reservedImm = 0#16) :
    encode (op.build e) = op.header (hdrImm e.e0) :: [e.e1, e.e2, e.e3].take op.format.len.toNat := by
  cases op with
  | setPenColor | setBrushColor | setPaintOptions | vScroll | hScroll | setGlyphOptions | fillPath | drawPath => rfl
  | _ =>
    have hzero : hdrImm e.e0 = 0#16 := (and_allSet_eq_zero_iff _).1 himm
    simp [Opcode.build, encode, hzero, Opcode.format, Format.len]

/-- A command is built from the entry of its own words: its opcode's header with no reserved bit set, and as many
arguments as its format has. -/
theorem exists_header_of_wellFormed {i : Instr} (hport : i.port = .cmdData) (hwf : i.wellFormed = true) :
    ∃ (op : Opcode) (imm : Half) (args : List Word), encode i = op.header imm :: args ∧
      args.length = op.format.len.toNat ∧ imm &&& op.reservedImm = 0#16 ∧
      op.build ⟨op.header imm, args.getD 0 0#32, args.getD 1 0#32, args.getD 2 0#32⟩ = i := by
  cases i with
  | clear | refreshSprites | swapBuffers => exact ⟨_, _, [], rfl, rfl, rfl, rfl⟩
  | setPenColor imm | setBrushColor imm =>
    exact ⟨_, imm, [], rfl, rfl, (and_colourReserved_eq_zero_iff imm).2 (of_decide_eq_true hwf), by simp [Opcode.build]⟩
  | setPaintOptions imm =>
    exact ⟨_, imm, [], rfl, rfl, (and_optionsReserved_eq_zero_iff imm).2 (of_decide_eq_true hwf), by simp [Opcode.build]⟩
  | vScroll imm | hScroll imm | setGlyphOptions imm =>
    exact ⟨_, imm, [], rfl, rfl, BitVec.and_zero, by simp [Opcode.build]⟩
  | fillPath n addr | drawPath n addr => exact ⟨_, n, [addr], rfl, rfl, BitVec.and_zero, by simp [Opcode.build]⟩
  | drawGlyph addr => exact ⟨_, _, [addr], rfl, rfl, rfl, rfl⟩
  | setPixel x y | moveTo x y | lineTo x y | fillEllipse x y | drawEllipse x y | setOrigin x y =>
    exact ⟨_, _, [pairWord x y], rfl, rfl, rfl, by simp [Opcode.build]⟩
  | drawBitmap x y addr => exact ⟨_, _, [pairWord x y, addr], rfl, rfl, rfl, by simp [Opcode.build]⟩
  | fillRect x1 y1 x2 y2 | invertRect x1 y1 x2 y2 | copyRect x1 y1 x2 y2 | setScrollingRegion x1 y1 x2 y2
  | swapFgBg x1 y1 x2 y2 | setClippingRect x1 y1 x2 y2 =>
    exact ⟨_, _, [pairWord x1 y1, pairWord x2 y2], rfl, rfl, rfl, by simp [Opcode.build]⟩
  | readRawData x y w h addr | writeRawData x y w h addr =>
    exact ⟨_, _, [pairWord x y, pairWord w h, addr], rfl, rfl, rfl, by simp [Opcode.build]⟩
  | renderGlyphsBuffer addr c1 r1 c2 r2 =>
    exact ⟨_, _, [addr, pairWord c1 r1, pairWord c2 r2], rfl, rfl, rfl, by simp [Opcode.build]⟩
  | hostopApply | hostopDrain | hostopSuspend | hostopResume | hostopMoveScreen | hostopShrinkScreen | hostopSetSprites
  | hostopCmdAbort => cases hport

/-! ### Framing (30_encoding R150) -/

/-- `LEN` alone decides which words are the command's. -/
theorem frame_header_append {h : Word} {args : List Word} (rest : List Word) (hlen : args.length = (hdrLen h).toNat) :
    frame (h :: (args ++ rest)) = some (⟨h, args.getD 0 0#32, args.getD 1 0#32, args.getD 2 0#32⟩, rest) := by
  simp [frame, ← hlen]

/-! ### Host operations (30_encoding R168) -/

theorem exists_encode_of_hostop {i : Instr} (hport : i.port = .hostop) : ∃ v, encode i = [v] := by
  cases i with
  | hostopApply | hostopDrain | hostopSuspend | hostopResume | hostopMoveScreen | hostopShrinkScreen | hostopSetSprites
  | hostopCmdAbort => exact ⟨_, rfl⟩
  | _ => cases hport

/-- The codes are decoded exactly as they are encoded. -/
theorem decodeHostOp_eq_ok_iff {v : Word} {i : Instr} :
    decodeHostOp v = .ok i ↔ i.port = .hostop ∧ encode i = [v] := by
  constructor
  · intro h
    refine ⟨Machine.port_of_decodeHostOp h, ?_⟩
    unfold decodeHostOp at h
    split at h
    case h_9 => cases h
    all_goals
      next hv =>
        cases h
        simp [encode, ← BitVec.toNat_inj, hv]
  · rintro ⟨hport, hcode⟩
    cases i with
    | hostopApply | hostopDrain | hostopSuspend | hostopResume | hostopMoveScreen | hostopShrinkScreen | hostopSetSprites
    | hostopCmdAbort =>
      cases hcode
      rfl
    | _ => cases hport

theorem decodeHostOp_eq_error_iff {v : Word} {r : DecodeReject} :
    decodeHostOp v = .error r ↔ r = .badHostop ∧ (v.toNat = 0 ∨ 8 < v.toNat) := by
  unfold decodeHostOp
  split
  case h_9 =>
    simp only [imp_false] at *
    have hrange : v.toNat = 0 ∨ 8 < v.toNat := by omega
    exact ⟨fun h => ⟨(Except.error.inj h).symm, hrange⟩, fun h => congrArg _ h.1.symm⟩
  all_goals
    next hv => simp [hv]

/-! ### The statements -/

/-- Settles O1: a command's words frame to the entry it is built from, which passes the checks; a host operation's word is
the one its code stands for. -/
theorem decodeOfEncode : Obligations.DecodeOfEncode := by
  intro i rest hwf
  cases hport : i.port with
  | cmdData =>
    obtain ⟨op, imm, args, henc, hlen, himm, hbuild⟩ := exists_header_of_wellFormed hport hwf
    rw [henc, List.cons_append, decode, frame_header_append rest (by rw [hlen, hdrLen_header])]
    exact (decodeEntry_header op imm _ _ _ himm).trans (congrArg _ hbuild)
  | hostop =>
    obtain ⟨v, henc⟩ := exists_encode_of_hostop hport
    rw [henc]
    exact decodeHostOp_eq_ok_iff.2 ⟨hport, henc⟩

/-- Settles O2: a decoded entry has the header its opcode's encoder writes. -/
theorem encodeOfDecode : Obligations.EncodeOfDecode := by
  refine ⟨fun e i h => ?_, fun v i h => decodeHostOp_eq_ok_iff.1 h⟩
  obtain ⟨op, hheader, himm, rfl⟩ := exists_header_of_decodeEntry h
  have hlen : hdrLen e.e0 = op.format.len := by rw [hheader, hdrLen_header]
  refine ⟨wellFormed_build himm, Machine.port_build op e, ?_⟩
  rw [encode_build himm, ← hheader, hlen, List.take_succ_cons]

/-- Settles O3: the opcode bytes are 1 to 28, and each selects the checks of its own opcode. -/
theorem checksInOrder : Obligations.ChecksInOrder := by
  refine ⟨fun e h => decodeEntry_of_ofByte_eq_none ((Opcode.ofByte_eq_none_iff _).2 h), ?_, ?_⟩
  · rintro e ⟨hpos, hle⟩
    obtain ⟨op, hop⟩ := Opcode.exists_toByte_eq hpos hle
    exact ⟨op, hop, decodeEntry_of_toByte hop⟩
  · intro v
    simp [decodeHostOp_eq_error_iff]

/-- Settles O4, by evaluation: each word list is a closed input of the decoder. -/
theorem decodedWords : Obligations.DecodedWords :=
  ⟨rfl, rfl, rfl, rfl, rfl, rfl, rfl⟩

end Sys2Proof
end

section
/-!
# Rejected entries and host-operation codes (30_encoding R166, R168, 41_queue R264, R268, R269, R273)

What EXE does with a word that decodes to no instruction.
-/

namespace Sys2Proof.Machine

/-- With EXE first in the schedule, the next step is the first step left of its job. -/
theorem step_of_sched_exe {s : State} {as : List Agent} {m : Micro} {ms : List Micro} (hsched : s.env.sched = .exe :: as)
    (hwork : s.exe.work = m :: ms) : step s = ((s.setSched as).setWork ms).microStep m := by
  have henabled : s.enabled .exe = true := by simp [State.enabled, State.exeEnabled, hwork]
  have hpick : s.pick = some (.exe, s.setSched as) := by
    have hself : s.setSched (.exe :: as) = s := by rw [← hsched]; rfl
    rw [← hself]
    exact State.pick_setSched_cons as henabled
  rw [step_of_pick hpick, State.agentStep, State.exeStep, State.setSched_exe, hwork]

theorem State.executeEntry_of_decodeEntry_error {s : State} {e : Entry} {r : DecodeReject}
    (h : decodeEntry e = .error r) :
    s.executeEntry e = .next ((s.setExe { s.exe with ok := true }).raiseCmd (hdrOp e.e0) (rejectCode r) 0) := by
  rw [State.executeEntry, h]

/-- What follows an entry in a drain requests a refresh where the vsync service fails with the sprites hidden, and leaves
the compositor alone otherwise (41_queue R273). -/
theorem State.comp_drainNext (s : State) (d : Drain) : (s.drainNext d).comp = { s.comp with
    refreshPending := s.comp.refreshPending || (decide (s.exe.ok = false ∧ s.exe.ctx = .vsync) && d.hid) } := by
  rw [State.drainNext]
  by_cases hfail : s.exe.ok = false ∧ s.exe.ctx = .vsync
  · cases hhid : d.hid <;> simp [hfail]
  · simp [hfail]

/-- A drain's step on an entry that fails a common check: the record of the error, then what follows an entry. -/
theorem step_of_rejected_head {s : State} {as : List Agent} {d : Drain} {ms : List Micro} {e : Entry} {es : List Entry}
    {r : DecodeReject} (hsched : s.env.sched = .exe :: as) (hwork : s.exe.work = .drainLoop d :: ms)
    (hleft : d.left ≠ some 0) (hqueue : s.queue.entries = e :: es) (hdec : decodeEntry e = .error r) :
    step s = .next ((((s.setSched as).setExe { s.exe with ok := true, work := ms }).raiseCmd
      (hdrOp e.e0) (rejectCode r) 0).drainNext d) := by
  rw [step_of_sched_exe hsched hwork, State.microStep,
    State.drainStep_entry (s := (s.setSched as).setWork ms) hqueue hleft, State.executeEntry_of_decodeEntry_error hdec]
  rfl

/-- A host-operation step on a value that is no code only records `BAD_HOSTOP` (30_encoding R168, 41_queue R264). -/
theorem State.hostOpStep_of_bad_code {s : State} {v : Word} (h : v.toNat = 0 ∨ 8 < v.toNat) :
    s.hostOpStep v = .next (s.raise .host (v.extractLsb' 0 8) .badHostop 0#32) := by
  rw [State.hostOpStep, decodeHostOp_eq_error_iff.2 ⟨rfl, h⟩]
  rfl

/-- Settles O7: the step that rejects an entry or a code, with each field written out. -/
theorem rejectedHeadIsPopped : Obligations.RejectedHeadIsPopped := by
  constructor
  · intro s as d ms e es r hsched hwork hleft hqueue hdec
    refine ⟨_, step_of_rejected_head hsched hwork hleft hqueue hdec, ?_⟩
    rw [State.drainNext_eq, State.comp_drainNext, State.nextSteps]
    by_cases hctx : s.exe.ctx = .vsync <;> simp [hctx, hqueue] <;> rfl
  · intro s as ms v hsched hwork hcode
    rw [step_of_sched_exe hsched hwork, State.microStep, State.hostOpStep_of_bad_code hcode]
    rfl

end Sys2Proof.Machine
end

section
/-!
# The allocator and the plan of `APPLY` (40_video R210 to R217, R220)

A run of bytes is written as a `PoolFree`: where it starts and how long it is. The allocator's rule R214 is one equivalence, and
what it says about placement follows from it: an allocated run lies in a free one, and apart from everything that stays free.
-/

namespace Sys2Proof.Machine

/-! ### `alloc(n)` (40_video R214) -/

theorem poolAlloc_eq_none_iff {n : Nat} {ps : List PoolFree} : poolAlloc n ps = none ↔ ∀ p ∈ ps, p.free < n := by
  induction ps with
  | nil => simp [poolAlloc]
  | cons p ps ih =>
    rw [poolAlloc, List.forall_mem_cons, ← ih]
    split
    next hroom => simp [Nat.not_lt.2 hroom]
    next hfull => simp [Nat.lt_of_not_le hfull]

/-- The first pool with room gives the run and is shortened by it. -/
theorem poolAlloc_eq_some_iff {n a : Nat} {ps qs : List PoolFree} :
    poolAlloc n ps = some (a, qs) ↔ ∃ before p after, ps = before ++ p :: after ∧ (∀ q ∈ before, q.free < n) ∧
      n ≤ p.free ∧ a = p.next ∧ qs = before ++ ⟨p.next + n, p.free - n⟩ :: after := by
  induction ps generalizing qs with
  | nil => simp [poolAlloc]
  | cons p ps ih =>
    rw [poolAlloc]
    split
    next hroom =>
      constructor
      · intro h
        cases h
        exact ⟨[], p, ps, rfl, by simp, hroom, rfl, rfl⟩
      · rintro ⟨before, q, after, hps, hbefore, -, rfl, rfl⟩
        cases before with
        | nil => cases hps; rfl
        | cons r before =>
          cases hps
          exact absurd hroom (Nat.not_le.2 (hbefore p (by simp)))
    next hfull =>
      simp only [Option.map_eq_some_iff, Prod.exists, Prod.mk.injEq]
      constructor
      · rintro ⟨_, rs, hrs, rfl, rfl⟩
        obtain ⟨before, q, after, rfl, hbefore, hroom, rfl, rfl⟩ := ih.1 hrs
        exact ⟨p :: before, q, after, rfl, List.forall_mem_cons.2 ⟨Nat.lt_of_not_le hfull, hbefore⟩, hroom, rfl, rfl⟩
      · rintro ⟨before, q, after, hps, hbefore, hroom, rfl, rfl⟩
        cases before with
        | nil => cases hps; exact absurd hroom hfull
        | cons r before =>
          cases hps
          exact ⟨_, _, ih.2 ⟨before, q, after, rfl, fun q hq => hbefore q (by simp [hq]), hroom, rfl, rfl⟩, rfl, rfl⟩

theorem poolAllocMany_succ_eq_some_iff {n k : Nat} {ps : List PoolFree} {as : List Nat} :
    poolAllocMany n (k + 1) ps = some as ↔
      ∃ a qs rest, poolAlloc n ps = some (a, qs) ∧ poolAllocMany n k qs = some rest ∧ as = a :: rest := by
  rw [poolAllocMany]
  split
  next hnone => simp [hnone]
  next a qs hsome => simp [hsome, eq_comm]

theorem length_poolAllocMany {n k : Nat} {ps : List PoolFree} {as : List Nat} (h : poolAllocMany n k ps = some as) :
    as.length = k := by
  induction k generalizing ps as with
  | zero => cases h; rfl
  | succ k ih =>
    obtain ⟨a, qs, rest, -, hrest, rfl⟩ := poolAllocMany_succ_eq_some_iff.1 h
    rw [List.length_cons, ih hrest]

/-! ### How many rows the pools can hold (40_video R216) -/

/-- The runs of `n` bytes that the pools have room for. -/
def poolRoom (n : Nat) (ps : List PoolFree) : Nat := (ps.map (fun p => p.free / n)).sum

theorem poolRoom_eq_zero_iff {n : Nat} (hn : 0 < n) {ps : List PoolFree} : poolRoom n ps = 0 ↔ poolAlloc n ps = none := by
  simp [poolRoom, poolAlloc_eq_none_iff, List.sum_eq_zero_iff, Nat.div_eq_zero_iff, hn.ne']

/-- An allocated run uses up the room of one. -/
theorem poolRoom_poolAlloc {n a : Nat} (hn : 0 < n) {ps qs : List PoolFree} (h : poolAlloc n ps = some (a, qs)) :
    poolRoom n ps = poolRoom n qs + 1 := by
  obtain ⟨before, p, after, rfl, -, hroom, -, rfl⟩ := poolAlloc_eq_some_iff.1 h
  have hdiv : p.free / n = (p.free - n) / n + 1 := by
    rw [← Nat.add_div_right _ hn, Nat.sub_add_cancel hroom]
  simp only [poolRoom, List.map_append, List.map_cons, List.sum_append, List.sum_cons, hdiv]
  omega

/-- As many runs can be allocated as there is room for. -/
theorem poolAllocMany_eq_none_iff {n : Nat} (hn : 0 < n) {k : Nat} {ps : List PoolFree} :
    poolAllocMany n k ps = none ↔ poolRoom n ps < k := by
  induction k generalizing ps with
  | zero => simp [poolAllocMany]
  | succ k ih =>
    rw [poolAllocMany]
    split
    next hnone => simp [(poolRoom_eq_zero_iff hn).2 hnone]
    next a qs hsome =>
      rw [Option.map_eq_none_iff, ih, poolRoom_poolAlloc hn hsome]
      omega

/-! ### Where the allocator places a run -/

/-- A run lies inside another. -/
def PoolFree.within (p q : PoolFree) : Prop := q.next ≤ p.next ∧ p.next + p.free ≤ q.next + q.free

/-- Two runs share no byte. -/
def PoolFree.apart (p q : PoolFree) : Prop := min (p.next + p.free) (q.next + q.free) ≤ max p.next q.next

theorem PoolFree.within.trans {p q r : PoolFree} (hpq : p.within q) (hqr : q.within r) : p.within r :=
  ⟨hqr.1.trans hpq.1, hpq.2.trans hqr.2⟩

theorem PoolFree.apart.symm {p q : PoolFree} (h : p.apart q) : q.apart p := by
  unfold PoolFree.apart at *
  omega

theorem PoolFree.apart.mono {p q p' q' : PoolFree} (h : p.apart q) (hp : p'.within p) (hq : q'.within q) : p'.apart q' := by
  obtain ⟨hp1, hp2⟩ := hp
  obtain ⟨hq1, hq2⟩ := hq
  unfold PoolFree.apart at *
  omega

/-- Runs that share no byte lie one before the other, unless one of them is empty. -/
theorem PoolFree.apart.le_or_le {a m b n : Nat} (h : PoolFree.apart ⟨a, m⟩ ⟨b, n⟩) (hm : 0 < m) (hn : 0 < n) :
    a + m ≤ b ∨ b + n ≤ a := by
  simp only [PoolFree.apart] at h
  omega

/-- Runs that share no byte have no common one. -/
theorem PoolFree.apart.not_mem {p q : PoolFree} (h : p.apart q) {x : Nat} (hp : p.next ≤ x ∧ x < p.next + p.free) :
    ¬ (q.next ≤ x ∧ x < q.next + q.free) := by
  unfold PoolFree.apart at h
  omega

/-- What an allocation from pools that lie apart leaves: the new run in a pool, the rest inside the pools, and all of it apart. -/
theorem poolAlloc_carves {n a : Nat} {ps qs : List PoolFree} (h : poolAlloc n ps = some (a, qs))
    (hps : ps.Pairwise PoolFree.apart) :
    (∃ p ∈ ps, PoolFree.within ⟨a, n⟩ p) ∧ (∀ q ∈ qs, ∃ p ∈ ps, q.within p) ∧ (∀ q ∈ qs, PoolFree.apart ⟨a, n⟩ q) ∧
      qs.Pairwise PoolFree.apart := by
  obtain ⟨before, p, after, rfl, -, hroom, rfl, rfl⟩ := poolAlloc_eq_some_iff.1 h
  have hnew : PoolFree.within ⟨p.next, n⟩ p := ⟨le_rfl, Nat.add_le_add_left hroom _⟩
  have hrest : PoolFree.within ⟨p.next + n, p.free - n⟩ p := by simp only [PoolFree.within]; omega
  have hsplit : PoolFree.apart ⟨p.next, n⟩ ⟨p.next + n, p.free - n⟩ := by simp only [PoolFree.apart]; omega
  have hself (q : PoolFree) : q.within q := ⟨le_rfl, le_rfl⟩
  obtain ⟨hbefore, hpafter, hcross⟩ := List.pairwise_append.1 hps
  obtain ⟨hp, hafter⟩ := List.pairwise_cons.1 hpafter
  refine ⟨⟨p, by simp, hnew⟩, fun q hq => ?_, fun q hq => ?_, ?_⟩
  · obtain hq | rfl | hq : q ∈ before ∨ q = ⟨p.next + n, p.free - n⟩ ∨ q ∈ after := by simpa using hq
    · exact ⟨q, by simp [hq], hself q⟩
    · exact ⟨p, by simp, hrest⟩
    · exact ⟨q, by simp [hq], hself q⟩
  · obtain hq | rfl | hq : q ∈ before ∨ q = ⟨p.next + n, p.free - n⟩ ∨ q ∈ after := by simpa using hq
    · exact ((hcross q hq p (by simp)).mono (hself q) hnew).symm
    · exact hsplit
    · exact (hp q hq).mono hnew (hself q)
  · refine List.pairwise_append.2 ⟨hbefore, List.pairwise_cons.2 ⟨fun q hq => (hp q hq).mono hrest (hself q), hafter⟩, ?_⟩
    intro q hq r hr
    obtain rfl | hr := List.mem_cons.1 hr
    · exact (hcross q hq p (by simp)).mono (hself q) hrest
    · exact hcross q hq r (by simp [hr])

/-- Runs allocated one after the other lie in pools, and apart from each other. -/
theorem poolAllocMany_carves {n k : Nat} {ps : List PoolFree} {as : List Nat} (h : poolAllocMany n k ps = some as)
    (hps : ps.Pairwise PoolFree.apart) :
    (∀ a ∈ as, ∃ p ∈ ps, PoolFree.within ⟨a, n⟩ p) ∧ as.Pairwise (fun a b => PoolFree.apart ⟨a, n⟩ ⟨b, n⟩) := by
  induction k generalizing ps as with
  | zero => cases h; simp
  | succ k ih =>
    obtain ⟨a, qs, rest, ha, hrest, rfl⟩ := poolAllocMany_succ_eq_some_iff.1 h
    obtain ⟨hin, hqs, haway, hqsApart⟩ := poolAlloc_carves ha hps
    obtain ⟨hrestIn, hrestApart⟩ := ih hrest hqsApart
    refine ⟨List.forall_mem_cons.2 ⟨hin, fun b hb => ?_⟩, List.pairwise_cons.2 ⟨fun b hb => ?_, hrestApart⟩⟩
    · obtain ⟨q, hq, hbq⟩ := hrestIn b hb
      obtain ⟨p, hp, hqp⟩ := hqs q hq
      exact ⟨p, hp, hbq.trans hqp⟩
    · obtain ⟨q, hq, hbq⟩ := hrestIn b hb
      exact (haway q hq).mono ⟨le_rfl, le_rfl⟩ hbq

/-! ### The pools and the checks before the plan (40_video R211 to R213) -/

/-- The pools as `APPLY` begins to plan. -/
def State.freePools (s : State) : List PoolFree := s.pools.map (fun p => ⟨p.base.toNat, p.size.toNat⟩)

/-- Checked pools lie apart; one of size 0 has no byte to share (40_video R213). -/
theorem State.freePools_pairwise {s : State} (h : s.poolsOk = true) : s.freePools.Pairwise PoolFree.apart := by
  obtain ⟨-, hpair⟩ := Bool.and_eq_true_iff.1 h
  rw [decide_eq_true_iff, State.usedPools, List.pairwise_filter] at hpair
  rw [State.freePools, List.pairwise_map]
  refine hpair.imp fun {p q} hpq => ?_
  have hsize (r : Pool) (hr : r.size = 0#32) : r.size.toNat = 0 := by rw [hr]; rfl
  by_cases hp : p.size = 0#32
  · simp only [PoolFree.apart, hsize p hp]; omega
  by_cases hq : q.size = 0#32
  · simp only [PoolFree.apart, hsize q hq]; omega
  · have hover := hpq (decide_eq_true hp) (decide_eq_true hq)
    simp only [Pool.overlaps, decide_eq_false_iff_not] at hover
    simp only [PoolFree.apart]
    omega

/-- A run of at least one byte in a checked pool lies in the address space (40_video R213). -/
theorem State.run_le_addrSpace {s : State} (h : s.poolsOk = true) {r q : PoolFree} (hq : q ∈ s.freePools) (hr : r.within q)
    (hpos : 0 < r.free) : r.next + r.free ≤ addrSpace := by
  obtain ⟨p, hp, rfl⟩ := List.mem_map.1 hq
  obtain ⟨hr1, hr2⟩ := hr
  dsimp only at hr1 hr2
  have hused : p ∈ s.usedPools := by
    refine List.mem_filter.2 ⟨hp, decide_eq_true fun hzero => ?_⟩
    rw [hzero] at hr2
    simp only [BitVec.toNat_ofNat, Nat.zero_mod] at hr2
    omega
  obtain ⟨hall, -⟩ := Bool.and_eq_true_iff.1 h
  obtain ⟨hpool, -⟩ := Bool.and_eq_true_iff.1 (List.all_eq_true.1 hall p hused)
  obtain ⟨-, -, hfit⟩ := of_decide_eq_true hpool
  omega

theorem Timings.valid_iff {t : Timings} : t.valid = true ↔ 1 ≤ t.hvis ∧ 1 ≤ t.vvis ∧ 1 ≤ t.scan ∧ t.scan ≤ 15 ∧
    t.vvis % t.scan = 0 ∧ t.ht ≤ 65535 ∧ t.vt ≤ 65535 := decide_eq_true_iff

theorem viewportOk_iff {maxRows : Nat} {t : Timings} : viewportOk maxRows t = true ↔
    t.vpwWanted ≤ t.hvis ∧ (t.vphWanted = 0 ∨ (t.vphWanted ≤ t.vvis / t.scan ∧ t.vphWanted ≤ maxRows)) := decide_eq_true_iff

/-- A valid timing has a viewport of at least one column. -/
theorem Timings.vpwWanted_pos {t : Timings} (h : t.valid = true) : 0 < t.vpwWanted := by
  obtain ⟨hvis, -⟩ := Timings.valid_iff.1 h
  unfold Timings.vpwWanted
  split <;> omega

/-! ### The plan (40_video R214 to R217) -/

/-- The buffers of a timing: two with double buffering. -/
def Timings.buffers (t : Timings) : Nat := if t.dbl then 2 else 1

theorem Timings.buffers_pos (t : Timings) : 0 < t.buffers := by
  unfold Timings.buffers
  split <;> omega

/-- The pieces of a line that a plan goes by (40_video R207). -/
def State.plannedPieces (s : State) : List Piece :=
  linePieces s.staged ((s.staged.hvis - s.staged.vpwWanted) / 2) s.staged.vpwWanted (chunkLen s.cfg.maxd s.staged)

theorem planHeight_eq (maxRows avail : Nat) (t : Timings) : planHeight maxRows t avail =
    if t.vphWanted = 0 then
      if min (t.vvis / t.scan) (min maxRows (avail / t.buffers)) = 0 then none
      else some (min (t.vvis / t.scan) (min maxRows (avail / t.buffers)))
    else if t.buffers * t.vphWanted > avail then none else some t.vphWanted := rfl

/-- The default height needs one row in every buffer, a given one as many as it says (40_video R216). -/
theorem planHeight_eq_none_iff {maxRows avail : Nat} {t : Timings} : planHeight maxRows t avail = none ↔
    (t.vphWanted = 0 ∧ (t.vvis / t.scan = 0 ∨ maxRows = 0 ∨ avail < t.buffers)) ∨
    (t.vphWanted ≠ 0 ∧ avail < t.buffers * t.vphWanted) := by
  have hdiv : avail / t.buffers = 0 ↔ avail < t.buffers := by
    simp [Nat.div_eq_zero_iff, t.buffers_pos.ne']
  rw [planHeight_eq, ← hdiv]
  by_cases hw : t.vphWanted = 0
  · simp only [hw, if_true, true_and, ne_eq, not_true_eq_false, false_and, or_false, ite_eq_left_iff, reduceCtorEq, imp_false,
      not_not, Nat.min_eq_zero_iff]
  · simp [hw]

theorem planHeight_eq_some {maxRows avail h : Nat} {t : Timings} (heq : planHeight maxRows t avail = some h) :
    h = (if t.vphWanted = 0 then min (t.vvis / t.scan) (min maxRows (avail / t.buffers)) else t.vphWanted) ∧
      t.buffers * h ≤ avail ∧ 1 ≤ h := by
  rw [planHeight_eq] at heq
  by_cases hw : t.vphWanted = 0
  · rw [if_pos hw] at heq ⊢
    obtain ⟨h0, rfl⟩ : min (t.vvis / t.scan) (min maxRows (avail / t.buffers)) ≠ 0 ∧
        min (t.vvis / t.scan) (min maxRows (avail / t.buffers)) = h := by
      simpa only [ite_eq_iff, reduceCtorEq, and_false, false_or, Option.some.injEq] using heq
    refine ⟨rfl, ?_, Nat.pos_of_ne_zero h0⟩
    calc t.buffers * min (t.vvis / t.scan) (min maxRows (avail / t.buffers))
        ≤ t.buffers * (avail / t.buffers) := Nat.mul_le_mul_left _ (by omega)
      _ ≤ avail := Nat.mul_div_le _ _
  · rw [if_neg hw] at heq ⊢
    obtain ⟨hroom, rfl⟩ : _ ≤ _ ∧ _ = h := by simpa using heq
    exact ⟨rfl, hroom, by omega⟩

/-- What planning can come to: no room for the chain or the constant buffers, none for the rows, or a layout (40_video R214 to
R217). -/
inductive State.PlanOutcome (s : State) : Except ErrCode Plan → Prop where
  | noChain (h : poolAlloc (12 * s.plannedPieces.length * s.staged.vt) s.freePools = none) :
      PlanOutcome s (.error .nomemChain)
  | noConst {a : Nat} {ps : List PoolFree}
      (hchain : poolAlloc (12 * s.plannedPieces.length * s.staged.vt) s.freePools = some (a, ps))
      (h : poolAlloc (4 * chunkLen s.cfg.maxd s.staged) ps = none) : PlanOutcome s (.error .nomemChain)
  | noRows {a b : Nat} {ps qs : List PoolFree}
      (hchain : poolAlloc (12 * s.plannedPieces.length * s.staged.vt) s.freePools = some (a, ps))
      (hconst : poolAlloc (4 * chunkLen s.cfg.maxd s.staged) ps = some (b, qs))
      (h : planHeight s.cfg.maxRows s.staged (poolRoom (roundUp4 s.staged.vpwWanted) qs) = none) :
      PlanOutcome s (.error .nomemViewport)
  | planned {a b vph : Nat} {ps qs : List PoolFree} {rows : List Nat}
      (hchain : poolAlloc (12 * s.plannedPieces.length * s.staged.vt) s.freePools = some (a, ps))
      (hconst : poolAlloc (4 * chunkLen s.cfg.maxd s.staged) ps = some (b, qs))
      (hheight : planHeight s.cfg.maxRows s.staged (poolRoom (roundUp4 s.staged.vpwWanted) qs) = some vph)
      (hrows : poolAllocMany (roundUp4 s.staged.vpwWanted) (s.staged.buffers * vph) qs = some rows) :
      PlanOutcome s (.ok {
        vpw := s.staged.vpwWanted, vph := vph, vpcol := (s.staged.hvis - s.staged.vpwWanted) / 2
        vprow := (s.staged.vvis / s.staged.scan - vph) / 2, clen := chunkLen s.cfg.maxd s.staged
        group := s.plannedPieces.length, vt := s.staged.vt, stride := roundUp4 s.staged.vpwWanted, chainBase := a
        constBase := b, rt0 := rows.take vph, rt1 := rows.drop vph })

/-- Of a valid timing the rows that fit can be placed, so only their number can fail. -/
theorem State.planOutcome {s : State} (hvalid : s.staged.valid = true) : s.PlanOutcome s.plan := by
  have hstride : 0 < roundUp4 s.staged.vpwWanted := by
    have hpos := Timings.vpwWanted_pos hvalid
    unfold roundUp4
    omega
  unfold State.plan
  dsimp only
  split
  next h => exact .noChain h
  next a ps hchain =>
    split
    next h => exact .noConst hchain h
    next b qs hconst =>
      split
      next h => exact .noRows hchain hconst h
      next vph hheight =>
        split
        next hnone =>
          obtain ⟨-, hroom, -⟩ := planHeight_eq_some hheight
          exact absurd ((poolAllocMany_eq_none_iff hstride).1 hnone) (Nat.not_lt.2 hroom)
        next rows hrows => exact .planned hchain hconst hheight hrows

/-- `NOMEM_CHAIN` is the allocator's failure for the chain or for the constant buffers (40_video R214, R215). -/
theorem State.PlanOutcome.eq_nomemChain_iff {s : State} {o : Except ErrCode Plan} (h : s.PlanOutcome o) :
    o = .error .nomemChain ↔
      poolAlloc (12 * s.plannedPieces.length * s.staged.vt) s.freePools = none ∨
      ∃ a ps, poolAlloc (12 * s.plannedPieces.length * s.staged.vt) s.freePools = some (a, ps) ∧
        poolAlloc (4 * chunkLen s.cfg.maxd s.staged) ps = none := by
  cases h with
  | noChain h => simp [h]
  | noConst hchain h => simp [hchain, h]
  | noRows hchain hconst h => simp [hchain, hconst]
  | planned hchain hconst hheight hrows => simp [hchain, hconst]

/-- `NOMEM_VIEWPORT` comes after both allocations, where there is no height for the rows (40_video R216). -/
theorem State.PlanOutcome.eq_nomemViewport_iff {s : State} {o : Except ErrCode Plan} (h : s.PlanOutcome o) :
    o = .error .nomemViewport ↔
      ∃ a ps b qs, poolAlloc (12 * s.plannedPieces.length * s.staged.vt) s.freePools = some (a, ps) ∧
        poolAlloc (4 * chunkLen s.cfg.maxd s.staged) ps = some (b, qs) ∧
        planHeight s.cfg.maxRows s.staged (poolRoom (roundUp4 s.staged.vpwWanted) qs) = none := by
  cases h with
  | noChain h => simp [h]
  | noConst hchain h => simp [hchain, h]
  | noRows hchain hconst h => simp [hchain, hconst, h]
  | planned hchain hconst hheight hrows => simp [hchain, hconst, hheight]

/-- The checks of `APPLY` in their order, and the plan after them (60_exceptions R476). -/
theorem State.applyPlan_cases (s : State) :
    (s.staged.valid = false ∧ s.applyPlan = .error .cfgTiming) ∨
    (s.staged.valid = true ∧ viewportOk s.cfg.maxRows s.staged = false ∧ s.applyPlan = .error .cfgViewport) ∨
    (s.staged.valid = true ∧ viewportOk s.cfg.maxRows s.staged = true ∧ s.poolsOk = false ∧
      s.applyPlan = .error .cfgPool) ∨
    (s.staged.valid = true ∧ viewportOk s.cfg.maxRows s.staged = true ∧ s.poolsOk = true ∧ s.applyPlan = s.plan ∧
      s.PlanOutcome s.plan) := by
  unfold State.applyPlan
  cases hvalid : s.staged.valid
  · simp
  · cases hview : viewportOk s.cfg.maxRows s.staged
    · simp
    · cases hpools : s.poolsOk
      · simp
      · simp [State.planOutcome hvalid]

theorem exec_apply_error {s : State} {c : ErrCode} (h : s.applyPlan = .error c) :
    exec .hostopApply s = .next (s.raise .host 0x01#8 c 0#32) := by
  show Host.Outcome.next _ = _
  rw [h]

theorem exec_apply_ok {s : State} {p : Plan} (h : s.applyPlan = .ok p) : exec .hostopApply s = .next (s.commitPlan p) := by
  show Host.Outcome.next _ = _
  rw [h]

/-- Settles O56: the checks are one after the other, the plan's outcomes are told apart by what the allocator answers, and the
allocator's rule is one equivalence. -/
theorem applyFailsWithoutEffect : Obligations.ApplyFailsWithoutEffect := by
  refine ⟨fun s c h => ⟨⟨_, exec_apply_error h, rfl, rfl, fun _ => rfl⟩, ?_⟩, fun s hvalid hview hpools => ?_,
    fun n a ps qs => ⟨poolAlloc_eq_none_iff, poolAlloc_eq_some_iff⟩⟩
  · obtain ⟨h1, heq⟩ | ⟨h1, h2, heq⟩ | ⟨h1, h2, h3, heq⟩ | ⟨h1, h2, h3, heq, hout⟩ := s.applyPlan_cases
    · cases h.symm.trans heq; simp [h1]
    · cases h.symm.trans heq; simp [h1, h2]
    · cases h.symm.trans heq; simp [h1, h2, h3]
    · rw [← heq, h] at hout
      cases hout <;> simp [h1, h2, h3]
  · have heq : s.applyPlan = s.plan := by simp [State.applyPlan, hvalid, hview, hpools]
    have hout := State.planOutcome hvalid
    rw [heq]
    refine ⟨hout.eq_nomemChain_iff, hout.eq_nomemViewport_iff.trans ?_⟩
    simp only [planHeight_eq_none_iff]
    rfl

end Sys2Proof.Machine
end

section
/-!
# The steps of SEQ and the geometry adjuster (40_video R230 to R243)
-/

namespace Sys2Proof.Machine

/-! ### Stores that are repeated (20_memory R108) -/

/-- What a write set leaves in a byte that it names does not depend on the memory before it. -/
theorem memByte_memStoreAll_congr {cs : List (Nat × Byte)} {b : Nat} (h : ∃ c ∈ cs, wrapAddr c.1 = wrapAddr b)
    (m m' : Memory) : memByte (memStoreAll m cs) b = memByte (memStoreAll m' cs) b := by
  induction cs generalizing m m' with
  | nil => simp at h
  | cons c cs ih =>
    by_cases hrest : ∃ d ∈ cs, wrapAddr d.1 = wrapAddr b
    · exact ih hrest _ _
    · have hc : wrapAddr c.1 = wrapAddr b := by simpa [hrest] using h
      have hlast (m : Memory) : memByte (memStoreAll m (c :: cs)) b = c.2 := by
        refine (memByte_memStoreAll_of_notMem cs (memStore m c.1 c.2) b fun d hd he => hrest ⟨d, hd, he⟩).trans ?_
        rw [memByte_memStore, if_pos hc.symm]
      rw [hlast, hlast]

/-- What a stored run leaves in one of its bytes does not depend on the memory before it. -/
theorem memByte_memStoreBlock_congr {a b : Nat} {bs : List Byte} (h : inRun a bs.length (wrapAddr b)) (m m' : Memory) :
    memByte (memStoreBlock m a bs) b = memByte (memStoreBlock m' a bs) b := by
  obtain ⟨k, hk, hb⟩ := h
  by_cases hfit : a + bs.length ≤ addrSpace
  · have hread (m : Memory) : memByte (memStoreBlock m a bs) b = bs[k] :=
      memByte_memStoreBlock_of_mem m a bs b k bs[k] (by omega) (List.getElem?_eq_getElem hk) hb.symm
    rw [hread, hread]
  · unfold memStoreBlock
    rw [if_neg hfit, if_neg hfit]
    exact memByte_memStoreAll_congr ⟨(a + k, bs[k]), mem_blockCells.2 ⟨k, List.getElem?_eq_getElem hk, rfl⟩, hb⟩ m m'

/-- A second `BUILD` finds the chain as it would write it. -/
theorem State.build_build (s : State) : sameBytes s.build s.build.build := by
  intro b
  show memByte (memStoreBlock (memStoreBlock s.mem _ _) _ _) b = memByte (memStoreBlock s.mem _ _) b
  by_cases h : inRun s.alloc.chainBase.toNat s.chainBytes.length (wrapAddr b)
  · exact memByte_memStoreBlock_congr h _ _
  · exact memByte_memStoreBlock_of_notMem _ _ _ _ fun k hk he => h ⟨k, hk, he⟩

/-! ### FETCH and EMIT (40_video R231, R233, R236) -/

/-- A check in access order reports the first byte of the run that does not exist; all before it do. -/
theorem firstBad_byteRange_some {s : State} {a n fa : Nat} (h : firstBad s (byteRange a n) = some fa) :
    ∃ k < n, fa = wrapAddr (a + k) ∧ memOk s fa = false ∧ s.runOk a k := by
  obtain ⟨hbad, k, hk, hfa, hbefore⟩ := List.find?_eq_some_iff_getElem.1 h
  simp only [byteRange, List.length_map, List.length_range, List.getElem_map, List.getElem_range] at hk hfa hbefore
  exact ⟨k, hk, hfa.symm, by simpa using hbad, fun j hj => by simpa using hbefore j hj⟩

/-- Whether a vertical-sync event asks for a service, by what enables it alone: a request that stands stays (40_video R233). -/
def State.asksService (s : State) : Bool := s.sys.bgexec && decide (s.queue.suspend = 0#8) && decide (s.exe.state = .idle)

/-- The vertical-sync event raises its interrupt and may request a service (40_video R233). -/
theorem State.vsyncEvent_eq (s : State) : s.vsyncEvent = { s with
    sys := { s.sys with irqStatus := s.sys.irqStatus ||| 1#4 }
    exe := { s.exe with vsReq := s.exe.vsReq || s.asksService } } := by
  have hkeep {b : Bool} (h : s.exe.vsReq = b) : ({ s.exe with vsReq := b } : Exe) = s.exe := by rw [← h]
  have hen : s.vsyncEnabled = (s.asksService && !s.exe.vsReq) := rfl
  rw [State.vsyncEvent, hen]
  cases hreq : s.exe.vsReq with
  | true => rw [Bool.not_true, Bool.and_false, Bool.true_or, hkeep hreq]; rfl
  | false =>
    cases s.asksService with
    | true => rfl
    | false => rw [Bool.false_and, Bool.false_or, hkeep hreq]; rfl

/-- A latched descriptor raises its vertical-sync event with its `EOF` bit (40_video R231). -/
theorem State.fetched_eq (s : State) : s.fetched = { s with
    seq := s.seqLatch
    sys := { s.sys with irqStatus := if s.seqLatch.latEof then s.sys.irqStatus ||| 1#4 else s.sys.irqStatus }
    exe := { s.exe with vsReq := s.exe.vsReq || (s.seqLatch.latEof && s.asksService) } } := by
  rw [State.fetched, State.vsyncEvent_eq]
  cases s.seqLatch.latEof with
  | true => rfl
  | false => rw [Bool.false_and, Bool.or_false]; rfl

theorem State.seqFetch_of_runOk {s : State} (h : s.runOk s.seq.dptr.toNat 12) :
    s.seqFetch = if s.fetched.seq.latLen = 0#12 then s.fetched.seqAdvance
      else s.fetched.setSeq { s.fetched.seq with phase := .emit } := by
  unfold State.seqFetch
  rw [firstBad_byteRange.2 h]
  rfl

/-- A `FETCH` step with a descriptor byte that does not exist stops SEQ at the first such byte (60_exceptions R479). -/
theorem State.seqFetch_of_not_runOk {s : State} (h : ¬ s.runOk s.seq.dptr.toNat 12) :
    ∃ fa k, k < 12 ∧ fa = wrapAddr (s.seq.dptr.toNat + k) ∧ memOk s fa = false ∧ s.runOk s.seq.dptr.toNat k ∧
      s.seqFetch = s.seqFault fa := by
  cases hbad : firstBad s (byteRange s.seq.dptr.toNat 12) with
  | none => exact absurd (firstBad_byteRange.1 hbad) h
  | some fa =>
    obtain ⟨k, hk, hfa, hok, hbefore⟩ := firstBad_byteRange_some hbad
    refine ⟨fa, k, hk, hfa, hok, hbefore, ?_⟩
    unfold State.seqFetch
    rw [hbad]

theorem State.seqStep_of_fetch {s : State} (h : s.seq.phase = .fetch) : s.seqStep = s.seqFetch := by
  unfold State.seqStep
  rw [h]

theorem State.seqStep_of_emit {s : State} (h : s.seq.phase = .emit) : s.seqStep = s.seqEmit := by
  unfold State.seqStep
  rw [h]

/-- Settles O30: a readable descriptor is latched as `State.fetched_eq` says; of one that is not, the first bad byte is
recorded. -/
theorem fetchStep : Obligations.FetchStep := by
  intro s hphase
  refine ⟨fun hok => ?_, fun hbad => ?_⟩
  · rw [State.seqStep_of_fetch hphase, State.seqFetch_of_runOk hok, State.fetched_eq]
    simp only [State.asksService, ← Bool.and_assoc]
    rfl
  · obtain ⟨fa, k, hk, hfa, hok, hbefore, hstep⟩ := State.seqFetch_of_not_runOk hbad
    exact ⟨fa, k, hk, hfa, hok, hbefore, (State.seqStep_of_fetch hphase).trans hstep⟩

/-- Settles O31: the byte exists or not, and it is the last of the descriptor or not. -/
theorem emitStep : Obligations.EmitStep := by
  intro s hphase
  rw [State.seqStep_of_emit hphase, State.seqEmit, State.emitAddr, memByte_wrapAddr]
  refine ⟨fun hok hmore => ?_, fun hok hlast => ?_, fun hbad => ?_⟩
  · rw [if_pos hok]
    exact if_neg hmore
  · rw [if_pos hok]
    exact if_pos hlast
  · rw [hbad]
    rfl

/-! ### ADVANCE and the frame boundary (40_video R234, R235, R243) -/

theorem State.seqAdvance_of_ne {s : State} (h : s.seq.latNext ≠ s.alloc.chainBase) : s.seqAdvance =
    s.setSeq { s.seq with dptr := s.seq.latNext, didx := s.seq.didx + 1, phase := .fetch } := by
  unfold State.seqAdvance
  exact if_neg h

/-- The state at a frame boundary: SEQ is back at descriptor 0, the frame is counted and its interrupt raised (40_video R235). -/
def State.frameCounted (s : State) : State := { s with
  seq := { s.seq with dptr := s.seq.latNext, didx := 0, phase := .fetch, frameCount := s.seq.frameCount + 1#32 }
  sys := { s.sys with irqStatus := s.sys.irqStatus ||| 2#4 } }

theorem State.seqAdvance_of_eq {s : State} (h : s.seq.latNext = s.alloc.chainBase) : s.seqAdvance =
    if s.geom.pending then s.frameCounted.geometryCommit else s.frameCounted := by
  unfold State.seqAdvance
  exact if_pos h

/-- What a geometry commit makes of a state (40_video R243). -/
theorem State.geometryCommit_eq (s : State) : s.geometryCommit = { s with
    mem := s.geometryCommit.mem
    active := s.active.withPorches (loHalf s.geom.pH) (hiHalf s.geom.pH) (loHalf s.geom.pV) (hiHalf s.geom.pV)
    geom := { s.geom with pending := false }
    alloc := { s.alloc with
      group := natWord s.geometryCommit.pieces.length
      chainLen := natWord (s.geometryCommit.pieces.length * s.geometryCommit.active.vt) } } := rfl

theorem State.geometryCommit_build (s : State) : sameBytes s.geometryCommit s.geometryCommit.build := by
  unfold State.geometryCommit
  exact State.build_build _

section
variable (t : Timings) (hfp hbp vfp vbp : Half)

@[simp] theorem Timings.withPorches_hfp : (t.withPorches hfp hbp vfp vbp).hfp = hfp.toNat := by
  simp [Timings.withPorches, Timings.hfp]
@[simp] theorem Timings.withPorches_hbp : (t.withPorches hfp hbp vfp vbp).hbp = hbp.toNat := by
  simp [Timings.withPorches, Timings.hbp]
@[simp] theorem Timings.withPorches_vfp : (t.withPorches hfp hbp vfp vbp).vfp = vfp.toNat := by
  simp [Timings.withPorches, Timings.vfp]
@[simp] theorem Timings.withPorches_vbp : (t.withPorches hfp hbp vfp vbp).vbp = vbp.toNat := by
  simp [Timings.withPorches, Timings.vbp]
@[simp] theorem Timings.withPorches_hvis : (t.withPorches hfp hbp vfp vbp).hvis = t.hvis := by
  simp [Timings.withPorches, Timings.hvis]
@[simp] theorem Timings.withPorches_hsync : (t.withPorches hfp hbp vfp vbp).hsync = t.hsync := by
  simp [Timings.withPorches, Timings.hsync]
@[simp] theorem Timings.withPorches_vvis : (t.withPorches hfp hbp vfp vbp).vvis = t.vvis := by
  simp [Timings.withPorches, Timings.vvis]
@[simp] theorem Timings.withPorches_vsync : (t.withPorches hfp hbp vfp vbp).vsync = t.vsync := by
  simp [Timings.withPorches, Timings.vsync]

end

/-- Settles O32: a link to another descriptor is followed, and one back to descriptor 0 counts a frame, with a geometry commit
where one is pending. -/
theorem advanceAndFrameBoundary : Obligations.AdvanceAndFrameBoundary := by
  intro s u
  refine ⟨fun hne => State.seqAdvance_of_ne hne, fun heq => ?_⟩
  have hu : u = if s.geom.pending then s.frameCounted.geometryCommit else s.frameCounted := State.seqAdvance_of_eq heq
  cases hpending : s.geom.pending with
  | false =>
    rw [hu, hpending]
    have hgeom : s.geom = { s.geom with pending := false } := by rw [← hpending]
    refine ⟨rfl, rfl, hpending, ?_, nofun, fun _ => ⟨rfl, rfl, fun _ => rfl⟩⟩
    rw [← hgeom]
    rfl
  | true =>
    rw [hu, hpending, if_pos rfl, State.geometryCommit_eq]
    refine ⟨rfl, rfl, rfl, rfl, fun _ => ⟨?_, ?_, rfl, ?_, ?_⟩, nofun⟩
    · exact ⟨Timings.withPorches_hfp .., Timings.withPorches_hbp .., Timings.withPorches_vfp .., Timings.withPorches_vbp ..⟩
    · exact ⟨Timings.withPorches_hvis .., Timings.withPorches_hsync .., Timings.withPorches_vvis ..,
        Timings.withPorches_vsync .., rfl⟩
    · exact s.frameCounted.geometryCommit_storesOnly
    · exact s.frameCounted.geometryCommit_build

/-! ### The geometry operations (40_video R240 to R242) -/

/-- A candidate that passes the check has porches that fit their fields. -/
theorem porchOk_of_geometryAccepts {s : State} {c : Porches} (h : s.geometryAccepts c) :
    porchOk c.hfp = true ∧ porchOk c.hbp = true ∧ porchOk c.vfp = true ∧ porchOk c.vbp = true := by
  obtain ⟨-, hfit, -⟩ := h
  simpa [porchOk_iff] using hfit

/-- An accepted candidate becomes the pending geometry (40_video R240). -/
theorem State.adjust_of_accepts {s : State} {c : Porches} (h : s.geometryAccepts c) (op : Byte) :
    s.adjust op c = { s with geom := (s.adjust op c).geom } ∧ (s.adjust op c).geom.pending = true ∧
      ((loHalf (s.adjust op c).geom.pH).toNat : Int) = c.hfp ∧ ((hiHalf (s.adjust op c).geom.pH).toNat : Int) = c.hbp ∧
      ((loHalf (s.adjust op c).geom.pV).toNat : Int) = c.vfp ∧ ((hiHalf (s.adjust op c).geom.pV).toNat : Int) = c.vbp := by
  obtain ⟨hhfp, hhbp, hvfp, hvbp⟩ := porchOk_of_geometryAccepts h
  rw [State.adjust, if_pos ((geometryOk_iff s c).2 h)]
  simp only [loHalf_pairWord, hiHalf_pairWord]
  exact ⟨trivial, trivial, toNat_ofInt_of_porchOk hhfp, toNat_ofInt_of_porchOk hhbp, toNat_ofInt_of_porchOk hvfp,
    toNat_ofInt_of_porchOk hvbp⟩

/-- A rejected candidate is only recorded (40_video R242). -/
theorem State.adjust_of_not_accepts {s : State} {c : Porches} (h : ¬ s.geometryAccepts c) (op : Byte) :
    s.adjust op c = s.raise .host op .geometry 0#32 := by
  rw [State.adjust, if_neg (mt (geometryOk_iff s c).1 h)]

theorem State.adjust_sameBytes (s : State) (op : Byte) (c : Porches) : sameBytes s (s.adjust op c) := by
  unfold State.adjust
  split <;> exact fun _ => rfl

/-- Settles O58: both operations put their candidate before one check, which is the four conditions of R242. -/
theorem geometryOperations : Obligations.GeometryOperations := by
  intro s b dx dy move shrink isPending
  have haccept (op : Byte) {c : Porches} (h : s.geometryAccepts c) :
      ∃ t, Host.Outcome.next (s.adjust op c) = (.next t : Host.Outcome State Fault Refusal) ∧ isPending t c ∧ sameBytes s t :=
    ⟨_, rfl, State.adjust_of_accepts h op, s.adjust_sameBytes op c⟩
  have hreject (op : Byte) {c : Porches} (h : ¬ s.geometryAccepts c) : Host.Outcome.next (s.adjust op c) =
      (.next (s.raise .host op .geometry 0#32) : Host.Outcome State Fault Refusal) :=
    congrArg _ (State.adjust_of_not_accepts h op)
  refine ⟨fun hp => ?_, fun hp => ?_, haccept 0x05#8, hreject 0x05#8, haccept 0x06#8, hreject 0x06#8⟩
  · exact if_neg (by simp [hp])
  · exact if_pos hp

end Sys2Proof.Machine
end

section
/-!
# The layout that a plan places (40_video R207, R212 to R218)

What a plan says, its numbers and where the allocator put its parts, is one structure; its consequences are lemmas about it.
-/

namespace Sys2Proof.Machine

/-- A plan of `APPLY`: the checks that came before it, its numbers, and the allocations in their order; `ps` is left of the pools
after the chain, and `qs` after the constant buffers (40_video R214 to R217). -/
structure State.Planned (s : State) (p : Plan) (ps qs : List PoolFree) : Prop where
  valid : s.staged.valid = true
  view : viewportOk s.cfg.maxRows s.staged = true
  pools : s.poolsOk = true
  vpw : p.vpw = s.staged.vpwWanted
  vpcol : p.vpcol = (s.staged.hvis - p.vpw) / 2
  vprow : p.vprow = (s.staged.vvis / s.staged.scan - p.vph) / 2
  clen : p.clen = chunkLen s.cfg.maxd s.staged
  group : p.group = (linePieces s.staged p.vpcol p.vpw p.clen).length
  vt : p.vt = s.staged.vt
  stride : p.stride = roundUp4 p.vpw
  chain : poolAlloc (12 * (p.group * p.vt)) s.freePools = some (p.chainBase, ps)
  const : poolAlloc (4 * p.clen) ps = some (p.constBase, qs)
  height : planHeight s.cfg.maxRows s.staged (poolRoom p.stride qs) = some p.vph
  rows : poolAllocMany p.stride (s.staged.buffers * p.vph) qs = some (p.rt0 ++ p.rt1)
  rt0 : p.rt0.length = p.vph
  rt1 : p.rt1.length = if s.staged.dbl then p.vph else 0

theorem State.exists_planned {s : State} {p : Plan} (h : s.applyPlan = .ok p) : ∃ ps qs, s.Planned p ps qs := by
  obtain ⟨-, heq⟩ | ⟨-, -, heq⟩ | ⟨-, -, -, heq⟩ | ⟨hvalid, hview, hpools, heq, hout⟩ := s.applyPlan_cases
  · cases heq.symm.trans h
  · cases heq.symm.trans h
  · cases heq.symm.trans h
  rw [← heq, h] at hout
  cases hout with
  | @planned a b vph ps qs rows hchain hconst hheight hrows =>
    have hlen := length_poolAllocMany hrows
    refine ⟨ps, qs, hvalid, hview, hpools, rfl, rfl, rfl, rfl, rfl, rfl, rfl, ?_, hconst, hheight, ?_, ?_, ?_⟩
    · rwa [Nat.mul_assoc] at hchain
    · rwa [List.take_append_drop]
    · rw [List.length_take, hlen, Nat.min_eq_left (Nat.le_mul_of_pos_left _ s.staged.buffers_pos)]
    · dsimp only
      rw [List.length_drop, hlen, Timings.buffers]
      split <;> omega

theorem toNat_natWord {n : Nat} (h : n < 2 ^ 32) : (natWord n).toNat = n := by
  rw [natWord, BitVec.toNat_ofNat, Nat.mod_eq_of_lt h]

theorem loHalf_natPair {lo : Nat} (h : lo < 65536) (hi : Nat) : (loHalf (natPair lo hi)).toNat = lo := by
  rw [natPair, loHalf_pairWord, BitVec.toNat_ofNat, Nat.mod_eq_of_lt h]

theorem hiHalf_natPair {hi : Nat} (h : hi < 65536) (lo : Nat) : (hiHalf (natPair lo hi)).toNat = hi := by
  rw [natPair, hiHalf_pairWord, BitVec.toNat_ofNat, Nat.mod_eq_of_lt h]

namespace State.Planned

variable {s : State} {p : Plan} {ps qs : List PoolFree} (h : s.Planned p ps qs)
include h

/-! ### Numbers (40_video R200, R207, R212) -/

theorem stride_facts : p.stride % 4 = 0 ∧ p.vpw ≤ p.stride ∧ p.stride < p.vpw + 4 := by
  rw [h.stride]
  exact roundUp4_facts p.vpw

theorem vpw_pos : 0 < p.vpw := by
  rw [h.vpw]
  exact Timings.vpwWanted_pos h.valid

theorem vpw_le_stride : p.vpw ≤ p.stride := by
  obtain ⟨-, hle, -⟩ := h.stride_facts
  exact hle

theorem stride_pos : 0 < p.stride := h.vpw_pos.trans_le h.vpw_le_stride

theorem vpw_le : p.vpw ≤ s.staged.hvis := by
  rw [h.vpw]
  exact (viewportOk_iff.1 h.view).1

theorem vph_facts : p.vph = (if s.staged.vphWanted = 0 then
      min (s.staged.vvis / s.staged.scan) (min s.cfg.maxRows (poolRoom p.stride qs / s.staged.buffers)) else s.staged.vphWanted) ∧
    s.staged.buffers * p.vph ≤ poolRoom p.stride qs ∧ 1 ≤ p.vph :=
  planHeight_eq_some h.height

theorem vph_le : p.vph ≤ s.staged.vvis / s.staged.scan := by
  have hvph := h.vph_facts.1
  have hview := (viewportOk_iff.1 h.view).2
  split at hvph <;> omega

theorem vt_pos : 0 < p.vt := by
  rw [h.vt]
  obtain ⟨-, hvvis, -⟩ := Timings.valid_iff.1 h.valid
  unfold Timings.vt
  omega

theorem clen_facts : p.clen % 4 = 0 ∧ min s.cfg.maxd s.staged.ht ≤ p.clen ∧ p.clen < min s.cfg.maxd s.staged.ht + 4 := by
  rw [h.clen]
  exact roundUp4_facts _

/-! What a plan puts into 16-bit fields fits them: it is at most the visible raster, or the length of a line. -/

theorem vpw_lt : p.vpw < 65536 := h.vpw_le.trans_lt (BitVec.isLt _)

theorem vph_lt : p.vph < 65536 :=
  (h.vph_le.trans (Nat.div_le_self _ _)).trans_lt (BitVec.isLt _)

theorem vpcol_lt : p.vpcol < 65536 := by
  have hhvis : s.staged.hvis < 65536 := BitVec.isLt _
  rw [h.vpcol]
  omega

theorem clen_lt : p.clen < 65540 := by
  obtain ⟨-, -, hclen⟩ := h.clen_facts
  obtain ⟨-, -, -, -, -, hht, -⟩ := Timings.valid_iff.1 h.valid
  omega

/-- With legal parameters a chunk has a byte, so every line has a piece. -/
theorem group_pos (hc : s.cfg.valid) : 0 < p.clen ∧ 0 < p.group := by
  obtain ⟨-, -, -, -, hmaxd, -⟩ := hc
  have hhvis := (Timings.valid_iff.1 h.valid).1
  have hclen : 0 < p.clen := by
    obtain ⟨-, hle, -⟩ := h.clen_facts
    unfold Timings.ht at hle
    omega
  refine ⟨hclen, ?_⟩
  have hsum := sum_len_linePieces s.staged (vpcol := p.vpcol) (vpw := p.vpw) hclen (by have := h.vpcol; have := h.vpw_le; omega)
  rw [h.group, List.length_pos_iff]
  intro hnil
  rw [hnil] at hsum
  unfold Timings.ht at hsum
  simp only [List.map_nil, List.sum_nil] at hsum
  omega

/-! ### Places (40_video R214 to R217) -/

theorem chain_within : ∃ q ∈ s.freePools, PoolFree.within ⟨p.chainBase, 12 * (p.group * p.vt)⟩ q :=
  (poolAlloc_carves h.chain (State.freePools_pairwise h.pools)).1

/-! What is left after the chain lies in the pools, apart from the chain and in itself. -/

theorem within_of_mem_left {q : PoolFree} (hq : q ∈ ps) : ∃ r ∈ s.freePools, q.within r := by
  obtain ⟨-, hwithin, -⟩ := poolAlloc_carves h.chain (State.freePools_pairwise h.pools)
  exact hwithin q hq

theorem chain_apart_left {q : PoolFree} (hq : q ∈ ps) : PoolFree.apart ⟨p.chainBase, 12 * (p.group * p.vt)⟩ q := by
  obtain ⟨-, -, happart, -⟩ := poolAlloc_carves h.chain (State.freePools_pairwise h.pools)
  exact happart q hq

theorem left_pairwise : ps.Pairwise PoolFree.apart := by
  obtain ⟨-, -, -, hpairwise⟩ := poolAlloc_carves h.chain (State.freePools_pairwise h.pools)
  exact hpairwise

theorem const_within : ∃ q ∈ ps, PoolFree.within ⟨p.constBase, 4 * p.clen⟩ q :=
  (poolAlloc_carves h.const h.left_pairwise).1

/-! What is left for the rows lies in what was left after the chain, apart from the constant buffers and in itself. -/

theorem within_of_mem_rowSpace {q : PoolFree} (hq : q ∈ qs) : ∃ r ∈ ps, q.within r := by
  obtain ⟨-, hwithin, -⟩ := poolAlloc_carves h.const h.left_pairwise
  exact hwithin q hq

theorem const_apart_rowSpace {q : PoolFree} (hq : q ∈ qs) : PoolFree.apart ⟨p.constBase, 4 * p.clen⟩ q := by
  obtain ⟨-, -, happart, -⟩ := poolAlloc_carves h.const h.left_pairwise
  exact happart q hq

theorem rowSpace_pairwise : qs.Pairwise PoolFree.apart := by
  obtain ⟨-, -, -, hpairwise⟩ := poolAlloc_carves h.const h.left_pairwise
  exact hpairwise

theorem row_within {r : Nat} (hr : r ∈ p.rt0 ++ p.rt1) : ∃ q ∈ qs, PoolFree.within ⟨r, p.stride⟩ q :=
  (poolAllocMany_carves h.rows h.rowSpace_pairwise).1 r hr

theorem rows_pairwise : (p.rt0 ++ p.rt1).Pairwise (fun a b => PoolFree.apart ⟨a, p.stride⟩ ⟨b, p.stride⟩) :=
  (poolAllocMany_carves h.rows h.rowSpace_pairwise).2

theorem const_within_pool : ∃ q ∈ s.freePools, PoolFree.within ⟨p.constBase, 4 * p.clen⟩ q := by
  obtain ⟨q, hq, hwithin⟩ := h.const_within
  obtain ⟨r, hr, hqr⟩ := h.within_of_mem_left hq
  exact ⟨r, hr, hwithin.trans hqr⟩

theorem row_within_pool {r : Nat} (hr : r ∈ p.rt0 ++ p.rt1) : ∃ q ∈ s.freePools, PoolFree.within ⟨r, p.stride⟩ q := by
  obtain ⟨q, hq, hwithin⟩ := h.row_within hr
  obtain ⟨q', hq', hqq'⟩ := h.within_of_mem_rowSpace hq
  obtain ⟨q'', hq'', hqq''⟩ := h.within_of_mem_left hq'
  exact ⟨q'', hq'', hwithin.trans (hqq'.trans hqq'')⟩

theorem chain_apart_const : PoolFree.apart ⟨p.chainBase, 12 * (p.group * p.vt)⟩ ⟨p.constBase, 4 * p.clen⟩ := by
  obtain ⟨q, hq, hwithin⟩ := h.const_within
  exact (h.chain_apart_left hq).mono ⟨le_rfl, le_rfl⟩ hwithin

theorem chain_apart_row {r : Nat} (hr : r ∈ p.rt0 ++ p.rt1) :
    PoolFree.apart ⟨p.chainBase, 12 * (p.group * p.vt)⟩ ⟨r, p.stride⟩ := by
  obtain ⟨q, hq, hwithin⟩ := h.row_within hr
  obtain ⟨q', hq', hqq'⟩ := h.within_of_mem_rowSpace hq
  exact (h.chain_apart_left hq').mono ⟨le_rfl, le_rfl⟩ (hwithin.trans hqq')

theorem const_apart_row {r : Nat} (hr : r ∈ p.rt0 ++ p.rt1) : PoolFree.apart ⟨p.constBase, 4 * p.clen⟩ ⟨r, p.stride⟩ := by
  obtain ⟨q, hq, hwithin⟩ := h.row_within hr
  exact (h.const_apart_rowSpace hq).mono ⟨le_rfl, le_rfl⟩ hwithin

theorem chain_fits (hpos : 0 < 12 * (p.group * p.vt)) : p.chainBase + 12 * (p.group * p.vt) ≤ addrSpace := by
  obtain ⟨q, hq, hwithin⟩ := h.chain_within
  exact State.run_le_addrSpace h.pools hq hwithin hpos

theorem const_fits (hpos : 0 < 4 * p.clen) : p.constBase + 4 * p.clen ≤ addrSpace := by
  obtain ⟨q, hq, hwithin⟩ := h.const_within_pool
  exact State.run_le_addrSpace h.pools hq hwithin hpos

theorem row_fits {r : Nat} (hr : r ∈ p.rt0 ++ p.rt1) : r + p.stride ≤ addrSpace := by
  obtain ⟨q, hq, hwithin⟩ := h.row_within_pool hr
  exact State.run_le_addrSpace h.pools hq hwithin h.stride_pos

/-! ### The layout of the registers (40_video R218, R219) -/

theorem vpw_commitRegs : (s.commitRegs p).vpw = p.vpw := loHalf_natPair h.vpw_lt _

theorem vph_commitRegs : (s.commitRegs p).vph = p.vph := hiHalf_natPair h.vph_lt _

theorem vpcol_commitRegs : (s.commitRegs p).vpcol = p.vpcol := loHalf_natPair h.vpcol_lt _

theorem clen_commitRegs : (s.commitRegs p).alloc.clen.toNat = p.clen :=
  toNat_natWord (h.clen_lt.trans (by decide))

/-- The committed registers give the pieces of the plan. -/
theorem pieces_commitRegs : (s.commitRegs p).pieces = linePieces s.staged p.vpcol p.vpw p.clen := by
  rw [State.pieces, h.vpcol_commitRegs, h.vpw_commitRegs, h.clen_commitRegs]
  rfl

theorem length_pieces_commitRegs : (s.commitRegs p).pieces.length = p.group := by
  rw [h.pieces_commitRegs, h.group]

theorem vt_commitRegs : (s.commitRegs p).active.vt = p.vt := h.vt.symm

/-- The rows of table 0 are the first ones placed, and those of table 1 follow. -/
theorem entry_commitRegs {b : Bool} {y : Nat} (hb : b = true → s.staged.dbl = true) (hy : y < p.vph) :
    (p.rt0 ++ p.rt1)[if b then p.vph + y else y]? = some ((s.commitRegs p).rows.entry b y).toNat := by
  have hword {l : List Nat} {r : Nat} (hl : l ⊆ p.rt0 ++ p.rt1) (hr : l[y]? = some r) :
      some r = some ((l.map natWord).getD y 0#32).toNat := by
    have hpos := h.stride_pos
    have hfit := h.row_fits (hl (List.mem_of_getElem? hr))
    unfold addrSpace at hfit
    rw [List.getD_eq_getElem?_getD, List.getElem?_map, hr, Option.map_some, Option.getD_some, toNat_natWord (by omega)]
  cases b with
  | false =>
    have hlen : y < p.rt0.length := by rw [h.rt0]; exact hy
    rw [if_neg Bool.false_ne_true, List.getElem?_append_left hlen, List.getElem?_eq_getElem hlen]
    exact hword (List.subset_append_left _ _) (List.getElem?_eq_getElem hlen)
  | true =>
    have hlen : y < p.rt1.length := by rw [h.rt1, if_pos (hb rfl)]; exact hy
    rw [if_pos rfl, ← h.rt0, List.getElem?_append_right (Nat.le_add_right _ _), Nat.add_sub_cancel_left,
      List.getElem?_eq_getElem hlen]
    exact hword (List.subset_append_right _ _) (List.getElem?_eq_getElem hlen)

theorem rowsOk_commitRegs : (s.commitRegs p).rowsOk := by
  intro b y hb hy
  rw [h.vph_commitRegs] at hy
  have hentry := h.entry_commitRegs hb hy
  have hstride := h.vpw_le_stride
  rw [h.vpw_commitRegs]
  refine ⟨?_, fun c z hc hz hne => ?_⟩
  · have hfit := h.row_fits (List.mem_of_getElem? hentry)
    unfold addrSpace at hfit
    omega
  rw [h.vph_commitRegs] at hz
  have hother := h.entry_commitRegs hc hz
  obtain ⟨hi, hri⟩ := List.getElem?_eq_some_iff.1 hentry
  obtain ⟨hj, hrj⟩ := List.getElem?_eq_some_iff.1 hother
  have hindex : (if b then p.vph + y else y) ≠ (if c then p.vph + z else z) := by
    intro heq
    apply hne
    cases b <;> cases c <;> simp at heq ⊢ <;> omega
  have hpos := h.stride_pos
  have hpair := List.pairwise_iff_getElem.1 h.rows_pairwise
  obtain hlt | hlt := Nat.lt_or_gt_of_ne hindex
  · have happart := (hpair _ _ hi hj hlt).le_or_le hpos hpos
    omega
  · have happart := (hpair _ _ hj hi hlt).le_or_le hpos hpos
    omega

theorem chainOk_commitRegs (hc : s.cfg.valid) : (s.commitRegs p).chainOk := by
  have hpos : 0 < p.group * p.vt := Nat.mul_pos (h.group_pos hc).2 h.vt_pos
  have hfit := h.chain_fits (Nat.mul_pos (by decide) hpos)
  unfold addrSpace at hfit
  have hgroup : p.group ≤ p.group * p.vt := Nat.le_mul_of_pos_right _ h.vt_pos
  have hlen : (natWord (p.group * p.vt)).toNat = p.group * p.vt := toNat_natWord (by omega)
  have hbase : (natWord p.chainBase).toNat = p.chainBase := toNat_natWord (by omega)
  obtain ⟨-, hvvis, -⟩ := Timings.valid_iff.1 h.valid
  refine ⟨hvvis, ?_, ?_, le_rfl, ?_, nofun⟩
  · rw [h.length_pieces_commitRegs]
    exact toNat_natWord (by omega)
  · rw [h.length_pieces_commitRegs, h.vt_commitRegs]
    exact hlen
  · show (natWord p.chainBase).toNat + 12 * (natWord (p.group * p.vt)).toNat ≤ 2 ^ 32
    rw [hbase, hlen]
    exact hfit

end State.Planned

end Sys2Proof.Machine
end

section
/-!
# The layout that `APPLY` leaves, and that every step keeps (40_video R207, R214 to R219, R242, R243, 44_blit R396)

The layout invariant reads the parameters, the active timing, the allocation, the pending geometry and the row tables. What
changes them is a commit, a geometry operation or its commit at a frame boundary, a rotation or a swap of the tables, and a reset.
-/

namespace Sys2Proof.Machine

/-! ### What the layout reads -/

/-- The part of a state that the layout invariant reads. -/
def State.layout (s : State) : State :=
  { State.reset with cfg := s.cfg, active := s.active, alloc := s.alloc, geom := s.geom, rows := s.rows }

theorem layoutOk_of_layout {s t : State} (h : t.layout = s.layout) (hs : s.layoutOk) : t.layoutOk := by
  show t.layout.layoutOk
  rw [h]
  exact hs

theorem layout_of_fixed {s t : State} (h : t.fixed = s.fixed) : t.layout = s.layout := (congrArg State.layout h :)

/-! ### Pixels (40_video R217, R224) -/

/-- No two pixels of the viewport share a byte of a table's rows. -/
theorem State.rowsOk.pixAddr_inj {s : State} (hs : s.rowsOk) {b : Bool} (hb : b = true → s.alloc.dblActive = true) {p q : Point}
    (hp : s.vpb.has p = true) (hq : s.vpb.has q = true) (h : s.pixAddr b p.1 p.2 = s.pixAddr b q.1 q.2) : p = q := by
  obtain ⟨hpx, hpx', hpy, hpy'⟩ := Rect.has_iff.1 hp
  obtain ⟨hqx, hqx', hqy, hqy'⟩ := Rect.has_iff.1 hq
  simp only [State.vpb] at hpx hpx' hpy hpy' hqx hqx' hqy hqy'
  obtain ⟨hpfit, hpaway⟩ := hs b p.2.toNat hb (by omega)
  obtain ⟨hqfit, -⟩ := hs b q.2.toNat hb (by omega)
  simp only [State.pixAddr, wrapAddr, addrSpace] at h
  have hrow : p.2.toNat = q.2.toNat := by
    by_contra hne
    have haway := hpaway b q.2.toNat hb (by omega) fun heq => hne (Prod.mk.inj heq).2
    omega
  rw [hrow] at hpfit h
  exact Prod.ext (by omega) (by omega)

theorem State.layoutOk.apart {s : State} (hs : s.layoutOk) : s.pixelsApart ∧ s.visibleApart := by
  obtain ⟨-, hnew, hconf⟩ := hs
  cases hc : s.alloc.configured with
  | false =>
    have hempty (p : Point) : s.vpb.has p ≠ true := by
      have hvpw : s.vpw = 0 := by rw [State.vpw, (hnew hc).1]; rfl
      intro hp
      obtain ⟨hx, hx', -, -⟩ := Rect.has_iff.1 hp
      simp only [State.vpb, hvpw] at hx hx'
      omega
    exact ⟨fun p _ hp => absurd hp (hempty p), fun p _ hp => absurd hp (hempty p)⟩
  | true =>
    obtain ⟨-, hrows⟩ := hconf hc
    exact ⟨fun p q => hrows.pixAddr_inj fun hb => (Bool.and_eq_true_iff.1 hb).1,
      fun p q => hrows.pixAddr_inj fun hb => (Bool.and_eq_true_iff.1 hb).1⟩

/-! ### Rotated tables (44_blit R396) -/

/-- The row that row `y` shows after a rotation: rows outside the region stay. -/
def scrolledIndex (e : Rect) (m : Int) (y : Nat) : Nat :=
  if e.y1 ≤ (y : Int) ∧ (y : Int) ≤ e.y2 then (scrolledRow e m y).toNat else y

theorem getD_rotateTable (t : List Word) (e : Rect) (m : Int) (y : Nat) :
    (rotateTable t e m).getD y 0#32 = t.getD (scrolledIndex e m y) 0#32 := by
  rw [rotateTable, List.getD_eq_getElem?_getD, List.getElem?_map]
  by_cases hy : y < max t.length (e.y2 + 1).toNat
  · rw [List.getElem?_range hy, Option.map_some, Option.getD_some, scrolledIndex, apply_ite (fun i => t.getD i 0#32)]
  · have hout : ¬ (e.y1 ≤ (y : Int) ∧ (y : Int) ≤ e.y2) := by omega
    rw [List.getElem?_eq_none (by simpa using Nat.not_lt.1 hy), scrolledIndex, if_neg hout,
      List.getD_eq_default _ _ (by omega)]
    rfl

theorem Rows.entry_setTable (r : Rows) (b c : Bool) (l : List Word) (y : Nat) :
    (r.setTable b l).entry c y = if c = b then l.getD y 0#32 else r.entry c y := by
  cases b <;> cases c <;> rfl

/-- The row tables after a rotation of the drawing table. -/
def State.rotatedRows (s : State) (e : Rect) (m : Int) : Rows :=
  s.rows.setTable s.drawTbl (rotateTable (s.rows.table s.drawTbl) e m)

theorem State.entry_rotatedRows (s : State) (e : Rect) (m : Int) (c : Bool) (y : Nat) :
    (s.rotatedRows e m).entry c y = s.rows.entry c (if c = s.drawTbl then scrolledIndex e m y else y) := by
  rw [State.rotatedRows, Rows.entry_setTable, getD_rotateTable]
  split
  next h => rw [h]; rfl
  · rfl

theorem Rect.coe_height {e : Rect} (h : e.y1 ≤ e.y2) : (e.height : Int) = e.y2 - e.y1 + 1 := by
  unfold Rect.height
  omega

theorem scrolledRow_bounds {e : Rect} (h : e.y1 ≤ e.y2) (m y : Int) :
    e.y1 ≤ scrolledRow e m y ∧ scrolledRow e m y ≤ e.y2 := by
  have hheight := Rect.coe_height h
  have hnonneg := Int.emod_nonneg (y - e.y1 - m) (b := (e.height : Int)) (by omega)
  have hlt := Int.emod_lt_of_pos (y - e.y1 - m) (b := (e.height : Int)) (by omega)
  unfold scrolledRow
  omega

/-- A rotation takes different rows of its region to different rows. -/
theorem scrolledRow_inj {e : Rect} {m y z : Int} (hy : e.y1 ≤ y ∧ y ≤ e.y2) (hz : e.y1 ≤ z ∧ z ≤ e.y2)
    (h : scrolledRow e m y = scrolledRow e m z) : y = z := by
  have hheight := Rect.coe_height (hy.1.trans hy.2)
  have hmod : (y - e.y1 - m) % (e.height : Int) = (z - e.y1 - m) % (e.height : Int) := by
    unfold scrolledRow at h
    omega
  have hdvd : (e.height : Int) ∣ y - z := by
    have hdiff := Int.ModEq.dvd (Int.ModEq.symm hmod)
    rwa [show y - e.y1 - m - (z - e.y1 - m) = y - z by ring] at hdiff
  have hzero := Int.eq_zero_of_abs_lt_dvd hdvd (by rw [abs_lt]; omega)
  omega

theorem scrolledIndex_lt {e : Rect} {m : Int} {n y : Nat} (hn : e.y2 < (n : Int)) (hy : y < n) :
    scrolledIndex e m y < n := by
  unfold scrolledIndex
  split
  next hin =>
    have hbounds := scrolledRow_bounds (hin.1.trans hin.2) m y
    omega
  · exact hy

theorem scrolledIndex_inj {e : Rect} {m : Int} (he : 0 ≤ e.y1) {y z : Nat}
    (h : scrolledIndex e m y = scrolledIndex e m z) : y = z := by
  unfold scrolledIndex at h
  split at h
  next hy =>
    have hbounds := scrolledRow_bounds (hy.1.trans hy.2) m y
    split at h
    next hz =>
      have hbounds' := scrolledRow_bounds (hz.1.trans hz.2) m z
      have heq := scrolledRow_inj hy hz (by omega : scrolledRow e m y = scrolledRow e m z)
      omega
    next hz => omega
  next hy =>
    split at h
    next hz =>
      have hbounds := scrolledRow_bounds (hz.1.trans hz.2) m z
      omega
    · exact h

/-- The effective scroll region lies in the viewport (44_blit R394). -/
theorem State.scrollRegion_bounds (s : State) : 0 ≤ s.scrollRegion.x1 ∧ 0 ≤ s.scrollRegion.y1 ∧
    s.scrollRegion.x2 < (s.vpw : Int) ∧ s.scrollRegion.y2 < (s.vph : Int) := by
  simp only [State.scrollRegion, State.clipVp, State.vpb, Rect.inter]
  omega

/-- Rows that are laid out apart stay so when each table is rearranged among the rows of the viewport. -/
theorem rowsOk_of_rearranged {s t : State} (hs : s.rowsOk) (hactive : t.active = s.active) (halloc : t.alloc = s.alloc)
    (f : Bool → Nat → Nat) (hentry : ∀ b y, t.rows.entry b y = s.rows.entry b (f b y))
    (hlt : ∀ b y, y < s.vph → f b y < s.vph) (hinj : ∀ b y z, f b y = f b z → y = z) : t.rowsOk := by
  have hvpw : t.vpw = s.vpw := by unfold State.vpw; rw [hactive]
  have hvph : t.vph = s.vph := by unfold State.vph; rw [hactive]
  intro b y hb hy
  rw [halloc] at hb
  rw [hvph] at hy
  obtain ⟨hfit, haway⟩ := hs b (f b y) hb (hlt b y hy)
  rw [hvpw, hentry]
  refine ⟨hfit, fun c z hc hz hne => ?_⟩
  rw [halloc] at hc
  rw [hvph] at hz
  rw [hentry]
  refine haway c (f c z) hc (hlt c z hz) fun heq => hne ?_
  obtain ⟨rfl, hf⟩ := Prod.mk.inj heq
  rw [hinj _ _ _ hf]

theorem layoutOk_setRows {s : State} (hs : s.layoutOk) {r : Rows} (hr : s.rowsOk → ({ s with rows := r } : State).rowsOk) :
    ({ s with rows := r } : State).layoutOk := by
  obtain ⟨hcfg, hnew, hconf⟩ := hs
  exact ⟨hcfg, hnew, fun hc => ⟨(hconf hc).1, hr (hconf hc).2⟩⟩

theorem layoutOk_rotateRows {s : State} (hs : s.layoutOk) (m : Int) : (s.rotateRows s.scrollRegion m).layoutOk := by
  obtain ⟨-, hy1, -, hy2⟩ := s.scrollRegion_bounds
  refine layoutOk_of_layout (layout_of_fixed (fixed_rotateRows s _ m)) (layoutOk_setRows hs fun hrows => ?_)
  refine rowsOk_of_rearranged hrows rfl rfl (fun c y => if c = s.drawTbl then scrolledIndex s.scrollRegion m y else y)
    (s.entry_rotatedRows _ m) (fun b y hy => ?_) fun b y z h => ?_
  · split
    · exact scrolledIndex_lt hy2 hy
    · exact hy
  · split at h
    · exact scrolledIndex_inj hy1 h
    · exact h

/-! ### Instructions -/

theorem layoutOk_vScroll {s t : State} {n : Half} (hs : s.layoutOk) (h : exec (.vScroll n) s = .next t) : t.layoutOk := by
  simp only [exec, execVScroll, Host.Outcome.next.injEq] at h
  split at h
  · exact h ▸ hs
  · split at h
    · exact h ▸ hs
    · split at h
      · exact h ▸ layoutOk_rotateRows hs _
      · exact h ▸ hs

/-- A swap exchanges which table is visible; both tables stay (44_blit R405). -/
theorem layoutOk_swapped {s : State} (hs : s.layoutOk) : s.swapped.layoutOk :=
  layoutOk_of_layout (layout_of_fixed (fixed_swapped s)) (layoutOk_setRows hs id)

/-- A commit leaves the layout of its plan (40_video R218, R219). -/
theorem State.Planned.layoutOk_commitPlan {s : State} {p : Plan} {ps qs : List PoolFree} (h : s.Planned p ps qs)
    (hc : s.cfg.valid) : (s.commitPlan p).layoutOk :=
  layoutOk_of_layout (layout_of_fixed (fixed_commitPlan s p))
    ⟨hc, nofun, fun _ => ⟨h.chainOk_commitRegs hc, h.rowsOk_commitRegs⟩⟩

/-- An accepted candidate's chain fits the capacity, so a pending geometry can be committed (40_video R242). -/
theorem layoutOk_adjust {s : State} (hs : s.layoutOk) (op : Byte) (c : Porches) : (s.adjust op c).layoutOk := by
  unfold State.adjust
  split
  next hok =>
    obtain ⟨hcfg, hnew, hconf⟩ := hs
    refine ⟨hcfg, hnew, fun hc => ⟨?_, (hconf hc).2⟩⟩
    obtain ⟨hvvis, hgroup, hlen, hcap, hfit, -⟩ := (hconf hc).1
    refine ⟨hvvis, hgroup, hlen, hcap, hfit, fun _ => ?_⟩
    simp only [loHalf_pairWord, hiHalf_pairWord]
    obtain ⟨-, hfits⟩ := Bool.and_eq_true_iff.1 hok
    obtain ⟨-, -, hchain⟩ := of_decide_eq_true hfits
    exact hchain
  · exact hs

/-- The instructions that change the layout: `VSCROLL`, `SWAPBUFFERS`, `APPLY` and the geometry operations. -/
def setsLayout : Instr → Bool
  | .vScroll _ | .swapBuffers | .hostopApply | .hostopMoveScreen | .hostopShrinkScreen => true
  | _ => false

theorem exec_layout {i : Instr} {s t : State} (hi : setsLayout i = false) (h : exec i s = .next t) : t.layout = s.layout := by
  cases i with
  | vScroll | swapBuffers | hostopApply | hostopMoveScreen | hostopShrinkScreen => cases hi
  | setPenColor | setBrushColor | setPixel | moveTo | lineTo | fillRect | fillEllipse | drawEllipse | clear | setGlyphOptions
  | setPaintOptions | invertRect | copyRect | setScrollingRegion | swapFgBg | refreshSprites | setOrigin | setClippingRect
  | hostopDrain | hostopCmdAbort =>
    injection h with h
    subst h
    rfl
  | hScroll | drawGlyph | renderGlyphsBuffer | drawBitmap | readRawData | writeRawData | fillPath | drawPath | hostopSuspend
  | hostopResume =>
    simp only [exec, execHScroll, execDrawGlyph, State.drawGlyphRecord, execRenderGlyphsBuffer, State.renderCells,
      execDrawBitmap, execReadRawData, execWriteRawData, execFillPath, execDrawPath, execHostopSuspend, execHostopResume,
      Host.Outcome.next.injEq] at h
    subst h
    repeat' split
    all_goals rfl
  | hostopSetSprites =>
    injection h with h
    subst h
    exact layout_of_fixed (s := { s with sprActive := s.sprStaged }) (fixed_spritesSet s)

theorem layoutOk_exec {i : Instr} {s t : State} (hs : s.layoutOk) (h : exec i s = .next t) : t.layoutOk := by
  cases hi : setsLayout i with
  | false => exact layoutOk_of_layout (exec_layout hi h) hs
  | true =>
    cases i with
    | vScroll n => exact layoutOk_vScroll hs h
    | swapBuffers =>
      simp only [exec, execSwapBuffers, Host.Outcome.next.injEq] at h
      split at h
      · exact h ▸ hs
      · exact h ▸ layoutOk_swapped hs
    | hostopApply =>
      cases hplan : s.applyPlan with
      | error c =>
        rw [exec_apply_error hplan] at h
        injection h with h
        exact h ▸ hs
      | ok p =>
        rw [exec_apply_ok hplan] at h
        injection h with h
        obtain ⟨ps, qs, hp⟩ := State.exists_planned hplan
        exact h ▸ hp.layoutOk_commitPlan hs.1
    | hostopMoveScreen => injection h with h; exact h ▸ layoutOk_adjust hs _ _
    | hostopShrinkScreen => injection h with h; exact h ▸ layoutOk_adjust hs _ _
    | _ => cases hi

/-! ### The agents -/

theorem layoutOk_executeEntry {s t : State} {e : Entry} (hs : s.layoutOk) (h : s.executeEntry e = .next t) : t.layoutOk := by
  unfold State.executeEntry at h
  dsimp only at h
  split at h
  · injection h with h
    exact h ▸ hs
  · exact layoutOk_exec (s := s.setExe { s.exe with ok := true }) hs h

theorem layoutOk_hostOpStep {s t : State} {v : Word} (hs : s.layoutOk) (h : s.hostOpStep v = .next t) : t.layoutOk := by
  unfold State.hostOpStep at h
  split at h
  · injection h with h
    exact h ▸ hs
  · exact layoutOk_exec hs h

theorem layoutOk_exeStep {s t : State} (hs : s.layoutOk) (h : s.exeStep = .next t) : t.layoutOk := by
  obtain ⟨-, rfl⟩ | ⟨m, ms, -, hm⟩ := State.exeStep_cases h
  · exact layoutOk_of_layout (congrArg State.layout s.startNext_eq :) hs
  obtain ⟨d, e, es, u, -, -, -, hu, rfl⟩ | ⟨v, rfl, -⟩ | hq := State.microStep_cases hm
  · exact layoutOk_of_layout (s := u) (congrArg State.layout (u.drainNext_eq d) :)
      (layoutOk_executeEntry (s := s.setWork ms) hs hu)
  · exact layoutOk_hostOpStep (s := s.setWork ms) hs hm
  · exact layoutOk_of_layout (congrArg State.layout (State.microStep_unworked hq hm) :) hs

/-- A committed geometry has the chain of its timing, which fits the capacity (40_video R242, R243). -/
theorem layoutOk_geometryCommit {s : State} (hs : s.layoutOk) (hpending : s.geom.pending = true) :
    s.geometryCommit.layoutOk := by
  obtain ⟨hcfg, hnew, hconf⟩ := hs
  refine ⟨hcfg, hnew, fun hc => ⟨?_, (hconf hc).2⟩⟩
  obtain ⟨hvvis, -, -, -, hfit, hcap⟩ := (hconf hc).1
  have hcap : s.geometryCommit.pieces.length * s.geometryCommit.active.vt ≤ s.alloc.chainCap.toNat := hcap hpending
  have hvvis' : 1 ≤ s.geometryCommit.active.vvis := by
    rw [State.geometryCommit_eq]
    exact hvvis.trans_eq (Timings.withPorches_vvis ..).symm
  have hvt : 1 ≤ s.geometryCommit.active.vt := hvvis'.trans (by unfold Timings.vt; omega)
  have hgroup := Nat.le_mul_of_pos_right s.geometryCommit.pieces.length hvt
  have hword {n : Nat} (hn : n ≤ s.alloc.chainCap.toNat) : (natWord n).toNat = n :=
    toNat_natWord (hn.trans_lt (BitVec.isLt _))
  have hlen := hword hcap
  exact ⟨hvvis', hword (hgroup.trans hcap), hlen, hlen.trans_le hcap, hfit, nofun⟩

theorem layoutOk_seqAdvance {s : State} (hs : s.layoutOk) : s.seqAdvance.layoutOk := by
  by_cases hlink : s.seq.latNext = s.alloc.chainBase
  · rw [State.seqAdvance_of_eq hlink]
    split
    next hpending => exact layoutOk_geometryCommit (s := s.frameCounted) hs hpending
    · exact hs
  · rw [State.seqAdvance_of_ne hlink]
    exact hs

theorem layoutOk_seqStep {s : State} (hs : s.layoutOk) : s.seqStep.layoutOk := by
  have hfetched : s.fetched.layoutOk := by rw [State.fetched_eq]; exact hs
  by_cases hstop : s.seq.phase = .stop
  · rw [State.seqStep_stop hstop]
    exact hs
  have heff := State.seqStep_effect hstop
  generalize s.seqStep = t at heff
  cases heff with
  | fault fa => exact hs
  | fetch => exact hfetched
  | skip => exact layoutOk_seqAdvance hfetched
  | emit q => exact hs
  | last q => exact layoutOk_seqAdvance (s := s.setSeq q) hs

/-- A reset leaves nothing configured (70_reset R511). -/
theorem layoutOk_outsideStep {s : State} (hs : s.layoutOk) : s.outsideStep.layoutOk := by
  have hreset : s.dropInput.doReset.layoutOk := ⟨hs.1, fun _ => ⟨rfl, rfl⟩, nofun⟩
  obtain heq | ⟨is, -, heq⟩ | ⟨is, -, heq⟩ | ⟨rs, heq⟩ := s.outsideStep_cases <;> rw [heq]
  · exact hs
  · exact hreset
  · exact hreset
  · exact hs

theorem step_keeps_layoutOk {s t : State} (hs : s.layoutOk) (h : step s = .next t) : t.layoutOk := by
  obtain rfl | ⟨a, e, -, -, ha⟩ := step_cases h
  · exact hs
  have hu : ({ s with env := e } : State).layoutOk := hs
  cases a with
  | host =>
    injection ha with ha
    exact ha ▸ layoutOk_of_layout (congrArg State.layout (State.unhosted_hostStep _) :) hu
  | seq => injection ha with ha; exact ha ▸ layoutOk_seqStep hu
  | exe => exact layoutOk_exeStep hu ha
  | outside => injection ha with ha; exact ha ▸ layoutOk_outsideStep hu

/-! ### The statement -/

/-- A run inside a free one lies inside the pool that the free one is. -/
theorem State.exists_pool {s : State} {a n : Nat} (h : ∃ q ∈ s.freePools, PoolFree.within ⟨a, n⟩ q) :
    ∃ q ∈ s.pools, q.base.toNat ≤ a ∧ a + n ≤ q.base.toNat + q.size.toNat := by
  obtain ⟨_, hfree, hwithin⟩ := h
  obtain ⟨q, hq, rfl⟩ := List.mem_map.1 hfree
  exact ⟨q, hq, hwithin⟩

/-- Settles O57: the numbers and places are those of `State.Planned`, and the layout is an inductive invariant that a commit
establishes. -/
theorem planPlacesRowsInPools : Obligations.PlanPlacesRowsInPools := by
  refine ⟨fun s p hplan => ?_, fun s p hplan => ?_, fun n k ps => ⟨rfl, fun as => poolAllocMany_succ_eq_some_iff⟩,
    fun s hs => hs.apart, fun s t hs h => step_keeps_layoutOk hs h⟩
  · obtain ⟨ps, qs, h⟩ := State.exists_planned hplan
    obtain ⟨-, -, hvph⟩ := h.vph_facts
    refine ⟨h.rt0, h.rt1, hvph, h.vpw_le_stride, fun r hr => State.exists_pool (h.row_within_pool hr),
      h.rows_pairwise.imp fun hab => hab.le_or_le h.stride_pos h.stride_pos, fun hc => ?_⟩
    obtain ⟨hclen, hgroup⟩ := h.group_pos hc
    have hchain : 0 < 12 * (p.group * p.vt) := Nat.mul_pos (by decide) (Nat.mul_pos hgroup h.vt_pos)
    have hconst : 0 < 4 * p.clen := Nat.mul_pos (by decide) hclen
    exact ⟨State.exists_pool h.chain_within, State.exists_pool h.const_within_pool,
      h.chain_apart_const.le_or_le hchain hconst,
      fun r hr => ⟨(h.chain_apart_row hr).symm.le_or_le h.stride_pos hchain,
        (h.const_apart_row hr).symm.le_or_le h.stride_pos hconst⟩,
      _, exec_apply_ok hplan, h.layoutOk_commitPlan hc⟩
  · obtain ⟨ps, qs, h⟩ := State.exists_planned hplan
    obtain ⟨hvph, hroom, -⟩ := h.vph_facts
    obtain ⟨hstride, -, hstride'⟩ := h.stride_facts
    exact ⟨h.vpw, h.vpw_le, h.vph_le, h.vpcol, h.vprow, h.clen_facts, h.group, h.vt, ⟨hstride, hstride'⟩, ps, qs, h.chain,
      h.const, ⟨hvph, hroom⟩, h.rows⟩

end Sys2Proof.Machine
end

section
/-!
# A full-width `VSCROLL` (40_video R223, R227, 44_blit R394 to R396)
-/

namespace Sys2Proof.Machine

/-! ### The descriptors of `RETARGET` (40_video R227) -/

theorem State.mem_rowDescs {s : State} {d : Nat × Nat × Piece} : d ∈ s.rowDescs ↔
    ∃ line k p, line < s.active.vvis ∧ s.pieces[k]? = some p ∧ p.kind = .row ∧
      d = (line * s.alloc.group.toNat + k, line, p) := by
  simp only [State.rowDescs, List.mem_flatMap, List.mem_range, List.mem_map, List.mem_filter, decide_eq_true_eq, Prod.exists,
    List.mem_zipIdx_iff_getElem?]
  constructor
  · rintro ⟨line, hline, p, k, ⟨hp, hkind⟩, rfl⟩
    exact ⟨line, k, p, hline, hp, hkind, rfl⟩
  · rintro ⟨line, k, p, hline, hp, hkind, rfl⟩
    exact ⟨line, hline, p, k, ⟨hp, hkind⟩, rfl⟩

namespace State.chainOk

variable {s : State} (hs : s.chainOk) {d e : Nat × Nat × Piece} (hd : d ∈ s.rowDescs) (he : e ∈ s.rowDescs)
include hs hd

/-- A visible row's descriptor lies in the chain, inside the address space. -/
theorem descAddr_fits : s.descAddr d.1 + 12 ≤ addrSpace := by
  obtain ⟨-, hgroup, hlen, hcap, hfit, -⟩ := hs
  obtain ⟨line, k, p, hline, hp, -, rfl⟩ := State.mem_rowDescs.1 hd
  have hk : k < s.pieces.length := (List.getElem?_eq_some_iff.1 hp).1
  have hvt : line + 1 ≤ s.active.vt := by
    unfold Timings.vt
    omega
  have hd : line * s.alloc.group.toNat + k < s.alloc.chainLen.toNat := by
    calc line * s.alloc.group.toNat + k < (line + 1) * s.pieces.length := by rw [hgroup, Nat.add_one_mul]; omega
      _ ≤ s.active.vt * s.pieces.length := Nat.mul_le_mul_right _ hvt
      _ = s.alloc.chainLen.toNat := by rw [hlen, Nat.mul_comm]
  unfold State.descAddr addrSpace
  omega

include he in
/-- A descriptor's number says which line and which piece it is. -/
theorem rowDescs_inj (h : d.1 = e.1) : d = e := by
  obtain ⟨-, hgroup, -⟩ := hs
  obtain ⟨line, k, p, -, hp, -, rfl⟩ := State.mem_rowDescs.1 hd
  obtain ⟨line', k', p', -, hp', -, rfl⟩ := State.mem_rowDescs.1 he
  have hk : k < s.pieces.length := (List.getElem?_eq_some_iff.1 hp).1
  have hk' : k' < s.pieces.length := (List.getElem?_eq_some_iff.1 hp').1
  rw [← hgroup] at hk hk'
  obtain ⟨rfl, rfl⟩ := grid_inj hk hk' h
  rw [hp] at hp'
  cases hp'
  rfl

include he in
/-- The `BUF` words of two descriptors share no byte. -/
theorem bufWords_apart (hne : e ≠ d) {i j : Nat} (hi : i < 4) (hj : j < 4) :
    wrapAddr (s.descAddr e.1 + 4 + i) ≠ wrapAddr (s.descAddr d.1 + 4 + j) := by
  have hfit := hs.descAddr_fits hd
  have hfit' := hs.descAddr_fits he
  have hnum : e.1 ≠ d.1 := fun h => hne (hs.rowDescs_inj he hd h)
  rw [wrapAddr_of_lt (by omega), wrapAddr_of_lt (by omega)]
  unfold State.descAddr
  omega

end State.chainOk

/-- `RETARGET` stores to the `BUF` words of the visible rows' descriptors only (40_video R227). -/
theorem State.retarget_storesOnly (s : State) (b : Bool) : storesOnly s.bufWord s (s.retarget b) := by
  intro a ha
  refine memByte_foldl_of_notMem (fun d hd m => ?_) s.mem
  refine memByte_memStoreBlock_of_notMem _ _ _ _ fun j hj he => ha ⟨d, hd, j, ?_, he⟩
  rwa [length_bytesLe] at hj

/-- After `RETARGET` each visible row's `BUF` word is its target (40_video R227). -/
theorem State.chainOk.targets_retarget {s : State} (hs : s.chainOk) (b : Bool) :
    (s.retarget b).targets (s.retarget b).mem b := by
  intro d hd
  refine memWord_of_bytes fun j hj => ?_
  refine memByte_foldl_of_mem (x := d) hd (fun _ => True) trivial (fun _ _ _ _ => trivial) (fun m _ => ?_)
    fun e he hne m => ?_
  · exact memByte_memStoreBlock_of_mem _ _ _ _ j _ (by simp [addrSpace]) (bytesLe_getElem? _ 4 j hj) rfl
  · refine memByte_memStoreBlock_of_notMem _ _ _ _ fun i hi => ?_
    rw [length_bytesLe] at hi
    exact hs.bufWords_apart hd he hne hi hj

/-! ### `VSCROLL` (44_blit R394 to R396) -/

/-- A rotation replaces one row table, and in single-buffer mode retargets the chain. -/
theorem State.rotateRows_eq (s : State) (e : Rect) (m : Int) : s.rotateRows e m =
    if s.alloc.dblActive then { s with rows := s.rotatedRows e m }
    else State.retarget { s with rows := s.rotatedRows e m } false := rfl

theorem Rows.setTable_eq (r : Rows) (b : Bool) (l : List Word) :
    r.setTable b l = { r with rt0 := (r.setTable b l).rt0, rt1 := (r.setTable b l).rt1 } := by
  cases b <;> rfl

theorem State.rotateRows_frame (s : State) (e : Rect) (m : Int) :
    (s.rotateRows e m).rows = s.rotatedRows e m ∧
    s.rotateRows e m = { s with mem := (s.rotateRows e m).mem, rows := s.rotatedRows e m } ∧
    storesOnly s.bufWord s (s.rotateRows e m) := by
  rw [State.rotateRows_eq]
  split
  · exact ⟨rfl, rfl, fun _ _ => rfl⟩
  · exact ⟨rfl, rfl, State.retarget_storesOnly { s with rows := s.rotatedRows e m } false⟩

theorem exec_vScroll_eq (n : Half) (s : State) : exec (.vScroll n) s = .next (
    if s.scrollRegion.isEmpty then s
    else if n.toInt % (s.scrollRegion.height : Int) = 0 then s
    else if s.scrollRegion.x1 = 0 ∧ s.scrollRegion.x2 = (s.vpw : Int) - 1 then
      s.rotateRows s.scrollRegion (n.toInt % (s.scrollRegion.height : Int))
    else s.copyRows s.scrollRegion (n.toInt % (s.scrollRegion.height : Int))) := rfl

/-- A region that is not empty has a pixel of the viewport in it, so the block is configured. -/
theorem State.layoutOk.chainOk_of_scrollRegion {s : State} (hs : s.layoutOk) (h : s.scrollRegion.isEmpty = false) :
    s.chainOk := by
  obtain ⟨-, hnew, hconf⟩ := hs
  cases hc : s.alloc.configured with
  | true => exact (hconf hc).1
  | false =>
    have hvpw : s.vpw = 0 := by rw [State.vpw, (hnew hc).1]; rfl
    obtain ⟨hx1, -, hx2, -⟩ := s.scrollRegion_bounds
    have hne := of_decide_eq_false h
    omega

/-- Settles O47: the rotation is one of the drawing table's entries, and `RETARGET` follows it in single-buffer mode. -/
theorem vScrollRotatesRows : Obligations.VScrollRotatesRows := by
  intro n s e m
  refine ⟨fun hnone => ?_, fun hregion hm hx1 hx2 => ?_⟩
  · rw [exec_vScroll_eq]
    obtain hempty | hm := hnone
    · rw [if_pos hempty]
    · rw [if_pos (c := n.toInt % (s.scrollRegion.height : Int) = 0) hm, ite_self]
  obtain ⟨hrows, hframe, hstores⟩ := s.rotateRows_frame e m
  refine ⟨s.rotateRows e m, ?_, ?_, fun y => ?_, fun y => ?_, fun hdbl => ?_, hstores, fun hs hdbl => ?_⟩
  · rw [exec_vScroll_eq, if_neg (ne_true_of_eq_false hregion), if_neg hm, if_pos ⟨hx1, hx2⟩]
  · rw [hrows, State.rotatedRows, ← Rows.setTable_eq]
    exact hframe
  · rw [hrows, State.entry_rotatedRows, if_pos rfl, scrolledIndex, apply_ite (s.rows.entry s.drawTbl)]
    rfl
  · rw [hrows, State.entry_rotatedRows, if_neg (by simp)]
  · rw [State.rotateRows_eq, if_pos hdbl]
    exact fun _ => rfl
  · have hchain : ({ s with rows := s.rotatedRows e m } : State).chainOk := hs.chainOk_of_scrollRegion hregion
    rw [State.rotateRows_eq, hdbl]
    exact hchain.targets_retarget false

end Sys2Proof.Machine
end

section
/-!
# The commit of `APPLY` (40_video R218, R219)
-/

namespace Sys2Proof.Machine

/-! ### Runs of bytes -/

theorem inRun_pos {a n x : Nat} (h : inRun a n x) : 0 < n := by
  obtain ⟨k, hk, -⟩ := h
  omega

/-- A run inside the address space is an interval of addresses. -/
theorem inRun_iff_of_le {a n x : Nat} (h : a + n ≤ addrSpace) : inRun a n x ↔ a ≤ x ∧ x < a + n := by
  constructor
  · rintro ⟨k, hk, rfl⟩
    rw [wrapAddr_of_lt (by omega)]
    omega
  · rintro ⟨hle, hlt⟩
    exact ⟨x - a, by omega, by rw [Nat.add_sub_cancel' hle, wrapAddr_of_lt (by omega)]⟩

theorem PoolFree.apart.not_inRun {a n b m x : Nat} (h : PoolFree.apart ⟨a, n⟩ ⟨b, m⟩) (ha : a + n ≤ addrSpace)
    (hb : b + m ≤ addrSpace) (hx : inRun a n x) : ¬ inRun b m x := by
  rw [inRun_iff_of_le hb]
  exact h.not_mem ((inRun_iff_of_le ha).1 hx)

/-- A fold of stores gives a byte the value that one of its elements gives it, when every other gives the same value or leaves
the byte alone. -/
theorem memByte_foldl_of_same {α : Type} {f : Memory → α → Memory} {l : List α} {b : Nat} {v : Byte}
    (hsome : ∃ x ∈ l, ∀ m, memByte (f m x) b = v)
    (hall : ∀ x ∈ l, ∀ m, memByte (f m x) b = v ∨ memByte (f m x) b = memByte m b) (m : Memory) :
    memByte (l.foldl f m) b = v := by
  have hkeep (l : List α) (hall : ∀ x ∈ l, ∀ m, memByte (f m x) b = v ∨ memByte (f m x) b = memByte m b) (m : Memory)
      (hm : memByte m b = v) : memByte (l.foldl f m) b = v :=
    List.foldlRecOn (motive := fun m => memByte m b = v) l f hm fun m hm x hx => (hall x hx m).elim id (·.trans hm)
  obtain ⟨x, hx, hv⟩ := hsome
  obtain ⟨pre, post, rfl⟩ := List.append_of_mem hx
  rw [List.foldl_append, List.foldl_cons]
  exact hkeep post (fun y hy => hall y (by simp [hy])) _ (hv _)

theorem memByte_memStoreBlock_replicate {n : Nat} (hn : n ≤ addrSpace) {a b : Nat} (h : inRun a n (wrapAddr b)) (v : Byte)
    (m : Memory) : memByte (memStoreBlock m a (List.replicate n v)) b = v := by
  obtain ⟨k, hk, hb⟩ := h
  exact memByte_memStoreBlock_of_mem m a _ b k v (by simpa using hn) (by simp [hk]) hb.symm

theorem memByte_memStoreBlock_replicate_of_notMem {n a b : Nat} (h : ¬ inRun a n (wrapAddr b)) (v : Byte) (m : Memory) :
    memByte (memStoreBlock m a (List.replicate n v)) b = memByte m b := by
  refine memByte_memStoreBlock_of_notMem _ _ _ _ fun k hk he => h ⟨k, ?_, he⟩
  rwa [List.length_replicate] at hk

/-! ### The records' `PRIV` bytes (40_video R219, log entry 16) -/

/-- The memory after the `PRIV` byte of record `k` is cleared where it exists. -/
def State.privCleared (s : State) (m : Memory) (k : Nat) : Memory :=
  if s.privOk k then memStore m (s.recordAddr k + 17) 0x00#8 else m

theorem State.foldl_clearPriv (s : State) (l : List Nat) :
    l.foldl State.clearPriv s = s.setMem (l.foldl s.privCleared s.mem) := by
  induction l generalizing s with
  | nil => rfl
  | cons k l ih =>
    have hone : s.clearPriv k = s.setMem (s.privCleared s.mem k) := by
      unfold State.clearPriv State.privCleared
      split <;> rfl
    rw [List.foldl_cons, hone, ih]
    rfl

/-- A `PRIV` byte that a commit clears: of a record of a valid list, and existing. -/
def State.clearedPriv (s : State) (a : Nat) : Prop := ∃ k < s.recordCount, memOk s a = true ∧ s.privByte k a

theorem State.memByte_privCleared_of_clearedPriv {s : State} {a : Nat} (h : s.clearedPriv (wrapAddr a)) (m : Memory) :
    memByte ((List.range s.recordCount).foldl s.privCleared m) a = 0x00#8 := by
  obtain ⟨k, hk, hok, haddr⟩ := h
  unfold State.privByte at haddr
  refine memByte_foldl_of_same ⟨k, List.mem_range.2 hk, fun m => ?_⟩ (fun j _ m => ?_) m
  · rw [State.privCleared, State.privOk, haddr, hok, if_pos rfl, memByte_memStore, if_pos haddr.symm]
  · unfold State.privCleared
    split
    · rw [memByte_memStore]
      split
      · exact .inl rfl
      · exact .inr rfl
    · exact .inr rfl

theorem State.memByte_privCleared_of_not {s : State} {a : Nat} (h : ¬ s.clearedPriv (wrapAddr a)) (m : Memory) :
    memByte ((List.range s.recordCount).foldl s.privCleared m) a = memByte m a := by
  refine memByte_foldl_of_notMem (fun k hk m => ?_) m
  unfold State.privCleared
  split
  next hok =>
    rw [memByte_memStore]
    refine if_neg fun he => h ⟨k, List.mem_range.1 hk, ?_, he.symm⟩
    rw [he]
    exact hok
  · rfl

/-! ### The state after the commit -/

theorem State.commitSprites_eq (s : State) : s.commitSprites = { s with
    mem := (List.range s.recordCount).foldl s.privCleared s.mem
    comp := { s.comp with
      shown := false, phase := .idle, refreshPending := s.comp.refreshPending || s.listValid || s.cursorWanted }
    cursor := { s.cursor with allowDraw := false } } := by
  have hany (u : State) : (if u.anySprite then u.requestRefresh else u) =
      { u with comp := { u.comp with refreshPending := u.comp.refreshPending || u.listValid || u.cursorWanted } } := by
    rw [Bool.or_assoc]
    show (if u.listValid || u.cursorWanted then _ else _) = _
    cases u.listValid || u.cursorWanted with
    | true => rw [Bool.or_true]; rfl
    | false => rw [Bool.or_false]; rfl
  unfold State.commitSprites
  dsimp only
  rw [hany, State.foldl_clearPriv]
  rfl

/-- The memory of a commit before the `PRIV` bytes are cleared: constant buffers, rows, and the chain over them (40_video R218,
R226). -/
def State.committed (s : State) (p : Plan) : State := (s.commitRegs p).setMem (commitMem s.mem s.staged p)

theorem State.commitPlan_eq (s : State) (p : Plan) : s.commitPlan p = { s with
    mem := (List.range s.recordCount).foldl s.privCleared (s.committed p).build.mem
    active := { s.staged with vpSize := natPair p.vpw p.vph }
    alloc := ⟨natPair p.vpcol p.vprow, natWord p.chainBase, natWord (p.group * p.vt), natWord (p.group * p.vt),
      natWord p.group, natWord p.constBase, natWord p.clen, natWord p.stride, true, s.staged.dbl⟩
    rows := ⟨p.rt0.map natWord, p.rt1.map natWord, false⟩
    geom := ⟨false, 0#32, 0#32⟩
    seq := { s.seq with phase := .fetch, pixOut := 0x00#8, dptr := natWord p.chainBase, didx := 0 }
    exe := { s.exe with vsReq := false }
    comp := { s.comp with
      shown := false, phase := .idle, refreshPending := s.comp.refreshPending || s.listValid || s.cursorWanted }
    cursor := { s.cursor with allowDraw := false } } := by
  rw [State.commitPlan, State.commitSprites_eq]
  rfl

namespace State.Planned

variable {s : State} {p : Plan} {ps qs : List PoolFree} (h : s.Planned p ps qs) {a : Nat}
include h

/-! ### What the commit stores -/

theorem length_chainBytes_committed : (s.committed p).chainBytes.length = 12 * (p.group * p.vt) := by
  rw [State.length_chainBytes]
  show 12 * ((s.commitRegs p).pieces.length * (s.commitRegs p).active.vt) = _
  rw [h.length_pieces_commitRegs, h.vt_commitRegs]

theorem toNat_chainBase (hpos : 0 < 12 * (p.group * p.vt)) : (natWord p.chainBase).toNat = p.chainBase := by
  have hfit := h.chain_fits hpos
  unfold addrSpace at hfit
  exact toNat_natWord (by omega)

/-- A byte apart from the chain reads as before `BUILD`. -/
theorem memByte_build_of_not (hchain : ¬ inRun (natWord p.chainBase).toNat (12 * (p.group * p.vt)) (wrapAddr a)) :
    memByte (s.committed p).build.mem a = memByte (commitMem s.mem s.staged p) a := by
  refine memByte_memStoreBlock_of_notMem _ _ _ _ fun k hk he => hchain ⟨k, ?_, he⟩
  rwa [h.length_chainBytes_committed] at hk

theorem not_chain_of_row {r x : Nat} (hr : r ∈ p.rt0 ++ p.rt1) (hx : inRun r p.stride x) :
    ¬ inRun (natWord p.chainBase).toNat (12 * (p.group * p.vt)) x := by
  intro hchain
  have hpos := inRun_pos hchain
  rw [h.toNat_chainBase hpos] at hchain
  exact (h.chain_apart_row hr).not_inRun (h.chain_fits hpos) (h.row_fits hr) hchain hx

theorem not_chain_of_const {x : Nat} (hx : inRun p.constBase (4 * p.clen) x) :
    ¬ inRun (natWord p.chainBase).toNat (12 * (p.group * p.vt)) x := by
  intro hchain
  have hpos := inRun_pos hchain
  rw [h.toNat_chainBase hpos] at hchain
  exact h.chain_apart_const.not_inRun (h.chain_fits hpos) (h.const_fits (inRun_pos hx)) hchain hx

theorem not_row_of_const {r x : Nat} (hr : r ∈ p.rt0 ++ p.rt1) (hx : inRun p.constBase (4 * p.clen) x) :
    ¬ inRun r p.stride x :=
  (h.const_apart_row hr).not_inRun (h.const_fits (inRun_pos hx)) (h.row_fits hr) hx

omit h in
/-- One constant buffer lies in the run of the four. -/
theorem inRun_consts {k x : Nat} (hk : k < 4) (hx : inRun (p.constBase + k * p.clen) p.clen x) :
    inRun p.constBase (4 * p.clen) x := by
  obtain ⟨j, hj, rfl⟩ := hx
  have hle : (k + 1) * p.clen ≤ 4 * p.clen := Nat.mul_le_mul_right _ hk
  rw [Nat.add_one_mul] at hle
  exact ⟨k * p.clen + j, by omega, by rw [Nat.add_assoc]⟩

theorem sizes_le_addrSpace : p.stride ≤ addrSpace ∧ p.clen ≤ addrSpace := by
  have hvpw := h.vpw_lt
  have hclen := h.clen_lt
  have hstride := h.stride_facts
  unfold addrSpace
  omega

/-- The rows are filled with `SI` last, so they read it whatever was there. -/
theorem memByte_commitMem_row {r : Nat} (hr : r ∈ p.rt0 ++ p.rt1) (ha : inRun r p.stride (wrapAddr a)) (m : Memory)
    (t : Timings) : memByte (commitMem m t p) a = t.si := by
  refine memByte_foldl_of_same ⟨r, hr, fun m => ?_⟩ (fun r' hr' m => ?_) _
  · exact memByte_memStoreBlock_replicate h.sizes_le_addrSpace.1 ha _ m
  · by_cases ha' : inRun r' p.stride (wrapAddr a)
    · exact .inl (memByte_memStoreBlock_replicate h.sizes_le_addrSpace.1 ha' _ m)
    · exact .inr (memByte_memStoreBlock_replicate_of_notMem ha' _ m)

omit h in
/-- A byte that is in no row reads as the constant buffers were left. -/
theorem memByte_commitMem_of_not_row (hrow : ∀ r ∈ p.rt0 ++ p.rt1, ¬ inRun r p.stride (wrapAddr a)) (m : Memory)
    (t : Timings) : memByte (commitMem m t p) a = memByte ((List.range 4).foldl
      (fun m k => memStoreBlock m (p.constBase + k * p.clen) (List.replicate p.clen (t.constByte k))) m) a :=
  memByte_foldl_of_notMem (fun r hr m => memByte_memStoreBlock_replicate_of_notMem (hrow r hr) _ m) _

/-- Constant buffer `k` keeps its byte: the other buffers, the rows and the chain are elsewhere. -/
theorem memByte_commitMem_const {k : Nat} (hk : k < 4) (ha : inRun (p.constBase + k * p.clen) p.clen (wrapAddr a)) (m : Memory)
    (t : Timings) : memByte (commitMem m t p) a = t.constByte k := by
  have hall := inRun_consts hk ha
  have hfit := h.const_fits (inRun_pos hall)
  have hin {j : Nat} (hj : j < 4) : p.constBase + j * p.clen + p.clen ≤ addrSpace := by
    have hle : (j + 1) * p.clen ≤ 4 * p.clen := Nat.mul_le_mul_right _ hj
    rw [Nat.add_one_mul] at hle
    omega
  rw [memByte_commitMem_of_not_row fun r hr => h.not_row_of_const hr hall]
  refine memByte_foldl_of_mem (x := k) (List.mem_range.2 hk) (fun _ => True) trivial (fun _ _ _ _ => trivial)
    (fun m _ => memByte_memStoreBlock_replicate h.sizes_le_addrSpace.2 ha _ m) fun j hj hne m =>
      memByte_memStoreBlock_replicate_of_notMem (fun ha' => ?_) _ m
  have hbuf := (inRun_iff_of_le (hin hk)).1 ha
  have hbuf' := (inRun_iff_of_le (hin (List.mem_range.1 hj))).1 ha'
  obtain hlt | hlt := Nat.lt_or_gt_of_ne hne
  · have hle : (j + 1) * p.clen ≤ k * p.clen := Nat.mul_le_mul_right _ hlt
    rw [Nat.add_one_mul] at hle
    omega
  · have hle : (k + 1) * p.clen ≤ j * p.clen := Nat.mul_le_mul_right _ hlt
    rw [Nat.add_one_mul] at hle
    omega

omit h in
theorem memByte_commitMem_of_not (hrow : ∀ r ∈ p.rt0 ++ p.rt1, ¬ inRun r p.stride (wrapAddr a))
    (hconst : ¬ inRun p.constBase (4 * p.clen) (wrapAddr a)) (m : Memory) (t : Timings) :
    memByte (commitMem m t p) a = memByte m a := by
  rw [memByte_commitMem_of_not_row hrow]
  exact memByte_foldl_of_notMem (fun k hk m =>
    memByte_memStoreBlock_replicate_of_notMem (fun ha => hconst (inRun_consts (List.mem_range.1 hk) ha)) _ m) _

/-! ### The memory after the commit -/

omit h in
theorem memByte_commitPlan_of_not_priv (hpriv : ¬ s.clearedPriv (wrapAddr a)) :
    memByte (s.commitPlan p).mem a = memByte (s.committed p).build.mem a := by
  rw [State.commitPlan_eq]
  exact State.memByte_privCleared_of_not hpriv _

omit h in
/-- The committed registers describe the chain that the commit has built. -/
theorem memByte_build_commitPlan (hpriv : ¬ s.clearedPriv (wrapAddr a)) :
    memByte (s.commitPlan p).mem a = memByte (s.commitPlan p).build.mem a := by
  have hbytes : (s.commitPlan p).chainBytes = (s.committed p).chainBytes := by rw [State.commitPlan_eq]; rfl
  have hbase : (s.commitPlan p).alloc.chainBase = (s.committed p).alloc.chainBase := by rw [State.commitPlan_eq]; rfl
  have hbuild : (s.commitPlan p).build.mem =
      memStoreBlock (s.commitPlan p).mem (s.committed p).alloc.chainBase.toNat (s.committed p).chainBytes := by
    rw [← hbytes, ← hbase]
    rfl
  rw [hbuild]
  by_cases hchain : inRun (s.committed p).alloc.chainBase.toNat (s.committed p).chainBytes.length (wrapAddr a)
  · rw [memByte_commitPlan_of_not_priv hpriv]
    exact memByte_memStoreBlock_congr hchain _ _
  · exact (memByte_memStoreBlock_of_notMem _ _ _ _ fun k hk he => hchain ⟨k, hk, he⟩).symm

theorem commitPlan_storesOnly : storesOnly (fun a =>
    inRun (natWord p.chainBase).toNat (12 * (p.group * p.vt)) a ∨ inRun p.constBase (4 * p.clen) a ∨
    (∃ r ∈ p.rt0 ++ p.rt1, inRun r p.stride a) ∨ s.clearedPriv a) s (s.commitPlan p) := by
  intro a ha
  simp only [not_or, not_exists, not_and] at ha
  obtain ⟨hchain, hconst, hrow, hpriv⟩ := ha
  rw [memByte_commitPlan_of_not_priv hpriv, h.memByte_build_of_not hchain, memByte_commitMem_of_not hrow hconst]

end State.Planned

/-- Settles O55: the state after the commit is `State.commitPlan_eq`, and its parts of memory lie apart, so each keeps what the
commit stored there. -/
theorem applyCommits : Obligations.ApplyCommits := by
  intro s p hplan
  obtain ⟨ps, qs, h⟩ := State.exists_planned hplan
  have hactive : (s.commitPlan p).active = { s.staged with vpSize := natPair p.vpw p.vph } := by rw [State.commitPlan_eq]
  refine ⟨s.commitPlan p, exec_apply_ok hplan, ?_⟩
  have hmemory : storesOnly _ s (s.commitPlan p) := h.commitPlan_storesOnly
  refine ⟨hactive, ?_, ?_, ?_, ?_, ?_, ?_, ?_, ?_, ?_, ?_, hmemory, fun a hpriv => ?_,
    fun a hpriv => ⟨fun r hr ha => ?_, fun k hk ha => ?_, State.Planned.memByte_build_commitPlan hpriv⟩⟩
  case refine_10 => rw [State.commitPlan_eq]; exact ⟨rfl, rfl, rfl, rfl, rfl, rfl, rfl, rfl, rfl, rfl⟩
  case refine_11 =>
    rw [State.commitPlan_eq]
    exact State.memByte_privCleared_of_clearedPriv hpriv _
  case refine_12 =>
    rw [State.Planned.memByte_commitPlan_of_not_priv hpriv, h.memByte_build_of_not (h.not_chain_of_row hr ha),
      h.memByte_commitMem_row hr ha, hactive]
    rfl
  case refine_13 =>
    rw [State.Planned.memByte_commitPlan_of_not_priv hpriv,
      h.memByte_build_of_not (h.not_chain_of_const (State.Planned.inRun_consts hk ha)), h.memByte_commitMem_const hk ha, hactive]
    rfl
  all_goals rw [State.commitPlan_eq]

end Sys2Proof.Machine
end

section
/-!
# The job in progress (41_queue R260 to R266)

A job is a list of steps whose last one, and no other, ends it; every step but that one only puts inner steps before the rest.
-/

namespace Sys2Proof.Machine

/-- The form of a job is a matter of EXE's state and work and of HOST's request. -/
theorem jobOk_of_exe {s t : State} (hstate : t.exe.state = s.exe.state) (hwork : t.exe.work = s.exe.work)
    (hheld : t.held = s.held) (hs : s.jobOk) : t.jobOk := by
  unfold State.jobOk
  rw [hstate, hwork, hheld]
  exact hs

/-- EXE at work on a job that ends with its last step is well formed if HOST is held on the job's request. -/
theorem jobOk_of_work {t : State} {ms : List Micro} (hstate : t.exe.state ≠ .idle) (hwork : t.exe.work = ms ++ [.jobEnd])
    (hms : Micro.jobEnd ∉ ms) (hpush : t.exe.state = .sdrain → ∃ e, t.held = .syncPush e)
    (hop : t.exe.state = .hostop → ∃ v, t.held = .hostOp v) : t.jobOk :=
  ⟨.inr ⟨hstate, ms, hwork, hms⟩, hpush, hop⟩

/-- An idle EXE serves no request. -/
theorem jobOk_of_idle {t : State} (hstate : t.exe.state = .idle) (hwork : t.exe.work = []) : t.jobOk :=
  ⟨.inl ⟨hstate, hwork⟩, by rw [hstate]; nofun, by rw [hstate]; nofun⟩

theorem jobEnd_notMem_of_inner {ms : List Micro} (h : ∀ m ∈ ms, m.inner) : Micro.jobEnd ∉ ms := fun hmem => h _ hmem

/-! ### EXE -/

/-- The job that starts is the one that HOST's request, or a vertical sync, asks for (41_queue R261, R264, R266, R272). -/
theorem State.jobOk_startNext {s : State} (hs : s.jobOk) : s.startNext.jobOk := by
  unfold State.startNext
  split
  · have hwork : ∃ u : State, s.startVsync.exe.work = u.drainSteps (some s.qcount) ++ [.jobEnd] := ⟨_, rfl⟩
    obtain ⟨u, hwork⟩ := hwork
    exact jobOk_of_work (by nofun) hwork (jobEnd_notMem_of_inner (inner_drainSteps u _)) nofun nofun
  · split
    next e he =>
      refine jobOk_of_work (ms := (if s.qcount = s.cfg.qdepth then [.drainBegin] else []) ++ [.pushEntry e, .drainBegin])
        nofun ?_ ?_ (fun _ => ⟨e, he⟩) nofun
      · show s.syncPushSteps e = _
        simp [State.syncPushSteps]
      · split <;> simp
    next v hv =>
      refine jobOk_of_work (ms := (if s.comp.shown = true ∧ v = 7#32 then s.hideSteps else []) ++ [.hostOp v])
        nofun ?_ ?_ nofun (fun _ => ⟨v, hv⟩)
      · show s.hostOpSteps v = _
        simp [State.hostOpSteps]
      · unfold State.hideSteps
        split <;> simp
    all_goals exact hs

/-- A step of a job that is not its last leaves a job in progress, whose last step is the same. -/
theorem JobStep.jobOk {m : Micro} {new ms : List Micro} {s t : State} (h : JobStep m new (s.setWork ms) t) (hs : s.jobOk)
    (hw : s.exe.work = m :: ms) (hend : m ≠ .jobEnd) : t.jobOk := by
  have hstate : t.exe.state = s.exe.state := h.state
  have hheld : t.held = s.held := h.held
  have hwork : t.exe.work = new ++ ms := h.work
  obtain ⟨⟨-, hnil⟩ | ⟨hbusy, steps, hsteps, hnot⟩, hpush, hop⟩ := hs
  · rw [hw] at hnil; cases hnil
  cases steps with
  | nil =>
    rw [hw] at hsteps
    exact absurd (List.cons.inj hsteps).1 hend
  | cons m' rest =>
    rw [hw] at hsteps
    obtain ⟨-, rfl⟩ := List.cons.inj hsteps
    refine jobOk_of_work (ms := new ++ rest) (hstate ▸ hbusy) (hwork.trans (List.append_assoc new rest _).symm) ?_ ?_ ?_
    · intro hmem
      rcases List.mem_append.1 hmem with hnew | hrest
      · exact h.inner _ hnew
      · exact hnot (List.mem_cons_of_mem _ hrest)
    · rw [hstate, hheld]; exact hpush
    · rw [hstate, hheld]; exact hop

/-- A step that leaves the executor as it is, as the append of an entry does. -/
theorem JobStep.refl (m : Micro) (s : State) (hm : ¬ m.drainsAll) : JobStep m [] s s where
  cfg := rfl
  qcount := Nat.le_refl _
  held := rfl
  state := rfl
  ctx := id
  work := rfl
  inner := fun _ hmem => nomatch hmem
  drains := fun h => absurd h hm

theorem State.jobOk_exeStep {s t : State} (hs : s.jobOk) (h : s.exeStep = .next t) : t.jobOk := by
  obtain ⟨-, rfl⟩ | ⟨m, ms, hw, hm⟩ := State.exeStep_cases h
  · exact State.jobOk_startNext hs
  by_cases hend : m = .jobEnd
  · subst hend
    obtain rfl := State.rest_of_jobEnd hs hw
    injection hm with hm
    rw [← hm, State.endJob_eq]
    exact jobOk_of_idle rfl rfl
  by_cases hpush : ∃ e, m = .pushEntry e
  · obtain ⟨e, rfl⟩ := hpush
    injection hm with hm
    exact hm ▸ jobOk_of_exe (s := s.setWork ms) rfl rfl rfl ((JobStep.refl (.pushEntry e) _ id).jobOk hs hw hend)
  obtain ⟨new, hstep⟩ := State.microStep_jobStep (fun e he => hpush ⟨e, he⟩) hend hm
  exact hstep.jobOk hs hw hend

/-! ### The other agents -/

/-- HOST has no step of its own while EXE serves its request (41_queue R263). -/
theorem State.jobOk_hostStep {s : State} (hs : s.jobOk) (hen : s.hostEnabled = true) : s.hostStep.jobOk := by
  have hexe : s.hostStep.exe = s.exe := (congrArg State.exe s.unhosted_hostStep :)
  obtain ⟨hform, hpush, hop⟩ := hs
  refine ⟨hexe ▸ hform, fun hstate => ?_, fun hstate => ?_⟩
  · obtain ⟨e, he⟩ := hpush (hexe ▸ hstate)
    rw [State.hostEnabled_of_held he nofun] at hen
    cases hen
  · obtain ⟨v, hv⟩ := hop (hexe ▸ hstate)
    rw [State.hostEnabled_of_held hv nofun] at hen
    cases hen

theorem State.jobOk_outsideStep {s : State} (hs : s.jobOk) : s.outsideStep.jobOk := by
  obtain heq | ⟨is, -, heq⟩ | ⟨is, -, heq⟩ | ⟨rs, heq⟩ := s.outsideStep_cases <;> rw [heq]
  · exact hs
  · exact jobOk_of_idle rfl rfl
  · exact jobOk_of_idle rfl rfl
  · exact jobOk_of_exe (s := s) rfl rfl rfl hs

/-- Settles O22: an inductive invariant; a step of a job keeps the job's last step last, and HOST, which is held while EXE serves
its request, cannot let go of it. -/
theorem stepKeepsJobs : Obligations.StepKeepsJobs := by
  intro s t hs h
  obtain rfl | ⟨a, e, -, hen, ha⟩ := step_cases h
  · exact hs
  cases a with
  | host => injection ha with ha; exact ha ▸ State.jobOk_hostStep (s := { s with env := e }) hs hen
  | seq =>
    injection ha with ha
    have hx := State.unsequenced_seqStep { s with env := e }
    exact ha ▸ jobOk_of_exe (s := { s with env := e }) (congrArg (fun u => u.exe.state) hx :)
      (congrArg (fun u => u.exe.work) hx :) (congrArg State.held hx :) hs
  | exe => exact State.jobOk_exeStep (s := { s with env := e }) hs ha
  | outside => injection ha with ha; exact ha ▸ State.jobOk_outsideStep (s := { s with env := e }) hs

end Sys2Proof.Machine
end

section
/-!
# The words of a command at the assembly port (41_queue R265, R266)
-/

namespace Sys2Proof.Machine

/-- An entry with the words `ws` put at its places from `k` on. -/
def fillEntry (e : Entry) (k : BitVec 2) : List Word → Entry
  | [] => e
  | w :: ws => fillEntry (setEntryWord e k w) (k + 1#2) ws

/-- A header and up to three arguments fill an entry, its other words 0 (10_state R63). -/
theorem fillEntry_header (h : Word) {args : List Word} (hlen : args.length ≤ 3) :
    fillEntry ⟨h, 0#32, 0#32, 0#32⟩ 1#2 args = ⟨h, args.getD 0 0#32, args.getD 1 0#32, args.getD 2 0#32⟩ := by
  match args, hlen with
  | [], _ | [_], _ | [_, _], _ | [_, _, _], _ => rfl

/-- The arguments that a command still needs complete it: its entry is pushed and no partial command is left. -/
theorem State.foldl_cmdData_arguments {args : List Word} (hargs : args ≠ []) {s : State}
    (hcount : s.queue.partialCount ≠ 0#2)
    (hlen : s.queue.partialCount.toNat + args.length = s.queue.partialLen.toNat + 1) :
    args.foldl State.cmdData s =
      (s.setQueue { s.queue with
        cb := fillEntry s.queue.cb s.queue.partialCount args, partialCount := 0#2, partialLen := 0#2 }).push
        (fillEntry s.queue.cb s.queue.partialCount args) := by
  induction args generalizing s with
  | nil => exact absurd rfl hargs
  | cons w ws ih =>
    rw [List.length_cons] at hlen
    have hnextCb : s.queue.nextCb w = setEntryWord s.queue.cb s.queue.partialCount w := if_neg hcount
    have hnextLen : s.queue.nextLen w = s.queue.partialLen := if_neg hcount
    rw [List.foldl_cons, State.cmdData_eq, hnextCb, hnextLen]
    cases ws with
    | nil =>
      have hlast : s.queue.partialCount = s.queue.partialLen := by
        simp only [List.length_nil] at hlen
        bv_omega
      rw [if_pos hlast]
      rfl
    | cons w' ws =>
      simp only [List.length_cons] at hlen
      have hmore : s.queue.partialCount ≠ s.queue.partialLen := by bv_omega
      have hnext : (s.queue.partialCount + 1#2).toNat = s.queue.partialCount.toNat + 1 := by
        have := s.queue.partialLen.isLt
        bv_omega
      rw [if_neg hmore]
      refine (ih (List.cons_ne_nil w' ws) ?_ ?_).trans rfl
      · show s.queue.partialCount + 1#2 ≠ 0#2
        bv_omega
      · show (s.queue.partialCount + 1#2).toNat + (w' :: ws).length = s.queue.partialLen.toNat + 1
        rw [hnext, List.length_cons]
        omega

/-- A header and its `LEN` arguments, after no partial command, push the entry of those words. -/
theorem State.foldl_cmdData_command {s : State} (hs : s.queue.partialCount = 0#2) {h : Word} {args : List Word}
    (hlen : args.length = (hdrLen h).toNat) :
    ∃ e, e = (⟨h, args.getD 0 0#32, args.getD 1 0#32, args.getD 2 0#32⟩ : Entry) ∧ (h :: args).foldl State.cmdData s =
      (s.setQueue { s.queue with cb := e, partialCount := 0#2, partialLen := 0#2 }).push e := by
  have hle : args.length ≤ 3 := by have := (hdrLen h).isLt; omega
  refine ⟨_, rfl, ?_⟩
  have hnextCb : s.queue.nextCb h = ⟨h, 0#32, 0#32, 0#32⟩ := if_pos hs
  have hnextLen : s.queue.nextLen h = hdrLen h := if_pos hs
  rw [List.foldl_cons, State.cmdData_eq, hnextCb, hnextLen, hs, ← fillEntry_header h hle]
  cases args with
  | nil =>
    have hzero : 0#2 = hdrLen h := BitVec.eq_of_toNat_eq hlen
    rw [if_pos hzero]
    rfl
  | cons w ws =>
    rw [List.length_cons] at hlen
    have hmore : 0#2 ≠ hdrLen h := by bv_omega
    rw [if_neg hmore]
    refine (State.foldl_cmdData_arguments (List.cons_ne_nil w ws) ?_ ?_).trans rfl
    · show 0#2 + 1#2 ≠ 0#2
      decide
    · show (0#2 + 1#2).toNat + (w :: ws).length = (hdrLen h).toNat + 1
      rw [List.length_cons, hlen]
      exact Nat.add_comm 1 _

/-- Settles O5: a command's words are the header and the arguments of an entry it is built from, and a queued push with room
appends that entry. -/
theorem submittedCommandIsQueued : Obligations.SubmittedCommandIsQueued := by
  intro s i hwf hport hpartial hsync hroom
  obtain ⟨op, imm, args, henc, hlen, himm, hbuild⟩ := exists_header_of_wellFormed hport hwf
  obtain ⟨e, he, hfold⟩ := s.foldl_cmdData_command hpartial (h := op.header imm) (args := args) (by rw [hlen, hdrLen_header])
  refine ⟨e, e, he ▸ (decodeEntry_header op imm _ _ _ himm).trans (congrArg _ hbuild), ?_⟩
  have hqueued : ¬ (s.queue.suspend = 0#8 ∧ s.sys.bgexec = false) := fun h => by
    rw [s.pushSync_iff.2 h] at hsync; cases hsync
  rw [henc, hfold]
  exact State.push_of_room (s := s.setQueue { s.queue with cb := e, partialCount := 0#2, partialLen := 0#2 })
    hqueued hroom e

end Sys2Proof.Machine
end

section
/-!
# The steps of EXE (41_queue R260 to R278)

What one step of EXE is, what a round of a drain does, and how jobs and drains begin and end.
-/

namespace Sys2Proof.Machine

/-! ### One instruction -/

theorem State.executeEntry_of_decodeEntry_ok {s : State} {e : Entry} {i : Instr} (h : decodeEntry e = .ok i) :
    s.executeEntry e = exec i (s.setExe { s.exe with ok := true }) := by
  rw [State.executeEntry, h]

theorem State.hostOpStep_of_decodeHostOp_ok {s : State} {v : Word} {i : Instr} (h : decodeHostOp v = .ok i) :
    s.hostOpStep v = exec i s := by
  rw [State.hostOpStep, h]

/-- Settles O6: the scheduled step is the job's, and the job's step runs what the entry or the code decodes to. -/
theorem stepRunsInstruction : Obligations.StepRunsInstruction := by
  constructor
  · intro s as d ms e es i hsched hwork hleft hqueue hdec
    rw [step_of_sched_exe hsched hwork, State.microStep, State.drainStep_entry (s := (s.setSched as).setWork ms) hqueue hleft,
      State.executeEntry_of_decodeEntry_ok hdec]
    rfl
  · intro s as ms v i hsched hwork hdec
    rw [step_of_sched_exe hsched hwork, State.microStep, State.hostOpStep_of_decodeHostOp_ok hdec]

/-- Every instruction has a next state. -/
theorem exec_total (i : Instr) (s : State) : ∃ t, exec i s = .next t := by
  cases i <;> exact ⟨_, rfl⟩

theorem State.executeEntry_total (s : State) (e : Entry) : ∃ t, s.executeEntry e = .next t := by
  cases hdec : decodeEntry e with
  | error r => exact ⟨_, State.executeEntry_of_decodeEntry_error hdec⟩
  | ok i =>
    rw [State.executeEntry_of_decodeEntry_ok hdec]
    exact exec_total i _

/-- Two states with the same part that no command changes differ only in what a command may change. -/
theorem eq_of_uncommanded {s t : State} (h : t.uncommanded = s.uncommanded) : t = { s with
    mem := t.mem
    paint := t.paint
    rows := t.rows
    comp := t.comp
    cursor := { s.cursor with saved0 := t.cursor.saved0, saved1 := t.cursor.saved1, allowDraw := t.cursor.allowDraw }
    sys := { s.sys with err := t.sys.err, errAddr := t.sys.errAddr, irqStatus := t.sys.irqStatus }
    exe := { s.exe with ok := t.exe.ok } } := by
  obtain ⟨cfg, mem, ⟨⟩, staged, pools, active, alloc, geom, paint, sprStaged, sprActive, ⟨⟩, comp, queue, ⟨⟩, held, rows, seq,
    env⟩ := s
  obtain ⟨cfg', mem', ⟨⟩, staged', pools', active', alloc', geom', paint', sprStaged', sprActive', ⟨⟩, comp', queue', ⟨⟩, held',
    rows', seq', env'⟩ := t
  simp only [State.uncommanded, State.fixed, State.mk.injEq, SysRegs.mk.injEq, Cursor.mk.injEq, Exe.mk.injEq, and_true,
    true_and] at h ⊢
  exact h

/-- Settles O9: every entry has a next state, in which the part that no command changes is as before. -/
theorem commandsLeaveTheRestAlone : Obligations.CommandsLeaveTheRestAlone := by
  intro s e
  obtain ⟨t, ht⟩ := s.executeEntry_total e
  exact ⟨t, ht, eq_of_uncommanded (State.executeEntry_uncommanded ht)⟩

/-! ### Rounds of a drain -/

theorem State.exeStep_of_work {s : State} {m : Micro} {ms : List Micro} (hw : s.exe.work = m :: ms) :
    s.exeStep = (s.setWork ms).microStep m := by
  rw [State.exeStep, hw]

theorem State.exeRun_of_exeStep {s t : State} (h : s.exeStep = .next t) (n : Nat) :
    State.exeRun (n + 1) s = State.exeRun n t := by
  rw [State.exeRun, h]

/-- What a round of a drain does to the queue and to the job `.drainLoop d :: ms`: the head entry is popped, and the drain goes on
or, after an error in the vsync service, is given up with a refresh requested if it hid the sprites (41_queue R269, R273). -/
structure DrainRound (d : Drain) (ms : List Micro) (s t : State) : Prop where
  queue : t.queue = { s.queue with entries := s.queue.entries.tail }
  held : t.held = s.held
  state : t.exe.state = s.exe.state
  ctx : t.exe.ctx = s.exe.ctx
  work : t.exe.work = t.nextSteps d ++ ms
  refresh : t.exe.ok = false → t.exe.ctx = .vsync → d.hid = true → t.comp.refreshPending = true

theorem DrainRound.of_executeEntry {s u : State} {d : Drain} {ms : List Micro} {e : Entry}
    (hu : (s.setWork ms).executeEntry e = .next u) : DrainRound d ms s (u.drainNext d) := by
  have hx := State.executeEntry_uncommanded hu
  have hn := u.drainNext_eq d
  have hqueue : u.queue = s.queue := (congrArg State.queue hx :)
  have hwork : u.exe.work = ms := (congrArg (fun v => v.exe.work) hx :)
  have hexe : (u.drainNext d).exe = { u.exe with work := u.nextSteps d ++ u.exe.work } := (congrArg State.exe hn :)
  exact {
    queue := by rw [← hqueue]; exact (congrArg State.queue hn :)
    held := (congrArg State.held hn :).trans (congrArg State.held hx :)
    state := (congrArg Exe.state hexe :).trans (congrArg (fun v => v.exe.state) hx :)
    ctx := (congrArg Exe.ctx hexe :).trans (congrArg (fun v => v.exe.ctx) hx :)
    work := by unfold State.nextSteps; rw [hexe, hwork]; rfl
    refresh := fun hok hctx hhid => by
      rw [hexe] at hok hctx
      rw [State.comp_drainNext]
      simp [show u.exe.ok = false from hok, show u.exe.ctx = .vsync from hctx, hhid] }

theorem State.exists_drainRound {s : State} {d : Drain} {ms : List Micro} {e : Entry} {es : List Entry}
    (hw : s.exe.work = .drainLoop d :: ms) (hd : d.left ≠ some 0) (he : s.queue.entries = e :: es) :
    ∃ t, s.exeStep = .next t ∧ DrainRound d ms s t := by
  obtain ⟨u, hu⟩ := (s.setWork ms).executeEntry_total e
  refine ⟨u.drainNext d, ?_, .of_executeEntry hu⟩
  rw [State.exeStep_of_work hw, State.microStep, State.drainStep_entry (s := s.setWork ms) he hd, hu]
  rfl

/-- Where no vsync service fails, a drain goes on after an entry. -/
theorem DrainRound.work_of_go_on {d : Drain} {ms : List Micro} {s t : State} (h : DrainRound d ms s t)
    (hgo : ¬ (t.exe.ok = false ∧ t.exe.ctx = .vsync)) :
    t.exe.work = .drainLoop ⟨d.left.map (fun n => n - 1), true, d.hid⟩ :: ms := by
  have hsteps : t.nextSteps d = [.drainLoop ⟨d.left.map (fun n => n - 1), true, d.hid⟩] := if_neg hgo
  rw [h.work, hsteps]
  rfl

/-- The vsync service gives up after an error (41_queue R273). -/
theorem DrainRound.work_of_failure {d : Drain} {ms : List Micro} {s t : State} (h : DrainRound d ms s t)
    (hfail : t.exe.ok = false ∧ t.exe.ctx = .vsync) : t.exe.work = .drainEnd true :: ms := by
  have hsteps : t.nextSteps d = [.drainEnd true] := if_pos hfail
  rw [h.work, hsteps]
  rfl

/-- Settles O13, by induction on the queue: each round pops one entry, and only the vsync service gives up. -/
theorem syncDrainEmptiesQueue : Obligations.SyncDrainEmptiesQueue := by
  intro s ms ran hid hw hctx
  unfold State.qcount
  induction hq : s.queue.entries generalizing s ran with
  | nil => exact ⟨s, rfl, by rw [← hq], by simpa using hw, rfl, rfl, rfl⟩
  | cons e es ih =>
    obtain ⟨u, hstep, hround⟩ := State.exists_drainRound hw nofun hq
    have huctx : u.exe.ctx ≠ .vsync := hround.ctx ▸ hctx
    have huq : u.queue.entries = es := by rw [hround.queue, hq]; rfl
    obtain ⟨t, hrun, hqueue, hwork, hstate, hctx', hheld⟩ := ih u true (hround.work_of_go_on fun h => huctx h.2) huctx huq
    refine ⟨t, ?_, ?_, ?_, hstate.trans hround.state, hctx'.trans hround.ctx, hheld.trans hround.held⟩
    · rw [List.length_cons, State.exeRun_of_exeStep hstep]
      exact hrun
    · rw [hqueue, hround.queue]
    · simpa using hwork

/-- The vsync service executes at most the entries that its limit counts, and gives up after an error (41_queue R272, R273). -/
theorem State.exeRun_service {n : Nat} {s : State} {ran hid : Bool} {ms : List Micro}
    (hw : s.exe.work = .drainLoop ⟨some n, ran, hid⟩ :: ms) (hctx : s.exe.ctx = .vsync) (hn : n ≤ s.qcount) :
    ∃ j t, j ≤ n ∧ State.exeRun j s = .next t ∧ t.queue = { s.queue with entries := s.queue.entries.drop j } ∧
      ((j = n ∧ t.exe.work = .drainLoop ⟨some 0, ran || decide (0 < n), hid⟩ :: ms) ∨
        (0 < j ∧ t.exe.ok = false ∧ t.exe.work = .drainEnd true :: ms ∧ (hid = true → t.comp.refreshPending = true))) := by
  induction n generalizing s ran with
  | zero => exact ⟨0, s, Nat.le_refl _, rfl, rfl, .inl ⟨rfl, by simpa using hw⟩⟩
  | succ n ih =>
    unfold State.qcount at hn
    obtain ⟨e, es, hq⟩ : ∃ e es, s.queue.entries = e :: es :=
      List.exists_cons_of_length_pos ((Nat.succ_pos n).trans_le hn)
    obtain ⟨u, hstep, hround⟩ := State.exists_drainRound hw nofun hq
    have huctx : u.exe.ctx = .vsync := hround.ctx.trans hctx
    by_cases hok : u.exe.ok = false
    · refine ⟨1, u, Nat.succ_le_succ n.zero_le, State.exeRun_of_exeStep hstep 0, ?_, .inr ⟨Nat.one_pos, hok, ?_, ?_⟩⟩
      · rw [hround.queue, List.drop_one]
      · exact hround.work_of_failure ⟨hok, huctx⟩
      · exact hround.refresh hok huctx
    · have hcount : n ≤ u.qcount := by
        rw [State.qcount, hround.queue, List.length_tail]
        omega
      obtain ⟨j, t, hj, hrun, hqueue, hend⟩ := ih (hround.work_of_go_on fun h => hok h.1) huctx hcount
      refine ⟨j + 1, t, Nat.succ_le_succ hj, (State.exeRun_of_exeStep hstep j).trans hrun, ?_, ?_⟩
      · rw [hqueue, hround.queue, List.drop_tail]
      · refine hend.imp (fun h => ⟨congrArg _ h.1, ?_⟩) (fun h => ⟨Nat.succ_pos j, h.2⟩)
        simpa using h.2

/-! ### How drains and jobs begin and end -/

/-- A drain of every entry present hides the sprites first by the condition of R269. -/
theorem State.drainHidesFirst_drainHides (s : State) {limit : Option Nat} (h : limit = none ∨ limit = some s.qcount) :
    s.drainHidesFirst (s.drainHides limit) := by
  have hempty : s.qcount = 0 ↔ s.queue.entries = [] := List.length_eq_zero_iff
  obtain rfl | rfl := h <;> simp [State.drainHidesFirst, State.drainHides, Nat.pos_iff_ne_zero, hempty]

/-- A synchronous drain to empty begins with its hide pass, if it has one, and its loop (41_queue R269, R271). -/
theorem State.exists_beginDrain_sync (s : State) : ∃ hid, s.drainHidesFirst hid ∧
    s.beginDrain .sync none = { s with exe := { s.exe with
      ctx := .sync
      work := (if hid then s.hideSteps else []) ++ .drainLoop ⟨none, false, hid⟩ :: s.exe.work } } := by
  refine ⟨s.drainHides none, s.drainHidesFirst_drainHides (.inl rfl), ?_⟩
  simp [State.beginDrain, State.pushWork]

/-- EXE leaves idle exactly for the vsync service, a synchronous push or a host operation (41_queue R261). -/
theorem State.exeEnabled_idle {s : State} (hstate : s.exe.state = .idle) (hwork : s.exe.work = []) :
    s.exeEnabled = true ↔ s.exe.vsReq = true ∨ (∃ e, s.held = .syncPush e) ∨ ∃ v, s.held = .hostOp v := by
  unfold State.exeEnabled
  rw [hwork]
  cases hheld : s.held <;> simp [hstate, Held.needsExe]

/-- The vsync service drains the entries present at its start (41_queue R272). -/
theorem State.exists_startVsync (s : State) : ∃ hid, s.drainHidesFirst hid ∧ s.startVsync = { s with exe := { s.exe with
    state := .vservice, vsReq := false, ctx := .vsync, ok := true
    work := (if hid then s.hideSteps else []) ++ [.drainLoop ⟨some s.qcount, false, hid⟩, .jobEnd] } } := by
  refine ⟨s.drainHides (some s.qcount), s.drainHidesFirst_drainHides (.inr rfl), ?_⟩
  have hwork : s.startVsync = { s with exe := { s.exe with
      state := .vservice, vsReq := false, ctx := .vsync, ok := true
      work := ((if s.drainHides (some s.qcount) then s.hideSteps else []) ++
        [.drainLoop ⟨some s.qcount, false, s.drainHides (some s.qcount)⟩]) ++ [.jobEnd] } } := rfl
  rw [hwork, List.append_assoc]
  rfl

theorem State.startNext_of_vsReq {s : State} (h : s.exe.vsReq = true) : s.startNext = s.startVsync := if_pos h

theorem State.startNext_of_syncPush {s : State} {e : Entry} (h : s.exe.vsReq = false) (he : s.held = .syncPush e) :
    s.startNext = s.startJob .sdrain .sync (s.syncPushSteps e) := by
  rw [State.startNext, h, he]
  rfl

theorem State.startNext_of_hostOp {s : State} {v : Word} (h : s.exe.vsReq = false) (hv : s.held = .hostOp v) :
    s.startNext = s.startJob .hostop .host (s.hostOpSteps v) := by
  rw [State.startNext, h, hv]
  rfl

/-- The end of a drain sets `DRAINED` exactly when it executed an entry and left the queue empty (41_queue R270). -/
theorem State.drainFinish_eq (s : State) (ran : Bool) : s.drainFinish ran = { s with sys := { s.sys with
    irqStatus := if ran = true ∧ s.queue.entries = [] then s.sys.irqStatus ||| 4#4 else s.sys.irqStatus } } := by
  have hempty : s.qcount = 0 ↔ s.queue.entries = [] := List.length_eq_zero_iff
  by_cases h : ran = true ∧ s.queue.entries = []
  · rw [State.drainFinish, if_pos (by simp [h.1, hempty.2 h.2]), if_pos h]
    rfl
  · rw [State.drainFinish, if_neg (by simpa [hempty] using h), if_neg h]

/-- Settles O29: the start of each job, the steps that begin, append and end, the rounds of a service, and the tail and the end of
a drain. -/
theorem jobPriority : Obligations.JobPriority := by
  refine ⟨fun s hstate hwork => ⟨State.exeEnabled_idle hstate hwork, fun h => ?_, fun e h he => ?_, fun v h hv => ?_⟩,
    fun s => ?_, fun s e => rfl, fun s => ?_, fun s n ran hid ms hw hctx hn => State.exeRun_service hw hctx hn,
    fun s d hd => ?_, fun s ran => congrArg Host.Outcome.next (s.drainFinish_eq ran)⟩
  · rw [State.startNext_of_vsReq h]
    exact s.exists_startVsync
  · rw [State.startNext_of_syncPush h he]
    rfl
  · rw [State.startNext_of_hostOp h hv]
    rfl
  · obtain ⟨hid, hfirst, hbegin⟩ := s.exists_beginDrain_sync
    exact ⟨hid, hfirst, congrArg Host.Outcome.next hbegin⟩
  · exact congrArg Host.Outcome.next s.endJob_eq
  · rw [State.microStep, State.drainStep_tail hd, State.drainTail_eq]
    simp [State.pushWork]

/-! ### The queue operations (41_queue R275 to R278) -/

/-- Settles O59: the counter's ends are the operations' first check, and the final `RESUME` begins a drain. -/
theorem suspendResume : Obligations.SuspendResume := by
  intro s
  refine ⟨fun h => ⟨_, congrArg Host.Outcome.next (if_neg h), ?_, rfl, fun _ => rfl⟩,
    fun h => congrArg Host.Outcome.next (if_pos h), fun h => ?_, fun h => congrArg Host.Outcome.next (if_pos h)⟩
  · show (s.queue.suspend + 1#8).toNat = s.queue.suspend.toNat + 1
    bv_omega
  · have hdown : (s.queue.suspend - 1#8).toNat + 1 = s.queue.suspend.toNat := by bv_omega
    have hlast : s.queue.suspend - 1#8 = 0#8 ↔ s.queue.suspend = 1#8 := by bv_omega
    have hcount : 0 < s.qcount ↔ s.queue.entries ≠ [] := List.length_pos_iff
    let u := s.setSuspend (s.queue.suspend - 1#8)
    have hexec : exec .hostopResume s = .next (
        if s.queue.suspend - 1#8 = 0#8 ∧ 0 < s.qcount then u.beginDrain .sync none else u) :=
      congrArg Host.Outcome.next (if_neg h)
    by_cases hdrain : s.queue.suspend = 1#8 ∧ s.queue.entries ≠ []
    · rw [if_pos ⟨hlast.2 hdrain.1, hcount.2 hdrain.2⟩] at hexec
      obtain ⟨hid, hfirst, hbegin⟩ := u.exists_beginDrain_sync
      exact ⟨_, hexec, hdown, rfl, fun _ => rfl, fun hn => absurd hdrain hn,
        fun _ _ => ⟨hid, hfirst, congrArg State.exe hbegin⟩⟩
    · rw [if_neg fun hn => hdrain ⟨hlast.1 hn.1, hcount.1 hn.2⟩] at hexec
      exact ⟨u, hexec, hdown, rfl, fun _ => rfl, fun _ => rfl, fun h1 h2 => absurd ⟨h1, h2⟩ hdrain⟩

/-- Settles O60: `DRAIN` begins a drain, and `CMDABORT` empties the assembly buffer's count. -/
theorem drainAndAbort : Obligations.DrainAndAbort := by
  intro s
  obtain ⟨hid, hfirst, hbegin⟩ := s.exists_beginDrain_sync
  exact ⟨⟨_, rfl, rfl, fun _ => rfl, hid, hfirst, congrArg State.exe hbegin⟩, _, rfl, rfl, fun _ => rfl⟩

end Sys2Proof.Machine
end

section
/-!
# The steps of a compositing pass (41_queue R262, 45_sprites R431 to R433)
-/

namespace Sys2Proof.Machine

/-! ### Running EXE -/

theorem State.exeRun_append {m : Nat} {s t : State} (h : State.exeRun m s = .next t) (n : Nat) :
    State.exeRun (m + n) s = State.exeRun n t := by
  induction m generalizing s with
  | zero => injection h with h; rw [Nat.zero_add, h]
  | succ m ih =>
    rw [Nat.succ_add]
    cases hstep : s.exeStep with
    | next u =>
      rw [State.exeRun_of_exeStep hstep] at h ⊢
      exact ih h
    | fault r | refused r =>
      rw [State.exeRun, hstep] at h
      cases h

/-- A step put before the rest of a job, and taken from it again. -/
theorem State.setWork_pushWork {s : State} {ms : List Micro} (h : s.exe.work = ms) (m : Micro) :
    (s.pushWork [m]).setWork ms = s := by
  subst h
  rfl

/-! ### The job has no part in a hide pass -/

theorem State.restoreArea_setWork (s : State) (ms : List Micro) (sx sy : Int) (sw sh sb : Nat) :
    (s.setWork ms).restoreArea sx sy sw sh sb = (s.restoreArea sx sy sw sh sb).setWork ms := by
  have hbad : lowestBad (s.setWork ms) (byteRange sb (sw * sh)) = lowestBad s (byteRange sb (sw * sh)) := rfl
  unfold State.restoreArea
  rw [hbad]
  split <;> rfl

theorem State.hideCursor_setWork (s : State) (ms : List Micro) : (s.setWork ms).hideCursor = s.hideCursor.setWork ms := by
  unfold State.hideCursor
  rw [State.setWork_cursor, State.restoreArea_setWork]
  split <;> rfl

theorem State.dropAllowDraw_setWork (s : State) (ms : List Micro) (k : Nat) :
    (s.setWork ms).dropAllowDraw k = (s.dropAllowDraw k).setWork ms := by
  have hpriv : (s.setWork ms).recordPriv k = s.recordPriv k := rfl
  have hok : (s.setWork ms).privOk k = s.privOk k := rfl
  unfold State.dropAllowDraw
  rw [hpriv, hok]
  split <;> rfl

theorem State.hideRecord_setWork (s : State) (ms : List Micro) (k : Nat) :
    (s.setWork ms).hideRecord k = (s.hideRecord k).setWork ms := by
  have hbad : (s.setWork ms).recordBad k = s.recordBad k := rfl
  have hpriv : (s.setWork ms).recordPriv k = s.recordPriv k := rfl
  have haddr : (s.setWork ms).recordAddr k = s.recordAddr k := rfl
  unfold State.hideRecord
  rw [hbad, hpriv, haddr, State.setWork_mem]
  split
  next fa _ => exact State.dropAllowDraw_setWork (s.raisePass fa) ms k
  · dsimp only
    rw [State.restoreArea_setWork]
    generalize s.restoreArea _ _ _ _ _ = t
    split <;> rfl

theorem State.hidePass_setWork (s : State) (ms : List Micro) : (s.setWork ms).hidePass = s.hidePass.setWork ms := by
  have hfold (l : List Nat) (u : State) :
      l.foldl State.hideRecord (u.setWork ms) = (l.foldl State.hideRecord u).setWork ms := by
    induction l generalizing u with
    | nil => rfl
    | cons k l ih => rw [List.foldl_cons, State.hideRecord_setWork, ih]; rfl
  have hcount : (s.setWork ms).recordCount = s.recordCount := rfl
  rw [State.hidePass, State.hideCursor_setWork, hcount, hfold]
  rfl

/-! ### The steps of a hide pass -/

theorem State.exeRun_hideRecords {k : Nat} {s : State} {ms : List Micro} (hw : s.exe.work = .hideRecords k :: ms) :
    State.exeRun (k + 1) s = .next ((List.range k).reverse.foldl State.hideRecord (s.setWork ms)).hideEnd := by
  induction k generalizing s with
  | zero => exact State.exeRun_of_exeStep (State.exeStep_of_work hw) 0
  | succ k ih =>
    have hrest : ((s.setWork ms).hideRecord k).exe.work = ms := congrArg Exe.work (exe_of_fixed (fixed_hideRecord _ k))
    rw [State.exeRun_of_exeStep (State.exeStep_of_work hw), ih (congrArg (.hideRecords k :: ·) hrest),
      State.setWork_pushWork hrest, List.range_succ, List.reverse_append]
    rfl

theorem State.exeRun_hideSteps {s : State} {ms : List Micro} (hw : s.exe.work = s.hideSteps ++ ms) :
    State.exeRun (s.recordCount + 2) s = .next (s.setWork ms).hidePass := by
  have hstep : s.exeStep = .next (s.hideCursor.setWork (.hideRecords s.recordCount :: ms)) :=
    (State.exeStep_of_work hw).trans (congrArg Host.Outcome.next (s.hideCursor_setWork _))
  rw [State.exeRun_of_exeStep hstep, State.exeRun_hideRecords rfl, State.hidePass, State.hideCursor_setWork]
  rfl

/-! ### The steps of a show pass -/

theorem State.recordCount_pushWork (s : State) (ms : List Micro) : (s.pushWork ms).recordCount = s.recordCount := rfl

/-- The records from `k` on, the cursor, and the end of a show pass. -/
theorem State.exeRun_showRecords {n k : Nat} {seen : Bool} {s : State} {ms : List Micro}
    (hw : s.exe.work = .showRecords k seen :: ms) (hn : k + n = s.recordCount) :
    State.exeRun (n + 2) s = .next (
      let p := (List.range' k n).foldl showStep (s.setWork ms, seen)
      p.1.showFinish p.2) := by
  have hcount : (s.setWork ms).recordCount = s.recordCount := rfl
  induction n generalizing s k seen with
  | zero =>
    have hstep : s.exeStep = .next ((s.setWork ms).pushWork [.showCursor seen]) := by
      rw [State.exeStep_of_work hw, State.microStep, State.showRecordsStep, hcount, if_neg (by omega)]
    have hcursor : ((s.setWork ms).pushWork [.showCursor seen]).exeStep = .next ((s.setWork ms).showFinish seen) :=
      State.exeStep_of_work (m := .showCursor seen) (ms := ms) rfl
    rw [State.exeRun_of_exeStep hstep, State.exeRun_of_exeStep hcursor]
    rfl
  | succ n ih =>
    have hstep : s.exeStep = .next ((showStep (s.setWork ms, seen) k).1.pushWork
        [.showRecords (k + 1) (showStep (s.setWork ms, seen) k).2]) := by
      rw [State.exeStep_of_work hw, State.microStep, State.showRecordsStep, hcount, if_pos (by omega)]
    generalize hp : showStep (s.setWork ms, seen) k = p at hstep
    have hfixed : p.1.fixed = (s.setWork ms).fixed := hp ▸ fixed_showRecord _ k
    have hrest : p.1.exe.work = ms := congrArg Exe.work (exe_of_fixed hfixed)
    have hsame : p.1.recordCount = (s.setWork ms).recordCount := recordCount_of_fixed hfixed
    have hwork : (p.1.pushWork [.showRecords (k + 1) p.2]).exe.work = .showRecords (k + 1) p.2 :: ms := by rw [← hrest]; rfl
    rw [State.exeRun_of_exeStep hstep, ih hwork (by rw [State.recordCount_pushWork]; omega) rfl, State.setWork_pushWork hrest,
      List.range'_succ, List.foldl_cons, hp]

theorem State.exeRun_showBegin {s : State} {ms : List Micro} (hw : s.exe.work = .showBegin :: ms) :
    State.exeRun (s.recordCount + 3) s = .next (s.setWork ms).showPass := by
  have hrecords : State.exeRun (s.recordCount + 2) ((s.setWork ms).showStart.pushWork [.showRecords 0 false]) = _ :=
    State.exeRun_showRecords (ms := ms) rfl (Nat.zero_add s.recordCount)
  rw [State.exeRun_of_exeStep (State.exeStep_of_work hw), hrecords, ← List.range_eq_range']
  rfl

/-! ### The steps of a compositing cycle -/

theorem State.exeRun_refresh {s : State} {ms : List Micro} (hw : s.exe.work = .refresh :: ms) :
    State.exeRun (1 + (if s.comp.shown then s.recordCount + 2 else 0) + (s.recordCount + 3)) s =
      .next (if s.comp.shown then (s.setWork ms).hidePass.showPass else (s.setWork ms).showPass) := by
  have hstep : s.exeStep = .next ((s.setWork ms).pushWork (s.setWork ms).refreshSteps) := State.exeStep_of_work hw
  rw [Nat.add_assoc, Nat.add_comm 1, State.exeRun_of_exeStep hstep]
  by_cases hshown : s.comp.shown = true
  · have hsteps : (s.setWork ms).refreshSteps = s.hideSteps ++ [.showBegin] := if_pos hshown
    rw [if_pos hshown, if_pos hshown, hsteps]
    generalize hv : (s.setWork ms).pushWork (s.hideSteps ++ [.showBegin]) = v
    have hback (ms' : List Micro) : v.setWork ms' = s.setWork ms' := by rw [← hv]; rfl
    have hcount : v.recordCount = s.recordCount := by rw [← hv]; rfl
    have hwork : v.exe.work = v.hideSteps ++ .showBegin :: ms := by
      rw [← hv]
      exact List.append_assoc s.hideSteps [.showBegin] ms
    have hhide := State.exeRun_hideSteps hwork
    rw [hcount, hback] at hhide
    have hrest : (s.setWork (.showBegin :: ms)).hidePass.exe.work = .showBegin :: ms :=
      congrArg Exe.work (exe_of_fixed (fixed_hidePass _))
    have hshow := State.exeRun_showBegin hrest
    rw [recordCount_of_fixed (fixed_hidePass _), ← State.hidePass_setWork] at hshow
    exact (State.exeRun_append hhide _).trans hshow
  · have hsteps : (s.setWork ms).refreshSteps = [.showBegin] := if_neg hshown
    rw [if_neg hshown, if_neg hshown, Nat.zero_add, hsteps]
    generalize hv : (s.setWork ms).pushWork [.showBegin] = v
    have hback : v.setWork ms = s.setWork ms := by rw [← hv]; rfl
    have hcount : v.recordCount = s.recordCount := by rw [← hv]; rfl
    have hshow := State.exeRun_showBegin (s := v) (ms := ms) (by rw [← hv]; rfl)
    rwa [hcount, hback] at hshow

end Sys2Proof.Machine
end

section
/-!
# What a `DRAWSPRITE` and its restore do to memory (45_sprites R432, R437)

A draw saves the background under its area in its save buffer and then draws; a restore puts the saved bytes back. Both are folds
over the offsets of the area, and what is said here of a byte is what one offset does to it.
-/

namespace Sys2Proof.Machine

/-! ### Memories that read alike -/

/-- The bytes whose addresses satisfy `A` read alike; addresses are below 2^32. -/
def agreeOn (A : Nat → Prop) (m m' : Memory) : Prop := ∀ a, A (wrapAddr a) → memByte m a = memByte m' a

/-- A run whose bytes read alike reads as the same number. -/
theorem agreeOn.memReadLe {A : Nat → Prop} {m m' : Memory} (h : agreeOn A m m') {a n : Nat}
    (hrun : ∀ k < n, A (wrapAddr (a + k))) : memReadLe m a n = memReadLe m' a n :=
  memReadLe_congr fun k hk => h _ (hrun k hk)

/-- Two memories that agree where the elements of a fold of stores read end up alike wherever they were alike, and wherever an
element writes: what an element writes depends on nothing else. -/
theorem agree_foldl {α : Type} {f : Memory → α → Memory} {A : Nat → Prop} {W : α → Nat → Prop} {l : List α}
    (hf : ∀ x ∈ l, ∀ m m', agreeOn A m m' → ∀ a, W x (wrapAddr a) ∨ memByte m a = memByte m' a →
      memByte (f m x) a = memByte (f m' x) a)
    {m m' : Memory} (hA : agreeOn A m m') {a : Nat} (ha : (∃ x ∈ l, W x (wrapAddr a)) ∨ memByte m a = memByte m' a) :
    memByte (l.foldl f m) a = memByte (l.foldl f m') a := by
  induction l generalizing m m' with
  | nil => simpa using ha
  | cons x l ih =>
    have hx := hf x List.mem_cons_self m m' hA
    refine ih (fun y hy => hf y (List.mem_cons_of_mem _ hy)) (fun b hb => hx b (.inr (hA b hb))) ?_
    rcases ha with ⟨y, hy, hw⟩ | heq
    · rcases List.mem_cons.1 hy with rfl | hy
      · exact .inr (hx a (.inl hw))
      · exact .inl ⟨y, hy, hw⟩
    · exact .inr (hx a (.inr heq))

/-! ### The area of a draw -/

/-- A pixel's byte in the area of a draw. -/
def State.areaPixel (s : State) (d : Draw) (a : Nat) : Prop :=
  ∃ i j : Nat, i < (s.drawArea d).w ∧ j < (s.drawArea d).h ∧ s.areaAddr (s.drawArea d) (i, j) = a

theorem State.drawWrites_iff (s : State) (d : Draw) (a : Nat) : s.drawWrites d a ↔ s.drawBuffer d a ∨ s.areaPixel d a :=
  Iff.rfl

/-- An area lies in the viewport, and begins no further right or down than the sprite does. -/
theorem State.spriteArea_bounds (s : State) (sx sy : Int) (b : Bitmap) :
    (s.spriteArea sx sy b).x + (s.spriteArea sx sy b).w ≤ s.vpw ∧ (s.spriteArea sx sy b).y + (s.spriteArea sx sy b).h ≤ s.vph ∧
      ((s.spriteArea sx sy b).x : Int) ≤ max sx 0 ∧ ((s.spriteArea sx sy b).y : Int) ≤ max sy 0 := by
  unfold State.spriteArea
  dsimp only
  split
  · simp
  next hne =>
    replace hne := mt decide_eq_true hne
    simp only [Rect.inter, State.vpb, not_or, not_lt, Rect.width, Rect.height] at hne ⊢
    omega

theorem State.drawArea_bounds (s : State) (d : Draw) :
    (s.drawArea d).x + (s.drawArea d).w ≤ s.vpw ∧ (s.drawArea d).y + (s.drawArea d).h ≤ s.vph ∧
      ((s.drawArea d).x : Int) ≤ max d.sx 0 ∧ ((s.drawArea d).y : Int) ≤ max d.sy 0 :=
  s.spriteArea_bounds d.sx d.sy d.bitmap

theorem State.vpw_lt (s : State) : s.vpw < 65536 := BitVec.isLt _
theorem State.vph_lt (s : State) : s.vph < 65536 := BitVec.isLt _

theorem State.vpb_has_area {s : State} {d : Draw} {q : Nat × Nat} (hi : q.1 < (s.drawArea d).w)
    (hj : q.2 < (s.drawArea d).h) :
    s.vpb.has ((((s.drawArea d).x + q.1 : Nat) : Int), (((s.drawArea d).y + q.2 : Nat) : Int)) = true := by
  obtain ⟨hw, hh, -, -⟩ := s.drawArea_bounds d
  rw [Rect.has_iff]
  simp only [State.vpb]
  omega

theorem State.visiblePixel_of_areaPixel {s : State} {d : Draw} {a : Nat} (h : s.areaPixel d a) : s.visiblePixel a := by
  obtain ⟨i, j, hi, hj, rfl⟩ := h
  exact ⟨_, State.vpb_has_area (q := (i, j)) hi hj, rfl⟩

theorem State.areaPixel_of_lt {s : State} {d : Draw} {q : Nat × Nat} (hi : q.1 < (s.drawArea d).w)
    (hj : q.2 < (s.drawArea d).h) :
    s.areaPixel d (wrapAddr (s.areaAddr (s.drawArea d) q)) :=
  ⟨q.1, q.2, hi, hj, (State.wrapAddr_vfbAddr s _ _).symm⟩

/-- The pixels of an area have bytes of their own. -/
theorem State.areaAddr_inj {s : State} (hv : s.visibleApart) {d : Draw} {q q' : Nat × Nat}
    (hq : q ∈ gridPoints (s.drawArea d).w (s.drawArea d).h) (hq' : q' ∈ gridPoints (s.drawArea d).w (s.drawArea d).h)
    (h : s.areaAddr (s.drawArea d) q = s.areaAddr (s.drawArea d) q') : q = q' := by
  obtain ⟨hi, hj⟩ := mem_gridPoints.1 hq
  obtain ⟨hi', hj'⟩ := mem_gridPoints.1 hq'
  have hp := hv _ _ (State.vpb_has_area hi hj) (State.vpb_has_area hi' hj') h
  simp only [Prod.mk.injEq, Int.natCast_inj, Nat.add_left_cancel_iff] at hp
  exact Prod.ext hp.1 hp.2

/-- The save buffer's byte of an offset. -/
def State.bufferAddr (s : State) (d : Draw) (q : Nat × Nat) : Nat := d.buffer + q.2 * (s.drawArea d).w + q.1

theorem State.drawBuffer_bufferAddr {s : State} {d : Draw} {q : Nat × Nat}
    (hq : q ∈ gridPoints (s.drawArea d).w (s.drawArea d).h) : s.drawBuffer d (wrapAddr (s.bufferAddr d q)) :=
  inRun_grid (mem_gridPoints.1 hq).1 (mem_gridPoints.1 hq).2

/-- The offsets of an area have save bytes of their own: an area has fewer pixels than there are addresses. -/
theorem State.bufferAddr_inj {s : State} {d : Draw} {q q' : Nat × Nat}
    (hq : q ∈ gridPoints (s.drawArea d).w (s.drawArea d).h) (hq' : q' ∈ gridPoints (s.drawArea d).w (s.drawArea d).h)
    (h : wrapAddr (s.bufferAddr d q) = wrapAddr (s.bufferAddr d q')) : q = q' := by
  obtain ⟨hi, hj⟩ := mem_gridPoints.1 hq
  obtain ⟨hi', hj'⟩ := mem_gridPoints.1 hq'
  obtain ⟨hw, hh, -, -⟩ := s.drawArea_bounds d
  have hsize : (s.drawArea d).w * (s.drawArea d).h ≤ 65535 * 65535 := by
    have := s.vpw_lt
    have := s.vph_lt
    exact Nat.mul_le_mul (by omega) (by omega)
  have hlt : ∀ p : Nat × Nat, p ∈ gridPoints (s.drawArea d).w (s.drawArea d).h →
      p.2 * (s.drawArea d).w + p.1 < (s.drawArea d).w * (s.drawArea d).h := fun p hp => by
    obtain ⟨hi, hj⟩ := mem_gridPoints.1 hp
    calc p.2 * (s.drawArea d).w + p.1 < (p.2 + 1) * (s.drawArea d).w := by rw [Nat.succ_mul]; omega
      _ ≤ (s.drawArea d).h * (s.drawArea d).w := Nat.mul_le_mul_right _ hj
      _ = (s.drawArea d).w * (s.drawArea d).h := Nat.mul_comm _ _
  have hq := hlt q hq
  have hq' := hlt q' hq'
  have hplace : q.2 * (s.drawArea d).w + q.1 = q'.2 * (s.drawArea d).w + q'.1 := by
    simp only [wrapAddr, State.bufferAddr, addrSpace] at h
    omega
  obtain ⟨h1, h2⟩ := grid_inj hi hi' hplace
  exact Prod.ext h1 h2

/-! ### A draw -/

/-- The memory after a draw, without its bookkeeping fields (45_sprites R432). -/
def State.drawMem (s : State) (d : Draw) (m : Memory) : Memory :=
  s.drawPixels (s.saveBackground m (s.drawArea d) d.buffer) d.sx d.sy d.bitmap (s.drawArea d)

theorem drawMem_of_fixed {s t : State} (h : t.fixed = s.fixed) (d : Draw) (m : Memory) : t.drawMem d m = s.drawMem d m := by
  show t.fixed.drawMem d m = s.fixed.drawMem d m
  rw [h]

theorem composite_of_fixed {s t : State} (h : t.fixed = s.fixed) (d : Draw) :
    t.composite d.sx d.sy d.bitmap d.buffer = t.setMem (s.drawMem d t.mem) :=
  congrArg t.setMem (drawMem_of_fixed h d t.mem)

/-- A draw writes its save buffer and the pixels of its area. -/
theorem State.memByte_drawMem_of_not {s : State} {d : Draw} {a : Nat} (ha : ¬ s.drawWrites d (wrapAddr a)) (m : Memory) :
    memByte (s.drawMem d m) a = memByte m a := by
  obtain ⟨hbuffer, harea⟩ := not_or.1 ((s.drawWrites_iff d _).not.1 ha)
  have hpixels (m : Memory) : memByte (s.drawPixels m d.sx d.sy d.bitmap (s.drawArea d)) a = memByte m a := by
    refine memByte_foldl_of_notMem (fun q hq m => ?_) m
    rw [memByte_drawPixel, if_neg]
    rintro ⟨-, heq⟩
    exact harea ⟨q.1, q.2, (mem_gridPoints.1 hq).1, (mem_gridPoints.1 hq).2, heq⟩
  have hsave (m : Memory) : memByte (s.saveBackground m (s.drawArea d) d.buffer) a = memByte m a := by
    refine memByte_foldl_of_notMem (fun q hq m => ?_) m
    rw [memByte_savePixel, if_neg]
    intro heq
    exact hbuffer (heq ▸ State.drawBuffer_bufferAddr hq)
  rw [State.drawMem, hpixels, hsave]

/-- A draw leaves the old background in its save buffer, where that lies apart from the viewport (45_sprites R432). -/
theorem State.memByte_drawMem_buffer {s : State} {d : Draw} (hb : apart (s.drawBuffer d) s.visiblePixel) {q : Nat × Nat}
    (hq : q ∈ gridPoints (s.drawArea d).w (s.drawArea d).h) (m : Memory) :
    memByte (s.drawMem d m) (s.bufferAddr d q) = memByte m (s.areaAddr (s.drawArea d) q) := by
  have hpixel : ∀ p ∈ gridPoints (s.drawArea d).w (s.drawArea d).h, ∀ p' ∈ gridPoints (s.drawArea d).w (s.drawArea d).h,
      s.areaAddr (s.drawArea d) p ≠ wrapAddr (s.bufferAddr d p') := fun p hp p' hp' heq =>
    hb _ (State.drawBuffer_bufferAddr hp') (State.visiblePixel_of_areaPixel
      ⟨p.1, p.2, (mem_gridPoints.1 hp).1, (mem_gridPoints.1 hp).2, heq⟩)
  have hdraw (m : Memory) : memByte (s.drawPixels m d.sx d.sy d.bitmap (s.drawArea d)) (s.bufferAddr d q) =
      memByte m (s.bufferAddr d q) := by
    refine memByte_foldl_of_notMem (fun p hp m => ?_) m
    rw [memByte_drawPixel, if_neg fun h => hpixel p hp q hq h.2]
  rw [State.drawMem, hdraw]
  -- While the background is saved, no pixel of the viewport changes.
  refine memByte_foldl_of_mem hq
    (fun m' => memByte m' (s.areaAddr (s.drawArea d) q) = memByte m (s.areaAddr (s.drawArea d) q)) rfl ?_ ?_ ?_
  · intro p hp m' hm'
    rw [memByte_savePixel, if_neg, hm']
    exact fun heq => hpixel q hq p hp ((State.wrapAddr_vfbAddr s _ _).symm.trans heq)
  · intro m' hm'
    rw [memByte_savePixel, ← State.bufferAddr, if_pos rfl, hm']
  · intro p hp hne m'
    rw [memByte_savePixel, if_neg]
    exact fun heq => hne (State.bufferAddr_inj hp hq heq.symm)

/-- A draw does the same to memories that agree on its bitmap and its area: it leaves them alike there, in its save buffer, and
wherever else they were alike. -/
theorem State.drawMem_congr {s : State} {d : Draw} {A : Nat → Prop} (hsource : ∀ a, s.drawSource d a → A a)
    (harea : ∀ a, s.areaPixel d a → A a) {m m' : Memory} (hA : agreeOn A m m') {a : Nat}
    (ha : s.drawBuffer d (wrapAddr a) ∨ memByte m a = memByte m' a) :
    memByte (s.drawMem d m) a = memByte (s.drawMem d m') a := by
  have hsave {a : Nat} (ha : s.drawBuffer d (wrapAddr a) ∨ memByte m a = memByte m' a) :
      memByte (s.saveBackground m (s.drawArea d) d.buffer) a = memByte (s.saveBackground m' (s.drawArea d) d.buffer) a := by
    refine agree_foldl (W := fun q b => b = wrapAddr (s.bufferAddr d q)) (fun q hq m m' hA a ha => ?_) hA
      (ha.imp_left fun hbuffer => ?_)
    · have hpixel : memByte m (s.areaAddr (s.drawArea d) q) = memByte m' (s.areaAddr (s.drawArea d) q) :=
        hA _ (harea _ (State.areaPixel_of_lt (mem_gridPoints.1 hq).1 (mem_gridPoints.1 hq).2))
      rw [memByte_savePixel, memByte_savePixel]
      split
      · exact hpixel
      next hne => exact ha.resolve_left hne
    · obtain ⟨i, j, hi, hj, heq⟩ := exists_grid_of_inRun hbuffer
      exact ⟨(i, j), mem_gridPoints.2 ⟨hi, hj⟩, heq.symm⟩
  refine agree_foldl (A := A) (W := fun _ _ => False) (fun q hq m m' hA a ha => ?_) (fun b hb => hsave (.inr (hA b hb)))
    (.inr (hsave ha))
  have hbyte : memByte m (spriteSource d.sx d.sy d.bitmap (s.drawArea d) q) =
      memByte m' (spriteSource d.sx d.sy d.bitmap (s.drawArea d) q) := by
    refine hA _ (hsource _ ⟨q.1, q.2, (mem_gridPoints.1 hq).1, (mem_gridPoints.1 hq).2, ?_⟩)
    exact (wrapAddr_wrapAddr _).symm
  rw [memByte_drawPixel, memByte_drawPixel, hbyte, ha.resolve_left id]

/-! ### A restore -/

/-- The memory after the area of a draw is restored from its save buffer (45_sprites R437). -/
def State.eraseMem (s : State) (d : Draw) (m : Memory) : Memory :=
  (gridPoints (s.drawArea d).w (s.drawArea d).h).foldl
    (s.restorePixel (s.drawArea d).x (s.drawArea d).y (s.drawArea d).w d.buffer) m

theorem eraseMem_of_fixed {s t : State} (h : t.fixed = s.fixed) (d : Draw) (m : Memory) : t.eraseMem d m = s.eraseMem d m := by
  show t.fixed.eraseMem d m = s.fixed.eraseMem d m
  rw [h]

/-- One restored pixel of an area. -/
theorem State.memByte_restorePixel_area {s : State} {d : Draw} {q : Nat × Nat}
    (hq : q ∈ gridPoints (s.drawArea d).w (s.drawArea d).h) (m : Memory) (b : Nat) :
    memByte (s.restorePixel (s.drawArea d).x (s.drawArea d).y (s.drawArea d).w d.buffer m q) b =
      if s.areaAddr (s.drawArea d) q = wrapAddr b then memByte m (s.bufferAddr d q) else memByte m b := by
  have hhas := State.vpb_has_area (mem_gridPoints.1 hq).1 (mem_gridPoints.1 hq).2
  rw [memByte_restorePixel]
  simp only [State.areaAddr, Nat.cast_add] at hhas ⊢
  rw [hhas]
  simp only [true_and]
  rfl

/-- A restore writes the pixels of its area. -/
theorem State.memByte_eraseMem_of_not {s : State} {d : Draw} {a : Nat} (ha : ¬ s.areaPixel d (wrapAddr a)) (m : Memory) :
    memByte (s.eraseMem d m) a = memByte m a := by
  refine memByte_foldl_of_notMem (fun q hq m => ?_) m
  rw [State.memByte_restorePixel_area hq, if_neg]
  exact fun heq => ha ⟨q.1, q.2, (mem_gridPoints.1 hq).1, (mem_gridPoints.1 hq).2, heq⟩

/-- Each pixel of a restored area takes its saved byte, where the pixels and the save buffer lie apart (45_sprites R437). -/
theorem State.memByte_eraseMem_area {s : State} {d : Draw} (hv : s.visibleApart)
    (hb : apart (s.drawBuffer d) s.visiblePixel) {q : Nat × Nat} (hq : q ∈ gridPoints (s.drawArea d).w (s.drawArea d).h)
    {a : Nat}
    (ha : s.areaAddr (s.drawArea d) q = wrapAddr a) (m : Memory) :
    memByte (s.eraseMem d m) a = memByte m (s.bufferAddr d q) := by
  refine memByte_foldl_of_mem hq (fun m' => memByte m' (s.bufferAddr d q) = memByte m (s.bufferAddr d q)) rfl ?_ ?_ ?_
  · intro p hp m' hm'
    rw [State.memByte_restorePixel_area hp, if_neg, hm']
    exact fun heq => hb _ (State.drawBuffer_bufferAddr hq) (State.visiblePixel_of_areaPixel
      ⟨p.1, p.2, (mem_gridPoints.1 hp).1, (mem_gridPoints.1 hp).2, heq⟩)
  · intro m' hm'
    rw [State.memByte_restorePixel_area hq, if_pos ha, hm']
  · intro p hp hne m'
    rw [State.memByte_restorePixel_area hp, if_neg]
    exact fun heq => hne (State.areaAddr_inj hv hp hq (heq.trans ha.symm))

end Sys2Proof.Machine
end

section
/-!
# The slots of a pass (45_sprites R431, R432)

A pass goes through the records and the cursor: slot `some k` is record `k`, slot `none` the cursor. Showing a slot and hiding
it are functions of memory; hiding the slots in the reverse order gives back all but the save buffers and the bookkeeping.
-/

namespace Sys2Proof.Machine

/-- The slots of a show pass, in its order. -/
def State.slots (s : State) : List (Option Nat) := (List.range s.recordCount).map some ++ [none]

/-- The `DRAWSPRITE` of a slot, if it has one. -/
def State.slotDraw (s : State) : Option Nat → Option Draw
  | some k => s.recordDraw k
  | none => s.cursorDraw

theorem State.draws_eq (s : State) : s.draws = s.slots.filterMap s.slotDraw := by
  have hcursor : s.cursorDraw.toList = [none].filterMap s.slotDraw := by
    cases hd : s.cursorDraw <;> simp [List.filterMap, State.slotDraw, hd]
  rw [State.draws, hcursor, State.slots, List.filterMap_append, List.filterMap_map]
  rfl

theorem State.slotDraw_mem_draws {s : State} {o : Option Nat} {d : Draw} (ho : o ∈ s.slots) (hd : s.slotDraw o = some d) :
    d ∈ s.draws := by
  rw [s.draws_eq]
  exact List.mem_filterMap.2 ⟨o, ho, hd⟩

theorem State.some_mem_slots {s : State} {k : Nat} : some k ∈ s.slots ↔ k < s.recordCount := by simp [State.slots]
theorem State.none_mem_slots (s : State) : none ∈ s.slots := by simp [State.slots]

/-- The bookkeeping bytes of a slot: a record's, none of the cursor. -/
def State.slotFields (s : State) : Option Nat → Nat → Prop
  | some k, a => s.bookkeeping k a
  | none, _ => False

/-- The bytes besides the viewport that a pass writes for a slot. -/
def State.slotWrites (s : State) (o : Option Nat) (a : Nat) : Prop :=
  ∃ d, s.slotDraw o = some d ∧ (s.drawBuffer d a ∨ s.slotFields o a)

/-! ### The bookkeeping of a slot -/

/-- The memory after the `SAVED_*` fields of a slot are written, the cursor's being registers (45_sprites R432). -/
def State.saveFields (s : State) (d : Draw) (m : Memory) : Option Nat → Memory
  | some k => memStoreBlock m (wrapAddr (s.recordAddr k + 20)) (s.drawArea d).bytes
  | none => m

/-- The memory after the `PRIV` byte of a slot is written. -/
def State.writePriv (s : State) (v : Byte) (m : Memory) : Option Nat → Memory
  | some k => memStore m (s.recordAddr k + 17) v
  | none => m

theorem wrapAddr_add_wrapAddr (a k : Nat) : wrapAddr (wrapAddr a + k) = wrapAddr (a + k) := by
  simp [wrapAddr]

@[simp] theorem inRun_wrapAddr {a n x : Nat} : inRun (wrapAddr a) n x ↔ inRun a n x := by
  simp [inRun, wrapAddr_add_wrapAddr]

@[simp] theorem SavedArea.length_bytes (r : SavedArea) : r.bytes.length = 8 := by simp [SavedArea.bytes]

theorem State.memByte_saveFields_of_not {s : State} {o : Option Nat} {a : Nat} (ha : ¬ s.slotFields o (wrapAddr a)) (d : Draw)
    (m : Memory) : memByte (s.saveFields d m o) a = memByte m a := by
  cases o with
  | none => rfl
  | some k =>
    refine memByte_memStoreBlock_of_notMem _ _ _ _ fun j hj heq => ha (.inr ?_)
    rw [SavedArea.length_bytes] at hj
    exact inRun_wrapAddr.1 ⟨j, hj, heq⟩

theorem State.memByte_writePriv_of_not {s : State} {o : Option Nat} {a : Nat} (ha : ¬ s.slotFields o (wrapAddr a)) (v : Byte)
    (m : Memory) : memByte (s.writePriv v m o) a = memByte m a := by
  cases o with
  | none => rfl
  | some k =>
    rw [State.writePriv, memByte_memStore, if_neg]
    exact fun heq => ha (.inl heq.symm)

/-! ### Showing a slot -/

/-- The memory after a slot's draw with its bookkeeping (45_sprites R432). -/
def State.showDraw (s : State) (o : Option Nat) (d : Draw) (m : Memory) : Memory :=
  s.writePriv 0x01#8 (s.drawMem d (s.saveFields d m o)) o

/-- The memory after a slot of a show pass. -/
def State.showSlot (s : State) (m : Memory) (o : Option Nat) : Memory :=
  match s.slotDraw o with
  | some d => s.showDraw o d m
  | none => m

theorem State.showSlot_of_some {s : State} {o : Option Nat} {d : Draw} (hd : s.slotDraw o = some d) (m : Memory) :
    s.showSlot m o = s.showDraw o d m := by
  rw [State.showSlot, hd]

theorem State.showSlot_of_none {s : State} {o : Option Nat} (hd : s.slotDraw o = none) (m : Memory) : s.showSlot m o = m := by
  rw [State.showSlot, hd]

theorem State.memByte_showDraw_of_not {s : State} {o : Option Nat} {d : Draw} {a : Nat}
    (ha : ¬ (s.drawBuffer d (wrapAddr a) ∨ s.slotFields o (wrapAddr a))) (hpixel : ¬ s.areaPixel d (wrapAddr a)) (m : Memory) :
    memByte (s.showDraw o d m) a = memByte m a := by
  obtain ⟨hbuffer, hfields⟩ := not_or.1 ha
  have hdraw : ¬ s.drawWrites d (wrapAddr a) := not_or.2 ⟨hbuffer, hpixel⟩
  rw [State.showDraw, State.memByte_writePriv_of_not hfields, State.memByte_drawMem_of_not hdraw,
    State.memByte_saveFields_of_not hfields]

/-- Showing a slot does the same to memories that agree on its bitmap and its area. -/
theorem State.showDraw_congr {s : State} {o : Option Nat} {d : Draw} {A : Nat → Prop} (hsource : ∀ a, s.drawSource d a → A a)
    (harea : ∀ a, s.areaPixel d a → A a) {m m' : Memory} (hA : agreeOn A m m') {a : Nat}
    (ha : (s.drawBuffer d (wrapAddr a) ∨ s.slotFields o (wrapAddr a)) ∨ memByte m a = memByte m' a) :
    memByte (s.showDraw o d m) a = memByte (s.showDraw o d m') a := by
  cases o with
  | none => exact State.drawMem_congr hsource harea hA (ha.imp_left fun h => h.resolve_right id)
  | some k =>
    have hsave {b : Nat} (hb : inRun (s.recordAddr k + 20) 8 (wrapAddr b) ∨ memByte m b = memByte m' b) :
        memByte (s.saveFields d m (some k)) b = memByte (s.saveFields d m' (some k)) b := by
      by_cases hrun : inRun (wrapAddr (s.recordAddr k + 20)) (s.drawArea d).bytes.length (wrapAddr b)
      · exact memByte_memStoreBlock_congr hrun m m'
      · rw [SavedArea.length_bytes, inRun_wrapAddr] at hrun
        have hkeep (m : Memory) : memByte (s.saveFields d m (some k)) b = memByte m b := by
          refine memByte_memStoreBlock_of_notMem _ _ _ _ fun j hj heq => hrun ?_
          rw [SavedArea.length_bytes] at hj
          exact inRun_wrapAddr.1 ⟨j, hj, heq⟩
        rw [hkeep, hkeep]
        exact hb.resolve_left hrun
    rw [State.showDraw, State.showDraw, State.writePriv, State.writePriv, memByte_memStore, memByte_memStore]
    split
    · rfl
    next hpriv =>
      refine State.drawMem_congr hsource harea (fun b hb => hsave (.inr (hA b hb))) ?_
      rcases ha with (hbuffer | hp | hrun) | heq
      · exact .inl hbuffer
      · exact absurd hp.symm hpriv
      · exact .inr (hsave (.inl hrun))
      · exact .inr (hsave (.inr heq))

/-! ### Hiding a slot -/

/-- The memory after the restore of a slot's draw, with its `PRIV` byte (45_sprites R431). -/
def State.hideDraw (s : State) (o : Option Nat) (d : Draw) (m : Memory) : Memory :=
  s.writePriv 0x00#8 (s.eraseMem d m) o

/-- The memory after a slot of the hide pass that follows a show pass. -/
def State.hideSlot (s : State) (m : Memory) (o : Option Nat) : Memory :=
  match s.slotDraw o with
  | some d => s.hideDraw o d m
  | none => m

theorem State.hideSlot_of_some {s : State} {o : Option Nat} {d : Draw} (hd : s.slotDraw o = some d) (m : Memory) :
    s.hideSlot m o = s.hideDraw o d m := by
  rw [State.hideSlot, hd]

theorem State.hideSlot_of_none {s : State} {o : Option Nat} (hd : s.slotDraw o = none) (m : Memory) : s.hideSlot m o = m := by
  rw [State.hideSlot, hd]

theorem State.memByte_hideDraw_of_not {s : State} {o : Option Nat} {d : Draw} {a : Nat} (ha : ¬ s.slotFields o (wrapAddr a))
    (hpixel : ¬ s.areaPixel d (wrapAddr a)) (m : Memory) : memByte (s.hideDraw o d m) a = memByte m a := by
  rw [State.hideDraw, State.memByte_writePriv_of_not ha, State.memByte_eraseMem_of_not hpixel]

/-! ### Slots that lie apart -/

/-- The parts of a slot's draw lie apart from each other, from what a pass reads, and from the viewport. -/
structure State.SlotApart (s : State) (o : Option Nat) (d : Draw) : Prop where
  buffer : apart (s.drawBuffer d) s.visiblePixel
  fields : apart (s.slotFields o) s.visiblePixel
  bufferFields : apart (s.drawBuffer d) (s.slotFields o)
  bufferInput : apart (s.drawBuffer d) s.passInput
  fieldsInput : apart (s.slotFields o) s.passInput

theorem State.passApart.slotApart {s : State} (hs : s.passApart) {o : Option Nat} (ho : o ∈ s.slots) {d : Draw}
    (hd : s.slotDraw o = some d) : s.SlotApart o d := by
  obtain ⟨-, -, hfields, hbuffers, -⟩ := hs
  obtain ⟨hinput, hvisible, hbook⟩ := hbuffers d (State.slotDraw_mem_draws ho hd)
  cases o with
  | none => exact ⟨hvisible, fun _ h => h.elim, fun _ _ h => h, hinput, fun _ h => h.elim⟩
  | some k =>
    obtain ⟨hkinput, hkvisible, -⟩ := hfields k (State.some_mem_slots.1 ho)
    exact ⟨hvisible, hkvisible, hbook k (State.some_mem_slots.1 ho), hinput, hkinput⟩

theorem State.slots_nodup (s : State) : s.slots.Nodup := by
  simp [State.slots, List.nodup_append, List.nodup_range.map (Option.some_injective Nat)]

/-- The bookkeeping of a slot lies apart from what a pass writes for another slot. -/
theorem State.passApart.slotWrites_fields {s : State} (hs : s.passApart) {o o' : Option Nat} (ho : o ∈ s.slots)
    (ho' : o' ∈ s.slots) (hne : o ≠ o') : apart (s.slotWrites o) (s.slotFields o') := by
  obtain ⟨-, -, hfields, hbuffers, -⟩ := hs
  cases o' with
  | none => exact fun _ _ h => h
  | some k =>
    have hk := State.some_mem_slots.1 ho'
    rintro a ⟨d, hd, hbuffer | hbook⟩ hak
    · exact (hbuffers d (State.slotDraw_mem_draws ho hd)).2.2 k hk a hbuffer hak
    cases o with
    | none => exact hbook
    | some j =>
      rcases Nat.lt_or_gt_of_ne fun h => hne (congrArg some h) with hlt | hlt
      · exact (hfields k hk).2.2 j hlt a hak hbook
      · exact (hfields j (State.some_mem_slots.1 ho)).2.2 k hlt a hbook hak

/-- What a pass writes for one slot, it writes for no other. -/
theorem State.passApart.pairwise {s : State} (hs : s.passApart) :
    s.slots.Pairwise (fun o o' => apart (s.slotWrites o) (s.slotWrites o')) := by
  have hbuffers := hs.2.2.2.2
  rw [s.draws_eq, List.pairwise_filterMap] at hbuffers
  refine (hbuffers.and s.slots_nodup).imp_of_mem fun {o o'} ho ho' ⟨hbuf, hne⟩ => ?_
  rintro a ⟨d, hd, hda | hda⟩ ⟨d', hd', hda' | hda'⟩
  · exact hbuf d hd d' hd' a hda hda'
  · exact hs.slotWrites_fields ho ho' hne a ⟨d, hd, .inl hda⟩ hda'
  · exact hs.slotWrites_fields ho' ho (Ne.symm hne) a ⟨d', hd', .inl hda'⟩ hda
  · exact hs.slotWrites_fields ho ho' hne a ⟨d, hd, .inr hda⟩ hda'

theorem State.passApart.slotWrites_visible {s : State} (hs : s.passApart) {o : Option Nat} (ho : o ∈ s.slots) :
    apart (s.slotWrites o) s.visiblePixel := by
  rintro a ⟨d, hd, hbuffer | hfields⟩
  · exact (hs.slotApart ho hd).buffer a hbuffer
  · exact (hs.slotApart ho hd).fields a hfields

theorem State.passApart.slotWrites_input {s : State} (hs : s.passApart) {o : Option Nat} (ho : o ∈ s.slots) :
    apart (s.slotWrites o) s.passInput := by
  rintro a ⟨d, hd, hbuffer | hfields⟩
  · exact (hs.slotApart ho hd).bufferInput a hbuffer
  · exact (hs.slotApart ho hd).fieldsInput a hfields

/-! ### What a pass leaves alone -/

theorem State.memByte_showSlot_of_not {s : State} {o : Option Nat} {a : Nat} (ha : ¬ s.slotWrites o (wrapAddr a))
    (hpixel : ¬ s.visiblePixel (wrapAddr a)) (m : Memory) : memByte (s.showSlot m o) a = memByte m a := by
  cases hd : s.slotDraw o with
  | none => rw [State.showSlot_of_none hd]
  | some d =>
    rw [State.showSlot_of_some hd]
    exact State.memByte_showDraw_of_not (fun h => ha ⟨d, hd, h⟩) (fun h => hpixel (State.visiblePixel_of_areaPixel h)) m

theorem State.memByte_hideSlot_of_not {s : State} {o : Option Nat} {a : Nat}
    (ha : s.slotFields o (wrapAddr a) → s.slotDraw o = none) (hpixel : ¬ s.visiblePixel (wrapAddr a)) (m : Memory) :
    memByte (s.hideSlot m o) a = memByte m a := by
  cases hd : s.slotDraw o with
  | none => rw [State.hideSlot_of_none hd]
  | some d =>
    rw [State.hideSlot_of_some hd]
    refine State.memByte_hideDraw_of_not (fun h => ?_) (fun h => hpixel (State.visiblePixel_of_areaPixel h)) m
    rw [ha h] at hd
    cases hd

/-! ### A hide pass undoes a show pass, and a show pass after it is the same -/

/-- Hiding a slot gives back what showing it changed, but for its save buffer and bookkeeping, in a memory that still has these as
the show left them. -/
theorem State.passApart.memByte_hideSlot {s : State} (hs : s.passApart) {o : Option Nat} (ho : o ∈ s.slots) {m m' : Memory}
    {a : Nat} (ha : ¬ s.slotWrites o (wrapAddr a)) (heq : memByte m' a = memByte (s.showSlot m o) a)
    (hkept : agreeOn (s.slotWrites o) m' (s.showSlot m o)) : memByte (s.hideSlot m' o) a = memByte m a := by
  cases hd : s.slotDraw o with
  | none => rw [State.hideSlot_of_none hd, heq, State.showSlot_of_none hd]
  | some d =>
    have hfields : ¬ s.slotFields o (wrapAddr a) := fun h => ha ⟨d, hd, .inr h⟩
    have hapart := hs.slotApart ho hd
    rw [State.showSlot_of_some hd] at heq hkept
    rw [State.hideSlot_of_some hd]
    by_cases hpixel : s.areaPixel d (wrapAddr a)
    · obtain ⟨i, j, hi, hj, hij⟩ := hpixel
      have hq : (i, j) ∈ gridPoints (s.drawArea d).w (s.drawArea d).h := mem_gridPoints.2 ⟨hi, hj⟩
      have hbuffer := State.drawBuffer_bufferAddr hq
      have hvisible : s.visiblePixel (wrapAddr (s.areaAddr (s.drawArea d) (i, j))) :=
        State.visiblePixel_of_areaPixel (State.areaPixel_of_lt hi hj)
      calc memByte (s.hideDraw o d m') a
          = memByte m' (s.bufferAddr d (i, j)) := by
            rw [State.hideDraw, State.memByte_writePriv_of_not hfields, State.memByte_eraseMem_area hs.1 hapart.buffer hq hij]
        _ = memByte (s.showDraw o d m) (s.bufferAddr d (i, j)) := hkept _ ⟨d, hd, .inl hbuffer⟩
        _ = memByte (s.saveFields d m o) (s.areaAddr (s.drawArea d) (i, j)) := by
            rw [State.showDraw, State.memByte_writePriv_of_not (hapart.bufferFields _ hbuffer),
              State.memByte_drawMem_buffer hapart.buffer hq]
        _ = memByte m (s.areaAddr (s.drawArea d) (i, j)) :=
            State.memByte_saveFields_of_not (fun h => hapart.fields _ h hvisible) d m
        _ = memByte m a := memByte_congr m ((State.wrapAddr_vfbAddr s _ _).trans hij)
    · rw [State.memByte_hideDraw_of_not hfields hpixel, heq]
      exact State.memByte_showDraw_of_not (fun h => ha ⟨d, hd, h⟩) hpixel m

/-- Hiding slots in reverse order after they were shown gives back all but their save buffers and bookkeeping. -/
theorem State.passApart.memByte_hide_show {s : State} (hs : s.passApart) {l : List (Option Nat)} (hl : ∀ o ∈ l, o ∈ s.slots)
    (hpairs : l.Pairwise (fun o o' => apart (s.slotWrites o) (s.slotWrites o'))) (m : Memory) {a : Nat}
    (ha : ∀ o ∈ l, ¬ s.slotWrites o (wrapAddr a)) :
    memByte (l.reverse.foldl s.hideSlot (l.foldl s.showSlot m)) a = memByte m a := by
  induction l generalizing m a with
  | nil => rfl
  | cons o l ih =>
    obtain ⟨hfirst, hrest⟩ := List.pairwise_cons.1 hpairs
    have hundone {b : Nat} (hb : ∀ o' ∈ l, ¬ s.slotWrites o' (wrapAddr b)) :
        memByte (l.reverse.foldl s.hideSlot (l.foldl s.showSlot (s.showSlot m o))) b = memByte (s.showSlot m o) b :=
      ih (fun o' ho' => hl o' (List.mem_cons_of_mem _ ho')) hrest _ hb
    rw [List.reverse_cons, List.foldl_append, List.foldl_cons]
    exact hs.memByte_hideSlot (hl o List.mem_cons_self) (ha o List.mem_cons_self)
      (hundone fun o' ho' => ha o' (List.mem_cons_of_mem _ ho')) (fun b hb => hundone fun o' ho' => hfirst o' ho' _ hb)

/-- The bitmap bytes of a slot's draw are inputs of the pass. -/
theorem State.passInput_of_drawSource {s : State} {o : Option Nat} (ho : o ∈ s.slots) {d : Draw} (hd : s.slotDraw o = some d)
    {a : Nat} (ha : s.drawSource d a) : s.passInput a :=
  .inr (.inr ⟨d, State.slotDraw_mem_draws ho hd, ha⟩)

/-- Showing the slots brings memories that differ in their save buffers and bookkeeping only to the same bytes. -/
theorem State.passApart.memByte_show_congr {s : State} (hs : s.passApart) {m m' : Memory}
    (h : ∀ a, (∀ o ∈ s.slots, ¬ s.slotWrites o (wrapAddr a)) → memByte m a = memByte m' a) (a : Nat) :
    memByte (s.slots.foldl s.showSlot m) a = memByte (s.slots.foldl s.showSlot m') a := by
  have hA : agreeOn (fun a => s.passInput a ∨ s.visiblePixel a) m m' := fun b hb => h b fun o ho hw =>
    hb.elim (hs.slotWrites_input ho _ hw) (hs.slotWrites_visible ho _ hw)
  refine agree_foldl (W := s.slotWrites) (fun o ho m m' hA a ha => ?_) hA ?_
  · cases hd : s.slotDraw o with
    | none =>
      rw [State.showSlot_of_none hd, State.showSlot_of_none hd]
      refine ha.resolve_left ?_
      rintro ⟨d, hd', -⟩
      rw [hd] at hd'
      cases hd'
    | some d =>
      rw [State.showSlot_of_some hd, State.showSlot_of_some hd]
      refine State.showDraw_congr (fun a ha => .inl (State.passInput_of_drawSource ho hd ha))
        (fun a ha => .inr (State.visiblePixel_of_areaPixel ha)) hA (ha.imp_left ?_)
      rintro ⟨d', hd', hw⟩
      rw [hd] at hd'
      cases hd'
      exact hw
  · by_cases hw : ∃ o ∈ s.slots, s.slotWrites o (wrapAddr a)
    · exact .inl hw
    · exact .inr (h a fun o ho ho' => hw ⟨o, ho, ho'⟩)

end Sys2Proof.Machine
end

section
/-!
# A show pass, a hide pass and a show pass again (45_sprites R431, R432, R437, R447)

Where no fault occurs and the buffers lie apart, a pass is the fold of its slots over memory, with the flags and the cursor's
saved fields computed beside it.
-/

namespace Sys2Proof.Machine

/-! ### What a draw is made of -/

theorem State.recordDraw_eq_some {s : State} {k : Nat} {d : Draw} (h : s.recordDraw k = some d) :
    s.recordWanted k = true ∧ ∃ hdr, s.recordFrame k = .header hdr ∧
      d = ⟨(memHalf s.mem (s.recordAddr k)).toInt, (memHalf s.mem (s.recordAddr k + 2)).toInt, readBitmap s.mem hdr,
        (memWord s.mem (s.recordAddr k + 12)).toNat⟩ := by
  unfold State.recordDraw at h
  dsimp only at h
  split at h
  next hw =>
    split at h
    · cases h
    · cases h
    next hdr hf =>
      injection h with h
      exact ⟨hw, hdr, hf, h.symm⟩
  · cases h

theorem State.recordDraw_of_unwanted {s : State} {k : Nat} (h : s.recordWanted k = false) : s.recordDraw k = none :=
  if_neg (by simp [h])

theorem State.recordDraw_of_none {s : State} {k : Nat} (h : s.recordFrame k = .none) : s.recordDraw k = none := by
  unfold State.recordDraw
  rw [h]
  split <;> rfl

theorem State.recordDraw_of_header {s : State} {k hdr : Nat} (hw : s.recordWanted k = true) (h : s.recordFrame k = .header hdr) :
    s.recordDraw k = some ⟨(memHalf s.mem (s.recordAddr k)).toInt, (memHalf s.mem (s.recordAddr k + 2)).toInt,
      readBitmap s.mem hdr, (memWord s.mem (s.recordAddr k + 12)).toNat⟩ := by
  unfold State.recordDraw
  rw [h]
  exact if_pos hw

theorem State.cursorDraw_of_wanted {s : State} (h : s.cursorWanted = true) :
    s.cursorDraw = some ⟨s.cursorPos.1, s.cursorPos.2, readBitmap s.mem s.cursor.bmp.toNat, s.cursor.bg.toNat⟩ :=
  if_pos h

theorem State.cursorDraw_eq_some {s : State} {d : Draw} (h : s.cursorDraw = some d) : s.cursorWanted = true ∧
    d = ⟨s.cursorPos.1, s.cursorPos.2, readBitmap s.mem s.cursor.bmp.toNat, s.cursor.bg.toNat⟩ := by
  unfold State.cursorDraw at h
  split at h
  next hw => exact ⟨hw, (Option.some.inj h).symm⟩
  · cases h

theorem State.cursorDraw_of_unwanted {s : State} (h : s.cursorWanted = false) : s.cursorDraw = none := if_neg (by simp [h])

/-! ### One record of a show pass -/

theorem State.showRecord_of_unwanted {s : State} {k : Nat} (hbad : s.recordBad k = none) (h : s.recordWanted k = false) :
    s.showRecord k = s := by
  unfold State.recordWanted at h
  unfold State.showRecord
  rw [hbad]
  simp only [Bool.and_eq_false_iff, Bool.not_eq_false', Bool.and_eq_true] at h ⊢
  split
  · rfl
  next hvisible => rw [if_pos (h.resolve_left hvisible)]

theorem State.showRecord_of_wanted {s : State} {k : Nat} (hbad : s.recordBad k = none) (h : s.recordWanted k = true) :
    (s.recordFrame k = .none → s.showRecord k = s) ∧
      ∀ hdr, s.recordFrame k = .header hdr → s.showRecord k = s.drawRecord k hdr := by
  unfold State.recordWanted at h
  simp only [Bool.and_eq_true, Bool.not_eq_true', ← Bool.not_eq_true] at h
  obtain ⟨hvisible, hdrawn⟩ := h
  constructor
  · intro hf
    unfold State.showRecord
    rw [hbad]
    dsimp only
    rw [if_neg (by simp [hvisible]), if_neg hdrawn, hf]
  · intro hdr hf
    unfold State.showRecord
    rw [hbad]
    dsimp only
    rw [if_neg (by simp [hvisible]), if_neg hdrawn, hf]

/-- A record's draw with its bookkeeping, of a sprite that is not static and has no bad byte. -/
theorem State.drawRecord_eq {s : State} {k hdr : Nat} {d : Draw}
    (hd : d = ⟨(memHalf s.mem (s.recordAddr k)).toInt, (memHalf s.mem (s.recordAddr k + 2)).toInt, readBitmap s.mem hdr,
      (memWord s.mem (s.recordAddr k + 12)).toNat⟩)
    (hsprite : s.spriteBad d.sx d.sy d.bitmap d.buffer = none)
    (hstatic : (memByte s.mem (s.recordAddr k + 16)).getLsbD 1 = false) :
    s.drawRecord k hdr = s.setMem (s.showDraw (some k) d s.mem) := by
  have hcomposite := composite_of_fixed (fixed_setMem s (s.saveFields d s.mem (some k))) d
  have hdrawn : s.drawRecord k hdr =
      ((s.setMem (s.saveFields d s.mem (some k))).composite d.sx d.sy d.bitmap d.buffer).setRecordPriv k 0x01#8 := by
    subst hd
    unfold State.drawRecord
    dsimp only at hsprite ⊢
    rw [hsprite, hstatic, State.saveFields, State.drawArea]
    dsimp only
    rw [if_neg Bool.false_ne_true]
  rw [hdrawn, hcomposite, State.setMem_mem, State.showDraw]
  generalize s.saveFields d s.mem (some k) = saved
  generalize s.drawMem d saved = drawn
  rfl

/-- Showing a readable record that is not a static sprite is showing its slot (45_sprites R432). -/
theorem State.showRecord_eq {s : State} {k : Nat} (hbad : s.recordBad k = none)
    (hframe : s.recordWanted k = true → ∀ fa, s.recordFrame k ≠ .bad fa)
    (hstatic : s.recordWanted k = true → (memByte s.mem (s.recordAddr k + 16)).getLsbD 1 = false)
    (hsprite : ∀ d, s.recordDraw k = some d → s.spriteBad d.sx d.sy d.bitmap d.buffer = none) :
    s.showRecord k = s.setMem (s.showSlot s.mem (some k)) := by
  cases hw : s.recordWanted k with
  | false =>
    rw [State.showRecord_of_unwanted hbad hw, State.showSlot_of_none (o := some k) (State.recordDraw_of_unwanted hw)]
    rfl
  | true =>
    obtain ⟨hnone, hheader⟩ := State.showRecord_of_wanted hbad hw
    cases hf : s.recordFrame k with
    | none =>
      rw [hnone hf, State.showSlot_of_none (o := some k) (State.recordDraw_of_none hf)]
      rfl
    | bad fa => exact absurd hf (hframe hw fa)
    | header hdr =>
      have hdraw := State.recordDraw_of_header hw hf
      rw [hheader hdr hf, State.showSlot_of_some (o := some k) hdraw]
      exact State.drawRecord_eq rfl (hsprite _ hdraw) (hstatic hw)

/-! ### States that a show pass sees alike -/

/-- A state that a show pass sees as it sees `u`: it differs where no pass input is. -/
structure State.ShowsAs (u x : State) : Prop where
  fixed : x.fixed = u.fixed
  input : agreeOn u.passInput x.mem u.mem

/-- The `PRIV` byte of record `k` in `m` is that of `u`, if the record is not drawn. -/
def State.privKept (u : State) (m : Memory) (k : Nat) : Prop :=
  u.recordDraw k = none → memByte m (u.recordAddr k + 17) = u.recordPriv k

theorem agreeOn.memHalf {A : Nat → Prop} {m m' : Memory} (h : agreeOn A m m') {a : Nat}
    (hrun : ∀ j < 2, A (wrapAddr (a + j))) : memHalf m a = memHalf m' a :=
  congrArg _ (h.memReadLe hrun)

theorem agreeOn.memWord {A : Nat → Prop} {m m' : Memory} (h : agreeOn A m m') {a : Nat}
    (hrun : ∀ j < 4, A (wrapAddr (a + j))) : memWord m a = memWord m' a :=
  congrArg _ (h.memReadLe hrun)

theorem agreeOn.readBitmap {A : Nat → Prop} {m m' : Memory} (h : agreeOn A m m') {a : Nat}
    (hrun : ∀ j < 8, A (wrapAddr (a + j))) : readBitmap m a = readBitmap m' a := by
  have hpart {i n : Nat} (hn : i + n ≤ 8) : ∀ j < n, A (wrapAddr (a + i + j)) := fun j hj => by
    rw [Nat.add_assoc]
    exact hrun _ (by omega)
  unfold Machine.readBitmap
  rw [h.memHalf fun j hj => hrun j (by omega), h.memHalf (hpart (i := 2) (by omega)),
    h.memWord (hpart (i := 4) (by omega))]

/-- The first 17 bytes of a record are inputs of a pass. -/
theorem State.passInput_record {s : State} {k i n : Nat} (hk : k < s.recordCount) (hn : i + n ≤ 17) :
    ∀ j < n, s.passInput (wrapAddr (s.recordAddr k + i + j)) :=
  fun j hj => .inl ⟨k, hk, .inl ⟨i + j, by omega, by rw [Nat.add_assoc]⟩⟩

/-- A settled state draws no static sprite (45_sprites R438). -/
theorem State.passSettled.not_static {u : State} (hu : u.passSettled) {k : Nat} (hk : k < u.recordCount)
    (hw : u.recordWanted k = true) : (memByte u.mem (u.recordAddr k + 16)).getLsbD 1 = false := by
  simp only [State.recordWanted, Bool.and_eq_true, Bool.not_eq_true', Bool.and_eq_false_iff] at hw
  obtain ⟨hvisible, hdrawn⟩ := hw
  by_contra hstatic
  have hstatic := Bool.not_eq_false _ ▸ hstatic
  have hpriv := (hu.2 k hk).2 hvisible hstatic
  rw [hstatic, hpriv] at hdrawn
  simp at hdrawn

variable {u x : State}

theorem State.ShowsAs.flags (h : u.ShowsAs x) {k : Nat} (hk : k < u.recordCount) :
    memByte x.mem (x.recordAddr k + 16) = memByte u.mem (u.recordAddr k + 16) := by
  rw [recordAddr_of_fixed h.fixed]
  exact h.input _ (State.passInput_record (n := 1) hk (by omega) 0 Nat.one_pos)

theorem State.ShowsAs.recordWanted (h : u.ShowsAs x) (hu : u.passSettled) {k : Nat} (hk : k < u.recordCount)
    (hpriv : u.privKept x.mem k) : x.recordWanted k = u.recordWanted k := by
  have hflags := h.flags hk
  cases hw : u.recordWanted k with
  | true =>
    have hstatic := hu.not_static hk hw
    simp only [State.recordWanted, Bool.and_eq_true] at hw
    simp only [State.recordWanted, hflags, hstatic, hw.1, Bool.false_and, Bool.not_false, Bool.and_self]
  | false =>
    have hkept : x.recordPriv k = u.recordPriv k := by
      rw [State.recordPriv, recordAddr_of_fixed h.fixed]
      exact hpriv (State.recordDraw_of_unwanted hw)
    rw [← hw, State.recordWanted, State.recordWanted, hflags, hkept]

theorem State.ShowsAs.recordFrame (h : u.ShowsAs x) {k : Nat} (hk : k < u.recordCount) (hw : u.recordWanted k = true) :
    x.recordFrame k = u.recordFrame k := by
  unfold State.recordFrame
  dsimp only
  rw [recordAddr_of_fixed h.fixed, h.input.memWord (State.passInput_record hk (by omega)),
    h.input.memHalf (State.passInput_record (i := 10) hk (by omega)),
    h.input.memHalf (State.passInput_record (i := 8) hk (by omega))]
  simp only [lowestBad_of_fixed h.fixed]
  split
  · rfl
  next hframe =>
    obtain ⟨hcur, hframes⟩ := not_or.1 hframe
    rw [h.input.memWord fun j hj =>
      .inl ⟨k, hk, .inr ⟨hw, .inl ⟨hframes, Nat.lt_of_not_le hcur, j, hj, rfl⟩⟩⟩]

theorem State.ShowsAs.recordDraw (h : u.ShowsAs x) (hu : u.passSettled) {k : Nat} (hk : k < u.recordCount)
    (hpriv : u.privKept x.mem k) : x.recordDraw k = u.recordDraw k := by
  have hwanted := h.recordWanted hu hk hpriv
  cases hw : u.recordWanted k with
  | false => rw [State.recordDraw_of_unwanted hw, State.recordDraw_of_unwanted (hwanted.trans hw)]
  | true =>
    have hframe := h.recordFrame hk hw
    have haddr := recordAddr_of_fixed h.fixed k
    cases hf : u.recordFrame k with
    | none => rw [State.recordDraw_of_none hf, State.recordDraw_of_none (hframe.trans hf)]
    | bad fa => simp [State.recordDraw, hwanted, hw, hframe, hf]
    | header hdr =>
      rw [State.recordDraw_of_header hw hf, State.recordDraw_of_header (hwanted.trans hw) (hframe.trans hf), haddr,
        h.input.memHalf (a := u.recordAddr k) fun j hj => .inl ⟨k, hk, .inl ⟨j, by omega, rfl⟩⟩,
        h.input.memHalf (State.passInput_record (i := 2) hk (by omega)),
        h.input.memWord (State.passInput_record (i := 12) hk (by omega)),
        h.input.readBitmap fun j hj => .inl ⟨k, hk, .inr ⟨hw, .inr ⟨hdr, hf, j, hj, rfl⟩⟩⟩]

theorem State.ShowsAs.cursorDraw (h : u.ShowsAs x) : x.cursorDraw = u.cursorDraw := by
  have hwanted := cursorWanted_of_fixed h.fixed
  have hbmp : x.cursor.bmp = u.cursor.bmp := (congrArg (fun s => s.cursor.bmp) h.fixed :)
  have hbg : x.cursor.bg = u.cursor.bg := (congrArg (fun s => s.cursor.bg) h.fixed :)
  cases hw : u.cursorWanted with
  | false => rw [State.cursorDraw_of_unwanted hw, State.cursorDraw_of_unwanted (hwanted.trans hw)]
  | true =>
    rw [State.cursorDraw_of_wanted hw, State.cursorDraw_of_wanted (hwanted.trans hw), cursorPos_of_fixed h.fixed, hbmp, hbg,
      h.input.readBitmap fun j hj => .inr (.inl ⟨hw, j, hj, rfl⟩)]

/-- No byte of a draw of a readable pass is bad. -/
theorem State.passReadable.spriteBad (hu : u.passReadable) {d : Draw} (hd : d ∈ u.draws) (hx : x.fixed = u.fixed) :
    x.spriteBad d.sx d.sy d.bitmap d.buffer = none := by
  have harea : x.spriteArea d.sx d.sy d.bitmap = u.drawArea d := spriteArea_of_fixed hx _ _ _
  have hbuffer : lowestBad u (byteRange d.buffer ((u.drawArea d).w * (u.drawArea d).h)) = none :=
    lowestBad_eq_none.2 fun a ha => hu.2.2 d hd a (.inl (mem_byteRange.1 ha))
  have hsource : lowestBad u ((gridPoints (u.drawArea d).w (u.drawArea d).h).map
      (spriteSource d.sx d.sy d.bitmap (u.drawArea d))) = none := by
    refine lowestBad_eq_none.2 fun a ha => ?_
    obtain ⟨q, hq, rfl⟩ := List.mem_map.1 ha
    exact hu.2.2 d hd _ (.inr ⟨q.1, q.2, (mem_gridPoints.1 hq).1, (mem_gridPoints.1 hq).2, rfl⟩)
  unfold State.spriteBad
  rw [harea]
  simp only [lowestBad_of_fixed hx, hbuffer, hsource]

theorem State.passReadable.recordBad (hu : u.passReadable) (hx : x.fixed = u.fixed) {k : Nat} (hk : k < u.recordCount) :
    x.recordBad k = none := by
  rw [recordBad_of_fixed hx]
  exact lowestBad_byteRange.2 (hu.1 k hk).1

theorem showSlot_of_fixed (hx : x.fixed = u.fixed) {o : Option Nat} (hd : x.slotDraw o = u.slotDraw o) (m : Memory) :
    x.showSlot m o = u.showSlot m o := by
  unfold State.showSlot
  rw [hd]
  split
  · show x.fixed.showDraw o _ m = u.fixed.showDraw o _ m
    rw [hx]
  · rfl

/-- What the pass does to a record is what it does to the record's slot. -/
theorem State.ShowsAs.showRecord (h : u.ShowsAs x) (hr : u.passReadable) (hu : u.passSettled) {k : Nat} (hk : k < u.recordCount)
    (hpriv : u.privKept x.mem k) : x.showRecord k = x.setMem (u.showSlot x.mem (some k)) := by
  have hwanted := h.recordWanted hu hk hpriv
  have hdraw := h.recordDraw hu hk hpriv
  rw [← showSlot_of_fixed h.fixed (o := some k) hdraw]
  refine State.showRecord_eq (hr.recordBad h.fixed hk) (fun hw fa => ?_) (fun hw => ?_) (fun d hd => ?_)
  · rw [h.recordFrame hk (hwanted ▸ hw)]
    exact (hr.1 k hk).2 (hwanted ▸ hw) fa
  · rw [h.flags hk]
    exact hu.not_static hk (hwanted ▸ hw)
  · exact hr.spriteBad (State.slotDraw_mem_draws (o := some k) (State.some_mem_slots.2 hk) (hdraw.symm.trans hd)) h.fixed

theorem State.recordPriv_showSlot {k : Nat} {d : Draw} (hd : u.recordDraw k = some d) (m : Memory) :
    memByte (u.showSlot m (some k)) (u.recordAddr k + 17) = 0x01#8 := by
  rw [State.showSlot_of_some (o := some k) hd, State.showDraw, State.writePriv, memByte_memStore, if_pos rfl]

/-- A record has `ALLOWDRAW` after its part of the pass exactly when the pass draws it (45_sprites R432). -/
theorem State.ShowsAs.recordShown (h : u.ShowsAs x) (hr : u.passReadable) (hu : u.passSettled) {k : Nat}
    (hk : k < u.recordCount) (hpriv : u.privKept x.mem k) : (x.showRecord k).recordShown k = (u.recordDraw k).isSome := by
  have hbad : (x.setMem (u.showSlot x.mem (some k))).recordBad k = none :=
    hr.recordBad ((fixed_setMem _ _).trans h.fixed) hk
  have haddr : (x.setMem (u.showSlot x.mem (some k))).recordAddr k = u.recordAddr k := recordAddr_of_fixed h.fixed k
  rw [h.showRecord hr hu hk hpriv, State.recordShown, hbad, State.recordPriv, haddr, State.setMem_mem]
  cases hd : u.recordDraw k with
  | none => rw [State.showSlot_of_none (o := some k) hd, hpriv hd, (hu.2 k hk).1]; rfl
  | some d => rw [State.recordPriv_showSlot hd]; rfl

/-! ### The show pass -/

/-- The `PRIV` byte is the first of a record's bookkeeping bytes. -/
theorem State.privByte_self (s : State) (k : Nat) : s.slotFields (some k) (wrapAddr (s.recordAddr k + 17)) := .inl rfl

/-- Showing a slot writes no bookkeeping byte of another slot. -/
theorem State.passApart.memByte_showSlot_fields (hs : u.passApart) {o o' : Option Nat} (ho : o ∈ u.slots) (ho' : o' ∈ u.slots)
    (hne : o ≠ o') {a : Nat} (ha : u.slotFields o' (wrapAddr a)) (m : Memory) :
    memByte (u.showSlot m o) a = memByte m a := by
  refine State.memByte_showSlot_of_not (fun h => hs.slotWrites_fields ho ho' hne _ h ha) (fun h => ?_) m
  cases o' with
  | none => exact ha
  | some k => exact (hs.2.2.1 k (State.some_mem_slots.1 ho')).2.1 _ ha h

theorem State.passApart.showsAs_showSlot (hs : u.passApart) {o : Option Nat} (ho : o ∈ u.slots) (h : u.ShowsAs x) :
    u.ShowsAs (x.setMem (u.showSlot x.mem o)) where
  fixed := h.fixed
  input := fun a ha => by
    rw [← h.input a ha]
    exact State.memByte_showSlot_of_not (fun hw => hs.slotWrites_input ho _ hw ha) (hs.2.1 _ ha) x.mem

theorem State.passApart.showsAs_foldl_showSlot (hs : u.passApart) {l : List (Option Nat)} (hl : ∀ o ∈ l, o ∈ u.slots)
    (h : u.ShowsAs x) : u.ShowsAs (x.setMem (l.foldl u.showSlot x.mem)) := by
  induction l generalizing x with
  | nil => exact h
  | cons o l ih =>
    obtain ⟨ho, hl⟩ := List.forall_mem_cons.1 hl
    exact ih hl (hs.showsAs_showSlot ho h)

/-- The records of a show pass, shown one after the other. -/
theorem State.ShowsAs.foldl_showStep (hs : u.passApart) (hr : u.passReadable) (hu : u.passSettled) {l : List Nat}
    (hl : ∀ k ∈ l, k < u.recordCount) (hnodup : l.Nodup) (h : u.ShowsAs x) (hpriv : ∀ k ∈ l, u.privKept x.mem k) (b : Bool) :
    l.foldl showStep (x, b) =
      (x.setMem ((l.map some).foldl u.showSlot x.mem), b || l.any (fun k => (u.recordDraw k).isSome)) := by
  induction l generalizing x b with
  | nil => simp [State.setMem]
  | cons k l ih =>
    obtain ⟨hk, hl⟩ := List.forall_mem_cons.1 hl
    obtain ⟨hpk, hpl⟩ := List.forall_mem_cons.1 hpriv
    obtain ⟨hnot, hnodup⟩ := List.nodup_cons.1 hnodup
    have hstep : showStep (x, b) k = (x.setMem (u.showSlot x.mem (some k)), b || (u.recordDraw k).isSome) := by
      rw [showStep, h.recordShown hr hu hk hpk, h.showRecord hr hu hk hpk]
    have hkept : ∀ j ∈ l, u.privKept (u.showSlot x.mem (some k)) j := fun j hj hd => by
      rw [← hpl j hj hd]
      refine hs.memByte_showSlot_fields (State.some_mem_slots.2 hk) (State.some_mem_slots.2 (hl j hj)) ?_
        (u.privByte_self j) x.mem
      rintro ⟨rfl⟩
      exact hnot hj
    rw [List.foldl_cons, hstep, ih hl hnodup (hs.showsAs_showSlot (State.some_mem_slots.2 hk) h) hkept, List.any_cons,
      Bool.or_assoc]
    rfl

/-- The cursor's registers after its draw (45_sprites R432). -/
def State.shownCursor (s : State) (c : Cursor) : Cursor :=
  match s.cursorDraw with
  | some d => { c with
      saved0 := pairWord (BitVec.ofNat 16 (s.drawArea d).x) (BitVec.ofNat 16 (s.drawArea d).y)
      saved1 := pairWord (BitVec.ofNat 16 (s.drawArea d).w) (BitVec.ofNat 16 (s.drawArea d).h)
      allowDraw := true }
  | none => c

theorem State.shownCursor_of_some {s : State} {d : Draw} (hd : s.cursorDraw = some d) (c : Cursor) : s.shownCursor c = { c with
    saved0 := pairWord (BitVec.ofNat 16 (s.drawArea d).x) (BitVec.ofNat 16 (s.drawArea d).y)
    saved1 := pairWord (BitVec.ofNat 16 (s.drawArea d).w) (BitVec.ofNat 16 (s.drawArea d).h)
    allowDraw := true } := by
  rw [State.shownCursor, hd]

theorem State.shownCursor_of_none {s : State} (hd : s.cursorDraw = none) (c : Cursor) : s.shownCursor c = c := by
  rw [State.shownCursor, hd]

theorem State.ShowsAs.drawCursor (h : u.ShowsAs x) (hr : u.passReadable) {d : Draw} (hd : u.cursorDraw = some d) :
    x.drawCursor = { x with mem := u.drawMem d x.mem, cursor := u.shownCursor x.cursor } := by
  obtain ⟨hw, -⟩ := State.cursorDraw_eq_some hd
  have hxw : x.cursorWanted = true := (cursorWanted_of_fixed h.fixed).trans hw
  have hbmp : x.cursor.bmp = u.cursor.bmp := (congrArg (fun s => s.cursor.bmp) h.fixed :)
  have hbad : lowestBad x (byteRange x.cursor.bmp.toNat 8) = none := by
    rw [lowestBad_of_fixed h.fixed, hbmp]
    exact lowestBad_byteRange.2 (hr.2.1 hw)
  obtain ⟨-, hdraw⟩ := State.cursorDraw_eq_some (h.cursorDraw.trans hd)
  have hsprite := hr.spriteBad (State.slotDraw_mem_draws u.none_mem_slots hd) h.fixed
  have harea : x.drawArea d = u.drawArea d := spriteArea_of_fixed h.fixed _ _ _
  rw [State.shownCursor_of_some hd, ← drawMem_of_fixed h.fixed, ← harea]
  subst hdraw
  rw [State.drawCursor, hbad]
  dsimp only
  rw [hsprite]
  rfl

theorem State.ShowsAs.showFinish (h : u.ShowsAs x) (hr : u.passReadable) (b : Bool) : x.showFinish b = { x with
    mem := u.showSlot x.mem none
    cursor := u.shownCursor x.cursor
    comp := { x.comp with shown := (u.shownCursor x.cursor).allowDraw || b, phase := .idle } } := by
  have hwanted := cursorWanted_of_fixed h.fixed
  unfold State.showFinish
  cases hw : u.cursorWanted with
  | false =>
    have hd := State.cursorDraw_of_unwanted hw
    rw [hwanted, hw, State.showSlot_of_none (o := none) hd, State.shownCursor_of_none hd]
    rfl
  | true =>
    have hd := State.cursorDraw_of_wanted hw
    rw [hwanted, hw, if_pos rfl, h.drawCursor hr hd, State.showSlot_of_some (o := none) hd]
    rfl

/-- A show pass: its slots shown in order, the cursor's registers and the flags (45_sprites R432). -/
theorem State.ShowsAs.showPass (hs : u.passApart) (hr : u.passReadable) (hu : u.passSettled) (h : u.ShowsAs x)
    (hpriv : ∀ k < u.recordCount, u.privKept x.mem k) : x.showPass = { x with
      mem := u.slots.foldl u.showSlot x.mem
      cursor := u.shownCursor x.cursor
      comp := ⟨false, (u.shownCursor x.cursor).allowDraw || (List.range u.recordCount).any (fun k => (u.recordDraw k).isSome),
        .idle⟩ } := by
  have hstart : u.ShowsAs x.showStart := ⟨h.fixed, h.input⟩
  have hrecords := hstart.foldl_showStep hs hr hu (l := List.range u.recordCount) (fun k hk => List.mem_range.1 hk)
    List.nodup_range (fun k hk => hpriv k (List.mem_range.1 hk)) false
  have hshown : u.ShowsAs (x.showStart.setMem (((List.range u.recordCount).map some).foldl u.showSlot x.showStart.mem)) :=
    hs.showsAs_foldl_showSlot (fun o ho => List.mem_append_left _ ho) hstart
  rw [State.showPass, recordCount_of_fixed h.fixed, hrecords]
  dsimp only
  rw [hshown.showFinish hr, State.slots, List.foldl_append, Bool.false_or]
  rfl

end Sys2Proof.Machine
end

section
/-!
# The hide pass after a show pass, and the identity R447 (45_sprites R431, R437, R447)
-/

namespace Sys2Proof.Machine

variable {u x : State}

/-! ### What a show pass leaves in a record -/

/-- The `SAVED_*` fields of a record, first byte first. -/
theorem SavedArea.bytes_eq (r : SavedArea) : r.bytes = [BitVec.ofNat 8 r.x, BitVec.ofNat 8 (r.x >>> 8), BitVec.ofNat 8 r.y,
    BitVec.ofNat 8 (r.y >>> 8), BitVec.ofNat 8 r.w, BitVec.ofNat 8 (r.w >>> 8), BitVec.ofNat 8 r.h,
    BitVec.ofNat 8 (r.h >>> 8)] := rfl

theorem toNat_memHalf_of_bytes {m : Memory} {a v : Nat} (hlow : memByte m a = BitVec.ofNat 8 v)
    (hhigh : memByte m (a + 1) = BitVec.ofNat 8 (v >>> 8)) (hv : v < 65536) : (memHalf m a).toNat = v := by
  have hbytes : ∀ j < 2, memByte m (a + j) = BitVec.ofNat 8 (v >>> (8 * j)) := fun j hj => by
    obtain rfl | rfl : j = 0 ∨ j = 1 := by omega
    · exact hlow
    · exact hhigh
  rw [memHalf, memReadLe_of_bytes hbytes, BitVec.toNat_ofNat]
  omega

/-- A record that the show pass drew has `ALLOWDRAW` and its saved area; one that it did not draw has no `ALLOWDRAW`. -/
structure State.FieldsShown (u : State) (m : Memory) (k : Nat) : Prop where
  undrawn : u.recordDraw k = none → (memByte m (u.recordAddr k + 17)).getLsbD 0 = false
  priv : ∀ d, u.recordDraw k = some d → memByte m (u.recordAddr k + 17) = 0x01#8
  saved : ∀ d, u.recordDraw k = some d → ∀ j (hj : j < 8),
    memByte m (u.recordAddr k + 20 + j) = (u.drawArea d).bytes[j]'(by rwa [SavedArea.length_bytes])

/-- A record's bookkeeping tells what its draw was. -/
theorem State.FieldsShown.congr {m m' : Memory} {k : Nat} (h : u.FieldsShown m k)
    (hm : agreeOn (u.slotFields (some k)) m' m) : u.FieldsShown m' k where
  undrawn := fun hd => by rw [hm _ (u.privByte_self k)]; exact h.undrawn hd
  priv := fun d hd => (hm _ (u.privByte_self k)).trans (h.priv d hd)
  saved := fun d hd j hj => (hm _ (.inr ⟨j, hj, rfl⟩)).trans (h.saved d hd j hj)

theorem State.FieldsShown.area {m : Memory} {k : Nat} {d : Draw} (h : u.FieldsShown m k) (hd : u.recordDraw k = some d) :
    (memHalf m (u.recordAddr k + 20)).toInt = (u.drawArea d).x ∧ (memHalf m (u.recordAddr k + 22)).toInt = (u.drawArea d).y ∧
      (memHalf m (u.recordAddr k + 24)).toNat = (u.drawArea d).w ∧
      (memHalf m (u.recordAddr k + 26)).toNat = (u.drawArea d).h := by
  obtain ⟨-, hdr, -, hdraw⟩ := State.recordDraw_eq_some hd
  obtain ⟨hw, hh, hx, hy⟩ := u.drawArea_bounds d
  have hvpw := u.vpw_lt
  have hvph := u.vph_lt
  have hsx : d.sx < 32768 := by rw [hdraw]; exact BitVec.toInt_lt
  have hsy : d.sy < 32768 := by rw [hdraw]; exact BitVec.toInt_lt
  have hsaved := h.saved d hd
  simp only [SavedArea.bytes_eq] at hsaved
  have ex := toNat_memHalf_of_bytes (hsaved 0 (by omega)) (hsaved 1 (by omega)) (by omega)
  have ey := toNat_memHalf_of_bytes (hsaved 2 (by omega)) (hsaved 3 (by omega)) (by omega)
  have ew := toNat_memHalf_of_bytes (hsaved 4 (by omega)) (hsaved 5 (by omega)) (by omega)
  have eh := toNat_memHalf_of_bytes (hsaved 6 (by omega)) (hsaved 7 (by omega)) (by omega)
  refine ⟨?_, ?_, ew, eh⟩
  · rw [BitVec.toInt_eq_toNat_of_lt (by rw [show (memHalf m (u.recordAddr k + 20)).toNat = _ from ex]; omega)]
    exact congrArg _ ex
  · rw [BitVec.toInt_eq_toNat_of_lt (by rw [show (memHalf m (u.recordAddr k + 22)).toNat = _ from ey]; omega)]
    exact congrArg _ ey

/-- Showing a record's slot leaves the bookkeeping of its draw. -/
theorem State.passApart.fieldsShown_showSlot (hs : u.passApart) (hu : u.passSettled) {k : Nat} (hk : k < u.recordCount)
    {m : Memory} (hpriv : u.privKept m k) : u.FieldsShown (u.showSlot m (some k)) k where
  undrawn := fun hd => by
    rw [State.showSlot_of_none (o := some k) hd, hpriv hd]
    exact (hu.2 k hk).1
  priv := fun d hd => State.recordPriv_showSlot hd m
  saved := fun d hd j hj => by
    have hapart := hs.slotApart (State.some_mem_slots.2 hk) (d := d) hd
    have hfield : u.slotFields (some k) (wrapAddr (u.recordAddr k + 20 + j)) := .inr ⟨j, hj, rfl⟩
    have hnot : ¬ u.drawWrites d (wrapAddr (u.recordAddr k + 20 + j)) := by
      rintro (hbuffer | harea)
      · exact hapart.bufferFields _ hbuffer hfield
      · exact hapart.fields _ hfield (State.visiblePixel_of_areaPixel harea)
    have hpriv : wrapAddr (u.recordAddr k + 20 + j) ≠ wrapAddr (u.recordAddr k + 17) := by
      simp only [wrapAddr, addrSpace]
      omega
    rw [State.showSlot_of_some (o := some k) hd, State.showDraw, State.writePriv, memByte_memStore, if_neg hpriv,
      State.memByte_drawMem_of_not hnot]
    refine memByte_memStoreBlock_of_mem _ _ _ _ j _ (by simp [addrSpace]) (List.getElem?_eq_getElem _) ?_
    rw [wrapAddr_add_wrapAddr]

/-- The show pass leaves the bookkeeping of each record's draw. -/
theorem State.passApart.fieldsShown (hs : u.passApart) (hu : u.passSettled) {k : Nat} (hk : k < u.recordCount)
    {m : Memory} (hpriv : u.privKept m k) : u.FieldsShown (u.slots.foldl u.showSlot m) k := by
  have hmem : some k ∈ u.slots := State.some_mem_slots.2 hk
  have hother {l : List (Option Nat)} (hl : ∀ o ∈ l, o ∈ u.slots ∧ o ≠ some k) (m : Memory) :
      agreeOn (u.slotFields (some k)) (l.foldl u.showSlot m) m := fun a ha =>
    memByte_foldl_of_notMem (fun o ho m => hs.memByte_showSlot_fields (hl o ho).1 hmem (hl o ho).2 ha m) m
  obtain ⟨before, after, hslots⟩ := List.append_of_mem hmem
  have hnodup := u.slots_nodup
  rw [hslots, List.nodup_append] at hnodup
  obtain ⟨-, hafter, hbefore⟩ := hnodup
  have hnot : some k ∉ after := (List.nodup_cons.1 hafter).1
  have hin (o : Option Nat) (ho : o ∈ before ∨ o ∈ after) : o ∈ u.slots := by
    rw [hslots, List.mem_append, List.mem_cons]
    exact ho.imp_right .inr
  have hkept : u.privKept (before.foldl u.showSlot m) k := fun hd => by
    rw [← hpriv hd]
    exact hother (fun o ho => ⟨hin o (.inl ho), hbefore o ho _ List.mem_cons_self⟩) m _ (u.privByte_self k)
  rw [hslots, List.foldl_append, List.foldl_cons]
  refine (hs.fieldsShown_showSlot hu hk hkept).congr (hother (fun o ho => ⟨hin o (.inr ho), ?_⟩) _)
  rintro rfl
  exact hnot ho

/-! ### The hide pass -/

/-- A restore whose buffer is readable. -/
theorem State.restoreArea_eq (hx : x.fixed = u.fixed) {d : Draw}
    (hr : ∀ a, u.drawBuffer d a → memOk u a = true) :
    x.restoreArea (u.drawArea d).x (u.drawArea d).y (u.drawArea d).w (u.drawArea d).h d.buffer =
      x.setMem (u.eraseMem d x.mem) := by
  have hbad : lowestBad x (byteRange d.buffer ((u.drawArea d).w * (u.drawArea d).h)) = none := by
    rw [lowestBad_of_fixed hx]
    exact lowestBad_eq_none.2 fun a ha => hr a (mem_byteRange.1 ha)
  have harea : x.drawArea d = u.drawArea d := spriteArea_of_fixed hx _ _ _
  rw [← eraseMem_of_fixed hx, ← harea]
  rw [← harea] at hbad
  unfold State.restoreArea
  rw [hbad]
  rfl

theorem State.passReadable.buffer (hr : u.passReadable) {o : Option Nat} (ho : o ∈ u.slots) {d : Draw}
    (hd : u.slotDraw o = some d) : ∀ a, u.drawBuffer d a → memOk u a = true :=
  fun a ha => hr.2.2 d (State.slotDraw_mem_draws ho hd) a (.inl ha)

/-- What the hide pass does to a record after a show pass is what it does to the record's slot. -/
theorem State.ShowsAs.hideRecord (hs : u.passApart) (hr : u.passReadable) (h : u.ShowsAs x) {k : Nat} (hk : k < u.recordCount)
    (hfields : u.FieldsShown x.mem k) : x.hideRecord k = x.setMem (u.hideSlot x.mem (some k)) := by
  have hbad := hr.recordBad h.fixed hk
  have haddr := recordAddr_of_fixed h.fixed k
  have hpriv : x.recordPriv k = memByte x.mem (u.recordAddr k + 17) := by rw [State.recordPriv, haddr]
  cases hd : u.recordDraw k with
  | none =>
    have hhidden : ¬ (x.recordPriv k).getLsbD 0 = true := by rw [hpriv, hfields.undrawn hd]; nofun
    unfold State.hideRecord
    rw [hbad, State.hideSlot_of_none (o := some k) hd]
    exact if_neg hhidden
  | some d =>
    have hmem : some k ∈ u.slots := State.some_mem_slots.2 hk
    have hshown : (x.recordPriv k).getLsbD 0 = true := by rw [hpriv, hfields.priv d hd]; rfl
    obtain ⟨ex, ey, ew, eh⟩ := hfields.area hd
    obtain ⟨-, hdr, -, hdraw⟩ := State.recordDraw_eq_some hd
    have hbuffer : (memWord x.mem (u.recordAddr k + 12)).toNat = d.buffer := by
      rw [hdraw, h.input.memWord (State.passInput_record (i := 12) hk (by omega))]
    -- The restore does not touch the record's `PRIV` byte.
    have hkept : memByte (u.eraseMem d x.mem) (u.recordAddr k + 17) = 0x01#8 := by
      rw [← hfields.priv d hd]
      exact State.memByte_eraseMem_of_not (fun harea => (hs.slotApart hmem hd).fields _ (u.privByte_self k)
        (State.visiblePixel_of_areaPixel harea)) x.mem
    have haddr' : (x.setMem (u.eraseMem d x.mem)).recordAddr k = u.recordAddr k := haddr
    have hrestored : x.hideRecord k = (x.setMem (u.eraseMem d x.mem)).setRecordPriv k
        (privHidden ((x.setMem (u.eraseMem d x.mem)).recordPriv k)) := by
      unfold State.hideRecord
      rw [hbad]
      dsimp only
      rw [if_pos hshown, haddr, ex, ey, ew, eh, hbuffer, State.restoreArea_eq h.fixed (hr.buffer hmem hd)]
    rw [hrestored, State.recordPriv, haddr', State.setMem_mem, hkept, State.hideSlot_of_some (o := some k) hd, State.setRecordPriv,
      haddr']
    rfl

/-- Hiding a slot writes no bookkeeping byte of another slot. -/
theorem State.passApart.memByte_hideSlot_fields (hs : u.passApart) {o o' : Option Nat} (ho : o ∈ u.slots) (ho' : o' ∈ u.slots)
    (hne : o ≠ o') {a : Nat} (ha : u.slotFields o' (wrapAddr a)) (m : Memory) :
    memByte (u.hideSlot m o) a = memByte m a := by
  refine State.memByte_hideSlot_of_not (fun h => ?_) (fun h => ?_) m
  · by_contra hd
    obtain ⟨d, hd⟩ := Option.ne_none_iff_exists'.1 hd
    exact hs.slotWrites_fields ho ho' hne _ ⟨d, hd, .inr h⟩ ha
  · cases o' with
    | none => exact ha
    | some k => exact (hs.2.2.1 k (State.some_mem_slots.1 ho')).2.1 _ ha h

theorem State.passApart.showsAs_hideSlot (hs : u.passApart) {o : Option Nat} (ho : o ∈ u.slots) (h : u.ShowsAs x) :
    u.ShowsAs (x.setMem (u.hideSlot x.mem o)) where
  fixed := h.fixed
  input := fun a ha => by
    rw [← h.input a ha]
    refine State.memByte_hideSlot_of_not (fun hw => ?_) (hs.2.1 _ ha) x.mem
    by_contra hd
    obtain ⟨d, hd⟩ := Option.ne_none_iff_exists'.1 hd
    exact hs.slotWrites_input ho _ ⟨d, hd, .inr hw⟩ ha

/-- The records of a hide pass after a show pass, hidden one after the other. -/
theorem State.ShowsAs.foldl_hideRecord (hs : u.passApart) (hr : u.passReadable) {l : List Nat}
    (hl : ∀ k ∈ l, k < u.recordCount) (hnodup : l.Nodup) (h : u.ShowsAs x) (hfields : ∀ k ∈ l, u.FieldsShown x.mem k) :
    l.foldl State.hideRecord x = x.setMem ((l.map some).foldl u.hideSlot x.mem) := by
  induction l generalizing x with
  | nil => rfl
  | cons k l ih =>
    obtain ⟨hk, hl⟩ := List.forall_mem_cons.1 hl
    obtain ⟨hfk, hfl⟩ := List.forall_mem_cons.1 hfields
    obtain ⟨hnot, hnodup⟩ := List.nodup_cons.1 hnodup
    have hkept : ∀ j ∈ l, u.FieldsShown (u.hideSlot x.mem (some k)) j := fun j hj => by
      refine (hfl j hj).congr fun a ha => ?_
      refine hs.memByte_hideSlot_fields (State.some_mem_slots.2 hk) (State.some_mem_slots.2 (hl j hj)) ?_ ha x.mem
      rintro ⟨rfl⟩
      exact hnot hj
    rw [List.foldl_cons, h.hideRecord hs hr hk hfk, ih hl hnodup (hs.showsAs_hideSlot (State.some_mem_slots.2 hk) h) hkept]
    rfl

/-- The cursor's part of a hide pass after a show pass. -/
theorem State.ShowsAs.hideCursor (hr : u.passReadable) (h : u.ShowsAs x) {c : Cursor} (hc : c.allowDraw = false)
    (hx : x.cursor = u.shownCursor c) : x.hideCursor =
      { x with mem := u.hideSlot x.mem none, cursor := { x.cursor with allowDraw := false } } := by
  cases hd : u.cursorDraw with
  | none =>
    rw [State.shownCursor_of_none hd] at hx
    have hhidden : ¬ x.cursor.allowDraw = true := by rw [hx, hc]; nofun
    have hcursor : { x.cursor with allowDraw := false } = x.cursor := by rw [hx, ← hc]
    rw [State.hideCursor, if_neg hhidden, State.hideSlot_of_none (o := none) hd, hcursor]
  | some d =>
    obtain ⟨hw, hh, -, -⟩ := u.drawArea_bounds d
    have hvpw := u.vpw_lt
    have hvph := u.vph_lt
    rw [State.shownCursor_of_some hd] at hx
    have hshown : x.cursor.allowDraw = true := by rw [hx]
    have hnat {n : Nat} (hn : n < 65536) : (BitVec.ofNat 16 n).toNat = n := by rw [BitVec.toNat_ofNat]; omega
    have ex : (loHalf x.cursor.saved0).toNat = (u.drawArea d).x := by rw [hx, loHalf_pairWord, hnat (by omega)]
    have ey : (hiHalf x.cursor.saved0).toNat = (u.drawArea d).y := by rw [hx, hiHalf_pairWord, hnat (by omega)]
    have ew : (loHalf x.cursor.saved1).toNat = (u.drawArea d).w := by rw [hx, loHalf_pairWord, hnat (by omega)]
    have eh : (hiHalf x.cursor.saved1).toNat = (u.drawArea d).h := by rw [hx, hiHalf_pairWord, hnat (by omega)]
    have hbg : x.cursor.bg = u.cursor.bg := (congrArg (fun s => s.cursor.bg) h.fixed :)
    have hbuffer : x.cursor.bg.toNat = d.buffer := by
      obtain ⟨-, hdraw⟩ := State.cursorDraw_eq_some hd
      rw [hbg, hdraw]
    rw [State.hideCursor, if_pos hshown, ex, ey, ew, eh, hbuffer,
      State.restoreArea_eq h.fixed (hr.buffer u.none_mem_slots hd), State.hideSlot_of_some (o := none) hd]
    rfl

/-- A hide pass after a show pass: its slots hidden in reverse order, and the flags (45_sprites R431). -/
theorem State.ShowsAs.hidePass (hs : u.passApart) (hr : u.passReadable) (h : u.ShowsAs x) {c : Cursor} (hc : c.allowDraw = false)
    (hx : x.cursor = u.shownCursor c) (hfields : ∀ k < u.recordCount, u.FieldsShown x.mem k) : x.hidePass = { x with
      mem := u.slots.reverse.foldl u.hideSlot x.mem
      cursor := { x.cursor with allowDraw := false }
      comp := { x.comp with shown := false, phase := .settled } } := by
  have hcursor := h.hideCursor hr hc hx
  have hhidden : u.ShowsAs x.hideCursor :=
    ⟨(fixed_hideCursor x).trans h.fixed, hcursor ▸ (hs.showsAs_hideSlot u.none_mem_slots h).input⟩
  have hkept : ∀ k ∈ (List.range u.recordCount).reverse, u.FieldsShown x.hideCursor.mem k := fun k hk => by
    have hk := List.mem_range.1 (List.mem_reverse.1 hk)
    rw [hcursor]
    exact (hfields k hk).congr fun a ha =>
      hs.memByte_hideSlot_fields u.none_mem_slots (State.some_mem_slots.2 hk) nofun ha x.mem
  have hrecords := hhidden.foldl_hideRecord hs hr (fun k hk => List.mem_range.1 (List.mem_reverse.1 hk))
    (List.nodup_reverse.2 List.nodup_range) hkept
  rw [State.hidePass, recordCount_of_fixed h.fixed, hrecords, hcursor, State.slots, List.reverse_append, List.foldl_append,
    List.map_reverse]
  rfl

/-! ### The identity -/

/-- Outside the save buffers and the bookkeeping, a hide pass after a show pass gives back all that there was. -/
theorem State.passApart.memByte_hidden (hs : u.passApart) {a : Nat} (ha : ∀ o ∈ u.slots, ¬ u.slotWrites o (wrapAddr a)) :
    memByte (u.slots.reverse.foldl u.hideSlot (u.slots.foldl u.showSlot u.mem)) a = memByte u.mem a :=
  hs.memByte_hide_show (fun _ ho => ho) hs.pairwise u.mem ha

/-- The bookkeeping of a record that is not drawn is written for no slot. -/
theorem State.passApart.not_slotWrites_undrawn (hs : u.passApart) {k : Nat} (hk : k < u.recordCount) (hd : u.recordDraw k = none)
    {a : Nat} (ha : u.slotFields (some k) a) : ∀ o ∈ u.slots, ¬ u.slotWrites o a := by
  intro o ho hw
  by_cases hne : o = some k
  · subst hne
    obtain ⟨d, hd', -⟩ := hw
    rw [show u.slotDraw (some k) = none from hd] at hd'
    cases hd'
  · exact hs.slotWrites_fields ho (State.some_mem_slots.2 hk) hne a hw ha

/-- Where no fault occurs, the buffers lie apart, nothing is shown and no static sprite is still to be drawn, a hide pass undoes a
show pass, and a show pass after it does the same again (45_sprites R447). -/
theorem State.show_hide_show (hs : u.passApart) (hr : u.passReadable) (hu : u.passSettled) :
    (∀ a, u.visiblePixel (wrapAddr a) → memByte u.showPass.hidePass.mem a = memByte u.mem a) ∧
      sameBytes u.showPass u.showPass.hidePass.showPass ∧
      u.showPass.hidePass.showPass = { u.showPass with mem := u.showPass.hidePass.showPass.mem } := by
  have hself : u.ShowsAs u := ⟨rfl, fun _ _ => rfl⟩
  have hshow := hself.showPass hs hr hu (fun _ _ _ => rfl)
  have hshown : u.ShowsAs u.showPass :=
    ⟨fixed_showPass u, hshow ▸ (hs.showsAs_foldl_showSlot (fun _ ho => ho) hself).input⟩
  have hfields : ∀ k < u.recordCount, u.FieldsShown u.showPass.mem k := fun k hk => by
    rw [hshow]
    exact hs.fieldsShown hu hk fun _ => rfl
  have hhide := hshown.hidePass hs hr hu.1 (congrArg State.cursor hshow) hfields
  have hmem : u.showPass.hidePass.mem = u.slots.reverse.foldl u.hideSlot (u.slots.foldl u.showSlot u.mem) := by
    rw [hhide, hshow]
  have hback {a : Nat} (ha : ∀ o ∈ u.slots, ¬ u.slotWrites o (wrapAddr a)) :
      memByte u.showPass.hidePass.mem a = memByte u.mem a := by
    rw [hmem]
    exact hs.memByte_hidden ha
  have hhidden : u.ShowsAs u.showPass.hidePass := ⟨(fixed_hidePass _).trans (fixed_showPass u), fun a ha =>
    hback fun o ho hw => hs.slotWrites_input ho _ hw ha⟩
  have hagain := hhidden.showPass hs hr hu fun k hk hd => hback (hs.not_slotWrites_undrawn hk hd (u.privByte_self k))
  refine ⟨fun a ha => hback fun o ho hw => hs.slotWrites_visible ho _ hw ha, fun a => ?_, ?_⟩
  · rw [hagain, hshow]
    rw [hshow] at hback
    exact hs.memByte_show_congr (fun a ha => hback ha) a
  · -- The cursor's registers and the flags depend on the draws alone, which are the same.
    have hcursor : u.shownCursor { u.shownCursor u.cursor with allowDraw := false } = u.shownCursor u.cursor := by
      cases hd : u.cursorDraw with
      | none =>
        simp only [State.shownCursor_of_none hd]
        rw [← hu.1]
      | some d => simp only [State.shownCursor_of_some hd]
    rw [hagain, hhide, hshow]
    simp only [hcursor]

/-- Settles O14: the steps of each pass are its fold over records and cursor, and the identity is `State.show_hide_show`. -/
theorem hideStepsAreHidePass : Obligations.HideStepsAreHidePass :=
  ⟨fun _ _ hw => State.exeRun_hideSteps hw, fun _ _ hw => State.exeRun_showBegin hw, fun _ _ hw => State.exeRun_refresh hw,
    fun _ hs hr hu => State.show_hide_show hs hr hu⟩

end Sys2Proof.Machine
end

section
/-!
# Drawing stays in `CLIPVP` (42_paint R303, R304)

Every write set of a drawing command names pixels in `CLIPVP` only, whichever way the command clips: point by point as `PLOT` does,
or by intersecting its box with `CLIPVP` before it goes through the points.
-/

namespace Sys2Proof.Machine

/-- A write set whose cells are all those of frame-buffer pixels in `CLIPVP`. -/
def State.cellsInClip (s : State) (cs : List (Nat × Byte)) : Prop :=
  ∀ c ∈ cs, ∃ p : Point, s.clipVp.has p = true ∧ c.1 = s.fbAddr p.1 p.2

/-- A step whose stores are all to frame-buffer pixels in `CLIPVP`. -/
def State.drawsInClip (s t : State) : Prop := storesOnly (s.clippedPixel (fun _ => True)) s t

theorem State.drawsInClip_of_mem {s t : State} (h : t.mem = s.mem) : s.drawsInClip t := by
  intro a _
  rw [h]

theorem State.drawsInClip_self (s : State) : s.drawsInClip s := State.drawsInClip_of_mem rfl

theorem State.drawsInClip_raiseCmd (s : State) (op : Byte) (code : ErrCode) (fa : Nat) : s.drawsInClip (s.raiseCmd op code fa) :=
  State.drawsInClip_of_mem (s.raiseCmd_mem op code fa)

theorem State.cellsInClip.drawsInClip {s : State} {cs : List (Nat × Byte)} (h : s.cellsInClip cs) :
    s.drawsInClip (s.writeCells cs) :=
  storesOnly_writeCells fun c hc => by
    obtain ⟨p, hp, hcell⟩ := h c hc
    exact ⟨p, trivial, hp, by rw [hcell, s.wrapAddr_fbAddr]⟩

/-! ### Write sets -/

/-- Points taken from a box cut to `CLIPVP` lie in `CLIPVP`. -/
theorem State.clipVp_of_mem_points {s : State} {r : Rect} {p : Point} (h : p ∈ (r.inter s.clipVp).points) :
    s.clipVp.has p = true :=
  (Rect.has_inter.1 (Rect.mem_points.1 h)).2

/-- A write set that maps points of `CLIPVP` to their own cells, each with some value. -/
theorem State.cellsInClip_map {α : Type} {s : State} {l : List α} {pt : α → Point} (v : α → Byte)
    (h : ∀ x ∈ l, s.clipVp.has (pt x) = true) : s.cellsInClip (l.map fun x => (s.fbAddr (pt x).1 (pt x).2, v x)) := by
  intro c hc
  obtain ⟨x, hx, rfl⟩ := List.mem_map.1 hc
  exact ⟨pt x, h x hx, rfl⟩

/-- `PLOT` gives a point outside `CLIPVP` no cell, and one inside its own (42_paint R303). -/
theorem State.plotCell_eq_some {s : State} {p : Point} {k : Colour} {c : Nat × Byte} (h : s.plotCell p k = some c) :
    s.clipVp.has p = true ∧ c.1 = s.fbAddr p.1 p.2 := by
  unfold State.plotCell at h
  split at h
  next hp =>
    obtain rfl := Option.some.inj h
    exact ⟨hp, rfl⟩
  next => cases h

theorem State.cellsInClip_plotCells (s : State) (ps : List Point) (k : Colour) : s.cellsInClip (s.plotCells ps k) := by
  intro c hc
  obtain ⟨p, -, hp, rfl⟩ := State.mem_plotCells.1 hc
  exact ⟨p, hp, rfl⟩

theorem State.drawsInClip_plotAll (s : State) (ps : List Point) (k : Colour) : s.drawsInClip (s.plotAll ps k) :=
  (s.cellsInClip_plotCells ps k).drawsInClip

theorem State.cellsInClip_recolourCells (s : State) (r : Rect) (f : Byte → Option Byte) :
    s.cellsInClip (s.recolourCells (r.inter s.clipVp).points f) := by
  intro c hc
  obtain ⟨p, hp, hcell⟩ := List.mem_filterMap.1 hc
  obtain ⟨b, -, rfl⟩ := Option.map_eq_some_iff.1 hcell
  exact ⟨p, State.clipVp_of_mem_points hp, rfl⟩

theorem State.cellsInClip_glyphCells (s : State) (at_ : Point) (g : Glyph) (o : Half) (fg bg : Colour) :
    s.cellsInClip (s.glyphCells at_ g o fg bg) := by
  intro c hc
  obtain ⟨p, -, hcell⟩ := List.mem_filterMap.1 hc
  obtain ⟨k, -, hplot⟩ := Option.bind_eq_some_iff.1 hcell
  exact ⟨p, State.plotCell_eq_some hplot⟩

theorem State.cellsInClip_cellCells (s : State) (b : GlyphBuffer) (c : Nat × Nat) : s.cellsInClip (s.cellCells b c) :=
  s.cellsInClip_glyphCells _ _ _ _ _

theorem State.cellsInClip_bitmapCells (s : State) (at_ : Point) (b : Bitmap) : s.cellsInClip (s.bitmapCells at_ b) := by
  intro c hc
  obtain ⟨p, -, hcell⟩ := List.mem_filterMap.1 hc
  dsimp only at hcell
  split at hcell
  · exact ⟨p, State.plotCell_eq_some hcell⟩
  · cases hcell

/-- `COPYRECT` clips the points that it copies to. -/
theorem State.cellsInClip_copyCells (s : State) (r : Rect) : s.cellsInClip (s.copyCells r) := by
  intro c hc
  obtain ⟨p, -, hcell⟩ := List.mem_filterMap.1 hc
  dsimp only at hcell
  split at hcell
  next hd =>
    obtain rfl := Option.some.inj hcell
    exact ⟨_, hd, rfl⟩
  next => cases hcell

theorem clipVp_of_mem_rawPixels {s : State} {at_ : Point} {w h : Half} {addr : Word} {q : Point × Nat}
    (hq : q ∈ rawPixels at_ w h addr s.clipVp) : s.clipVp.has q.1 = true := by
  obtain ⟨p, hp, rfl⟩ := List.mem_map.1 hq
  exact State.clipVp_of_mem_points hp

/-! ### Commands with several outcomes -/

theorem State.drawsInClip_drawGlyphRecord (s : State) (a : Nat) : s.drawsInClip (s.drawGlyphRecord a) := by
  unfold State.drawGlyphRecord
  dsimp only
  split
  · exact s.drawsInClip_self
  · split
    · exact s.drawsInClip_raiseCmd _ _ _
    · exact (s.cellsInClip_glyphCells _ _ _ _ _).drawsInClip

theorem State.drawsInClip_renderCells (s : State) (b : GlyphBuffer) (cs : List (Nat × Nat)) :
    s.drawsInClip (s.renderCells b cs) := by
  unfold State.renderCells
  split
  · exact s.drawsInClip_raiseCmd _ _ _
  · split
    · exact s.drawsInClip_raiseCmd _ _ _
    · refine State.cellsInClip.drawsInClip fun c hc => ?_
      obtain ⟨cell, -, hcell⟩ := List.mem_flatMap.1 hc
      exact s.cellsInClip_cellCells b cell c hcell

/-- Settles O11: each command either keeps memory or stores a write set of pixels in `CLIPVP`. -/
theorem drawingStaysInClip : Obligations.DrawingStaysInClip := by
  intro i s t hport hscroll hswap hread h
  show s.drawsInClip t
  cases i with
  | setPenColor | setBrushColor | moveTo | setGlyphOptions | setPaintOptions | setScrollingRegion | setOrigin | setClippingRect
  | refreshSprites =>
    injection h with h
    exact State.drawsInClip_of_mem (h ▸ rfl)
  | setPixel | fillRect | fillEllipse | drawEllipse | clear =>
    injection h with h
    exact h ▸ s.drawsInClip_plotAll _ _
  | lineTo x y =>
    -- Moving the pen leaves the memory of the plot as it is.
    injection h with h
    exact h ▸ s.drawsInClip_plotAll (linePoints s.penPos (s.absPoint x y)) s.penE
  | invertRect | swapFgBg =>
    injection h with h
    exact h ▸ (s.cellsInClip_recolourCells _ _).drawsInClip
  | copyRect =>
    injection h with h
    exact h ▸ (s.cellsInClip_copyCells _).drawsInClip
  | fillPath | drawPath =>
    simp only [exec, execFillPath, execDrawPath, Host.Outcome.next.injEq] at h
    split at h
    · exact h ▸ s.drawsInClip_raiseCmd _ _ _
    · exact h ▸ s.drawsInClip_plotAll _ _
  | drawBitmap =>
    simp only [exec, execDrawBitmap, Host.Outcome.next.injEq] at h
    split at h
    · exact h ▸ s.drawsInClip_raiseCmd _ _ _
    · split at h
      · exact h ▸ s.drawsInClip_raiseCmd _ _ _
      · exact h ▸ (s.cellsInClip_bitmapCells _ _).drawsInClip
  | writeRawData =>
    simp only [exec, execWriteRawData, Host.Outcome.next.injEq] at h
    split at h
    · exact h ▸ s.drawsInClip_self
    · split at h
      · exact h ▸ s.drawsInClip_raiseCmd _ _ _
      · exact h ▸ (State.cellsInClip_map _ fun _ hq => clipVp_of_mem_rawPixels hq).drawsInClip
  | drawGlyph =>
    simp only [exec, execDrawGlyph, Host.Outcome.next.injEq] at h
    split at h
    · exact h ▸ s.drawsInClip_raiseCmd _ _ _
    · exact h ▸ s.drawsInClip_drawGlyphRecord _
  | renderGlyphsBuffer =>
    simp only [exec, execRenderGlyphsBuffer, Host.Outcome.next.injEq] at h
    split at h
    · exact h ▸ s.drawsInClip_raiseCmd _ _ _
    · split at h
      · exact h ▸ s.drawsInClip_self
      · exact h ▸ s.drawsInClip_renderCells _ _
  | hScroll =>
    simp only [exec, execHScroll, Host.Outcome.next.injEq] at h
    split at h
    · exact h ▸ s.drawsInClip_self
    · split at h
      · exact h ▸ s.drawsInClip_self
      · exact h ▸ (State.cellsInClip_map (pt := id) _ fun _ hp => State.clipVp_of_mem_points hp).drawsInClip
  | vScroll n => exact absurd rfl (hscroll n)
  | swapBuffers => exact absurd rfl hswap
  | readRawData x y w ht a => exact absurd rfl (hread x y w ht a)
  | hostopApply | hostopDrain | hostopSuspend | hostopResume | hostopMoveScreen | hostopShrinkScreen | hostopSetSprites
  | hostopCmdAbort => cases hport

end Sys2Proof.Machine
end

section
/-!
# The state-setting commands (42_paint R310 to R317)

Each command's next state is its definition's; what is left to show is the value that its fields read: the sums of two `int16`
numbers that the pen position and `CLIP_ABS` hold fit 32 bits, so both are exact.
-/

namespace Sys2Proof.Machine

/-! ### Values of operand fields -/

/-- A colour operand without a reserved bit is stored whole (42_paint R310, R311). -/
theorem toNat_colourOperand {c : Half} (h : c.toNat < 64) : (c.extractLsb' 0 6).toNat = c.toNat := by
  rw [BitVec.extractLsb'_toNat, Nat.shiftRight_zero]
  exact Nat.mod_eq_of_lt h

/-- Bit 0 of an options operand without a reserved bit is its value (42_paint R314). -/
theorem getLsbD_zero_optionOperand {o : Half} (h : o.toNat < 2) : o.getLsbD 0 = true ↔ o.toNat = 1 := by
  rw [BitVec.getLsbD, Nat.testBit_zero, decide_eq_true_iff]
  omega

/-- A point's coordinate plus the origin's fits the pen position (42_paint R300, 10_state R55). -/
theorem toInt_ofInt_add_half (a b : Half) : (BitVec.ofInt 32 (a.toInt + b.toInt)).toInt = a.toInt + b.toInt := by
  have ha := a.toInt_lt
  have ha' := a.le_toInt
  have hb := b.toInt_lt
  have hb' := b.le_toInt
  exact BitVec.toInt_ofInt_eq_self (by decide) (by omega) (by omega)

/-- A clip edge plus the origin's coordinate fits an edge of `CLIP_ABS` (10_state R58). -/
theorem toInt_signExtend_add (a b : Half) : (a.signExtend 32 + b.signExtend 32).toInt = a.toInt + b.toInt := by
  rw [← toInt_ofInt_add_half, BitVec.ofInt_add]
  rfl

/-- The absolute clip is the exact translation of the relative one by the origin (42_paint R316). -/
theorem toInt_absClip (r : Rect16) (ox oy : Half) :
    (absClip r ox oy).x1.toInt = r.x1.toInt + ox.toInt ∧ (absClip r ox oy).y1.toInt = r.y1.toInt + oy.toInt ∧
      (absClip r ox oy).x2.toInt = r.x2.toInt + ox.toInt ∧ (absClip r ox oy).y2.toInt = r.y2.toInt + oy.toInt :=
  ⟨toInt_signExtend_add _ _, toInt_signExtend_add _ _, toInt_signExtend_add _ _, toInt_signExtend_add _ _⟩

theorem toInt_ite_le (a b : Half) : (if a.toInt ≤ b.toInt then a else b).toInt = min a.toInt b.toInt := by
  rw [apply_ite BitVec.toInt, min_def]

theorem toInt_ite_ge (a b : Half) : (if a.toInt ≤ b.toInt then b else a).toInt = max a.toInt b.toInt := by
  rw [apply_ite BitVec.toInt, max_def]

/-- The edges that `norm16` orders, as integers (00_scope R11). -/
theorem toInt_norm16 (x1 y1 x2 y2 : Half) :
    (norm16 x1 y1 x2 y2).x1.toInt = min x1.toInt x2.toInt ∧ (norm16 x1 y1 x2 y2).y1.toInt = min y1.toInt y2.toInt ∧
      (norm16 x1 y1 x2 y2).x2.toInt = max x1.toInt x2.toInt ∧ (norm16 x1 y1 x2 y2).y2.toInt = max y1.toInt y2.toInt :=
  ⟨toInt_ite_le x1 x2, toInt_ite_le y1 y2, toInt_ite_ge x1 x2, toInt_ite_ge y1 y2⟩

/-! ### The commands -/

theorem State.sameBytes_setPaint (s : State) (p : Paint) : sameBytes s (s.setPaint p) := fun _ => rfl

/-- Settles O34: each command sets one field, and an operand without a reserved bit reads back from it. -/
theorem setColoursAndOptions : Obligations.SetColoursAndOptions := fun s =>
  ⟨fun _ hc => ⟨_, rfl, toNat_colourOperand hc, rfl, s.sameBytes_setPaint _⟩,
    fun _ hc => ⟨_, rfl, toNat_colourOperand hc, rfl, s.sameBytes_setPaint _⟩,
    fun _ => ⟨_, rfl, rfl, s.sameBytes_setPaint _⟩,
    fun _ ho => ⟨_, rfl, getLsbD_zero_optionOperand ho, rfl, s.sameBytes_setPaint _⟩⟩

/-- Settles O35: the pen position holds both sums exactly, and the region's edges are the ordered operands. -/
theorem moveToAndScrollingRegion : Obligations.MoveToAndScrollingRegion := by
  intro s
  constructor
  · intro x y
    exact ⟨_, rfl, toInt_ofInt_add_half x s.paint.originX, toInt_ofInt_add_half y s.paint.originY, rfl,
      s.sameBytes_setPaint _⟩
  · intro x1 y1 x2 y2
    obtain ⟨hx1, hy1, hx2, hy2⟩ := toInt_norm16 x1 y1 x2 y2
    exact ⟨_, rfl, hx1, hy1, hx2, hy2, rfl, s.sameBytes_setPaint _⟩

/-- Settles O36: both commands store `absClip` of the relative clip and the origin that hold after them. -/
theorem originAndClip : Obligations.OriginAndClip := by
  intro s
  constructor
  · intro x y
    obtain ⟨hx1, hy1, hx2, hy2⟩ := toInt_absClip s.paint.clipRel x y
    exact ⟨_, rfl, rfl, rfl, hx1, hy1, hx2, hy2, rfl, s.sameBytes_setPaint _⟩
  · intro x1 y1 x2 y2
    obtain ⟨hx1, hy1, hx2, hy2⟩ := toInt_norm16 x1 y1 x2 y2
    obtain ⟨ax1, ay1, ax2, ay2⟩ := toInt_absClip (norm16 x1 y1 x2 y2) s.paint.originX s.paint.originY
    exact ⟨_, rfl, hx1, hy1, hx2, hy2, ax1, ay1, ax2, ay2, rfl, s.sameBytes_setPaint _⟩

end Sys2Proof.Machine
end

section
/-!
# The line algorithm (43_raster R340)

A line of `D` columns and `E` rows with `E ≤ D` takes one column in every round. After `i` columns and `j` rows its error term is
`D * (j + 1) - E * (i + 1)`, and `j` is `E * i / D` rounded to the nearest whole number, so that `j = E` when `i = D`. A line
that is higher than wide is such a line with its coordinates swapped.
-/

namespace Sys2Proof.Machine

/-- The two points are distinct neighbours, side by side or corner to corner. -/
def neighbours (a b : Point) : Prop := a ≠ b ∧ (b.1 - a.1).natAbs ≤ 1 ∧ (b.2 - a.2).natAbs ≤ 1

/-- A list of points that starts at `p` and goes to `q` by steps to neighbours, none of which leaves the box of the point before
it and `q`. -/
inductive WalksTo (q : Point) : Point → List Point → Prop
  | done : WalksTo q q [q]
  | step {p p' : Point} {l : List Point} :
      neighbours p p' → betweenCorners p q p' → WalksTo q p' l → WalksTo q p (p :: l)

theorem betweenCorners_left (p q : Point) : betweenCorners p q p := by
  unfold betweenCorners
  omega

theorem betweenCorners_trans {p p' q r : Point} (h : betweenCorners p q p') (h' : betweenCorners p' q r) :
    betweenCorners p q r := by
  unfold betweenCorners at *
  omega

theorem betweenCorners_swap {p q r : Point} (h : betweenCorners p q r) : betweenCorners p.swap q.swap r.swap :=
  ⟨h.2.2.1, h.2.2.2, h.1, h.2.1⟩

theorem neighbours_swap {a b : Point} (h : neighbours a b) : neighbours a.swap b.swap :=
  ⟨Prod.swap_injective.ne h.1, h.2.2, h.2.1⟩

namespace WalksTo

variable {p q : Point} {l : List Point}

theorem head? (h : WalksTo q p l) : l.head? = some p := by
  cases h <;> rfl

theorem getLast? (h : WalksTo q p l) : l.getLast? = some q := by
  induction h with
  | done => rfl
  | step _ _ hl ih => rw [List.getLast?_cons, ih]; rfl

theorem inBox (h : WalksTo q p l) : ∀ r ∈ l, betweenCorners p q r := by
  induction h with
  | done => simpa using betweenCorners_left q q
  | step _ hbox _ ih =>
    intro r hr
    rcases List.mem_cons.1 hr with rfl | hr
    · exact betweenCorners_left r q
    · exact betweenCorners_trans hbox (ih r hr)

theorem isChain (h : WalksTo q p l) : l.IsChain neighbours := by
  induction h with
  | done => exact .singleton _
  | step hn _ hl ih =>
    refine List.isChain_cons.2 ⟨fun r hr => ?_, ih⟩
    rw [hl.head?] at hr
    exact Option.some.inj hr ▸ hn

theorem swap (h : WalksTo q p l) : WalksTo q.swap p.swap (l.map Prod.swap) := by
  induction h with
  | done => exact .done
  | step hn hbox _ ih => exact .step (neighbours_swap hn) (betweenCorners_swap hbox) ih

end WalksTo

/-! ### The loop -/

theorem lineLoop_at_end (x y dx dy sx sy err : Int) (fuel : Nat) :
    lineLoop x y dx dy sx sy (fuel + 1) err x y = [(x, y)] := by
  simp [lineLoop]

/-- A round before the end plots its point and goes on (43_raster R340). -/
theorem lineLoop_before_end {x1 y1 dx dy sx sy err x y : Int} {fuel : Nat} (h : ¬ (x = x1 ∧ y = y1)) :
    lineLoop x1 y1 dx dy sx sy (fuel + 1) err x y = (x, y) :: lineLoop x1 y1 dx dy sx sy fuel
      (err + (if 2 * err ≥ dy then dy else 0) + (if 2 * err ≤ dx then dx else 0))
      (if 2 * err ≥ dy then x + sx else x) (if 2 * err ≤ dx then y + sy else y) := by
  rw [lineLoop, if_neg h]

/-- The loop treats columns and rows alike: with the coordinates swapped its distances and its error term change sign. -/
theorem lineLoop_swap (x1 y1 dx dy sx sy : Int) (fuel : Nat) (err x y : Int) :
    lineLoop y1 x1 (-dy) (-dx) sy sx fuel (-err) y x = (lineLoop x1 y1 dx dy sx sy fuel err x y).map Prod.swap := by
  induction fuel generalizing err x y with
  | zero => rfl
  | succ fuel ih =>
    by_cases hend : x = x1 ∧ y = y1
    · obtain ⟨rfl, rfl⟩ := hend
      rw [lineLoop_at_end, lineLoop_at_end]
      rfl
    · have hcol : 2 * -err ≤ -dy ↔ 2 * err ≥ dy := by omega
      have hrow : 2 * -err ≥ -dx ↔ 2 * err ≤ dx := by omega
      have herr : -err + (if 2 * err ≤ dx then -dx else 0) + (if 2 * err ≥ dy then -dy else 0) =
          -(err + (if 2 * err ≥ dy then dy else 0) + (if 2 * err ≤ dx then dx else 0)) := by
        split <;> split <;> omega
      rw [lineLoop_before_end (mt And.symm hend), lineLoop_before_end hend, List.map_cons, ← ih]
      simp only [hcol, hrow, herr]
      rfl

theorem linePoints_swap (p q : Point) : linePoints p.swap q.swap = (linePoints p q).map Prod.swap := by
  unfold linePoints
  dsimp only
  rw [← lineLoop_swap, max_comm, neg_add, neg_neg, add_comm (-_ : Int)]
  rfl

/-! ### Lines at least as wide as high -/

/-- What holds after `i` columns and `j` rows of a line of `D` columns and `E` rows: `2 * D * j` is within `D` of `2 * E * i`. -/
structure OnLine (D E i j : Int) : Prop where
  nonneg : 0 ≤ j
  le : j ≤ E
  notBelow : 2 * (E * i) ≤ D * (2 * j + 1)
  notAbove : D * (2 * j - 1) ≤ 2 * (E * i)

namespace OnLine

variable {D E i j : Int}

theorem start (hE : 0 ≤ E) (hD : 0 ≤ D) : OnLine D E 0 0 where
  nonneg := le_rfl
  le := hE
  notBelow := by omega
  notAbove := by omega

/-- After the last column the line is on its last row. -/
theorem finish (hED : E ≤ D) (h : OnLine D E D j) : j = E := by
  by_contra hne
  have hlt : j + 1 ≤ E := by have := h.le; omega
  have hD : 1 ≤ D := by have := h.nonneg; omega
  have := mul_le_mul_of_nonneg_left hlt (by omega : 0 ≤ D)
  have := h.notBelow
  linarith

/-- Every round takes a column. -/
theorem takesColumn (hED : E ≤ D) (h : OnLine D E i j) : 2 * (D * (j + 1) - E * (i + 1)) ≥ -E := by
  have := h.notBelow
  linarith

/-- The next point where the round takes a row as well. -/
theorem withRow (hED : E ≤ D) (hi : i < D) (hi0 : 0 ≤ i) (h : OnLine D E i j) (hrow : 2 * (D * (j + 1) - E * (i + 1)) ≤ D) :
    OnLine D E (i + 1) (j + 1) where
  nonneg := by have := h.nonneg; omega
  le := by
    by_contra hgt
    have hj : E ≤ j := by omega
    have hE : 0 ≤ E := h.nonneg.trans h.le
    have := mul_le_mul_of_nonneg_left hj (by omega : 0 ≤ D)
    have := mul_le_mul_of_nonneg_left (Int.add_one_le_of_lt hi) hE
    linarith
  notBelow := by have := h.notBelow; linarith
  notAbove := by linarith

/-- The next point where the round stays on its row. -/
theorem withoutRow (h : OnLine D E i j) (hrow : ¬ 2 * (D * (j + 1) - E * (i + 1)) ≤ D) : OnLine D E (i + 1) j where
  nonneg := h.nonneg
  le := h.le
  notBelow := by linarith
  notAbove := by have := h.notAbove; have := h.nonneg.trans h.le; linarith

end OnLine

/-- A step of one column towards the end, with or without one row towards it, goes to a neighbour in the box of its start and
the end. -/
theorem neighbours_toward {sx sy x y x1 y1 y' c r : Int} (hsx : sx = 1 ∨ sx = -1) (hsy : sy = 1 ∨ sy = -1)
    (hc : 1 ≤ c) (hx : x1 = x + sx * c) (hr : 0 ≤ r) (hy : y1 = y + sy * r) (hy' : y' = y ∨ y' = y + sy ∧ 1 ≤ r) :
    neighbours (x, y) (x + sx, y') ∧ betweenCorners (x, y) (x1, y1) (x + sx, y') := by
  simp only [neighbours, betweenCorners, ne_eq, Prod.mk.injEq]
  rcases hsx with rfl | rfl <;> rcases hsy with rfl | rfl <;> omega

/-- The loop on a line at least as wide as high, with `k` columns to go: it plots `k + 1` points and ends at the end point. -/
theorem walksTo_lineLoop {D E sx sy x1 y1 : Int} (hED : E ≤ D) (hsx : sx = 1 ∨ sx = -1) (hsy : sy = 1 ∨ sy = -1) (k : Nat)
    {i j x y : Int} (hi : 0 ≤ i) (hk : i + k = D) (h : OnLine D E i j) (hx : x1 = x + sx * k) (hy : y1 = y + sy * (E - j)) :
    WalksTo (x1, y1) (x, y) (lineLoop x1 y1 D (-E) sx sy (k + 1) (D * (j + 1) - E * (i + 1)) x y) ∧
      (lineLoop x1 y1 D (-E) sx sy (k + 1) (D * (j + 1) - E * (i + 1)) x y).length = k + 1 := by
  induction k generalizing i j x y with
  | zero =>
    obtain rfl : i = D := by omega
    obtain rfl := h.finish hED
    obtain rfl : x1 = x := by simpa using hx
    obtain rfl : y1 = y := by simpa using hy
    rw [lineLoop_at_end]
    exact ⟨.done, rfl⟩
  | succ k ih =>
    have hne : ¬ (x = x1 ∧ y = y1) := by
      rintro ⟨hx1, -⟩
      rcases hsx with rfl | rfl <;> omega
    have hx' : x1 = x + sx + sx * k := by rw [hx]; push_cast; ring
    rw [lineLoop_before_end hne, if_pos (h.takesColumn hED), if_pos (h.takesColumn hED)]
    split
    next hrow =>
      have hnext := h.withRow hED (by omega) hi hrow
      have hle := hnext.le
      obtain ⟨hwalk, hlen⟩ := ih (by omega) (by omega) hnext hx' (y := y + sy) (by rw [hy]; ring)
      have herr : D * (j + 1) - E * (i + 1) + -E + D = D * (j + 1 + 1) - E * (i + 1 + 1) := by ring
      have hto := neighbours_toward hsx hsy (by omega) hx (by omega) hy (.inr ⟨rfl, by omega⟩)
      rw [herr]
      exact ⟨.step hto.1 hto.2 hwalk, congrArg (· + 1) hlen⟩
    next hrow =>
      have hnext := h.withoutRow hrow
      have hle := hnext.le
      obtain ⟨hwalk, hlen⟩ := ih (by omega) (by omega) hnext hx' hy
      have herr : D * (j + 1) - E * (i + 1) + -E + 0 = D * (j + 1) - E * (i + 1 + 1) := by ring
      have hto := neighbours_toward hsx hsy (by omega) hx (by omega) hy (.inl rfl)
      rw [herr]
      exact ⟨.step hto.1 hto.2 hwalk, congrArg (· + 1) hlen⟩

/-- A coordinate is its start's plus its distance in its direction. -/
theorem eq_add_sign_mul_natAbs (a b : Int) : b = a + (if a < b then 1 else -1) * ((b - a).natAbs : Int) := by
  split <;> omega

theorem sign_eq_one_or_neg_one (a b : Int) : (if a < b then (1 : Int) else -1) = 1 ∨ (if a < b then (1 : Int) else -1) = -1 := by
  split <;> simp

/-- A line at least as wide as high. -/
theorem walksTo_linePoints_of_wide {p q : Point} (h : (q.2 - p.2).natAbs ≤ (q.1 - p.1).natAbs) :
    WalksTo q p (linePoints p q) ∧ (linePoints p q).length = (q.1 - p.1).natAbs + 1 := by
  have hloop := walksTo_lineLoop (y1 := q.2) (Int.ofNat_le.2 h) (sign_eq_one_or_neg_one p.1 q.1)
    (sign_eq_one_or_neg_one p.2 q.2) (q.1 - p.1).natAbs le_rfl (zero_add _)
    (OnLine.start (Int.natCast_nonneg _) (Int.natCast_nonneg _)) (eq_add_sign_mul_natAbs p.1 q.1)
    (by rw [sub_zero]; exact eq_add_sign_mul_natAbs p.2 q.2)
  simp only [zero_add, mul_one, sub_eq_add_neg _ (((q.2 - p.2).natAbs : Int))] at hloop
  unfold linePoints
  rw [max_eq_left h]
  exact hloop

theorem walksTo_linePoints (p q : Point) :
    WalksTo q p (linePoints p q) ∧ (linePoints p q).length = max (q.1 - p.1).natAbs (q.2 - p.2).natAbs + 1 := by
  rcases Nat.le_total (q.2 - p.2).natAbs (q.1 - p.1).natAbs with h | h
  · rw [max_eq_left h]
    exact walksTo_linePoints_of_wide h
  · obtain ⟨hwalk, hlen⟩ := walksTo_linePoints_of_wide (p := p.swap) (q := q.swap) h
    rw [linePoints_swap] at hwalk hlen
    rw [max_eq_right h]
    refine ⟨?_, by simpa using hlen⟩
    simpa [List.map_map] using hwalk.swap

/-- Settles O38: a line walks from its start to its end. -/
theorem lineReachesItsEnd : Obligations.LineReachesItsEnd := by
  intro p q
  obtain ⟨hwalk, hlen⟩ := walksTo_linePoints p q
  refine ⟨hlen, hwalk.head?, hwalk.getLast?, hwalk.inBox, fun k a b ha hb => ?_⟩
  obtain ⟨hk, rfl⟩ := List.getElem?_eq_some_iff.1 ha
  obtain ⟨hk', rfl⟩ := List.getElem?_eq_some_iff.1 hb
  exact List.isChain_iff_getElem.1 hwalk.isChain k hk'

end Sys2Proof.Machine
end

section
/-!
# Points, lines, rectangles, ellipses and paths (43_raster R340 to R352)

A drawing command that plots a list of points is described by `State.plots_plotAll`; what is left for each is which points of
`CLIPVP` its list holds.
-/

namespace Sys2Proof.Machine

/-! ### Plots -/

theorem State.onlyMemory_writeCells (s : State) (cs : List (Nat × Byte)) : onlyMemory s (s.writeCells cs) := rfl

theorem State.onlyMemory_plotAll (s : State) (ps : List Point) (c : Colour) : onlyMemory s (s.plotAll ps c) :=
  s.onlyMemory_writeCells _

/-- A command that plots the points of a list plots every set of pixels that has the list's pixels of `CLIPVP`. -/
theorem plots_of_exec_eq {s : State} {i : Instr} {ps : List Point} {c : Colour} {P : Point → Prop}
    (h : exec i s = .next (s.plotAll ps c)) (hP : ∀ p, s.clipVp.has p = true → (p ∈ ps ↔ P p)) :
    ∃ t, exec i s = .next t ∧ onlyMemory s t ∧ plots s t P c :=
  ⟨_, h, s.onlyMemory_plotAll ps c, plots_congr hP (s.plots_plotAll ps c)⟩

/-! ### Points and lines (43_raster R341, R342) -/

/-- Settles O37: a point is a list of one, a line the list of its points, and the pen holds both sums exactly. -/
theorem pointAndLine : Obligations.PointAndLine := by
  intro x y s
  refine ⟨plots_of_exec_eq rfl fun _ _ => List.mem_singleton, ?_⟩
  exact ⟨_, rfl, rfl, toInt_ofInt_add_half x s.paint.originX, toInt_ofInt_add_half y s.paint.originY,
    plots_of_mem rfl (s.plots_plotAll (linePoints s.penPos (s.absPoint x y)) s.penE)⟩

/-! ### Rectangles (43_raster R343, R344) -/

theorem State.mem_absRect_points {s : State} {x1 y1 x2 y2 : Half} {p : Point} (hp : s.clipVp.has p = true) :
    p ∈ ((s.absRect x1 y1 x2 y2).inter s.clipVp).points ↔ betweenCorners (s.absPoint x1 y1) (s.absPoint x2 y2) p := by
  rw [Rect.mem_points, Rect.has_inter, and_iff_left hp]
  exact Rect.has_norm

/-- Settles O39: the points of the rectangle in `CLIPVP`, and all of `CLIPVP`. -/
theorem fillRectAndClear : Obligations.FillRectAndClear := by
  intro s
  exact ⟨fun _ _ _ _ => plots_of_exec_eq rfl fun _ hp => State.mem_absRect_points hp,
    plots_of_exec_eq rfl fun _ hp => iff_of_true (Rect.mem_points.2 hp) trivial⟩

/-! ### Ellipses (43_raster R345 to R347) -/

/-- An offset inside the ellipse lies in the box of its semi-axes (43_raster R345). -/
theorem box_of_ellipseInside {a b : Int} {d : Point} (h : ellipseInside a b d = true) :
    -a ≤ d.1 ∧ d.1 ≤ a ∧ -b ≤ d.2 ∧ d.2 ≤ b := by
  obtain ⟨hx, hx', hy, hy', -⟩ := of_decide_eq_true h
  exact ⟨hx, hx', hy, hy'⟩

theorem ellipseInside_of_outline {a b : Int} {d : Point} (h : ellipseOutline a b d = true) : ellipseInside a b d = true :=
  Bool.and_elim_left h

/-- The points of an ellipse command are those of `CLIPVP` whose offset satisfies the test, where the test holds inside the
ellipse only. -/
theorem State.mem_ellipsePoints {s : State} {w h : Half} {test : Int → Int → Point → Bool} {p : Point}
    (htest : ∀ {a b : Int} {d : Point}, test a b d = true → ellipseInside a b d = true) (hp : s.clipVp.has p = true) :
    p ∈ s.ellipsePoints w h test ↔ 0 < w.toInt ∧ 0 < h.toInt ∧
      test (w.toInt / 2) (h.toInt / 2) (p.1 - s.paint.posX.toInt, p.2 - s.paint.posY.toInt) = true := by
  unfold State.ellipsePoints
  split
  next hsize =>
    simp only [List.not_mem_nil, false_iff]
    omega
  next hsize =>
    rw [List.mem_filter, Rect.mem_points, Rect.has_inter, and_iff_left hp, Rect.has_iff]
    constructor
    · rintro ⟨-, ht⟩
      exact ⟨by omega, by omega, ht⟩
    · rintro ⟨-, -, ht⟩
      have hbox := box_of_ellipseInside (htest ht)
      refine ⟨?_, ht⟩
      simp only [State.penPos]
      omega

/-- Settles O40: both tests hold inside the ellipse only. -/
theorem ellipses : Obligations.Ellipses := by
  intro w h s
  exact ⟨plots_of_exec_eq rfl fun _ hp => State.mem_ellipsePoints id hp,
    plots_of_exec_eq rfl fun _ hp => State.mem_ellipsePoints ellipseInside_of_outline hp⟩

/-! ### Paths (43_raster R350 to R352) -/

theorem State.length_pathPoints (s : State) (n : Half) (addr : Word) : (s.pathPoints n addr).length = n.toNat := by
  simp [State.pathPoints]

theorem State.mem_fillPathPoints {s : State} {ps : List Point} {p : Point} (hp : s.clipVp.has p = true) :
    p ∈ s.fillPathPoints ps ↔
      3 ≤ ps.length ∧ (∃ bb, boundingBox ps = some bb ∧ bb.has p = true) ∧ insidePath ps p = true := by
  unfold State.fillPathPoints
  split
  next hlen =>
    simp only [List.not_mem_nil, false_iff]
    omega
  next hlen =>
    cases hbox : boundingBox ps with
    | none => simp
    | some bb =>
      simp only [List.mem_filter, Rect.mem_points, Rect.has_inter, and_iff_left hp, Option.some.injEq, exists_eq_left',
        Nat.le_of_not_lt hlen, true_and]

theorem exec_fillPath_of_readable {s : State} {n : Half} {addr : Word} (h : s.pathBad n addr = none) :
    exec (.fillPath n addr) s = .next (s.plotAll (s.fillPathPoints (s.pathPoints n addr)) s.brushE) := by
  simp only [exec, execFillPath, h]

theorem exec_drawPath_of_readable {s : State} {n : Half} {addr : Word} (h : s.pathBad n addr = none) :
    exec (.drawPath n addr) s = .next (s.plotAll (polylinePoints (s.pathPoints n addr)) s.penE) := by
  simp only [exec, execDrawPath, h]

/-- Settles O43: with a readable path each command plots its own list of points. -/
theorem pathCommands : Obligations.PathCommands := by
  intro n addr s hread
  have hbad : s.pathBad n addr = none := firstBad_byteRange.2 hread
  refine ⟨plots_of_exec_eq (exec_fillPath_of_readable hbad) fun _ hp => ?_,
    plots_of_exec_eq (exec_drawPath_of_readable hbad) fun _ _ => Iff.rfl⟩
  rw [State.mem_fillPathPoints hp, State.length_pathPoints]

end Sys2Proof.Machine
end

section
/-!
# Recolouring (43_raster R348, R349)

Both commands rewrite each byte by a function of that byte alone, so that doing it twice restores memory when the function is its
own inverse.
-/

namespace Sys2Proof.Machine

/-! ### Rewrites -/

/-- Two descriptions of the same pixels of `CLIPVP` say the same of a rewriting. -/
theorem rewrites_congr {s t : State} {P Q : Point → Prop} {f : Byte → Byte}
    (h : ∀ p, s.clipVp.has p = true → (P p ↔ Q p)) (hp : rewrites s t P f) : rewrites s t Q f := by
  have hpix : ∀ a, s.clippedPixel P a ↔ s.clippedPixel Q a := fun a =>
    exists_congr fun p => ⟨fun ⟨h1, h2, h3⟩ => ⟨(h p h2).1 h1, h2, h3⟩, fun ⟨h1, h2, h3⟩ => ⟨(h p h2).2 h1, h2, h3⟩⟩
  intro a
  rw [← hpix]
  exact hp a

/-- A state that differs in memory only has the same pixels at the same addresses. -/
theorem onlyMemory.clippedPixel_eq {s t : State} (h : onlyMemory s t) (P : Point → Prop) :
    t.clippedPixel P = s.clippedPixel P := by
  rw [h]
  rfl

/-- The same rewriting twice, by a function that is its own inverse, restores every byte. -/
theorem sameBytes_of_rewrites_twice {s t u : State} {P : Point → Prop} {f : Byte → Byte} (hf : Function.Involutive f)
    (hst : onlyMemory s t) (h1 : rewrites s t P f) (h2 : rewrites t u P f) : sameBytes s u := by
  intro a
  have h2a := h2 a
  rw [hst.clippedPixel_eq] at h2a
  by_cases ha : s.clippedPixel P (wrapAddr a)
  · rw [h2a.1 ha, (h1 a).1 ha, hf]
  · rw [h2a.2 ha, (h1 a).2 ha]

/-- A write set that recolours the rectangle of two corners rewrites its pixels in `CLIPVP`. -/
theorem State.rewrites_absRect (s : State) (x1 y1 x2 y2 : Half) (f : Byte → Option Byte) :
    rewrites s (s.writeCells (s.recolourCells ((s.absRect x1 y1 x2 y2).inter s.clipVp).points f))
      (betweenCorners (s.absPoint x1 y1) (s.absPoint x2 y2)) (fun b => (f b).getD b) :=
  rewrites_congr (fun _ hp => State.mem_absRect_points hp)
    (s.rewrites_recolour _ f _ (fun _ => rfl) fun _ hp => State.clipVp_of_mem_points hp)

/-! ### The bytes -/

theorem involutive_invert : Function.Involutive fun b : Byte => b ^^^ 0x3F#8 := by
  intro b
  show (b ^^^ 0x3F#8) ^^^ 0x3F#8 = b
  rw [BitVec.xor_assoc, BitVec.xor_self, BitVec.xor_zero]

/-- A pixel byte with the sync bits of `v` and the colour `c` (20_memory R104). -/
def withColourBits (v : Byte) (c : Colour) : Byte := (v &&& 0xC0#8) ||| c.setWidth 8

theorem getLsbD_syncMask (i : Nat) (hi : i < 8) : (0xC0#8).getLsbD i = decide (6 ≤ i) := by
  revert i
  decide

theorem getLsbD_withColourBits (v : Byte) (c : Colour) {i : Nat} (hi : i < 8) :
    (withColourBits v c).getLsbD i = if i < 6 then c.getLsbD i else v.getLsbD i := by
  rw [withColourBits, BitVec.getLsbD_or, BitVec.getLsbD_and, getLsbD_syncMask i hi, BitVec.getLsbD_setWidth]
  split
  next h => simp [hi, Nat.not_le.2 h]
  next h => simp [Nat.not_lt.1 h]

theorem colour_withColourBits (v : Byte) (c : Colour) : (withColourBits v c).extractLsb' 0 6 = c := by
  apply BitVec.eq_of_getLsbD_eq
  intro i hi
  rw [BitVec.getLsbD_extractLsb', Nat.zero_add, getLsbD_withColourBits v c (by omega), if_pos hi]
  simp [hi]

theorem withColourBits_withColourBits (v : Byte) (c d : Colour) :
    withColourBits (withColourBits v c) d = withColourBits v d := by
  apply BitVec.eq_of_getLsbD_eq
  intro i hi
  rw [getLsbD_withColourBits _ _ hi, getLsbD_withColourBits _ _ hi, getLsbD_withColourBits _ _ hi]
  split <;> rfl

/-- A byte with its own colour. -/
theorem withColourBits_self (v : Byte) : withColourBits v (v.extractLsb' 0 6) = v := by
  apply BitVec.eq_of_getLsbD_eq
  intro i hi
  rw [getLsbD_withColourBits _ _ hi, BitVec.getLsbD_extractLsb']
  split
  next h => simp [h]
  next => rfl

/-- What `SWAPFGBG` leaves in a pixel byte (43_raster R349): the one colour for the other, and any third kept. -/
theorem swapPix_getD (p b : Colour) (v : Byte) : (swapPix p b v).getD v =
    if v.extractLsb' 0 6 = p then withColourBits v b
    else if v.extractLsb' 0 6 = b then withColourBits v p
    else v := by
  unfold swapPix
  split
  · rfl
  · split <;> rfl

/-- Exchanging two colours twice keeps every byte. -/
theorem involutive_swapPix (p b : Colour) : Function.Involutive fun v => (swapPix p b v).getD v := by
  intro v
  simp only [swapPix_getD]
  by_cases hp : v.extractLsb' 0 6 = p
  · subst hp
    rw [if_pos rfl, colour_withColourBits, withColourBits_withColourBits, withColourBits_withColourBits, withColourBits_self]
    split
    next heq => rw [heq, withColourBits_self]
    next => rw [if_pos rfl]
  · by_cases hb : v.extractLsb' 0 6 = b
    · subst hb
      rw [if_neg hp, if_pos rfl, colour_withColourBits, if_pos rfl, withColourBits_withColourBits, withColourBits_self]
    · simp [hp, hb]

/-! ### The commands -/

/-- Settles O41: each command rewrites the rectangle's pixels in `CLIPVP` by its function of a byte. -/
theorem recolourCommands : Obligations.RecolourCommands := by
  intro x1 y1 x2 y2 s
  refine ⟨⟨_, rfl, s.onlyMemory_writeCells _, s.rewrites_absRect x1 y1 x2 y2 _⟩, ⟨_, rfl, s.onlyMemory_writeCells _, ?_⟩⟩
  have h := s.rewrites_absRect x1 y1 x2 y2 (swapPix (encColour s.active.bpc s.penE) (encColour s.active.bpc s.brushE))
  simp only [swapPix_getD] at h
  exact h

/-- Settles O42: the second command goes by the registers of the first, which changes memory only. -/
theorem recolourTwiceRestores : Obligations.RecolourTwiceRestores := by
  intro x1 y1 x2 y2 s
  exact ⟨⟨_, _, rfl, rfl, sameBytes_of_rewrites_twice involutive_invert (s.onlyMemory_writeCells _)
      (s.rewrites_absRect x1 y1 x2 y2 _) (State.rewrites_absRect _ x1 y1 x2 y2 _)⟩,
    ⟨_, _, rfl, rfl, sameBytes_of_rewrites_twice (involutive_swapPix _ _) (s.onlyMemory_writeCells _)
      (s.rewrites_absRect x1 y1 x2 y2 _) (State.rewrites_absRect _ x1 y1 x2 y2 _)⟩⟩

end Sys2Proof.Machine
end

section
/-!
# Pointer operands with a byte that does not exist (60_exceptions R478)

Each check goes through the addresses of one group, in the order of `execute`: what it reports is the lowest failing address of
those that its list holds, and the command then records it and changes nothing else.
-/

namespace Sys2Proof.Machine

/-! ### What the checks go through -/

section
variable {α : Type} {s : State} {cs : List α} {addr len : α → Nat}

theorem mem_flatMap_byteRange {a : Nat} :
    a ∈ cs.flatMap (fun c => byteRange (addr c) (len c)) ↔ ∃ c ∈ cs, inRun (addr c) (len c) a := by
  simp only [List.mem_flatMap, mem_byteRange]

theorem lowestBad_flatMap_byteRange (h : ∀ c ∈ cs, s.runOk (addr c) (len c)) :
    lowestBad s (cs.flatMap fun c => byteRange (addr c) (len c)) = none := by
  refine lowestBad_eq_none.2 fun a ha => ?_
  obtain ⟨c, hc, k, hk, rfl⟩ := mem_flatMap_byteRange.1 ha
  exact h c hc k hk

end

/-- A positive operand is the same number read with and without its sign. -/
theorem toInt_eq_toNat_of_pos {w : Half} (h : 0 < w.toInt) : w.toInt = w.toNat := by
  have := w.toInt_eq_toNat_cond
  have := w.isLt
  split at * <;> omega

/-- The buffer bytes under the pixels of `r` that a raw transfer at `at_` moves (20_memory R125). -/
def rawByte (at_ : Point) (w h : Half) (addr : Word) (r : Rect) (a : Nat) : Prop :=
  ∃ i j : Nat, i < w.toNat ∧ j < h.toNat ∧ r.has (at_.1 + i, at_.2 + j) = true ∧ wrapAddr (addr.toNat + j * w.toNat + i) = a

/-- The addresses that a raw transfer of positive size checks (44_blit R392, R393). -/
theorem mem_rawPixels_addr {at_ : Point} {w h : Half} {addr : Word} {r : Rect} {a : Nat} (hw : 0 < w.toInt)
    (hh : 0 < h.toInt) : a ∈ (rawPixels at_ w h addr r).map (fun q => q.2) ↔ rawByte at_ w h addr r a := by
  have hwn := toInt_eq_toNat_of_pos hw
  have hhn := toInt_eq_toNat_of_pos hh
  simp only [rawByte, rawPixels, List.map_map, List.mem_map, Function.comp_apply, Rect.mem_points, Rect.has_inter]
  constructor
  · rintro ⟨p, ⟨hbox, hr⟩, ha⟩
    rw [Rect.has_iff] at hbox
    dsimp only at hbox
    refine ⟨(p.1 - at_.1).toNat, (p.2 - at_.2).toNat, by omega, by omega, ?_, ha⟩
    rwa [Int.toNat_of_nonneg (by omega), Int.toNat_of_nonneg (by omega), add_sub_cancel, add_sub_cancel]
  · rintro ⟨i, j, hi, hj, hr, ha⟩
    refine ⟨(at_.1 + i, at_.2 + j), ⟨?_, hr⟩, ?_⟩
    · rw [Rect.has_iff]
      dsimp only
      omega
    · simpa only [add_sub_cancel_left, Int.toNat_natCast] using ha

section
variable {s : State} {addr : Word} {fa : Nat}

/-! ### Paths (43_raster R352) -/

theorem exec_fillPath_of_bad {n : Half} (h : s.pathBad n addr = some fa) :
    exec (.fillPath n addr) s = .next (s.raiseCmd 0x19#8 .busExe fa) := by
  simp only [exec, execFillPath, h]

theorem exec_drawPath_of_bad {n : Half} (h : s.pathBad n addr = some fa) :
    exec (.drawPath n addr) s = .next (s.raiseCmd 0x1A#8 .busExe fa) := by
  simp only [exec, execDrawPath, h]

/-! ### Glyphs (44_blit R383) -/

theorem exec_drawGlyph_of_badRecord (h : s.lowestBadOf (inRun addr.toNat 12) fa) :
    exec (.drawGlyph addr) s = .next (s.raiseCmd 0x0C#8 .busExe fa) := by
  simp only [exec, execDrawGlyph, lowestBad_byteRange_some.2 h]

theorem exec_drawGlyph_of_badBitmap (hrec : s.runOk addr.toNat 12) (hw : (s.glyphRecord addr.toNat).w ≠ 0)
    (hh : (s.glyphRecord addr.toNat).h ≠ 0)
    (h : s.lowestBadOf (inRun (s.glyphRecord addr.toNat).data
      ((s.glyphRecord addr.toNat).h * glyphBpr (s.glyphRecord addr.toNat).w)) fa) :
    exec (.drawGlyph addr) s = .next (s.raiseCmd 0x0C#8 .busExe fa) := by
  have hbytes : lowestBad s (s.glyphRecord addr.toNat).bytes = some fa := lowestBad_byteRange_some.2 h
  simp only [exec, execDrawGlyph, lowestBad_byteRange.2 hrec, State.drawGlyphRecord, hbytes, hw, hh, or_self, if_false]

/-! ### Glyph buffers (44_blit R385, R388) -/

theorem exec_renderGlyphsBuffer_of_badDescriptor {c1 r1 c2 r2 : Half} (h : s.lowestBadOf (inRun addr.toNat 16) fa) :
    exec (.renderGlyphsBuffer addr c1 r1 c2 r2) s = .next (s.raiseCmd 0x15#8 .busExe fa) := by
  simp only [exec, execRenderGlyphsBuffer, lowestBad_byteRange_some.2 h]

/-- With a readable descriptor of a buffer that has cells, the command renders the range's cells. -/
theorem exec_renderGlyphsBuffer_of_readable {c1 r1 c2 r2 : Half} (hdesc : s.runOk addr.toNat 16)
    (hcells : ¬ ((s.glyphBuffer addr.toNat).gw = 0 ∨ (s.glyphBuffer addr.toNat).gh = 0 ∨
      (s.glyphBuffer addr.toNat).cols = 0 ∨ (s.glyphBuffer addr.toNat).rows = 0)) :
    exec (.renderGlyphsBuffer addr c1 r1 c2 r2) s =
      .next (s.renderCells (s.glyphBuffer addr.toNat) ((s.glyphBuffer addr.toNat).cells c1 r1 c2 r2)) := by
  simp only [exec, execRenderGlyphsBuffer, lowestBad_byteRange.2 hdesc, if_neg hcells]

variable {b : GlyphBuffer} {cs : List (Nat × Nat)}

theorem State.renderCells_of_badCell (h : s.lowestBadOf (fun a => ∃ c ∈ cs, inRun (b.cellAddr c) 4 a) fa) :
    s.renderCells b cs = s.raiseCmd 0x15#8 .busExe fa := by
  simp only [State.renderCells, (lowestBad_eq_some fun _ => mem_flatMap_byteRange).2 h]

theorem State.renderCells_of_badGlyph (hcells : ∀ c ∈ cs, s.runOk (b.cellAddr c) 4)
    (h : s.lowestBadOf (fun a => ∃ c ∈ cs,
      inRun (b.glyph (memWord s.mem (b.cellAddr c))).data (b.gh * glyphBpr b.gw) a) fa) :
    s.renderCells b cs = s.raiseCmd 0x15#8 .busExe fa := by
  have hbytes : lowestBad s (cs.flatMap fun c => (b.glyph (memWord s.mem (b.cellAddr c))).bytes) = some fa :=
    (lowestBad_eq_some fun _ => mem_flatMap_byteRange).2 h
  simp only [State.renderCells, lowestBad_flatMap_byteRange hcells, hbytes]

/-! ### Bitmaps (44_blit R389) -/

theorem exec_drawBitmap_of_badHeader {x y : Half} (h : s.lowestBadOf (inRun addr.toNat 8) fa) :
    exec (.drawBitmap x y addr) s = .next (s.raiseCmd 0x16#8 .busExe fa) := by
  simp only [exec, execDrawBitmap, lowestBad_byteRange_some.2 h]

theorem exec_drawBitmap_of_badPixels {x y : Half} (hhdr : s.runOk addr.toNat 8)
    (h : s.lowestBadOf (inRun (readBitmap s.mem addr.toNat).data
      ((readBitmap s.mem addr.toNat).w * (readBitmap s.mem addr.toNat).h)) fa) :
    exec (.drawBitmap x y addr) s = .next (s.raiseCmd 0x16#8 .busExe fa) := by
  simp only [exec, execDrawBitmap, lowestBad_byteRange.2 hhdr, lowestBad_byteRange_some.2 h]

/-! ### Raw transfers (44_blit R392, R393) -/

theorem exec_readRawData_of_badBuffer {x y w h : Half} (hw : 0 < w.toInt) (hh : 0 < h.toInt)
    (hbad : s.lowestBadOf (rawByte (s.absPoint x y) w h addr s.vpb) fa) :
    exec (.readRawData x y w h addr) s = .next (s.raiseCmd 0x13#8 .busExe fa) := by
  have hsize : ¬ (w.toInt ≤ 0 ∨ h.toInt ≤ 0) := by omega
  simp only [exec, execReadRawData, if_neg hsize, (lowestBad_eq_some fun _ => mem_rawPixels_addr hw hh).2 hbad]

theorem exec_writeRawData_of_badBuffer {x y w h : Half} (hw : 0 < w.toInt) (hh : 0 < h.toInt)
    (hbad : s.lowestBadOf (rawByte (s.absPoint x y) w h addr s.clipVp) fa) :
    exec (.writeRawData x y w h addr) s = .next (s.raiseCmd 0x14#8 .busExe fa) := by
  have hsize : ¬ (w.toInt ≤ 0 ∨ h.toInt ≤ 0) := by omega
  simp only [exec, execWriteRawData, if_neg hsize, (lowestBad_eq_some fun _ => mem_rawPixels_addr hw hh).2 hbad]

end

/-- Settles O44: every check reports the lowest failing address of its group, once the groups before it are readable. -/
theorem badPointerOperands : Obligations.BadPointerOperands := by
  intro s addr fa
  refine ⟨fun n hbad => ⟨exec_fillPath_of_bad hbad, exec_drawPath_of_bad hbad⟩, exec_drawGlyph_of_badRecord,
    exec_drawGlyph_of_badBitmap, fun c1 r1 c2 r2 => ⟨exec_renderGlyphsBuffer_of_badDescriptor, ?_⟩,
    fun x y => ⟨exec_drawBitmap_of_badHeader, exec_drawBitmap_of_badPixels⟩,
    fun x y w h hw hh => ⟨exec_readRawData_of_badBuffer hw hh, exec_writeRawData_of_badBuffer hw hh⟩⟩
  intro hdesc hgw hgh hcols hrows
  have hrender := exec_renderGlyphsBuffer_of_readable (c1 := c1) (r1 := r1) (c2 := c2) (r2 := r2) hdesc (by tauto)
  exact ⟨fun hbad => hrender.trans (congrArg _ (State.renderCells_of_badCell hbad)),
    fun hcells hbad => hrender.trans (congrArg _ (State.renderCells_of_badGlyph hcells hbad))⟩

end Sys2Proof.Machine
end

section
/-!
# Write sets that paint pixels of `CLIPVP` (42_paint R303, 40_video R217)

A command that draws gives some pixels of `CLIPVP` a byte each. Where no two pixels share a byte, its whole effect on the frame
buffer is that function from pixels to bytes, in whichever order its cells are stored.
-/

namespace Sys2Proof.Machine

/-- A write set whose cells are those of the pixels of `CLIPVP` that `paint` has a byte for, with that byte. -/
def State.cellsPaint (s : State) (cs : List (Nat × Byte)) (paint : Point → Option Byte) : Prop :=
  ∀ c, c ∈ cs ↔ ∃ p v, s.clipVp.has p = true ∧ paint p = some v ∧ c = (s.fbAddr p.1 p.2, v)

/-! ### What a painting write set does -/

section
variable {s : State} {cs : List (Nat × Byte)} {paint : Point → Option Byte} (h : s.cellsPaint cs paint)
include h

theorem State.cellsPaint.storesOnly {inside : Point → Prop}
    (hinside : ∀ p v, s.clipVp.has p = true → paint p = some v → inside p) :
    storesOnly (s.clippedPixel inside) s (s.writeCells cs) :=
  storesOnly_writeCells fun c hc => by
    obtain ⟨p, v, hp, hv, rfl⟩ := (h c).1 hc
    exact ⟨p, hinside p v hp hv, hp, (s.wrapAddr_fbAddr _ _).symm⟩

/-- Stored over any memory, a painting gives each pixel of `CLIPVP` its byte and keeps those it has none for. -/
theorem State.cellsPaint.memByte (hs : s.pixelsApart) {p : Point} (hp : s.clipVp.has p = true) (m : Memory) :
    memByte (memStoreAll m cs) (s.fbAddr p.1 p.2) = (paint p).getD (memByte m (s.fbAddr p.1 p.2)) := by
  have hown : ∀ c ∈ cs, wrapAddr c.1 = wrapAddr (s.fbAddr p.1 p.2) → paint p = some c.2 := fun c hc haddr => by
    obtain ⟨q, v, hq, hv, rfl⟩ := (h c).1 hc
    rw [s.wrapAddr_fbAddr, s.wrapAddr_fbAddr] at haddr
    rwa [← hs q p (State.vpb_of_clipVp hq) (State.vpb_of_clipVp hp) haddr]
  cases hv : paint p with
  | none =>
    refine memByte_memStoreAll_of_notMem cs m _ fun c hc haddr => ?_
    rw [hown c hc haddr] at hv
    cases hv
  | some v =>
    refine memByte_memStoreAll_of_mem cs m _ v (fun c hc haddr => ?_) ⟨_, (h _).2 ⟨p, v, hp, hv, rfl⟩, rfl⟩
    exact Option.some.inj ((hown c hc haddr).symm.trans hv)

theorem State.cellsPaint.fbRead (hs : s.pixelsApart) {p : Point} (hp : s.clipVp.has p = true) :
    (s.writeCells cs).fbRead p.1 p.2 = (paint p).getD (s.fbRead p.1 p.2) :=
  h.memByte hs hp s.mem

theorem State.cellsPaint.fbRead_of_some (hs : s.pixelsApart) {p : Point} (hp : s.clipVp.has p = true) {v : Byte}
    (hv : paint p = some v) : (s.writeCells cs).fbRead p.1 p.2 = v := by
  rw [h.fbRead hs hp, hv, Option.getD_some]

end

/-! ### Write sets of rectangles -/

/-- Each pixel of a rectangle in `CLIPVP` with a byte of its own. -/
theorem State.cellsPaint_map {s : State} {r : Rect} (hr : ∀ p, r.has p = true → s.clipVp.has p = true) (v : Point → Byte) :
    s.cellsPaint (r.points.map fun p => (s.fbAddr p.1 p.2, v p)) (fun p => if r.has p then some (v p) else none) := by
  intro c
  simp only [List.mem_map, Rect.mem_points, Option.ite_none_right_eq_some, Option.some.injEq]
  constructor
  · rintro ⟨p, hp, rfl⟩
    exact ⟨p, v p, hr p hp, ⟨hp, rfl⟩, rfl⟩
  · rintro ⟨p, _, -, ⟨hp, rfl⟩, rfl⟩
    exact ⟨p, hp, rfl⟩

/-- The colour, if any, that each point of a rectangle has, plotted there (42_paint R303). -/
theorem State.cellsPaint_plot (s : State) (r : Rect) (colour : Point → Option Colour) :
    s.cellsPaint ((r.inter s.clipVp).points.filterMap fun p => (colour p).bind (s.plotCell p))
      (fun p => if r.has p then (colour p).map s.pixByte else none) := by
  intro c
  simp only [List.mem_filterMap, Rect.mem_points, Rect.has_inter, Option.bind_eq_some_iff, State.plotCell,
    Option.ite_none_right_eq_some, Option.map_eq_some_iff, Option.some.injEq]
  constructor
  · rintro ⟨p, ⟨hbox, hp⟩, k, hk, -, rfl⟩
    exact ⟨p, _, hp, ⟨hbox, k, hk, rfl⟩, rfl⟩
  · rintro ⟨p, _, hp, ⟨hbox, k, hk, rfl⟩, rfl⟩
    exact ⟨p, ⟨hbox, hp⟩, k, hk, hp, rfl⟩

/-- A rectangle given by its corner and its size. -/
theorem Rect.has_of_size {x y w h : Int} {p : Point} :
    (⟨x, y, x + w - 1, y + h - 1⟩ : Rect).has p = true ↔ x ≤ p.1 ∧ p.1 < x + w ∧ y ≤ p.2 ∧ p.2 < y + h := by
  rw [Rect.has_iff]
  dsimp only
  omega

end Sys2Proof.Machine
end

section
/-!
# Copies and scrolls (44_blit R391, R394 to R399)
-/

namespace Sys2Proof.Machine

/-! ### `COPYRECT` (44_blit R391) -/

/-- The source pixel that `COPYRECT` of `r` copies to a pixel. -/
def State.copySource (s : State) (r : Rect) (p : Point) : Point := (p.1 - s.penPos.1 + r.x1, p.2 - s.penPos.2 + r.y1)

/-- A copy paints each pixel whose source lies in the rectangle and the viewport with the source's byte. -/
theorem State.cellsPaint_copyCells (s : State) (r : Rect) : s.cellsPaint (s.copyCells r) (fun p =>
    if (r.inter s.vpb).has (s.copySource r p) then some (s.fbRead (s.copySource r p).1 (s.copySource r p).2) else none) := by
  have hback (p : Point) : s.copySource r (s.penPos.1 + p.1 - r.x1, s.penPos.2 + p.2 - r.y1) = p :=
    Prod.ext (by dsimp only [State.copySource]; ring) (by dsimp only [State.copySource]; ring)
  have hforth (p : Point) :
      (s.penPos.1 + (s.copySource r p).1 - r.x1, s.penPos.2 + (s.copySource r p).2 - r.y1) = p :=
    Prod.ext (by dsimp only [State.copySource]; ring) (by dsimp only [State.copySource]; ring)
  intro c
  simp only [State.copyCells, List.mem_filterMap, Rect.mem_points, Option.ite_none_right_eq_some, Option.some.injEq]
  constructor
  · rintro ⟨q, hq, hclip, rfl⟩
    exact ⟨_, _, hclip, ⟨by rwa [hback], rfl⟩, by rw [hback]⟩
  · rintro ⟨p, _, hclip, ⟨hq, rfl⟩, rfl⟩
    exact ⟨s.copySource r p, hq, by rwa [hforth], congrArg (fun d : Point => (s.fbAddr d.1 d.2, _)) (hforth p)⟩

/-- Settles O45: the copy is a painting of the destination pixels by their sources' old bytes. -/
theorem copyRect : Obligations.CopyRect := by
  intro x1 y1 x2 y2 s r source copied
  have hpaint := s.cellsPaint_copyCells r
  refine ⟨_, rfl, s.onlyMemory_writeCells _, hpaint.storesOnly fun p v _ hv => ?_, fun hs p hp hclip => ?_⟩
  · exact (Option.ite_none_right_eq_some.1 hv).1
  · exact hpaint.fbRead_of_some hs hclip (if_pos hp)

/-! ### Scrolls within a region (44_blit R395, R397, R399) -/

theorem State.clipVp_of_scrollRegion {s : State} {p : Point} (h : s.scrollRegion.has p = true) : s.clipVp.has p = true :=
  (Rect.has_inter.1 h).2

/-- The memory after each pixel of the scroll region has taken the byte of its source pixel. -/
def State.scrolled (s : State) (source : Point → Point) : State :=
  s.writeCells (s.scrollRegion.points.map fun p => (s.fbAddr p.1 p.2, s.fbRead (source p).1 (source p).2))

/-- Only pixels of the region change, and each takes the byte it was to take. -/
theorem State.scrolled_spec (s : State) (source : Point → Point) :
    onlyMemory s (s.scrolled source) ∧
    storesOnly (s.clippedPixel fun p => s.scrollRegion.has p = true) s (s.scrolled source) ∧
    (s.pixelsApart → ∀ p : Point, s.scrollRegion.has p = true →
      (s.scrolled source).fbRead p.1 p.2 = s.fbRead (source p).1 (source p).2) := by
  have hpaint := State.cellsPaint_map (s := s) (r := s.scrollRegion) (fun _ => State.clipVp_of_scrollRegion) fun p =>
    s.fbRead (source p).1 (source p).2
  refine ⟨s.onlyMemory_writeCells _, hpaint.storesOnly fun p v _ hv => ?_, fun hs p hp => ?_⟩
  · exact (Option.ite_none_right_eq_some.1 hv).1
  · exact hpaint.fbRead_of_some hs (State.clipVp_of_scrollRegion hp) (if_pos hp)

theorem exec_hScroll_eq (n : Half) (s : State) : exec (.hScroll n) s = .next (
    if s.scrollRegion.isEmpty then s
    else if n.toInt % (s.scrollRegion.width : Int) = 0 then s
    else s.scrolled fun p => (scrolledCol s.scrollRegion (n.toInt % (s.scrollRegion.width : Int)) p.1, p.2)) := rfl

theorem State.copyRows_eq (s : State) (m : Int) :
    s.copyRows s.scrollRegion m = s.scrolled fun p => (p.1, scrolledRow s.scrollRegion m p.2) := rfl

/-- Settles O48: both scrolls repaint the region by its own old bytes, column by column or row by row. -/
theorem scrollsWithinRegion : Obligations.ScrollsWithinRegion := by
  intro n s e m k
  refine ⟨fun hnone => ?_, fun hregion hk => ?_, fun hregion hm hwide => ?_⟩
  · rw [exec_hScroll_eq]
    obtain hempty | hk := hnone
    · rw [if_pos hempty]
    · rw [if_pos (c := n.toInt % (s.scrollRegion.width : Int) = 0) hk, ite_self]
  · refine ⟨_, ?_, s.scrolled_spec fun p => (scrolledCol e k p.1, p.2)⟩
    rw [exec_hScroll_eq, if_neg (ne_true_of_eq_false hregion), if_neg hk]
  · refine ⟨_, ?_, s.scrolled_spec fun p => (p.1, scrolledRow e m p.2)⟩
    rw [exec_vScroll_eq, if_neg (ne_true_of_eq_false hregion), if_neg hm, if_neg hwide, State.copyRows_eq]

end Sys2Proof.Machine
end

section
/-!
# Raw transfers (44_blit R392, R393)

Both go through the same pixels, each with its buffer byte; a buffer is far smaller than the address space, so that its bytes are
distinct.
-/

namespace Sys2Proof.Machine

variable {s : State} {at_ : Point} {w h : Half} {addr : Word} {r : Rect}

/-! ### The pixels of a transfer and their buffer bytes (20_memory R125) -/

/-- The buffer byte of the pixel at an offset. -/
def rawAddr (w : Half) (addr : Word) (i j : Nat) : Nat := wrapAddr (addr.toNat + j * w.toNat + i)

/-- The box that a raw transfer covers. -/
def rawBox (at_ : Point) (w h : Half) : Rect := ⟨at_.1, at_.2, at_.1 + w.toInt - 1, at_.2 + h.toInt - 1⟩

theorem rawPixels_eq : rawPixels at_ w h addr r = ((rawBox at_ w h).inter r).points.map fun p =>
    (p, rawAddr w addr (p.1 - at_.1).toNat (p.2 - at_.2).toNat) := rfl

/-- Different pixels have different buffer bytes: a size is below 2^15, so the buffer is shorter than the address space. -/
theorem rawAddr_inj {i j i' j' : Nat} (hi : i < w.toNat) (hi' : i' < w.toNat) (hj : j < h.toNat) (hj' : j' < h.toNat)
    (heq : rawAddr w addr i j = rawAddr w addr i' j') : i = i' ∧ j = j' := by
  have hbound {i j : Nat} (hi : i < w.toNat) (hj : j < h.toNat) : j * w.toNat + i < addrSpace :=
    calc j * w.toNat + i < (j + 1) * w.toNat := by rw [Nat.add_one_mul]; omega
      _ ≤ h.toNat * w.toNat := Nat.mul_le_mul_right _ hj
      _ ≤ 2 ^ 16 * 2 ^ 16 := Nat.mul_le_mul h.isLt.le w.isLt.le
  have hlt := hbound hi hj
  have hlt' := hbound hi' hj'
  refine grid_inj hi hi' ?_
  simp only [rawAddr, wrapAddr, addrSpace] at heq hlt hlt'
  omega

section
variable (hw : 0 < w.toInt) (hh : 0 < h.toInt)
include hw hh

/-- The points of the box are those at an offset below its size. -/
theorem rawBox_has_iff {p : Point} :
    (rawBox at_ w h).has p = true ↔ ∃ i j : Nat, i < w.toNat ∧ j < h.toNat ∧ p = (at_.1 + i, at_.2 + j) := by
  rw [rawBox, Rect.has_of_size, toInt_eq_toNat_of_pos hw, toInt_eq_toNat_of_pos hh]
  constructor
  · intro hp
    exact ⟨(p.1 - at_.1).toNat, (p.2 - at_.2).toNat, by omega, by omega, Prod.ext (by dsimp only; omega) (by dsimp only; omega)⟩
  · rintro ⟨i, j, hi, hj, rfl⟩
    dsimp only
    omega

theorem mem_rawPixels {q : Point × Nat} : q ∈ rawPixels at_ w h addr r ↔
    ∃ i j : Nat, i < w.toNat ∧ j < h.toNat ∧ r.has (at_.1 + i, at_.2 + j) = true ∧
      q = ((at_.1 + i, at_.2 + j), rawAddr w addr i j) := by
  simp only [rawPixels_eq, List.mem_map, Rect.mem_points, Rect.has_inter, rawBox_has_iff hw hh]
  constructor
  · rintro ⟨_, ⟨⟨i, j, hi, hj, rfl⟩, hr⟩, rfl⟩
    exact ⟨i, j, hi, hj, hr, by simp only [add_sub_cancel_left, Int.toNat_natCast]⟩
  · rintro ⟨i, j, hi, hj, hr, rfl⟩
    exact ⟨_, ⟨⟨i, j, hi, hj, rfl⟩, hr⟩, by simp only [add_sub_cancel_left, Int.toNat_natCast]⟩

theorem lowestBad_rawPixels (hok : ∀ i j : Nat, i < w.toNat → j < h.toNat → r.has (at_.1 + i, at_.2 + j) = true →
    memOk s (rawAddr w addr i j) = true) :
    lowestBad s ((rawPixels at_ w h addr r).map fun q => q.2) = none := by
  refine lowestBad_eq_none.2 fun a ha => ?_
  obtain ⟨i, j, hi, hj, hr, rfl⟩ := (mem_rawPixels_addr hw hh).1 ha
  exact hok i j hi hj hr

end

/-! ### The commands -/

theorem exec_raw_of_noSize {x y : Half} (h0 : w.toInt ≤ 0 ∨ h.toInt ≤ 0) :
    exec (.readRawData x y w h addr) s = .next s ∧ exec (.writeRawData x y w h addr) s = .next s :=
  ⟨congrArg Host.Outcome.next (if_pos h0), congrArg Host.Outcome.next (if_pos h0)⟩

/-- The write set of `READRAWDATA` (44_blit R392). -/
def State.readCells (s : State) (t : List (Point × Nat)) : List (Nat × Byte) := t.map fun q => (q.2, s.fbRead q.1.1 q.1.2)

/-- The byte that `WRITERAWDATA` stores for a raw byte (44_blit R393). -/
def State.rawByteIn (s : State) (v : Byte) : Byte := (v &&& 0x3F#8) ||| s.si

/-- The write set of `WRITERAWDATA` (44_blit R393). -/
def State.rawCells (s : State) (t : List (Point × Nat)) : List (Nat × Byte) :=
  t.map fun q => (s.fbAddr q.1.1 q.1.2, s.rawByteIn (memByte s.mem q.2))

theorem exec_readRawData_of_readable {x y : Half} (hw : 0 < w.toInt) (hh : 0 < h.toInt)
    (hok : lowestBad s ((rawPixels (s.absPoint x y) w h addr s.vpb).map fun q => q.2) = none) :
    exec (.readRawData x y w h addr) s = .next (s.writeCells (s.readCells (rawPixels (s.absPoint x y) w h addr s.vpb))) := by
  have hsize : ¬ (w.toInt ≤ 0 ∨ h.toInt ≤ 0) := by omega
  simp only [exec, execReadRawData, if_neg hsize, hok]
  rfl

theorem exec_writeRawData_of_readable {x y : Half} (hw : 0 < w.toInt) (hh : 0 < h.toInt)
    (hok : lowestBad s ((rawPixels (s.absPoint x y) w h addr s.clipVp).map fun q => q.2) = none) :
    exec (.writeRawData x y w h addr) s =
      .next (s.writeCells (s.rawCells (rawPixels (s.absPoint x y) w h addr s.clipVp))) := by
  have hsize : ¬ (w.toInt ≤ 0 ∨ h.toInt ≤ 0) := by omega
  simp only [exec, execWriteRawData, if_neg hsize, hok]
  rfl

/-- Each buffer byte of a read rectangle takes its pixel's byte. -/
theorem State.memByte_readCells (hw : 0 < w.toInt) (hh : 0 < h.toInt) {i j : Nat} (hi : i < w.toNat) (hj : j < h.toNat)
    (hr : r.has (at_.1 + i, at_.2 + j) = true) (m : Memory) :
    memByte (memStoreAll m (s.readCells (rawPixels at_ w h addr r))) (rawAddr w addr i j) =
      s.fbRead (at_.1 + i) (at_.2 + j) := by
  refine memByte_memStoreAll_of_mem _ _ _ _ (fun c hc heq => ?_)
    ⟨_, List.mem_map.2 ⟨_, (mem_rawPixels hw hh).2 ⟨i, j, hi, hj, hr, rfl⟩, rfl⟩, rfl⟩
  obtain ⟨_, hq, rfl⟩ := List.mem_map.1 hc
  obtain ⟨i', j', hi', hj', -, rfl⟩ := (mem_rawPixels hw hh).1 hq
  simp only [rawAddr, wrapAddr_wrapAddr] at heq
  obtain ⟨rfl, rfl⟩ := rawAddr_inj hi' hi hj' hj heq
  rfl

/-- A written rectangle paints its pixels in `CLIPVP` with their raw bytes. -/
theorem State.cellsPaint_rawCells (s : State) (at_ : Point) (w h : Half) (addr : Word) :
    s.cellsPaint (s.rawCells (rawPixels at_ w h addr s.clipVp)) (fun p =>
      if ((rawBox at_ w h).inter s.clipVp).has p then
        some (s.rawByteIn (memByte s.mem (rawAddr w addr (p.1 - at_.1).toNat (p.2 - at_.2).toNat)))
      else none) := by
  rw [State.rawCells, rawPixels_eq, List.map_map]
  exact State.cellsPaint_map (fun p hp => (Rect.has_inter.1 hp).2) _

/-- Settles O46: a read stores each pixel's byte in a buffer byte of its own, and a write paints the pixels with raw bytes. -/
theorem rawTransfers : Obligations.RawTransfers := by
  intro x y w h addr s px py buf
  refine ⟨exec_raw_of_noSize, fun hw hh hok => ?_, fun hw hh hok => ?_⟩
  · refine ⟨_, exec_readRawData_of_readable hw hh (lowestBad_rawPixels hw hh hok), s.onlyMemory_writeCells _,
      storesOnly_writeCells fun c hc => ?_, fun i j hi hj hr => State.memByte_readCells hw hh hi hj hr s.mem⟩
    obtain ⟨_, hq, rfl⟩ := List.mem_map.1 hc
    obtain ⟨i, j, hi, hj, hr, rfl⟩ := (mem_rawPixels hw hh).1 hq
    exact ⟨i, j, hi, hj, hr, (wrapAddr_wrapAddr _).symm⟩
  · have hpaint := s.cellsPaint_rawCells (s.absPoint x y) w h addr
    refine ⟨_, exec_writeRawData_of_readable hw hh (lowestBad_rawPixels hw hh hok), s.onlyMemory_writeCells _,
      hpaint.storesOnly fun p v _ hv => ?_, fun hs i j hi hj hp => hpaint.fbRead_of_some hs hp ?_⟩
    · obtain ⟨hin, -⟩ := Option.ite_none_right_eq_some.1 hv
      exact (rawBox_has_iff hw hh).1 (Rect.has_inter.1 hin).1
    · have hin : ((rawBox (s.absPoint x y) w h).inter s.clipVp).has (px i, py j) = true :=
        Rect.has_inter.2 ⟨(rawBox_has_iff hw hh).2 ⟨i, j, hi, hj, rfl⟩, hp⟩
      rw [if_pos hin]
      simp only [px, py, add_sub_cancel_left, Int.toNat_natCast]
      rfl

end Sys2Proof.Machine
end

section
/-!
# Glyphs and bitmaps (44_blit R380 to R390)

A glyph and a bitmap paint the points of their footprint that have a colour; a glyph buffer paints its cells one after the other,
so that a point keeps the last colour that it was given.
-/

namespace Sys2Proof.Machine

/-! ### One glyph (44_blit R382) -/

/-- The colour that a glyph drawn at a point gives the point `p`, none outside its footprint and where it is transparent. -/
def State.glyphPaint (s : State) (at_ : Point) (g : Glyph) (o : Half) (fg bg : Colour) (p : Point) : Option Colour :=
  if at_.1 ≤ p.1 ∧ p.1 < at_.1 + glyphOutWidth g o ∧ at_.2 ≤ p.2 ∧ p.2 < at_.2 + g.h then
    glyphColour o fg bg (glyphOut s.mem g o (p.1 - at_.1).toNat (p.2 - at_.2).toNat)
  else none

theorem State.cellsPaint_glyphCells (s : State) (at_ : Point) (g : Glyph) (o : Half) (fg bg : Colour) :
    s.cellsPaint (s.glyphCells at_ g o fg bg) (fun p => (s.glyphPaint at_ g o fg bg p).map s.pixByte) := by
  have hpaint := s.cellsPaint_plot ⟨at_.1, at_.2, at_.1 + (glyphOutWidth g o : Int) - 1, at_.2 + (g.h : Int) - 1⟩ fun p =>
    glyphColour o fg bg (glyphOut s.mem g o (p.1 - at_.1).toNat (p.2 - at_.2).toNat)
  simp only [Rect.has_of_size] at hpaint
  simp only [State.glyphPaint, apply_ite (Option.map s.pixByte), Option.map_none]
  exact hpaint

theorem exec_drawGlyph_of_empty {s : State} {addr : Word} (hrec : s.runOk addr.toNat 12)
    (hempty : (s.glyphRecord addr.toNat).w = 0 ∨ (s.glyphRecord addr.toNat).h = 0) :
    exec (.drawGlyph addr) s = .next s := by
  simp only [exec, execDrawGlyph, lowestBad_byteRange.2 hrec, State.drawGlyphRecord, if_pos hempty]

theorem exec_drawGlyph_of_readable {s : State} {addr : Word} (hrec : s.runOk addr.toNat 12)
    (hsize : ¬ ((s.glyphRecord addr.toNat).w = 0 ∨ (s.glyphRecord addr.toNat).h = 0))
    (hbytes : lowestBad s (s.glyphRecord addr.toNat).bytes = none) :
    exec (.drawGlyph addr) s = .next (s.writeCells (s.glyphCells
      (s.absPoint (memHalf s.mem addr.toNat) (memHalf s.mem (addr.toNat + 2))) (s.glyphRecord addr.toNat) s.paint.glyphOpt
      s.penE s.brushE)) := by
  simp only [exec, execDrawGlyph, lowestBad_byteRange.2 hrec, State.drawGlyphRecord, if_neg hsize, hbytes]

/-- Settles O49: a readable glyph paints the points of its footprint by its output bits. -/
theorem drawGlyph : Obligations.DrawGlyph := by
  intro addr s hrec g o c inside
  refine ⟨exec_drawGlyph_of_empty hrec, fun hw hh hdata => ?_⟩
  have hpaint := s.cellsPaint_glyphCells c g o s.penE s.brushE
  refine ⟨_, exec_drawGlyph_of_readable hrec (not_or.2 ⟨hw, hh⟩) (lowestBad_byteRange.2 hdata), s.onlyMemory_writeCells _,
    hpaint.storesOnly fun p v _ hv => ?_, fun hs p hin hp => ?_⟩
  · obtain ⟨col, hcol, -⟩ := Option.map_eq_some_iff.1 hv
    exact (Option.ite_none_right_eq_some.1 hcol).1
  · rw [hpaint.fbRead hs hp, State.glyphPaint, if_pos hin]
    cases glyphColour o s.penE s.brushE (glyphOut s.mem g o (p.1 - c.1).toNat (p.2 - c.2).toNat) <;> rfl

/-! ### Glyph buffers (44_blit R385 to R388) -/

/-- What one cell's glyph paints. -/
theorem State.cellsPaint_cellCells (s : State) (b : GlyphBuffer) (c : Nat × Nat) :
    s.cellsPaint (s.cellCells b c) (fun p => (s.cellPaint b p c).map s.pixByte) :=
  s.cellsPaint_glyphCells _ _ _ _ _

/-- Cells stored one after the other leave each pixel the colour of the last cell that paints it (44_blit R388). -/
theorem State.memByte_flatMap_cellCells {s : State} (hs : s.pixelsApart) (b : GlyphBuffer) {p : Point}
    (hp : s.clipVp.has p = true) (cs : List (Nat × Nat)) (m : Memory) :
    memByte (memStoreAll m (cs.flatMap (s.cellCells b))) (s.fbAddr p.1 p.2) =
      ((cs.reverse.findSome? (s.cellPaint b p)).map s.pixByte).getD (memByte m (s.fbAddr p.1 p.2)) := by
  induction cs generalizing m with
  | nil => rfl
  | cons c cs ih =>
    rw [List.flatMap_cons, memStoreAll_append, ih, (s.cellsPaint_cellCells b c).memByte hs hp, List.reverse_cons,
      List.findSome?_append, List.findSome?_singleton]
    cases cs.reverse.findSome? (s.cellPaint b p) <;> rfl

/-- A stored byte satisfies what every cell of the write set satisfies. -/
theorem memByte_memStoreAll_of_changed {P : Byte → Prop} {cs : List (Nat × Byte)} (hcs : ∀ c ∈ cs, P c.2) {m : Memory}
    {a : Nat} (ha : memByte (memStoreAll m cs) a ≠ memByte m a) : P (memByte (memStoreAll m cs) a) := by
  refine Or.resolve_left (List.foldlRecOn (motive := fun m' => memByte m' a = memByte m a ∨ P (memByte m' a)) cs _ (.inl rfl)
    fun m' hm' c hc => ?_) ha
  rw [memByte_memStore]
  split
  · exact .inr (hcs c hc)
  · exact hm'

/-- A plotted byte has the sync bits `SI` (00_scope R13, 40_video R206). -/
theorem State.pixByte_sync (s : State) (c : Colour) : s.pixByte c &&& 0xC0#8 = s.si := by
  have hcolour (c : Colour) : c.setWidth 8 &&& 0xC0#8 = 0#8 := by
    apply BitVec.eq_of_getLsbD_eq
    intro i hi
    rw [BitVec.getLsbD_and, BitVec.getLsbD_setWidth, getLsbD_syncMask i hi, BitVec.getLsbD_zero]
    by_cases h6 : i < 6
    · simp [Nat.not_le.2 h6]
    · simp [Nat.not_lt.1 h6]
  have hsi : s.si &&& 0xC0#8 = s.si := by
    unfold State.si Timings.si
    cases s.active.hpol <;> cases s.active.vpol <;> rfl
  rw [State.pixByte, BitVec.and_or_distrib_right, hcolour, hsi, BitVec.zero_or]

theorem State.renderCells_of_readable {s : State} {b : GlyphBuffer} {cs : List (Nat × Nat)}
    (hcells : ∀ c ∈ cs, s.runOk (b.cellAddr c) 4)
    (hglyphs : ∀ c ∈ cs, s.runOk (b.glyph (memWord s.mem (b.cellAddr c))).data (b.gh * glyphBpr b.gw)) :
    s.renderCells b cs = s.writeCells (cs.flatMap (s.cellCells b)) := by
  have hbytes : lowestBad s (cs.flatMap fun c => (b.glyph (memWord s.mem (b.cellAddr c))).bytes) = none :=
    lowestBad_flatMap_byteRange hglyphs
  simp only [State.renderCells, lowestBad_flatMap_byteRange hcells, hbytes]

theorem exec_renderGlyphsBuffer_of_empty {s : State} {addr : Word} {c1 r1 c2 r2 : Half} (hdesc : s.runOk addr.toNat 16)
    (hempty : (s.glyphBuffer addr.toNat).gw = 0 ∨ (s.glyphBuffer addr.toNat).gh = 0 ∨
      (s.glyphBuffer addr.toNat).cols = 0 ∨ (s.glyphBuffer addr.toNat).rows = 0) :
    exec (.renderGlyphsBuffer addr c1 r1 c2 r2) s = .next s := by
  simp only [exec, execRenderGlyphsBuffer, lowestBad_byteRange.2 hdesc, if_pos hempty]

/-- Settles O50: the cells are paintings, stored in row-major order. -/
theorem renderGlyphsBuffer : Obligations.RenderGlyphsBuffer := by
  intro addr c1 r1 c2 r2 s hdesc b cs inside
  refine ⟨exec_renderGlyphsBuffer_of_empty hdesc, fun hgw hgh hcols hrows hcells hglyphs => ?_⟩
  refine ⟨s.writeCells (cs.flatMap (s.cellCells b)), ?_, s.onlyMemory_writeCells _, storesOnly_writeCells fun c hc => ?_,
    fun a => memByte_memStoreAll_of_changed (P := fun v => v &&& 0xC0#8 = s.si) fun c hc => ?_, fun hs p hp => ?_⟩
  · rw [exec_renderGlyphsBuffer_of_readable hdesc (by tauto), State.renderCells_of_readable hcells hglyphs]
  · obtain ⟨cell, hcell, hc⟩ := List.mem_flatMap.1 hc
    obtain ⟨p, v, hp, hv, rfl⟩ := (s.cellsPaint_cellCells b cell c).1 hc
    obtain ⟨col, hcol, -⟩ := Option.map_eq_some_iff.1 hv
    exact ⟨p, ⟨cell, hcell, (Option.ite_none_right_eq_some.1 hcol).1⟩, hp, (s.wrapAddr_fbAddr _ _).symm⟩
  · obtain ⟨cell, -, hc⟩ := List.mem_flatMap.1 hc
    obtain ⟨p, v, -, hv, rfl⟩ := (s.cellsPaint_cellCells b cell c).1 hc
    obtain ⟨col, -, rfl⟩ := Option.map_eq_some_iff.1 hv
    exact s.pixByte_sync col
  · refine (State.memByte_flatMap_cellCells hs b hp cs s.mem).trans ?_
    cases cs.reverse.findSome? (s.cellPaint b p) <;> rfl

/-! ### Bitmaps (44_blit R389, R390) -/

/-- The two top bits of a pixel from 2 on say that bit 7 is set. -/
theorem opaquePix_iff (v : Byte) : opaquePix v = true ↔ 2 ≤ (v.extractLsb' 6 2).toNat := by
  rw [opaquePix, BitVec.extractLsb'_toNat, BitVec.getLsbD, Nat.testBit_eq_decide_div_mod_eq, decide_eq_true_eq,
    Nat.shiftRight_eq_div_pow]
  have := v.isLt
  omega

/-- The colour of a bitmap pixel, none for a transparent one (44_blit R390). -/
def bitmapColour (v : Byte) : Option Colour := if opaquePix v then some (v.extractLsb' 0 6) else none

theorem bitmapColour_eq_some {v : Byte} {k : Colour} :
    bitmapColour v = some k ↔ 2 ≤ (v.extractLsb' 6 2).toNat ∧ v.extractLsb' 0 6 = k := by
  rw [bitmapColour, Option.ite_none_right_eq_some, opaquePix_iff, Option.some.injEq]

/-- A bitmap paints the points of its footprint with the colours of their pixels. -/
theorem State.cellsPaint_bitmapCells (s : State) (at_ : Point) (b : Bitmap) : s.cellsPaint (s.bitmapCells at_ b) (fun p =>
    if at_.1 ≤ p.1 ∧ p.1 < at_.1 + b.w ∧ at_.2 ≤ p.2 ∧ p.2 < at_.2 + b.h then
      (bitmapColour (memByte s.mem (b.pixAddr (p.1 - at_.1).toNat (p.2 - at_.2).toNat))).map s.pixByte
    else none) := by
  have hplot (v : Byte) (p : Point) :
      (bitmapColour v).bind (s.plotCell p) = if opaquePix v then s.plotCell p (v.extractLsb' 0 6) else none := by
    unfold bitmapColour
    split <;> rfl
  have hpaint := s.cellsPaint_plot ⟨at_.1, at_.2, at_.1 + (b.w : Int) - 1, at_.2 + (b.h : Int) - 1⟩ fun p =>
    bitmapColour (memByte s.mem (b.pixAddr (p.1 - at_.1).toNat (p.2 - at_.2).toNat))
  simp only [Rect.has_of_size, hplot] at hpaint
  exact hpaint

theorem exec_drawBitmap_of_readable {s : State} {x y : Half} {addr : Word} (hhdr : s.runOk addr.toNat 8)
    (hpix : s.runOk (readBitmap s.mem addr.toNat).data
      ((readBitmap s.mem addr.toNat).w * (readBitmap s.mem addr.toNat).h)) :
    exec (.drawBitmap x y addr) s = .next (s.writeCells (s.bitmapCells (s.absPoint x y) (readBitmap s.mem addr.toNat))) := by
  simp only [exec, execDrawBitmap, lowestBad_byteRange.2 hhdr, lowestBad_byteRange.2 hpix]

/-- Settles O51: a readable bitmap paints the points of its footprint over its opaque pixels. -/
theorem drawBitmap : Obligations.DrawBitmap := by
  intro x y addr s hhdr b c pix inside hpix
  have hpaint := s.cellsPaint_bitmapCells c b
  refine ⟨_, exec_drawBitmap_of_readable hhdr hpix, s.onlyMemory_writeCells _, hpaint.storesOnly fun p v _ hv => ?_,
    fun hs p hin hp => ?_⟩
  · obtain ⟨hfoot, hv⟩ := Option.ite_none_right_eq_some.1 hv
    obtain ⟨k, hk, -⟩ := Option.map_eq_some_iff.1 hv
    exact ⟨hfoot, (bitmapColour_eq_some.1 hk).1⟩
  · obtain ⟨hfoot, hopaque⟩ := hin
    have hk : bitmapColour (pix p) = some ((pix p).extractLsb' 0 6) := bitmapColour_eq_some.2 ⟨hopaque, rfl⟩
    exact hpaint.fbRead_of_some hs hp ((if_pos hfoot).trans (congrArg (Option.map s.pixByte) hk))

end Sys2Proof.Machine
end

section
/-!
# `SWAPBUFFERS` (44_blit R405)

The one step is a chain of four: the hide pass, the exchange of the tables with the chain's new targets, the records' `PRIV` bytes,
and the show pass. The first and the last are the compositor's passes; what the other two do is said here.
-/

namespace Sys2Proof.Machine

variable {s t : State} {f : Byte → Byte} {k : Nat}

/-! ### Rewriting one `PRIV` byte (20_memory R122, log entry 16) -/

theorem State.recordBad_eq_none : s.recordBad k = none ↔ s.runOk (s.recordAddr k) 32 := lowestBad_byteRange

theorem State.updatePriv_of_readable (h : s.recordBad k = none) :
    s.updatePriv f k = s.setRecordPriv k (f (s.recordPriv k)) := by
  rw [State.updatePriv, h]

theorem State.updatePriv_of_bad {fa : Nat} (h : s.recordBad k = some fa) : s.updatePriv f k = s.raisePass fa := by
  rw [State.updatePriv, h]

/-- Rewriting the `PRIV` byte of any record rewrites that of record `k` too or leaves it alone: two records may share theirs. -/
theorem State.recordPriv_updatePriv (s : State) (f : Byte → Byte) (j k : Nat) :
    (s.updatePriv f j).recordPriv k = s.recordPriv k ∨ (s.updatePriv f j).recordPriv k = f (s.recordPriv k) := by
  cases hbad : s.recordBad j with
  | some fa =>
    rw [State.updatePriv_of_bad hbad]
    exact .inl rfl
  | none =>
    have hread : (s.setRecordPriv j (f (s.recordPriv j))).recordPriv k = _ := memByte_setRecordPriv s j _ (s.recordAddr k + 17)
    rw [State.updatePriv_of_readable hbad, hread]
    split
    next hsame => exact .inr (congrArg f (memByte_congr s.mem hsame).symm)
    next => exact .inl rfl

/-! ### Rewriting the `PRIV` bytes of a list's records -/

/-- The `PRIV` bytes of the records that exist. -/
def State.readablePriv (s : State) (a : Nat) : Prop := ∃ k < s.recordCount, s.runOk (s.recordAddr k) 32 ∧ s.privByte k a

/-- Every record of the list exists. -/
def State.recordsReadable (s : State) : Prop := ∀ k < s.recordCount, s.runOk (s.recordAddr k) 32

theorem readablePriv_of_fixed (h : t.fixed = s.fixed) : t.readablePriv = s.readablePriv := by
  show t.fixed.readablePriv = s.fixed.readablePriv
  rw [h]

theorem recordsReadable_of_fixed (h : t.fixed = s.fixed) : t.recordsReadable ↔ s.recordsReadable := by
  show t.fixed.recordsReadable ↔ s.fixed.recordsReadable
  rw [h]

/-- What rewriting `PRIV` bytes may change: those that exist, and the error record where one does not. -/
structure State.PrivsOnly (s t : State) : Prop where
  fixed : t.fixed = s.fixed
  cursor : t.cursor = s.cursor
  comp : t.comp = s.comp
  stores : storesOnly s.readablePriv s t
  sys : s.recordsReadable → t.sys = s.sys

theorem State.PrivsOnly.updatePriv (h : s.PrivsOnly t) (hk : k < s.recordCount) (f : Byte → Byte) :
    s.PrivsOnly (t.updatePriv f k) := by
  have hrun := State.recordBad_eq_none (s := s) (k := k)
  have haddr := recordAddr_of_fixed h.fixed k
  cases hbad : t.recordBad k with
  | some fa =>
    rw [State.updatePriv_of_bad hbad]
    rw [recordBad_of_fixed h.fixed] at hbad
    refine ⟨h.fixed, h.cursor, h.comp, h.stores, fun hall => ?_⟩
    rw [hrun.2 (hall k hk)] at hbad
    cases hbad
  | none =>
    rw [State.updatePriv_of_readable hbad]
    rw [recordBad_of_fixed h.fixed] at hbad
    refine ⟨h.fixed, h.cursor, h.comp, fun a ha => ?_, h.sys⟩
    rw [memByte_setRecordPriv, haddr, if_neg fun haddr => ha ⟨k, hk, hrun.1 hbad, haddr.symm⟩]
    exact h.stores a ha

theorem State.privsOnly_updatePrivs (s : State) (f : Byte → Byte) : s.PrivsOnly (s.updatePrivs f) :=
  List.foldlRecOn (motive := s.PrivsOnly) _ _ ⟨rfl, rfl, rfl, fun _ _ => rfl, fun _ => rfl⟩
    fun _ h _ hk => h.updatePriv (List.mem_range.1 hk) f

theorem State.PrivsOnly.frame (h : s.PrivsOnly t) : t = { s with
    mem := t.mem
    sys := { s.sys with err := t.sys.err, errAddr := t.sys.errAddr, irqStatus := t.sys.irqStatus } } := by
  have heq := eq_of_fixed h.fixed
  rwa [h.cursor, h.comp] at heq

/-- A rewriting that does no more the second time rewrites the `PRIV` byte of every record that exists, also where records
share it. -/
theorem State.recordPriv_updatePrivs (hf : ∀ v, f (f v) = f v) (hk : k < s.recordCount)
    (hbad : s.recordBad k = none) : (s.updatePrivs f).recordPriv k = f (s.recordPriv k) := by
  have hidem {v w : Byte} (h : w = v ∨ w = f v) : f w = f v := h.elim (congrArg f) fun h => by rw [h, hf]
  have hfold (l : List Nat) (s : State) : (l.foldl (State.updatePriv f) s).recordPriv k = s.recordPriv k ∨
      (l.foldl (State.updatePriv f) s).recordPriv k = f (s.recordPriv k) := by
    refine List.foldlRecOn (motive := fun t : State => t.recordPriv k = s.recordPriv k ∨ t.recordPriv k = f (s.recordPriv k)) l _
      (.inl rfl) fun t ht j _ => ?_
    obtain hstep | hstep := t.recordPriv_updatePriv f j k
    · rwa [hstep]
    · exact .inr (hstep.trans (hidem ht))
  obtain ⟨pre, post, hsplit⟩ := List.append_of_mem (List.mem_range.2 hk)
  have hbad' : (pre.foldl (State.updatePriv f) s).recordBad k = none :=
    (recordBad_of_fixed (foldl_fixed (fixed_updatePriv f) pre s) k).trans hbad
  have hown : ((pre.foldl (State.updatePriv f) s).updatePriv f k).recordPriv k = f (s.recordPriv k) := by
    rw [State.updatePriv_of_readable hbad', recordPriv_setRecordPriv, hidem (hfold pre s)]
  have hrest := hfold post ((pre.foldl (State.updatePriv f) s).updatePriv f k)
  rw [hown, hf, or_self] at hrest
  rwa [State.updatePrivs, hsplit, List.foldl_append, List.foldl_cons]

/-! ### The exchange of the tables (40_video R223, R227) -/

theorem bufWord_of_fixed (h : t.fixed = s.fixed) : t.bufWord = s.bufWord := by
  show t.fixed.bufWord = s.fixed.bufWord
  rw [h]

/-- Only a configured block has two buffers. -/
theorem State.layoutOk.chainOk_of_dblActive (hs : s.layoutOk) (hdbl : s.alloc.dblActive = true) : s.chainOk := by
  obtain ⟨-, hnew, hconf⟩ := hs
  cases hc : s.alloc.configured with
  | true => exact (hconf hc).1
  | false =>
    rw [(hnew hc).2] at hdbl
    cases hdbl

theorem State.swapTables_storesOnly (s : State) : storesOnly s.bufWord s s.swapTables :=
  State.retarget_storesOnly { s with rows := { s.rows with visBuf := !s.rows.visBuf } } _

theorem State.chainOk.targets_swapTables (hs : s.chainOk) : s.swapTables.targets s.swapTables.mem s.swapTables.visTbl :=
  have hswapped : ({ s with rows := { s.rows with visBuf := !s.rows.visBuf } } : State).chainOk := hs
  hswapped.targets_retarget _

/-! ### The whole step -/

theorem State.hidden_shown (s : State) : s.hidden.comp.shown = false := by
  unfold State.hidden
  split
  · rfl
  next h => exact eq_false_of_ne_true h

theorem privUndrawn_privUndrawn (v : Byte) : privUndrawn (privUndrawn v) = privUndrawn v := by
  rw [privUndrawn, privUndrawn, BitVec.and_assoc, BitVec.and_self]

theorem anySprite_of_fixed (h : t.fixed = s.fixed) : t.anySprite = s.anySprite := by
  show t.fixed.anySprite = s.fixed.anySprite
  rw [h]

/-- After a hide pass a refresh is the show pass alone (45_sprites R433). -/
theorem State.refreshPass_of_hidden (h : s.comp.shown = false) : s.refreshPass = s.showPass := by
  rw [State.refreshPass, h]
  rfl

/-- The state between the two passes of a swap. -/
def State.exchanged (s : State) : State := s.hidden.swapTables.updatePrivs privUndrawn

/-- A swap ends with a show pass where there is something to show. -/
theorem State.swapped_eq (s : State) :
    s.swapped = if s.listValid = true ∨ s.cursorWanted = true then s.exchanged.showPass else s.exchanged := by
  have hframe := s.hidden.swapTables.privsOnly_updatePrivs privUndrawn
  have hany : s.exchanged.anySprite = s.anySprite :=
    (anySprite_of_fixed (hframe.fixed.trans (fixed_swapTables_of_fixed (fixed_hidden s))) :)
  have hshown : s.exchanged.comp.shown = false := (congrArg Compositor.shown hframe.comp).trans s.hidden_shown
  simp only [← State.refreshPass_of_hidden hshown, ← Bool.or_eq_true]
  show (if s.exchanged.anySprite then _ else _) = _
  rw [hany]
  rfl

theorem exec_swapBuffers_of_dblActive (hdbl : s.alloc.dblActive = true) : exec .swapBuffers s = .next s.swapped := by
  simp only [exec, execSwapBuffers, hdbl]
  rfl

/-- Settles O53: the states after the hide pass, the exchange and the `PRIV` bytes are those that the step goes through. -/
theorem swapBuffers : Obligations.SwapBuffers := by
  intro s
  refine ⟨fun hsingle => congrArg Host.Outcome.next (if_pos hsingle), fun hdbl => ?_⟩
  have hfixed : s.hidden.swapTables.fixed = s.swapTables.fixed := fixed_swapTables_of_fixed (fixed_hidden s)
  have hcount : s.hidden.swapTables.recordCount = s.recordCount := (recordCount_of_fixed hfixed :)
  have hpriv := s.hidden.swapTables.privsOnly_updatePrivs privUndrawn
  refine ⟨s.swapped, s.hidden, s.hidden.swapTables, s.exchanged, exec_swapBuffers_of_dblActive hdbl, rfl,
    ⟨rfl, ?_, fun hs => ?_⟩, ⟨hpriv.frame, ?_, fun k hk hrun => ?_, fun hall => ?_⟩, s.swapped_eq,
    (rows_of_fixed (fixed_swapped s) :), (paint_of_fixed (fixed_swapped s) :), (queue_of_fixed (fixed_swapped s) :),
    (seq_of_fixed (fixed_swapped s) :)⟩
  · rw [← bufWord_of_fixed (fixed_hidden s)]
    exact s.hidden.swapTables_storesOnly
  · have hlayout := layoutOk_of_layout (layout_of_fixed (fixed_hidden s)) hs
    exact (hlayout.chainOk_of_dblActive (alloc_of_fixed (fixed_hidden s) ▸ hdbl)).targets_swapTables
  · have hreadable : s.hidden.swapTables.readablePriv = s.readablePriv := (readablePriv_of_fixed hfixed :)
    have hstores := hpriv.stores
    rwa [hreadable] at hstores
  · have hbad : s.hidden.swapTables.recordBad k = none :=
      (recordBad_of_fixed hfixed k).trans (State.recordBad_eq_none.2 hrun)
    exact State.recordPriv_updatePrivs privUndrawn_privUndrawn (hcount ▸ hk) hbad
  · exact hpriv.sys ((recordsReadable_of_fixed hfixed).2 hall)

end Sys2Proof.Machine
end

section
/-!
# The restore, the hide pass and `SETSPRITES` (45_sprites R431, R436, R437, R440, R443)

A restore is a fold over the offsets of its area, and one offset writes at most its own visible pixel. A hide pass is restores and
cleared `ALLOWDRAW` bits; the cursor's and the compositor's flags change only in its first and its last step.
-/

namespace Sys2Proof.Machine

variable {s t : State} {sx sy : Int} {sw sh sb k fa : Nat}

theorem storesOnly.mono {P Q : Nat → Prop} (h : storesOnly P s t) (hPQ : ∀ a, P a → Q a) : storesOnly Q s t :=
  fun a ha => h a (mt (hPQ _) ha)

/-! ### A restore (45_sprites R437) -/

/-- The memory after a restore whose buffer is readable. -/
def State.restoreMem (s : State) (sx sy : Int) (sw sh sb : Nat) : Memory :=
  (gridPoints sw sh).foldl (s.restorePixel sx sy sw sb) s.mem

/-- The visible pixels of an area. -/
def State.restoreTarget (s : State) (sx sy : Int) (sw sh a : Nat) : Prop :=
  ∃ i j : Nat, i < sw ∧ j < sh ∧ s.vpb.has (sx + i, sy + j) = true ∧ s.vfbAddr (sx + i) (sy + j) = a

theorem State.restoreArea_of_readable (h : s.runOk sb (sw * sh)) :
    s.restoreArea sx sy sw sh sb = s.setMem (s.restoreMem sx sy sw sh sb) := by
  rw [State.restoreArea, lowestBad_byteRange.2 h]
  rfl

theorem State.restoreArea_of_bad (h : s.lowestBadOf (inRun sb (sw * sh)) fa) :
    s.restoreArea sx sy sw sh sb = s.raisePass fa := by
  rw [State.restoreArea, lowestBad_byteRange_some.2 h]

/-- A restore writes the visible pixels of its area. -/
theorem State.memByte_restoreMem_of_not {a : Nat} (h : ¬ s.restoreTarget sx sy sw sh (wrapAddr a)) :
    memByte (s.restoreMem sx sy sw sh sb) a = memByte s.mem a := by
  refine memByte_foldl_of_notMem (fun q hq m => ?_) s.mem
  obtain ⟨hi, hj⟩ := mem_gridPoints.1 hq
  rw [memByte_restorePixel, if_neg]
  exact fun ⟨hhas, haddr⟩ => h ⟨q.1, q.2, hi, hj, hhas, haddr⟩

/-- Each visible pixel takes its saved byte, where the pixels and the buffer lie apart. -/
theorem State.memByte_restoreMem_of_apart (hv : s.visibleApart) (hb : apart (inRun sb (sw * sh)) s.visiblePixel) {i j : Nat}
    (hi : i < sw) (hj : j < sh) (hhas : s.vpb.has (sx + i, sy + j) = true) :
    memByte (s.restoreMem sx sy sw sh sb) (s.vfbAddr (sx + i) (sy + j)) = memByte s.mem (sb + j * sw + i) := by
  have hq : (i, j) ∈ gridPoints sw sh := mem_gridPoints.2 ⟨hi, hj⟩
  -- No pixel that is written is a byte of the buffer.
  refine memByte_foldl_of_mem hq (fun m => memByte m (sb + j * sw + i) = memByte s.mem (sb + j * sw + i)) rfl ?_ ?_ ?_
  · intro p _ m hm
    rw [memByte_restorePixel, if_neg, hm]
    exact fun ⟨hp, haddr⟩ => hb _ (inRun_grid hi hj) ⟨_, hp, haddr⟩
  · intro m hm
    rw [memByte_restorePixel, if_pos ⟨hhas, (s.wrapAddr_vfbAddr _ _).symm⟩, hm]
  · intro p _ hne m
    rw [memByte_restorePixel, if_neg]
    rintro ⟨hp, haddr⟩
    have hsame := hv _ _ hp hhas (haddr.trans (s.wrapAddr_vfbAddr _ _))
    simp only [Prod.mk.injEq, add_right_inj, Nat.cast_inj] at hsame
    exact hne (Prod.ext hsame.1 hsame.2)

theorem State.restoreArea_storesOnly (s : State) (sx sy : Int) (sw sh sb : Nat) :
    storesOnly (s.restoreTarget sx sy sw sh) s (s.restoreArea sx sy sw sh sb) := by
  intro a ha
  cases hbad : lowestBad s (byteRange sb (sw * sh)) with
  | some fa => rw [State.restoreArea_of_bad (lowestBad_byteRange_some.1 hbad)]; rfl
  | none =>
    rw [State.restoreArea_of_readable (lowestBad_byteRange.1 hbad)]
    exact State.memByte_restoreMem_of_not ha

/-! ### The flags of a pass -/

/-- What the cursor's registers and the compositor's flags hold. -/
def State.flags (s : State) : Cursor × Compositor := (s.cursor, s.comp)

theorem State.restoreArea_flags (s : State) (sx sy : Int) (sw sh sb : Nat) :
    (s.restoreArea sx sy sw sh sb).flags = s.flags := by
  unfold State.restoreArea
  split <;> rfl

theorem State.hideRecord_flags (s : State) (k : Nat) : (s.hideRecord k).flags = s.flags := by
  have hdrop (u : State) : (u.dropAllowDraw k).flags = u.flags := by
    unfold State.dropAllowDraw
    split <;> rfl
  unfold State.hideRecord
  split
  · exact hdrop _
  · split
    · exact s.restoreArea_flags _ _ _ _ _
    · rfl

/-- The state after the restore of the cursor. -/
def State.cursorRestored (s : State) : State :=
  s.restoreArea (loHalf s.cursor.saved0).toNat (hiHalf s.cursor.saved0).toNat (loHalf s.cursor.saved1).toNat
    (hiHalf s.cursor.saved1).toNat s.cursor.bg.toNat

theorem State.cursorRestored_flags (s : State) : s.cursorRestored.flags = s.flags := s.restoreArea_flags _ _ _ _ _

theorem State.hideCursor_of_hidden (h : s.cursor.allowDraw = false) : s.hideCursor = s := by
  rw [State.hideCursor, h]
  rfl

theorem State.hideCursor_of_shown (h : s.cursor.allowDraw = true) :
    s.hideCursor = { s.cursorRestored with cursor := { s.cursor with allowDraw := false } } := by
  rw [State.hideCursor, if_pos h]
  exact congrArg (fun c : Cursor => { s.cursorRestored with cursor := { c with allowDraw := false } })
    (congrArg Prod.fst s.cursorRestored_flags)

/-- The cursor's part of a hide pass clears the cursor's `ALLOWDRAW` and no other flag. -/
theorem State.hideCursor_flags (s : State) : s.hideCursor.flags = ({ s.cursor with allowDraw := false }, s.comp) := by
  cases h : s.cursor.allowDraw with
  | false => rw [State.hideCursor_of_hidden h, ← h]; rfl
  | true =>
    rw [State.hideCursor_of_shown h]
    exact Prod.ext rfl (congrArg Prod.snd s.cursorRestored_flags :)

/-- A hide pass ends hidden and settled. -/
theorem State.hidePass_flags (s : State) :
    s.hidePass.flags = ({ s.cursor with allowDraw := false }, { s.comp with shown := false, phase := .settled }) := by
  have hrecords := List.foldlRecOn (motive := fun t : State => t.flags = s.hideCursor.flags) (List.range s.recordCount).reverse
    State.hideRecord rfl fun t ht k _ => (t.hideRecord_flags k).trans ht
  rw [State.hideCursor_flags] at hrecords
  obtain ⟨hcursor, hcomp⟩ := Prod.mk.inj hrecords
  exact Prod.ext hcursor (congrArg (fun c : Compositor => { c with shown := false, phase := .settled }) hcomp)

/-! ### The record's part of a hide pass (45_sprites R431, R443) -/

theorem privByte_of_fixed (h : t.fixed = s.fixed) (k : Nat) : t.privByte k = s.privByte k := by
  show t.fixed.privByte k = s.fixed.privByte k
  rw [h]

theorem State.setRecordPriv_storesOnly (s : State) (k : Nat) (v : Byte) :
    storesOnly (s.privByte k) s (s.setRecordPriv k v) := by
  intro a ha
  rw [memByte_setRecordPriv, if_neg fun haddr => ha haddr.symm]

theorem privHidden_allowDraw (v : Byte) : (privHidden v).getLsbD 0 = false := by
  rw [privHidden, BitVec.getLsbD_and]
  exact Bool.and_false _

theorem privHidden_drawn (v : Byte) : (privHidden v).getLsbD 1 = v.getLsbD 1 := by
  rw [privHidden, BitVec.getLsbD_and]
  exact Bool.and_true _

theorem State.dropAllowDraw_of_missing (h : s.privOk k = false) : s.dropAllowDraw k = s :=
  if_neg (by simp [h])

/-- A faulting record loses its `ALLOWDRAW` where the byte exists (log entry 33). -/
theorem State.dropAllowDraw_allowDraw (h : s.privOk k = true) : ((s.dropAllowDraw k).recordPriv k).getLsbD 0 = false := by
  rw [State.dropAllowDraw, h, Bool.true_and]
  split
  · rw [recordPriv_setRecordPriv]
    exact privHidden_allowDraw _
  next hhidden => exact eq_false_of_ne_true hhidden

theorem State.dropAllowDraw_storesOnly (s : State) (k : Nat) : storesOnly (s.privByte k) s (s.dropAllowDraw k) := by
  unfold State.dropAllowDraw
  split
  · exact s.setRecordPriv_storesOnly k _
  · exact fun _ _ => rfl

theorem State.dropAllowDraw_onlyMemory (s : State) (k : Nat) : onlyMemory s (s.dropAllowDraw k) := by
  unfold State.dropAllowDraw
  split <;> rfl

theorem State.hideRecord_of_bad (h : s.lowestBadOf (inRun (s.recordAddr k) 32) fa) :
    s.hideRecord k = (s.raisePass fa).dropAllowDraw k := by
  have hbad : s.recordBad k = some fa := lowestBad_byteRange_some.2 h
  rw [State.hideRecord, hbad]

/-- The state after the restore of record `k`. -/
def State.recordRestored (s : State) (k : Nat) : State :=
  s.restoreArea (memHalf s.mem (s.recordAddr k + 20)).toInt (memHalf s.mem (s.recordAddr k + 22)).toInt
    (memHalf s.mem (s.recordAddr k + 24)).toNat (memHalf s.mem (s.recordAddr k + 26)).toNat
    (memWord s.mem (s.recordAddr k + 12)).toNat

@[simp] theorem State.fixed_recordRestored (s : State) (k : Nat) : (s.recordRestored k).fixed = s.fixed :=
  fixed_restoreArea s _ _ _ _ _

theorem State.hideRecord_of_readable (h : s.runOk (s.recordAddr k) 32) : s.hideRecord k =
    if (s.recordPriv k).getLsbD 0 then (s.recordRestored k).setRecordPriv k (privHidden ((s.recordRestored k).recordPriv k))
    else s := by
  rw [State.hideRecord, State.recordBad_eq_none.2 h]
  rfl

/-- Settles O15: a restore by its fold, a record's part by its checks, the cursor's part and the end of the pass by its flags. -/
theorem restoreStaysInViewport : Obligations.RestoreStaysInViewport := by
  refine ⟨fun s sx sy sw sh sb => ⟨?_, fun fa hbad => State.restoreArea_of_bad hbad, fun hrun => ⟨?_, ?_, ?_⟩⟩,
    fun s k fa hbad => ⟨_, State.hideRecord_of_bad hbad, ?_, ?_, fun hok => ?_, fun hmissing => ?_⟩,
    fun s k hrun => ⟨fun hhidden => ?_, fun hshown => ?_⟩, fun s => ⟨fun hhidden => ?_, fun hshown => ?_⟩, fun s => ?_⟩
  · exact (s.restoreArea_storesOnly sx sy sw sh sb).mono fun a ⟨i, j, _, _, hhas, haddr⟩ => ⟨_, hhas, haddr⟩
  · rw [State.restoreArea_of_readable hrun]
    rfl
  · exact s.restoreArea_storesOnly sx sy sw sh sb
  · intro hv hb i j hi hj hhas
    rw [State.restoreArea_of_readable hrun]
    exact State.memByte_restoreMem_of_apart hv hb hi hj hhas
  · exact (s.raisePass fa).dropAllowDraw_onlyMemory k
  · exact (s.raisePass fa).dropAllowDraw_storesOnly k
  · exact State.dropAllowDraw_allowDraw (s := s.raisePass fa) hok
  · rw [State.dropAllowDraw_of_missing (s := s.raisePass fa) hmissing]
    exact fun _ => rfl
  · rw [State.hideRecord_of_readable hrun, hhidden]
    rfl
  · have hbyte : (s.recordRestored k).privByte k = s.privByte k := privByte_of_fixed (s.fixed_recordRestored k) k
    have hstores := (s.recordRestored k).setRecordPriv_storesOnly k (privHidden ((s.recordRestored k).recordPriv k))
    refine ⟨_, (State.hideRecord_of_readable hrun).trans (if_pos hshown), rfl, ?_, ?_, ?_⟩
    · exact hbyte ▸ hstores
    · rw [recordPriv_setRecordPriv]
      exact privHidden_allowDraw _
    · rw [recordPriv_setRecordPriv]
      exact privHidden_drawn _
  · exact State.hideCursor_of_hidden hhidden
  · exact State.hideCursor_of_shown hshown
  · exact ⟨congrArg Prod.snd s.hidePass_flags, congrArg (fun p => p.1.allowDraw) s.hidePass_flags⟩

/-! ### `SETSPRITES` (45_sprites R440) -/

theorem State.hidden_cursor (s : State) : s.hidden.cursor = { s.cursor with allowDraw := s.hidden.cursor.allowDraw } := by
  unfold State.hidden
  split
  · have hcursor := congrArg Prod.fst s.hidePass_flags
    rw [show s.hidePass.cursor = _ from hcursor]
  · rfl

theorem exec_hostopSetSprites (s : State) : exec .hostopSetSprites s = .next s.spritesSet := rfl

/-- The state of `SETSPRITES` after its hide pass: the staged list is the active one. -/
def State.listTaken (s : State) : State := { s.hidden with sprActive := s.hidden.sprStaged }

/-- The state of `SETSPRITES` after the `PRIV` bytes of the new list are cleared. -/
def State.listCleared (s : State) : State := s.listTaken.updatePrivs fun _ => 0x00#8

theorem State.listCleared_privsOnly (s : State) : s.listTaken.PrivsOnly s.listCleared := s.listTaken.privsOnly_updatePrivs _

/-- `SETSPRITES` touches what a hide pass touches, and the active list. -/
theorem State.spritesSet_frame (s : State) : s.spritesSet = { s with
    mem := s.spritesSet.mem
    sprActive := s.sprStaged
    comp := s.spritesSet.comp
    cursor := { s.cursor with allowDraw := s.spritesSet.cursor.allowDraw }
    sys := { s.sys with
      err := s.spritesSet.sys.err, errAddr := s.spritesSet.sys.errAddr, irqStatus := s.spritesSet.sys.irqStatus } } := by
  have htaken := congrArg (fun u : State => { u with sprActive := u.sprStaged }) (fixed_hidden s)
  have hfixed : s.spritesSet.fixed = State.fixed { s with sprActive := s.sprStaged } :=
    s.listCleared_privsOnly.fixed.trans htaken
  have hcursor := s.listCleared_privsOnly.cursor.trans s.hidden_cursor
  have hsaved0 : s.spritesSet.cursor.saved0 = s.cursor.saved0 := (congrArg Cursor.saved0 hcursor :)
  have hsaved1 : s.spritesSet.cursor.saved1 = s.cursor.saved1 := (congrArg Cursor.saved1 hcursor :)
  have hframe := eq_of_fixed hfixed
  rw [hsaved0, hsaved1] at hframe
  exact hframe

/-- Settles O54: after the hide pass the new list's `PRIV` bytes are rewritten, which changes no other field. -/
theorem setSprites : Obligations.SetSprites := by
  intro s
  have hpriv := s.listCleared_privsOnly
  have hfixed : s.spritesSet.fixed = s.listTaken.fixed := hpriv.fixed
  have hactive : s.spritesSet.sprActive = s.sprStaged := congrArg State.sprActive s.spritesSet_frame
  refine ⟨s.spritesSet, s.hidden, exec_hostopSetSprites s, rfl, hactive, rfl, ?_, fun k hk hnone => ?_, ?_, ?_, hpriv.cursor,
    fun a ha => ?_, fun hall => ?_⟩
  · exact (congrArg Compositor.shown hpriv.comp).trans s.hidden_shown
  · rw [recordBad_of_fixed hfixed] at hnone
    exact State.recordPriv_updatePrivs (fun _ => rfl) (recordCount_of_fixed hfixed ▸ hk) hnone
  · rw [hactive]
    exact s.spritesSet_frame
  · exact congrArg (fun c : Compositor => { c with refreshPending := true }) hpriv.comp
  · refine hpriv.stores a fun hbyte => ha ?_
    rw [← readablePriv_of_fixed hfixed] at hbyte
    obtain ⟨k, hk, hrun, hbyte⟩ := hbyte
    exact ⟨k, hk, State.recordBad_eq_none.2 hrun, hbyte⟩
  · exact hpriv.sys ((recordsReadable_of_fixed hfixed).1 fun k hk => State.recordBad_eq_none.1 (hall k hk))

end Sys2Proof.Machine
end

section
/-!
# Refresh requests and the steps of a show pass (45_sprites R430, R432, R435, R438, R439, R441, R445)

A record's part of a show pass is decided by its checks, each of which is an equation for `State.showRecord`; what a draw leaves is
said by its two folds over the offsets of its area, of which one writes the save buffer and the other the viewport.
-/

namespace Sys2Proof.Machine

variable {s t : State} {d : Draw} {k fa : Nat}

/-! ### Requests by HOST (45_sprites R445) -/

/-- A write to a register that lies between the pools and the row tables. -/
theorem State.hostWrite_of_valid (hs : s.cfg.valid) {off : Nat} (hoff : 0x180 ≤ off ∧ off < 0x1000) {r : Reg}
    (h : Reg.ofOffset .suggested off = some r) (hdata : r ≠ .cmdData) (hop : r ≠ .hostop) (v : Word) :
    s.hostWrite 4 off v = r.write v s :=
  State.hostWrite_of_reg ((Reg.ofOffset_fixed hs (.inr hoff)).trans h) hdata hop v

/-! ### The part of a footprint in the viewport (45_sprites R432) -/

theorem State.mem_drawArea (s : State) (d : Draw) (p : Point) :
    (((s.drawArea d).x : Int) ≤ p.1 ∧ p.1 < (s.drawArea d).x + (s.drawArea d).w ∧
      ((s.drawArea d).y : Int) ≤ p.2 ∧ p.2 < (s.drawArea d).y + (s.drawArea d).h) ↔
    s.vpb.has p = true ∧ d.sx ≤ p.1 ∧ p.1 < d.sx + d.bitmap.w ∧ d.sy ≤ p.2 ∧ p.2 < d.sy + d.bitmap.h := by
  rw [Rect.has_iff]
  unfold State.drawArea State.spriteArea
  dsimp only
  split
  next hempty =>
    replace hempty := of_decide_eq_true hempty
    simp only [Rect.inter, State.vpb] at hempty ⊢
    omega
  next hne =>
    replace hne := mt decide_eq_true hne
    simp only [Rect.inter, State.vpb, Rect.width, Rect.height] at hne ⊢
    omega

theorem State.drawArea_of_empty (h : (s.drawArea d).w = 0 ∨ (s.drawArea d).h = 0) : s.drawArea d = ⟨0, 0, 0, 0⟩ := by
  unfold State.drawArea State.spriteArea at h ⊢
  dsimp only at h ⊢
  split at h
  next hempty => rw [if_pos hempty]
  next hne =>
    replace hne := mt decide_eq_true hne
    simp only [Rect.width, Rect.height] at h
    omega

/-! ### The checks of a draw (45_sprites R432, log entry 14) -/

theorem State.mem_sources_iff (s : State) (d : Draw) (a : Nat) :
    a ∈ (gridPoints (s.drawArea d).w (s.drawArea d).h).map (spriteSource d.sx d.sy d.bitmap (s.drawArea d)) ↔
      s.drawSource d a := by
  simp only [List.mem_map, mem_gridPoints, Prod.exists, State.drawSource, and_assoc]

theorem State.spriteBad_of_buffer (h : s.lowestBadOf (s.drawBuffer d) fa) :
    s.spriteBad d.sx d.sy d.bitmap d.buffer = some fa := by
  have hbuffer : lowestBad s (byteRange d.buffer ((s.drawArea d).w * (s.drawArea d).h)) = some fa :=
    lowestBad_byteRange_some.2 h
  unfold State.drawArea at hbuffer
  simp only [State.spriteBad, hbuffer]

/-- With a readable save buffer the bitmap's check decides. -/
theorem State.spriteBad_of_bufferOk (h : ∀ x, s.drawBuffer d x → memOk s x = true) :
    s.spriteBad d.sx d.sy d.bitmap d.buffer =
      lowestBad s ((gridPoints (s.drawArea d).w (s.drawArea d).h).map (spriteSource d.sx d.sy d.bitmap (s.drawArea d))) := by
  have hbuffer : lowestBad s (byteRange d.buffer ((s.drawArea d).w * (s.drawArea d).h)) = none :=
    lowestBad_eq_none.2 fun a ha => h a (mem_byteRange.1 ha)
  unfold State.drawArea at hbuffer ⊢
  simp only [State.spriteBad, hbuffer]

theorem State.spriteBad_of_source (hbuffer : ∀ x, s.drawBuffer d x → memOk s x = true)
    (h : s.lowestBadOf (s.drawSource d) fa) : s.spriteBad d.sx d.sy d.bitmap d.buffer = some fa := by
  rw [State.spriteBad_of_bufferOk hbuffer]
  exact (lowestBad_eq_some (s.mem_sources_iff d)).2 h

theorem State.spriteBad_of_readable (h : ∀ x, s.drawBuffer d x ∨ s.drawSource d x → memOk s x = true) :
    s.spriteBad d.sx d.sy d.bitmap d.buffer = none := by
  rw [State.spriteBad_of_bufferOk fun x hx => h x (.inl hx), lowestBad_eq_none]
  exact fun a ha => h a (.inr ((s.mem_sources_iff d a).1 ha))

/-! ### What a draw leaves (45_sprites R432) -/

/-- The bitmap's byte of an offset. -/
def State.sourceAddr (s : State) (d : Draw) (q : Nat × Nat) : Nat := spriteSource d.sx d.sy d.bitmap (s.drawArea d) q

theorem State.drawSource_sourceAddr {q : Nat × Nat} (hq : q ∈ gridPoints (s.drawArea d).w (s.drawArea d).h) :
    s.drawSource d (wrapAddr (s.sourceAddr d q)) :=
  ⟨q.1, q.2, (mem_gridPoints.1 hq).1, (mem_gridPoints.1 hq).2, (wrapAddr_wrapAddr _).symm⟩

theorem State.memByte_saveBackground_of_not {a : Nat} (ha : ¬ s.drawBuffer d (wrapAddr a)) (m : Memory) :
    memByte (s.saveBackground m (s.drawArea d) d.buffer) a = memByte m a := by
  refine memByte_foldl_of_notMem (fun p hp m => ?_) m
  rw [memByte_savePixel, if_neg]
  exact fun heq => ha (heq ▸ State.drawBuffer_bufferAddr hp)

/-- Where the pixels and the bitmap lie apart, an opaque pixel of the bitmap replaces the visible one. -/
theorem State.memByte_drawPixels (hv : s.visibleApart) (hsource : apart (s.drawSource d) s.visiblePixel) {q : Nat × Nat}
    (hq : q ∈ gridPoints (s.drawArea d).w (s.drawArea d).h) (m : Memory) :
    memByte (s.drawPixels m d.sx d.sy d.bitmap (s.drawArea d)) (s.areaAddr (s.drawArea d) q) =
      if opaquePix (memByte m (s.sourceAddr d q)) = true then (memByte m (s.sourceAddr d q) &&& 0x3F#8) ||| s.si
      else memByte m (s.areaAddr (s.drawArea d) q) := by
  have hwrap : wrapAddr (s.areaAddr (s.drawArea d) q) = s.areaAddr (s.drawArea d) q := s.wrapAddr_vfbAddr _ _
  have hstep (m : Memory) (p : Nat × Nat) (a : Nat) := memByte_drawPixel s d.sx d.sy d.bitmap (s.drawArea d) m p a
  have hkeep (m : Memory) : ∀ p ∈ gridPoints (s.drawArea d).w (s.drawArea d).h,
      memByte (s.drawPixel d.sx d.sy d.bitmap (s.drawArea d) m p) (s.sourceAddr d q) = memByte m (s.sourceAddr d q) := by
    intro p hp
    rw [hstep, if_neg]
    exact fun ⟨_, heq⟩ => hsource _ (State.drawSource_sourceAddr hq) (State.visiblePixel_of_areaPixel
      ⟨p.1, p.2, (mem_gridPoints.1 hp).1, (mem_gridPoints.1 hp).2, heq⟩)
  have hother (m : Memory) : ∀ p ∈ gridPoints (s.drawArea d).w (s.drawArea d).h, p ≠ q →
      memByte (s.drawPixel d.sx d.sy d.bitmap (s.drawArea d) m p) (s.areaAddr (s.drawArea d) q) =
        memByte m (s.areaAddr (s.drawArea d) q) := by
    intro p hp hne
    rw [hstep, if_neg]
    exact fun ⟨_, heq⟩ => hne (State.areaAddr_inj hv hp hq (heq.trans hwrap))
  by_cases hopaque : opaquePix (memByte m (s.sourceAddr d q)) = true
  · rw [if_pos hopaque]
    refine memByte_foldl_of_mem hq (fun m' => memByte m' (s.sourceAddr d q) = memByte m (s.sourceAddr d q)) rfl
      (fun p hp m' hm' => (hkeep m' p hp).trans hm') (fun m' hm' => ?_) fun p hp hne m' => hother m' p hp hne
    rw [hstep, ← State.sourceAddr, hm', if_pos ⟨hopaque, hwrap.symm⟩]
  · rw [if_neg hopaque]
    refine (List.foldlRecOn (motive := fun m' => memByte m' (s.sourceAddr d q) = memByte m (s.sourceAddr d q) ∧
      memByte m' (s.areaAddr (s.drawArea d) q) = memByte m (s.areaAddr (s.drawArea d) q)) _ _ ⟨rfl, rfl⟩ ?_).2
    intro m' ⟨hm', hpixel⟩ p hp
    refine ⟨(hkeep m' p hp).trans hm', ?_⟩
    by_cases heq : p = q
    · rw [heq, hstep, ← State.sourceAddr, hm', if_neg fun h => hopaque h.1, hpixel]
    · exact (hother m' p hp heq).trans hpixel

/-- A draw draws over the background that it saved, the bitmap being what it was before. -/
theorem State.memByte_drawMem_pixel {keep : Nat → Prop} (h : s.drawApart d keep) {q : Nat × Nat}
    (hq : q ∈ gridPoints (s.drawArea d).w (s.drawArea d).h) (m : Memory) :
    memByte (s.drawMem d m) (s.areaAddr (s.drawArea d) q) =
      if opaquePix (memByte m (s.sourceAddr d q)) = true then (memByte m (s.sourceAddr d q) &&& 0x3F#8) ||| s.si
      else memByte m (s.areaAddr (s.drawArea d) q) := by
  obtain ⟨hv, hbuffer, -, -, hsource, hsourceBuffer, -⟩ := h
  obtain ⟨hi, hj⟩ := mem_gridPoints.1 hq
  have hpixel : ¬ s.drawBuffer d (wrapAddr (s.areaAddr (s.drawArea d) q)) := fun hb =>
    hbuffer _ hb (State.visiblePixel_of_areaPixel (State.areaPixel_of_lt hi hj))
  rw [State.drawMem, State.memByte_drawPixels hv hsource hq,
    State.memByte_saveBackground_of_not (hsourceBuffer _ (State.drawSource_sourceAddr hq)),
    State.memByte_saveBackground_of_not hpixel]

/-- What a draw leaves, where bytes besides it are written only at addresses that satisfy `keep`, and these lie apart. -/
theorem State.composited_of_drawMem {keep : Nat → Prop} (h : s.drawApart d keep) (ht : t.fixed = s.fixed) {m : Memory}
    (hbefore : agreeOn (fun a => ¬ keep a) m s.mem) (hafter : agreeOn (fun a => ¬ keep a) t.mem (s.drawMem d m)) :
    s.composited t d := by
  intro i j hi hj
  obtain ⟨-, hbuffer, hkeepVisible, hkeepBuffer, -, -, hsourceKeep⟩ := id h
  have hq : (i, j) ∈ gridPoints (s.drawArea d).w (s.drawArea d).h := mem_gridPoints.2 ⟨hi, hj⟩
  have hnotKeep : ¬ keep (wrapAddr (s.areaAddr (s.drawArea d) (i, j))) := fun hk =>
    hkeepVisible _ hk (State.visiblePixel_of_areaPixel (State.areaPixel_of_lt hi hj))
  have hpixel := hbefore _ hnotKeep
  have hsource : memByte m (s.sourceAddr d (i, j)) = memByte s.mem (s.sourceAddr d (i, j)) :=
    hbefore _ (hsourceKeep _ (State.drawSource_sourceAddr hq))
  constructor
  · calc memByte t.mem (s.bufferAddr d (i, j))
        = memByte (s.drawMem d m) (s.bufferAddr d (i, j)) :=
          hafter _ fun hk => hkeepBuffer _ hk (State.drawBuffer_bufferAddr hq)
      _ = memByte m (s.areaAddr (s.drawArea d) (i, j)) := State.memByte_drawMem_buffer hbuffer hq m
      _ = memByte s.mem (s.areaAddr (s.drawArea d) (i, j)) := hpixel
  · rw [State.vfbRead, vfbAddr_of_fixed ht]
    refine (hafter _ hnotKeep).trans ((State.memByte_drawMem_pixel h hq m).trans ?_)
    rw [hsource, hpixel]
    simp only [opaquePix_iff]
    rfl

/-! ### A record's draw (45_sprites R432) -/

/-- The memory after the draw of record `k`, which leaves `v` in its `PRIV` byte. -/
def State.recordMem (s : State) (k : Nat) (v : Byte) (d : Draw) : Memory :=
  s.writePriv v (s.drawMem d (s.saveFields d s.mem (some k))) (some k)

theorem State.memByte_recordMem_of_not {v : Byte} {a : Nat} (h : ¬ (s.drawWrites d (wrapAddr a) ∨ s.bookkeeping k (wrapAddr a))) :
    memByte (s.recordMem k v d) a = memByte s.mem a := by
  obtain ⟨hdraw, hfields⟩ := not_or.1 h
  rw [State.recordMem, State.memByte_writePriv_of_not (o := some k) hfields, State.memByte_drawMem_of_not hdraw,
    State.memByte_saveFields_of_not (o := some k) hfields]

theorem State.memByte_recordMem_priv (s : State) (k : Nat) (v : Byte) (d : Draw) :
    memByte (s.recordMem k v d) (s.recordAddr k + 17) = v := by
  rw [State.recordMem, State.writePriv, memByte_memStore, if_pos rfl]

/-- The `SAVED_*` fields of a drawn record hold its area. -/
theorem State.memByte_recordMem_saved {v : Byte} (h : s.drawApart d (s.bookkeeping k)) {j : Nat} (hj : j < 8) :
    memByte (s.recordMem k v d) (s.recordAddr k + 20 + j) =
      (s.drawArea d).bytes[j]'(by rwa [SavedArea.length_bytes]) := by
  obtain ⟨-, -, hvisible, hbuffer, -⟩ := h
  have hfield : s.bookkeeping k (wrapAddr (s.recordAddr k + 20 + j)) := .inr ⟨j, hj, rfl⟩
  have hnot : ¬ s.drawWrites d (wrapAddr (s.recordAddr k + 20 + j)) := by
    rintro (hb | harea)
    · exact hbuffer _ hfield hb
    · exact hvisible _ hfield (State.visiblePixel_of_areaPixel harea)
  have hpriv : wrapAddr (s.recordAddr k + 20 + j) ≠ wrapAddr (s.recordAddr k + 17) := by
    simp only [wrapAddr, addrSpace]
    omega
  rw [State.recordMem, State.writePriv, memByte_memStore, if_neg hpriv, State.memByte_drawMem_of_not hnot]
  refine memByte_memStoreBlock_of_mem _ _ _ _ j _ (by simp [addrSpace]) (List.getElem?_eq_getElem _) ?_
  rw [wrapAddr_add_wrapAddr]

theorem memHalf_of_bytes {m : Memory} {a v : Nat} (hlow : memByte m a = BitVec.ofNat 8 v)
    (hhigh : memByte m (a + 1) = BitVec.ofNat 8 (v >>> 8)) (hv : v < 65536) : memHalf m a = BitVec.ofNat 16 v := by
  rw [← toNat_memHalf_of_bytes hlow hhigh hv, BitVec.ofNat_toNat, BitVec.setWidth_eq]

theorem State.memHalf_recordMem_saved {v : Byte} (h : s.drawApart d (s.bookkeeping k)) :
    memHalf (s.recordMem k v d) (s.recordAddr k + 20) = BitVec.ofNat 16 (s.drawArea d).x ∧
    memHalf (s.recordMem k v d) (s.recordAddr k + 22) = BitVec.ofNat 16 (s.drawArea d).y ∧
    memHalf (s.recordMem k v d) (s.recordAddr k + 24) = BitVec.ofNat 16 (s.drawArea d).w ∧
    memHalf (s.recordMem k v d) (s.recordAddr k + 26) = BitVec.ofNat 16 (s.drawArea d).h := by
  obtain ⟨hw, hh, -, -⟩ := s.drawArea_bounds d
  have hvpw := s.vpw_lt
  have hvph := s.vph_lt
  have hsaved {j : Nat} (hj : j < 8) := State.memByte_recordMem_saved (v := v) h hj
  exact ⟨memHalf_of_bytes (hsaved (j := 0) (by omega)) (hsaved (j := 1) (by omega)) (by omega),
    memHalf_of_bytes (hsaved (j := 2) (by omega)) (hsaved (j := 3) (by omega)) (by omega),
    memHalf_of_bytes (hsaved (j := 4) (by omega)) (hsaved (j := 5) (by omega)) (by omega),
    memHalf_of_bytes (hsaved (j := 6) (by omega)) (hsaved (j := 7) (by omega)) (by omega)⟩

/-- The draw of record `k` with the bitmap header at `hdr`. -/
def State.headerDraw (s : State) (k hdr : Nat) : Draw :=
  ⟨(memHalf s.mem (s.recordAddr k)).toInt, (memHalf s.mem (s.recordAddr k + 2)).toInt, readBitmap s.mem hdr,
    (memWord s.mem (s.recordAddr k + 12)).toNat⟩

theorem State.drawRecord_of_bad {hdr : Nat} (hd : d = s.headerDraw k hdr)
    (hbad : s.spriteBad d.sx d.sy d.bitmap d.buffer = some fa) : s.drawRecord k hdr = s.raisePass fa := by
  subst hd
  unfold State.headerDraw at hbad
  simp only [State.drawRecord, hbad]

/-- The `PRIV` byte that a draw leaves: `DRAWN` in a static sprite's, `ALLOWDRAW` in another's (45_sprites R432). -/
def State.drawnPriv (s : State) (k : Nat) : Byte :=
  if (memByte s.mem (s.recordAddr k + 16)).getLsbD 1 then 0x02#8 else 0x01#8

theorem State.drawRecord_of_readable {hdr : Nat} (hd : d = s.headerDraw k hdr)
    (hsprite : s.spriteBad d.sx d.sy d.bitmap d.buffer = none) :
    s.drawRecord k hdr = s.setMem (s.recordMem k (s.drawnPriv k) d) := by
  have hcomposite := composite_of_fixed (fixed_setMem s (s.saveFields d s.mem (some k))) d
  have hdrawn : s.drawRecord k hdr =
      ((s.setMem (s.saveFields d s.mem (some k))).composite d.sx d.sy d.bitmap d.buffer).setRecordPriv k (s.drawnPriv k) := by
    subst hd
    unfold State.headerDraw at hsprite ⊢
    simp only [State.drawRecord, hsprite]
    rfl
  rw [hdrawn, hcomposite, State.setMem_mem, State.recordMem]
  generalize s.saveFields d s.mem (some k) = saved
  generalize s.drawMem d saved = drawn
  rfl

/-! ### `FRAME` of a record (45_sprites R435) -/

/-- The address of the frame pointer that record `k` selects. -/
def State.frameSlot (s : State) (k : Nat) : Nat :=
  (memWord s.mem (s.recordAddr k + 4)).toNat + 4 * (memHalf s.mem (s.recordAddr k + 10)).toNat

/-- The frame pointer that record `k` selects. -/
def State.framePtr (s : State) (k : Nat) : Nat := (memWord s.mem (s.frameSlot k)).toNat

/-- Record `k` has no frame of its number: the number is out of range, or it has no frames. -/
def State.unframed (s : State) (k : Nat) : Prop :=
  (memHalf s.mem (s.recordAddr k + 8)).toNat ≤ (memHalf s.mem (s.recordAddr k + 10)).toNat ∨
    (memWord s.mem (s.recordAddr k + 4)).toNat = 0

theorem State.recordFrame_of_unframed (h : s.unframed k) : s.recordFrame k = .none := if_pos h

theorem State.recordFrame_of_slotBad (h : ¬ s.unframed k) (hbad : s.lowestBadOf (inRun (s.frameSlot k) 4) fa) :
    s.recordFrame k = .bad fa := by
  unfold State.unframed at h
  have hbad := lowestBad_byteRange_some.2 hbad
  unfold State.frameSlot at hbad
  simp only [State.recordFrame, if_neg h, hbad]

theorem State.recordFrame_of_null (h : ¬ s.unframed k) (hslot : s.runOk (s.frameSlot k) 4) (hnull : s.framePtr k = 0) :
    s.recordFrame k = .none := by
  unfold State.unframed at h
  have hslot := lowestBad_byteRange.2 hslot
  unfold State.framePtr at hnull
  unfold State.frameSlot at hslot hnull
  simp only [State.recordFrame, if_neg h, hslot, if_pos hnull]

theorem State.recordFrame_of_headerBad (h : ¬ s.unframed k) (hslot : s.runOk (s.frameSlot k) 4) (hptr : s.framePtr k ≠ 0)
    (hbad : s.lowestBadOf (inRun (s.framePtr k) 8) fa) : s.recordFrame k = .bad fa := by
  unfold State.unframed at h
  have hslot := lowestBad_byteRange.2 hslot
  have hbad := lowestBad_byteRange_some.2 hbad
  unfold State.framePtr at hptr hbad
  unfold State.frameSlot at hslot hptr hbad
  simp only [State.recordFrame, if_neg h, hslot, if_neg hptr, hbad]

theorem State.recordFrame_of_readable (h : ¬ s.unframed k) (hslot : s.runOk (s.frameSlot k) 4) (hptr : s.framePtr k ≠ 0)
    (hhdr : s.runOk (s.framePtr k) 8) : s.recordFrame k = .header (s.framePtr k) := by
  unfold State.unframed at h
  have hslot := lowestBad_byteRange.2 hslot
  have hhdr := lowestBad_byteRange.2 hhdr
  unfold State.framePtr at hptr hhdr ⊢
  unfold State.frameSlot at hslot hptr hhdr ⊢
  simp only [State.recordFrame, if_neg h, hslot, if_neg hptr, hhdr]

/-! ### A record's part of a show pass (45_sprites R432, R438) -/

theorem State.recordWanted_iff : s.recordWanted k = true ↔ (memByte s.mem (s.recordAddr k + 16)).getLsbD 0 = true ∧
    ¬ ((memByte s.mem (s.recordAddr k + 16)).getLsbD 1 = true ∧ (s.recordPriv k).getLsbD 1 = true) := by
  simp only [State.recordWanted, Bool.and_eq_true, Bool.not_eq_true', ← Bool.not_eq_true]

theorem State.showRecord_of_bad (h : s.lowestBadOf (inRun (s.recordAddr k) 32) fa) : s.showRecord k = s.raisePass fa := by
  have hbad : s.recordBad k = some fa := lowestBad_byteRange_some.2 h
  rw [State.showRecord, hbad]

theorem State.showRecord_of_frameBad (hbad : s.recordBad k = none) (h : s.recordWanted k = true)
    (hf : s.recordFrame k = .bad fa) : s.showRecord k = s.raisePass fa := by
  obtain ⟨hvisible, hdrawn⟩ := State.recordWanted_iff.1 h
  unfold State.showRecord
  rw [hbad]
  dsimp only
  rw [if_neg (by simp [hvisible]), if_neg hdrawn, hf]

/-- What a record's draw leaves in memory. -/
theorem State.drawn_recordMem (hshow : t = s.setMem (s.recordMem k (s.drawnPriv k) d)) :
    onlyMemory s t ∧ storesOnly (fun x => s.drawWrites d x ∨ s.bookkeeping k x) s t ∧ t.recordPriv k = s.drawnPriv k ∧
    (s.drawApart d (s.bookkeeping k) → s.composited t d ∧
      memHalf t.mem (s.recordAddr k + 20) = BitVec.ofNat 16 (s.drawArea d).x ∧
      memHalf t.mem (s.recordAddr k + 22) = BitVec.ofNat 16 (s.drawArea d).y ∧
      memHalf t.mem (s.recordAddr k + 24) = BitVec.ofNat 16 (s.drawArea d).w ∧
      memHalf t.mem (s.recordAddr k + 26) = BitVec.ofNat 16 (s.drawArea d).h) := by
  subst hshow
  refine ⟨rfl, fun a ha => State.memByte_recordMem_of_not ha, s.memByte_recordMem_priv k _ d, fun hapart =>
    ⟨State.composited_of_drawMem hapart rfl (m := s.saveFields d s.mem (some k)) (fun a ha => ?_) fun a ha => ?_,
      State.memHalf_recordMem_saved hapart⟩⟩
  · exact State.memByte_saveFields_of_not (o := some k) ha d s.mem
  · exact State.memByte_writePriv_of_not (o := some k) ha _ _

theorem State.recordShown_iff : s.recordShown k = true ↔ s.runOk (s.recordAddr k) 32 ∧ (s.recordPriv k).getLsbD 0 = true := by
  rw [State.recordShown, Bool.and_eq_true, Option.isNone_iff_eq_none, State.recordBad_eq_none]

/-! ### The steps of a show pass (45_sprites R432, R434) -/

theorem State.microStep_showRecords (hk : k < s.recordCount) (seen : Bool) : s.microStep (.showRecords k seen) =
    .next ((s.showRecord k).pushWork [.showRecords (k + 1) (seen || (s.showRecord k).recordShown k)]) := by
  rw [State.microStep, State.showRecordsStep, if_pos hk]
  rfl

theorem State.microStep_showRecords_end (hk : ¬ k < s.recordCount) (seen : Bool) :
    s.microStep (.showRecords k seen) = .next (s.pushWork [.showCursor seen]) := by
  rw [State.microStep, State.showRecordsStep, if_neg hk]

/-! ### The cursor's part of a show pass (45_sprites R439) -/

/-- The cursor's draw. -/
def State.pointerDraw (s : State) : Draw :=
  ⟨s.cursorPos.1, s.cursorPos.2, readBitmap s.mem s.cursor.bmp.toNat, s.cursor.bg.toNat⟩

/-- The end of a show pass. -/
def State.showEnd (s : State) (seen : Bool) : State :=
  { s with comp := { s.comp with shown := s.cursor.allowDraw || seen, phase := .idle } }

theorem State.cursorWanted_iff : s.cursorWanted = true ↔ s.cursor.en = true ∧ s.cursor.bmp ≠ 0#32 := by
  simp [State.cursorWanted]

theorem State.showFinish_of_wanted (h : s.cursorWanted = true) (seen : Bool) : s.showFinish seen = s.drawCursor.showEnd seen := by
  rw [State.showFinish, if_pos h]
  rfl

theorem State.showFinish_of_unwanted (h : ¬ s.cursorWanted = true) (seen : Bool) : s.showFinish seen = s.showEnd seen := by
  rw [State.showFinish, if_neg h]
  rfl

theorem State.drawCursor_of_headerBad (h : s.lowestBadOf (inRun s.cursor.bmp.toNat 8) fa) : s.drawCursor = s.raisePass fa := by
  rw [State.drawCursor, lowestBad_byteRange_some.2 h]

theorem State.drawCursor_of_bad (hhdr : s.runOk s.cursor.bmp.toNat 8) (hd : d = s.pointerDraw)
    (hbad : s.spriteBad d.sx d.sy d.bitmap d.buffer = some fa) : s.drawCursor = s.raisePass fa := by
  subst hd
  unfold State.pointerDraw at hbad
  simp only [State.drawCursor, lowestBad_byteRange.2 hhdr, hbad]

theorem State.drawCursor_of_readable (hhdr : s.runOk s.cursor.bmp.toNat 8) (hd : d = s.pointerDraw)
    (hsprite : s.spriteBad d.sx d.sy d.bitmap d.buffer = none) : s.drawCursor = { s.setMem (s.drawMem d s.mem) with
      cursor := { s.cursor with
        saved0 := natPair (s.drawArea d).x (s.drawArea d).y, saved1 := natPair (s.drawArea d).w (s.drawArea d).h,
        allowDraw := true } } := by
  subst hd
  unfold State.pointerDraw at hsprite ⊢
  simp only [State.drawCursor, lowestBad_byteRange.2 hhdr, hsprite]
  rfl

/-! ### The statement -/

/-- Settles O52: each clause is the equation of one check, of one step, or of a draw that finds every byte. -/
theorem refreshSprites : Obligations.RefreshSprites := by
  refine ⟨fun s => ⟨_, rfl, rfl, fun _ => rfl⟩, fun s v hs => ⟨?_, ?_, ?_, ?_, ?_⟩, fun s d p =>
    ⟨s.mem_drawArea d p, State.drawArea_of_empty⟩, fun s k => ?_, fun s k seen => ?_, fun s seen => ?_⟩
  · exact State.hostWrite_of_valid hs (by decide) (r := .curPos) rfl nofun nofun v
  · exact State.hostWrite_of_valid hs (by decide) (r := .curBmp) rfl nofun nofun v
  · exact State.hostWrite_of_valid hs (by decide) (r := .curCtrl) rfl nofun nofun v
  · exact State.hostWrite_of_valid hs (by decide) (r := .curHot) rfl nofun nofun v
  · exact State.hostWrite_of_valid hs (by decide) (r := .curBg) rfl nofun nofun v
  · intro a flags frames cur frame b d r t
    refine ⟨fun fa hbad => State.showRecord_of_bad hbad, fun hrun => ⟨fun hskip => ?_, fun hvisible hdrawn => ?_⟩⟩
    · have hunwanted : s.recordWanted k = false := eq_false_of_ne_true fun h =>
        hskip.elim (ne_true_of_eq_false · (State.recordWanted_iff.1 h).1) (State.recordWanted_iff.1 h).2
      exact State.showRecord_of_unwanted (State.recordBad_eq_none.2 hrun) hunwanted
    have hexists := State.recordBad_eq_none.2 hrun
    have hwanted : s.recordWanted k = true := State.recordWanted_iff.2 ⟨hvisible, hdrawn⟩
    have hskipped := (State.showRecord_of_wanted hexists hwanted).1
    refine ⟨fun hnone => hskipped (State.recordFrame_of_unframed hnone), fun hcur hframes => ?_⟩
    have hframed : ¬ s.unframed k := not_or.2 ⟨Nat.not_le.2 hcur, hframes⟩
    refine ⟨fun fa hbad => State.showRecord_of_frameBad hexists hwanted (State.recordFrame_of_slotBad hframed hbad), fun hslot =>
      ⟨fun hnull => hskipped (State.recordFrame_of_null hframed hslot hnull), fun hptr fa hbad =>
        State.showRecord_of_frameBad hexists hwanted (State.recordFrame_of_headerBad hframed hslot hptr hbad),
        fun hptr hhdr => ?_⟩⟩
    have hshow : t = s.drawRecord k frame :=
      (State.showRecord_of_wanted hexists hwanted).2 _ (State.recordFrame_of_readable hframed hslot hptr hhdr)
    exact ⟨fun fa hbad => hshow.trans (State.drawRecord_of_bad (d := d) rfl (State.spriteBad_of_buffer hbad)),
      fun hbuffer fa hbad => hshow.trans (State.drawRecord_of_bad (d := d) rfl (State.spriteBad_of_source hbuffer hbad)),
      fun hall => State.drawn_recordMem
        (hshow.trans (State.drawRecord_of_readable (d := d) rfl (State.spriteBad_of_readable hall)))⟩
  · have haddr : (s.showRecord k).recordAddr k = s.recordAddr k := recordAddr_of_fixed (fixed_showRecord s k) k
    refine ⟨decide_eq_true_iff, rfl, rfl, rfl, fun hk => ⟨_, ?_, State.microStep_showRecords hk seen⟩,
      fun hk => State.microStep_showRecords_end hk seen, rfl⟩
    rw [Bool.or_eq_true, State.recordShown_iff, haddr]
  · intro d r ends t
    have hshow (h : s.cursor.en = true) (h0 : s.cursor.bmp ≠ 0#32) : t = s.drawCursor.showEnd seen :=
      State.showFinish_of_wanted (State.cursorWanted_iff.2 ⟨h, h0⟩) seen
    refine ⟨rfl, fun hskip => ?_, fun h h0 => ⟨fun fa hbad => ?_, fun hhdr => ⟨fun fa hbad => ?_, fun hbuffer fa hbad => ?_,
      fun hall => ?_⟩⟩⟩
    · refine State.showFinish_of_unwanted (fun hwanted => ?_) seen
      obtain ⟨h, h0⟩ := State.cursorWanted_iff.1 hwanted
      exact hskip.elim (ne_true_of_eq_false · h) h0
    · rw [hshow h h0, State.drawCursor_of_headerBad hbad]
      rfl
    · rw [hshow h h0, State.drawCursor_of_bad (d := d) hhdr rfl (State.spriteBad_of_buffer hbad)]
      rfl
    · rw [hshow h h0, State.drawCursor_of_bad (d := d) hhdr rfl (State.spriteBad_of_source hbuffer hbad)]
      rfl
    · rw [hshow h h0, State.drawCursor_of_readable (d := d) hhdr rfl (State.spriteBad_of_readable hall)]
      exact ⟨rfl, fun a ha => State.memByte_drawMem_of_not ha s.mem, fun hapart =>
        State.composited_of_drawMem hapart rfl (m := s.mem) (fun _ _ => rfl) fun _ _ => rfl⟩

end Sys2Proof.Machine
end

section
/-!
# Commands that fail (60_exceptions R475)

A command's success flag is cleared by the recording of its error and by nothing else: in particular not by the faults of a
compositing pass that a buffer swap runs (45_sprites R443).
-/

namespace Sys2Proof.Machine

/-- A command that records no error leaves the executor, and with it the success flag, alone. -/
theorem CommandEffect.raised_or_exe {s t : State} (h : CommandEffect s t) :
    (∃ op fa, t = s.raiseCmd op .busExe fa) ∨ t.exe = s.exe := by
  cases h with
  | fail op fa => exact .inl ⟨op, fa, rfl⟩
  | same | store | storeMove | paint | refresh => exact .inr rfl
  | rotate e m => exact .inr (exe_of_fixed (fixed_rotateRows s e m) :)
  | swap => exact .inr (exe_of_fixed (fixed_swapped s) :)

/-- An entry whose execution fails does one thing: it records its error (41_queue R268). -/
theorem State.executeEntry_of_failed {s t : State} {e : Entry} (h : s.executeEntry e = .next t) (hok : t.exe.ok = false) :
    ∃ op code fa, t = (s.setExe { s.exe with ok := true }).raiseCmd op code fa := by
  obtain ⟨op, code, ht⟩ | heffect := State.executeEntry_cases h
  · exact ⟨op, code, 0, ht⟩
  · obtain ⟨op, fa, ht⟩ | hexe := heffect.raised_or_exe
    · exact ⟨op, .busExe, fa, ht⟩
    · rw [hexe] at hok
      cases hok

/-- Settles O10: a failed entry has recorded its error, on the state it began in but for the success flag, and nothing else. -/
theorem failedCommandsArePrecise : Obligations.FailedCommandsArePrecise := by
  intro s t e h hok
  obtain ⟨op, code, fa, rfl⟩ := State.executeEntry_of_failed h hok
  exact ⟨rfl, rfl⟩

end Sys2Proof.Machine
end

section
/-!
# The reset action (70_reset R510, R511)

The reset action copies the reset state, but for what it leaves alone. The held `WAIT` read, which returns 0, is the one part of
it that depends on what HOST is doing.
-/

namespace Sys2Proof.Machine

/-- HOST is held on a `WAIT` read (41_queue R279) exactly when `WAIT` is the request it is held on. -/
theorem Held.isWait_iff {h : Held} : h.isWait = true ↔ h = .wait := by
  cases h with
  | wait => exact iff_of_true rfl rfl
  | free | fullPush | syncPush | hostOp => exact iff_of_false Bool.false_ne_true nofun

/-- Settles O27: the model's test for a held `WAIT` read is the statement's, and every other field is copied. -/
theorem resetAction : Obligations.ResetAction := by
  intro s
  simp only [State.doReset, Held.isWait_iff]

end Sys2Proof.Machine
end
